-- ==== Sys2Proof/Word.lean ====
section
/-! DEFINITION. The word types of the V12 and its closed name sets that both the commands and the state use:
bytes, 16-, 32- and 64-bit words, the completion status codes of R11, and the index types of cores, stacks,
ports, engines, partitions and queues. -/
namespace Sys2Proof

abbrev Byte := BitVec 8
abbrev Half := BitVec 16
abbrev Word32 := BitVec 32
abbrev Word := BitVec 64

/-- Logical core number, 0 to 127 (R16); a part may enable fewer (DEVICE_ID.LOGICAL_CORES). -/
abbrev CoreId := Fin 128
/-- HBM stack 0 to 11 (R282). -/
abbrev StackId := Fin 12
/-- Physical Crosshatch port 0 to 35 (R348). -/
abbrev PortId := Fin 36
/-- Intaglio engine 0 to 7 (R402). -/
abbrev EngineId := Fin 8
/-- Partition 0 to 7 (R460). -/
abbrev PartId := Fin 8
/-- Completion ring 0 to 15 (R453). -/
abbrev RingId := Fin 16

/-- The completion status codes of the table "Completion status codes" (R11), and the two firmware codes
ROLLBACK (0x80) and REVOKED (0x81) of R519. -/
inductive Status where
  | ok | dataEcc | integrity | timeout | lowerTier | collMismatch | staleTable | fenced
  | thermal | allocFault | decode | epoch | notReady | miswired | overrun
  | rollback | revoked
  deriving DecidableEq, Repr

/-- The three command queues of a core (R65); codes 1, 2, 3 (R68). -/
inductive QueueId where
  | bq | hq | sq
  deriving DecidableEq, Repr

/-- A 48- or 64-bit quantity carried as two paired words, low word first (R27, R121). -/
structure PW2 where
  lo : Word
  hi : Word
  deriving DecidableEq, Repr

end Sys2Proof
end

