-- ==== Sys2Proof/Syntax.lean ====
section
/-! DEFINITION. The commands that reach the V12: one constructor of `Instr` per row of the opcode table, and the
operand types they carry. A Stylus instruction is a command of its core and carries every field of its 64-bit word
(R250, R251), reserved bits too; an event carries what its sender or the physical world supplies. Times are group
times in core cycles. -/
namespace Sys2Proof

/-- Bits [55:51] of every instruction word (R250). -/
structure Pre where
  guard : BitVec 3 := 0
  ginv : Bool := false
  span : Bool := false
  deriving DecidableEq, Repr

/-- Format R (R251). -/
structure FmtR where
  pre : Pre := {}
  rd : BitVec 5 := 0
  ra : BitVec 5 := 0
  rb : BitVec 5 := 0
  cc : BitVec 4 := 0
  rsv : BitVec 32 := 0
  deriving DecidableEq, Repr

/-- Format I (R251). -/
structure FmtI where
  pre : Pre := {}
  rd : BitVec 5 := 0
  ra : BitVec 5 := 0
  cc : BitVec 4 := 0
  rsv : BitVec 5 := 0
  imm : BitVec 32 := 0
  deriving DecidableEq, Repr

/-- Format M (R251). -/
structure FmtM where
  pre : Pre := {}
  rd : BitVec 5 := 0
  ab : BitVec 4 := 0
  size : BitVec 2 := 0
  rsv : BitVec 8 := 0
  off : BitVec 32 := 0
  deriving DecidableEq, Repr

/-- Format B (R251). -/
structure FmtB where
  pre : Pre := {}
  ra : BitVec 5 := 0
  rsv : BitVec 14 := 0
  off : BitVec 32 := 0
  deriving DecidableEq, Repr

/-- Format C (R251, R265). -/
structure FmtC where
  pre : Pre := {}
  t0 : BitVec 4 := 0
  t1 : BitVec 4 := 0
  t2 : BitVec 4 := 0
  t3 : BitVec 4 := 0
  t4 : BitVec 4 := 0
  tden : BitVec 5 := 0
  ab : BitVec 4 := 0
  rsv : BitVec 22 := 0
  deriving DecidableEq, Repr

/-- Format K (R251, R276). -/
structure FmtK where
  pre : Pre := {}
  tk : BitVec 4 := 0
  tv : BitVec 4 := 0
  ae : BitVec 4 := 0
  af : BitVec 4 := 0
  rsl : BitVec 5 := 0
  rfs : BitVec 5 := 0
  halves : BitVec 2 := 0
  ctr : BitVec 5 := 0
  rsv : BitVec 18 := 0
  deriving DecidableEq, Repr

/-- Format S (R251). -/
structure FmtS where
  pre : Pre := {}
  rs : BitVec 5 := 0
  pd : BitVec 3 := 0
  q : BitVec 2 := 0
  ctr : BitVec 5 := 0
  tbl : BitVec 4 := 0
  imm : BitVec 32 := 0
  deriving DecidableEq, Repr

/-- A tick report (R31, R37, R121, R477, R532). `hold` says that a stack of the subtree is in band 0b10 (R294);
`abort p` carries the status of a partition's fault; `thermal` is the abort mark of R295. -/
structure Report where
  tick : PW2
  edge : PW2
  done : Bool := false
  late : Bool := false
  stretch : Bool := false
  hold : Bool := false
  thermal : Bool := false
  epochUp : Bool := false
  vf : List PW2 := []
  va : List PW2 := []
  abort : List (Option Status) := []
  proof : Option PW2 := none
  deriving DecidableEq, Repr

/-- What the master decides for a partition's step in progress (R122). -/
inductive Decision where
  | goOn | replay | wide | failedStep
  deriving DecidableEq, Repr

/-- The master's verdict for a tick (R32, R34, R38, R48, R122, R126, R477, R483, R532). `grant` is the step change
granted; `release p` is RETRY (true) or SKIP (false). -/
structure VerdictMsg where
  tick : PW2
  edge : PW2
  vf : List PW2 := []
  va : List PW2 := []
  decide : List Decision := []
  grant : Int := 0
  stop : Option Status := none
  partStop : List (Option Status) := []
  release : List (Option Bool) := []
  epoch : Half := 0
  proof : Option PW2 := none
  deriving DecidableEq, Repr

/-- Who makes a window, register or RDMA-like access (R24, R86). -/
inductive Agent where
  | stylus (c : CoreId) | otherCore (c : CoreId) | fabric | rdma | media (e : EngineId) | folio | host
  deriving DecidableEq, Repr

/-- A window request of another agent (R24): a read of `len` bytes, or a write of `data` when it is given. -/
structure Access where
  agent : Agent
  addr : Nat
  len : Nat
  data : Option (List Byte) := none
  deriving DecidableEq, Repr

/-- One symbol of a 72-symbol codeword in error: its degree (71 down to 0, R286) and the error value. -/
structure SymbolError where
  degree : Fin 72
  value : Byte
  deriving DecidableEq, Repr

/-- A lane of a pseudo-channel: half (true for upper) and number within the half, 0 to 17 (R292, R298). -/
structure LaneRef where
  pc : Fin 32
  upper : Bool
  lane : Fin 18
  deriving DecidableEq, Repr

/-- A row of a stack (R285, R298). -/
structure RowRef where
  pc : Fin 32
  sid : BitVec 2
  bankGroup : BitVec 2
  bank : BitVec 2
  row : BitVec 15
  deriving DecidableEq, Repr

/-- What the stack reports at the end of a mailbox command (R298, R299): whether a spare was left, whether the repair
or test succeeded, the command's data, and the rows that MBIST found failing. -/
structure MailboxReport where
  spareLeft : Bool := true
  succeeded : Bool := true
  data : Half := 0
  failing : List RowRef := []
  deriving DecidableEq, Repr

/-- How a folio transfer ends for the requester (R314): the home's answer to a promotion with its payload, or to a
write-back, or the failure status of the transfer. -/
inductive FolioAnswer where
  | payload (format : Word32) (size : Nat) (data : List Byte)
  | done
  | failed (st : Status)
  deriving DecidableEq, Repr

/-- A write-back that reaches the home (R316). `failAt` is the status of a step that fails. -/
structure WriteBackMsg where
  chip : Half
  slot : Nat
  keep : Bool := false
  format : Word32 := 0
  data : List Byte
  failAt : Option Status := none
  deriving DecidableEq, Repr

/-- What a promotion asks of the home (R314, R317): its start, its end, a refresh of AGE for a folio that the requester
holds already, or whether the home has the slot of a PROMOTE with NEW. -/
inductive PromoteKind where
  | start | ending | refresh | probe
  deriving DecidableEq, Repr

/-- A promotion that reaches the home (R317). `readable`: the NAND read of a spilled folio succeeds (R320). -/
structure PromoteMsg where
  chip : Half
  slot : Nat
  kind : PromoteKind := .start
  readable : Bool := true
  deriving DecidableEq, Repr

/-- A collective grant (R387): group index, the sender's chip, core, GROUP_ID, SEQ, step and piece index, epoch; `src`:
which contributor of the sender's step is granted (0 PREV, 1 NEXT, 2 parent, 3 child, as in R389). -/
structure GrantMsg where
  chip : Half
  core : CoreId
  group : Fin 256
  gid : Word32
  seq : Word32
  step : Half
  piece : Half
  epoch : Half
  src : Nat := 0
  deriving DecidableEq, Repr

/-- A collective abort (R393). -/
structure AbortMsg where
  group : Fin 256
  seq : Word32
  status : Status
  origin : BitVec 12
  epoch : Half
  deriving DecidableEq, Repr

/-- A QCP request whose MAGIC, CHECK and LENGTH are right (R441): source address and port, the header's fields and the
body. -/
structure QcpReq where
  src : Word := 0
  version : Byte := 2
  flags : Byte := 0
  tag : Word32 := 0
  epoch : Half := 0
  status : Byte := 0
  rsv13 : Byte := 0
  retryAfter : Half := 0
  rsv16 : BitVec 48 := 0
  body : List Byte := []
  deriving DecidableEq, Repr

/-- An RDMA operation on a queue pair of a port (R437): R_Key, virtual address, and the ECN mark (R434) with the time in
core cycles. -/
structure RdmaReq where
  port : Fin 2
  qp : Fin 64
  rkey : Word32
  va : Word
  ecn : Bool := false
  now : Nat := 0
  deriving DecidableEq, Repr

/-- The liveness of the domains whose check asks for something the rest of the state does not show (R480): Easel's main
loop, the die routers, a stroke or a training advance at a port, progress of a media engine, a refresh of a stack, and
clusters a core of which has started a frame since the last check. -/
structure LivenessFacts where
  easel : Bool := true
  dies : BitVec 8 := 255
  ports : BitVec 36 := -1
  engines : BitVec 8 := 255
  hbmStacks : BitVec 12 := -1
  deriving DecidableEq, Repr

/-- What exceeds the hard thermal limit (R505). -/
inductive ThermSource where
  | die (d : Fin 13)
  | stack (s : StackId)
  deriving DecidableEq, Repr

/-- The commands, one constructor per row of spec/opcode_table.json. -/
inductive Instr where
  /-- TICK_EDGE (R32). -/
  | tickEdge
  /-- OVERRUN (R33). -/
  | overrun (now : Nat)
  /-- TICK_REPORT (R31). -/
  | tickReport (child : Half) (r : Report) (now : Nat)
  /-- VERDICT (R32). -/
  | verdict (v : VerdictMsg) (now : Nat)
  /-- TICK_LOST (R36). -/
  | tickLost (now : Nat)
  /-- ALIGNMENT_MESSAGE (R43). -/
  | alignmentMessage (masterTime : Nat) (pathDelay : Nat) (now : Nat)
  /-- TICK_START (R48). -/
  | tickStart
  /-- TICK_STOP (R48). -/
  | tickStop
  /-- STRETCH_REQ (R37). -/
  | stretchReq
  /-- REGISTER_WRITE (R8). -/
  | registerWrite (off : Nat) (v : Word)
  /-- NOP (R258). -/
  | nop (c : CoreId) (f : FmtR)
  /-- ADD (R258). -/
  | add (c : CoreId) (f : FmtR)
  /-- SUB (R258). -/
  | sub (c : CoreId) (f : FmtR)
  /-- MUL (R258). -/
  | mul (c : CoreId) (f : FmtR)
  /-- MULHU (R258). -/
  | mulhu (c : CoreId) (f : FmtR)
  /-- MULH (R258). -/
  | mulh (c : CoreId) (f : FmtR)
  /-- DIVU (R259). -/
  | divu (c : CoreId) (f : FmtR)
  /-- DIV (R259). -/
  | div (c : CoreId) (f : FmtR)
  /-- REMU (R259). -/
  | remu (c : CoreId) (f : FmtR)
  /-- REM (R259). -/
  | rem (c : CoreId) (f : FmtR)
  /-- AND (R258). -/
  | and (c : CoreId) (f : FmtR)
  /-- OR (R258). -/
  | or (c : CoreId) (f : FmtR)
  /-- XOR (R258). -/
  | xor (c : CoreId) (f : FmtR)
  /-- SHL (R258). -/
  | shl (c : CoreId) (f : FmtR)
  /-- SHR (R258). -/
  | shr (c : CoreId) (f : FmtR)
  /-- SRA (R258). -/
  | sra (c : CoreId) (f : FmtR)
  /-- MIN (R258). -/
  | min (c : CoreId) (f : FmtR)
  /-- MAX (R258). -/
  | max (c : CoreId) (f : FmtR)
  /-- MINU (R258). -/
  | minu (c : CoreId) (f : FmtR)
  /-- MAXU (R258). -/
  | maxu (c : CoreId) (f : FmtR)
  /-- ADDI (R258). -/
  | addi (c : CoreId) (f : FmtI)
  /-- ANDI (R258). -/
  | andi (c : CoreId) (f : FmtI)
  /-- ORI (R258). -/
  | ori (c : CoreId) (f : FmtI)
  /-- XORI (R258). -/
  | xori (c : CoreId) (f : FmtI)
  /-- SHLI (R258). -/
  | shli (c : CoreId) (f : FmtI)
  /-- SHRI (R258). -/
  | shri (c : CoreId) (f : FmtI)
  /-- SRAI (R258). -/
  | srai (c : CoreId) (f : FmtI)
  /-- MOVI (R258). -/
  | movi (c : CoreId) (f : FmtI)
  /-- MOVHI (R258). -/
  | movhi (c : CoreId) (f : FmtI)
  /-- MOV_A (R258). -/
  | movA (c : CoreId) (f : FmtR)
  /-- MOV_S (R258). -/
  | movS (c : CoreId) (f : FmtR)
  /-- ADD_A (R258). -/
  | addA (c : CoreId) (f : FmtR)
  /-- ADDI_A (R258). -/
  | addiA (c : CoreId) (f : FmtI)
  /-- CMP (R260). -/
  | cmp (c : CoreId) (f : FmtR)
  /-- CMPI (R260). -/
  | cmpi (c : CoreId) (f : FmtI)
  /-- P_AND (R258). -/
  | pAnd (c : CoreId) (f : FmtR)
  /-- P_OR (R258). -/
  | pOr (c : CoreId) (f : FmtR)
  /-- P_XOR (R258). -/
  | pXor (c : CoreId) (f : FmtR)
  /-- P_NOT (R258). -/
  | pNot (c : CoreId) (f : FmtR)
  /-- LD (R261). -/
  | ld (c : CoreId) (f : FmtM)
  /-- LDS (R261). -/
  | lds (c : CoreId) (f : FmtM)
  /-- ST (R261). -/
  | st (c : CoreId) (f : FmtM)
  /-- LD_P (R261). -/
  | ldP (c : CoreId) (f : FmtM)
  /-- ST_P (R261). -/
  | stP (c : CoreId) (f : FmtM)
  /-- TD_LD (R262). -/
  | tdLd (c : CoreId) (f : FmtM)
  /-- TD_ST (R262). -/
  | tdSt (c : CoreId) (f : FmtM)
  /-- TD_WR (R258). -/
  | tdWr (c : CoreId) (f : FmtI)
  /-- TD_WRP (R258). -/
  | tdWrp (c : CoreId) (f : FmtI)
  /-- BR (R263). -/
  | br (c : CoreId) (f : FmtB)
  /-- LOOP (R263). -/
  | loop (c : CoreId) (f : FmtB)
  /-- JR (R263). -/
  | jr (c : CoreId) (f : FmtB)
  /-- BURIN_MM (R136). -/
  | burinMm (c : CoreId) (f : FmtC)
  /-- CONV3 (R230). -/
  | conv3 (c : CoreId) (f : FmtC)
  /-- HATCH_RUN (R166). -/
  | hatchRun (c : CoreId) (f : FmtC)
  /-- STENCIL_RUN (R235). -/
  | stencilRun (c : CoreId) (f : FmtC)
  /-- ATTN (R206). -/
  | attn (c : CoreId) (f : FmtC)
  /-- STRM_COPY (R270). -/
  | strmCopy (c : CoreId) (f : FmtC)
  /-- STRM_FLASH (R272). -/
  | strmFlash (c : CoreId) (f : FmtC)
  /-- STRM_FADD (R273). -/
  | strmFadd (c : CoreId) (f : FmtC)
  /-- KV_PAGE (R218). -/
  | kvPage (c : CoreId) (f : FmtK)
  /-- FOLIO_PROMOTE (R314). -/
  | folioPromote (c : CoreId) (f : FmtC)
  /-- FOLIO_EVICT (R314). -/
  | folioEvict (c : CoreId) (f : FmtC)
  /-- FOLIO_FLUSH (R314). -/
  | folioFlush (c : CoreId) (f : FmtC)
  /-- ETCH_BUILD (R339). -/
  | etchBuild (c : CoreId) (f : FmtC)
  /-- XH_STEP (R383). -/
  | xhStep (c : CoreId) (f : FmtC)
  /-- XH_TREE (R383). -/
  | xhTree (c : CoreId) (f : FmtC)
  /-- XH_STEP_ARR (R388). -/
  | xhStepArr (c : CoreId) (f : FmtC)
  /-- XH_TREE_ARR (R388). -/
  | xhTreeArr (c : CoreId) (f : FmtC)
  /-- HOST_POST (R456). -/
  | hostPost (c : CoreId) (f : FmtC)
  /-- COMMAND_START (R147). -/
  | commandStart (c : CoreId) (q : QueueId)
  /-- PIECE_DELIVERY (R87). -/
  | pieceDelivery (c : CoreId)
  /-- COMMAND_END (R68). -/
  | commandEnd (c : CoreId) (q : QueueId) (now : Nat)
  /-- CMD_WAIT (R69). -/
  | cmdWait (c : CoreId) (f : FmtS)
  /-- CMD_SEQ (R277). -/
  | cmdSeq (c : CoreId) (f : FmtS)
  /-- TOK_WAIT (R88). -/
  | tokWait (c : CoreId) (f : FmtS)
  /-- TOK_SET (R89). -/
  | tokSet (c : CoreId) (f : FmtS)
  /-- TICK_WAIT (R63). -/
  | tickWait (c : CoreId) (f : FmtS) (now : Nat)
  /-- FENCE_L (R84). -/
  | fenceL (c : CoreId) (f : FmtS)
  /-- FENCE_D (R84). -/
  | fenceD (c : CoreId) (f : FmtS)
  /-- FENCE_G (R84). -/
  | fenceG (c : CoreId) (f : FmtS)
  /-- TBL_SWAP (R195). -/
  | tblSwap (c : CoreId) (f : FmtS)
  /-- PROOF_MARK (R279). -/
  | proofMark (c : CoreId) (f : FmtS) (now : Nat)
  /-- WINDOW_ACCESS (R24). -/
  | windowAccess (a : Access)
  /-- WATCH_CTRL_RETRY (R126). -/
  | watchCtrlRetry (p : PartId)
  /-- WATCH_CTRL_SKIP (R126). -/
  | watchCtrlSkip (p : PartId)
  /-- HBM_READ (R288). -/
  | hbmRead (off : Nat) (len : Nat) (err : List SymbolError)
  /-- HBM_WRITE (R289). -/
  | hbmWrite (off : Nat) (data : List Byte) (err : List SymbolError)
  /-- PATROL_SCRUB (R290). -/
  | patrolScrub (st : StackId) (pc : Fin 32) (err : List SymbolError)
  /-- HBM_TRAINING (R292). -/
  | hbmTraining (st : StackId) (failing : List LaneRef)
  /-- STACK_TEMP_SAMPLE (R294). -/
  | stackTempSample (st : StackId) (celsius : Byte)
  /-- MAINT (R297). -/
  | maint (st : StackId) (on : Bool)
  /-- RESOURCES (R298). -/
  | resources (st : StackId)
  /-- SOFT_PPR (R298). -/
  | softPpr (st : StackId)
  /-- HARD_PPR (R298). -/
  | hardPpr (st : StackId)
  /-- SOFT_LANE (R298). -/
  | softLane (st : StackId)
  /-- HARD_LANE (R298). -/
  | hardLane (st : StackId)
  /-- MBIST (R299). -/
  | mbist (st : StackId)
  /-- TEST_MODE (R298). -/
  | testMode (st : StackId)
  /-- MAILBOX_COMMAND_END (R298). -/
  | mailboxCommandEnd (st : StackId) (rep : MailboxReport)
  /-- POOL_START (R319). -/
  | poolStart
  /-- POOL_CLEAR (R319). -/
  | poolClear
  /-- POOL_STOP (R306). -/
  | poolStop
  /-- POOL_STOP_DRAINED (R306). -/
  | poolStopDrained
  /-- FOLIO_TRANSFER_END (R314). -/
  | folioTransferEnd (h : Nat) (answer : FolioAnswer)
  /-- WRITE_BACK (R316). -/
  | writeBack (m : WriteBackMsg)
  /-- PROMOTION (R317). -/
  | promotion (m : PromoteMsg)
  /-- SPILL (R318). -/
  | spill
  /-- SPILL_END (R318). -/
  | spillEnd (slot : Nat) (programmed : Bool)
  /-- FOLIO_TIMEOUT (R320). -/
  | folioTimeout (c : CoreId)
  /-- FLASH_READ (R320). -/
  | flashRead (off : Nat) (len : Nat) (readable : Bool)
  /-- FLASH_WRITE (R325). -/
  | flashWrite (off : Nat) (data : List Byte) (programmed : Bool)
  /-- JOURNAL_COMMIT (R325). -/
  | journalCommit
  /-- FTL_START (R325). -/
  | ftlStart (badCrc : Option Nat)
  /-- STROKE_FORWARD (R362). -/
  | strokeForward (p : PortId) (stroke : List Byte)
  /-- PACKET_RECEIVE (R356). -/
  | packetReceive (p : PortId) (strokes : List (List Byte))
  /-- REQUEST_TIMEOUT (R357, R361); whether a chip of the path discarded the packet for want of a port. -/
  | requestTimeout (tag : BitVec 24) (discarded : Bool)
  /-- XH_START (R376). -/
  | xhStart
  /-- XH_STOP (R376). -/
  | xhStop
  /-- XH_STOP_DRAINED (R376). -/
  | xhStopDrained
  /-- RETRAIN_ALL (R375). -/
  | retrainAll
  /-- RETRAIN (R375). -/
  | retrain (p : PortId)
  /-- TRAINING_SLOT (R369). -/
  | trainingSlot (p : PortId)
  /-- EQUALISE (R368). -/
  | equalise (p : PortId) (passed : Bool)
  /-- ERROR_TEST (R368). -/
  | errorTest (p : PortId) (bitErrors : List Nat)
  /-- IDENTITY_STROKE (R371). -/
  | identityStroke (p : PortId) (body : List Byte)
  /-- DELAY_MEASUREMENT (R374). -/
  | delayMeasurement (p : PortId) (roundTrips : List Nat) (turnaround : Nat)
  /-- BACK_OFF (R369). -/
  | backOff (p : PortId)
  /-- LOSS_OF_SIGNAL (R375). -/
  | lossOfSignal (p : PortId)
  /-- GRANT (R387). -/
  | grant (g : GrantMsg)
  /-- ABORT (R393). -/
  | abort (a : AbortMsg)
  /-- COLLECTIVE_WAIT_LIMIT (R394). -/
  | collectiveWaitLimit (c : CoreId)
  /-- XH_COLL_START (R400). -/
  | xhCollStart
  /-- XH_COLL_STOP (R400). -/
  | xhCollStop
  /-- XH_COLL_STOP_DRAINED (R400). -/
  | xhCollStopDrained
  /-- JOB_RING_POLL (R408). -/
  | jobRingPoll (e : EngineId)
  /-- DECODE_JOB (R414): the engine serves job n at group time `now`. -/
  | decodeJob (e : EngineId) (n : Nat) (now : Nat)
  /-- ENCODE_JOB (R417): the engine serves job n at group time `now`. -/
  | encodeJob (e : EngineId) (n : Nat) (now : Nat)
  /-- FLUSH_JOB (R414). -/
  | flushJob (e : EngineId) (n : Nat)
  /-- OPEN_JOB (R413). -/
  | openJob (e : EngineId) (n : Nat)
  /-- RECONFIGURE_JOB (R413). -/
  | reconfigureJob (e : EngineId) (n : Nat)
  /-- CLOSE_JOB (R413). -/
  | closeJob (e : EngineId) (n : Nat)
  /-- MEDIA_JOB_END (R412). -/
  | mediaJobEnd (e : EngineId) (n : Nat)
  /-- MEDIA_START (R430). -/
  | mediaStart (e : EngineId)
  /-- MEDIA_STOP (R430). -/
  | mediaStop (e : EngineId)
  /-- MEDIA_STOP_DRAINED (R430). -/
  | mediaStopDrained (e : EngineId)
  /-- HELLO (R446). -/
  | hello (r : QcpReq)
  /-- STATUS (R443). -/
  | status (r : QcpReq)
  /-- REG_READ (R443). -/
  | regRead (r : QcpReq)
  /-- REG_WRITE (R443). -/
  | regWrite (r : QcpReq)
  /-- QP_CONNECT (R436). -/
  | qpConnect (r : QcpReq)
  /-- QP_DESTROY (R436). -/
  | qpDestroy (r : QcpReq)
  /-- WINDOW_SET (R437). -/
  | windowSet (r : QcpReq)
  /-- RING_SET (R453). -/
  | ringSet (r : QcpReq)
  /-- PROGRAM_LOAD (R448). -/
  | programLoad (r : QcpReq)
  /-- CTX_START (R448). -/
  | ctxStart (r : QcpReq)
  /-- CTX_STOP_ABORT (R450). -/
  | ctxStopAbort (r : QcpReq)
  /-- CTX_STOP_SAVE (R450). -/
  | ctxStopSave (r : QcpReq)
  /-- CONTEXT_SAVE_END (R467). -/
  | contextSaveEnd (p : PartId)
  /-- PROOF_TRIGGER (R531). -/
  | proofTrigger (r : QcpReq)
  /-- RESET (R483). -/
  | reset (r : QcpReq)
  /-- RESET_DEVICE (R485). -/
  | resetDevice (r : QcpReq)
  /-- RDMA_WRITE (R438). -/
  | rdmaWrite (m : RdmaReq) (data : List Byte)
  /-- RDMA_READ (R437). -/
  | rdmaRead (m : RdmaReq) (len : Nat)
  /-- SEND (R439). -/
  | send (port : Fin 2) (qp : Fin 64) (data : List Byte) (ecn : Bool) (now : Nat)
  /-- RDMA_WRITE_ACK (R456). -/
  | rdmaWriteAck (r : RingId) (seq : Nat)
  /-- CONGESTION_NOTIFICATION (R434). -/
  | congestionNotification (port : Fin 2) (qp : Fin 64)
  /-- RATE_RECOVERY (R434). -/
  | rateRecovery (port : Fin 2) (qp : Fin 64)
  /-- QP_RETRY_EXHAUSTED (R436). -/
  | qpRetryExhausted (port : Fin 2) (qp : Fin 64)
  /-- RECORD_WRITE (R453). -/
  | recordWrite (r : RingId)
  /-- ARP (R433). -/
  | arp (port : Fin 2) (target : Word32) (sender : Word)
  /-- NEIGHBOUR_DISCOVERY (R433). -/
  | neighbourDiscovery (port : Fin 2) (target : BitVec 128) (sender : BitVec 128)
  /-- ICMP_ECHO (R433). -/
  | icmpEcho (port : Fin 2) (v6 : Bool) (dest : BitVec 128) (payload : List Byte)
  /-- ETHERNET_FRAME (R433). -/
  | ethernetFrame (port : Fin 2)
  /-- ETH_LINK_CHANGE (R432). -/
  | ethLinkChange (port : Fin 2) (up : Bool)
  /-- HEARTBEAT_CHECK (R481). -/
  | heartbeatCheck (alive : LivenessFacts)
  /-- HB_BEAT (R481). -/
  | hbBeat (dom : BitVec 7) (firmware : Bool)
  /-- RECOVERY_DRAIN_END (R483). -/
  | recoveryDrainEnd
  /-- DOMAIN_RESET_DONE (R483). -/
  | domainResetDone
  /-- CLEAR_SUSPECTS (R486). -/
  | clearSuspects
  /-- PWR_DOMAIN (R495). -/
  | pwrDomain (v : Word)
  /-- POWER_DOMAIN_RAISED (R495). -/
  | powerDomainRaised (dom : Fin 30)
  /-- POWER_CAP_CHECK (R499). -/
  | powerCapCheck (lastTick : Half)
  /-- DROOP_RESPONSE (R501). -/
  | droopResponse
  /-- DIE_TEMP_SAMPLE (R503). -/
  | dieTempSample (die : Fin 13) (celsius : Byte)
  /-- THERMTRIP_N (R505). -/
  | thermtripN (src : ThermSource) (celsius : Byte)
  /-- POWER_GOOD_LOSS (R498). -/
  | powerGoodLoss (ns : Nat)
  /-- COLD_RESET_N (R549). -/
  | coldResetN (ns : Nat)
  /-- WARM_RESET_N (R549). -/
  | warmResetN (ns : Nat)
  /-- REFCLK_LOSS (R548). -/
  | refclkLoss (ns : Nat)
  /-- POWER_ON (R508). -/
  | powerOn
  /-- BOOT_ROM (R516). -/
  | bootRom
  /-- CONFIG_APPLY (R514). -/
  | configApply
  /-- FABRIC_TRAINING_PERMITTED (R509). -/
  | fabricTrainingPermitted
  /-- QCP_READY (R445). -/
  | qcpReady
  /-- FW_UPDATE (R520). -/
  | fwUpdate
  /-- SVN_COMMIT (R521). -/
  | svnCommit
  /-- DEBUG_UNLOCK (R522). -/
  | debugUnlock
  /-- ATTEST (R523). -/
  | attest
  /-- MEMBER_WRAP (R524). -/
  | memberWrap
  /-- CFG_WRITE (R519). -/
  | cfgWrite
  /-- CERT_READ (R518). -/
  | certRead
  /-- SECURITY_COMMAND_END (R518). -/
  | securityCommandEnd
  /-- ARM (R530). -/
  | arm
  /-- TRACE_ENABLE (R534). -/
  | traceEnable
  /-- TRACE_DRAIN (R535). -/
  | traceDrain
  /-- IDCODE (R538). -/
  | idcode
  /-- SAMPLE_PRELOAD (R538). -/
  | samplePreload (preload : Option Word)
  /-- EXTEST (R538). -/
  | extest
  /-- CLAMP (R538). -/
  | clamp
  /-- HIGHZ (R538). -/
  | highz
  /-- BYPASS (R538). -/
  | bypass
  /-- REGACC (R539). -/
  | regacc (dr : BitVec 128)
  /-- I3C_PRIVATE_WRITE (R552). -/
  | i3cPrivateWrite (data : List Byte)
  /-- I3C_PRIVATE_READ (R552). -/
  | i3cPrivateRead
  /-- LATE_REPORT (R31). -/
  | lateReport (now : Nat)
  /-- IDLE_STROKE (R364). -/
  | idleStroke (p : PortId) (stroke : List Byte)
  /-- IMAGE_CHECK_END (R448). -/
  | imageCheckEnd
  /-- DIRECTORY_CHECK_END (R319). -/
  | directoryCheckEnd
  /-- RESET_TIMEOUT (R451). -/
  | resetTimeout
  /-- PRIORITY_FLOW_CONTROL (R434). -/
  | priorityFlowControl (port : Fin 2) (prio : BitVec 3) (pause : Bool)
  /-- MALFORMED_QCP_REQUEST (R442). -/
  | malformedQcpRequest (src : Word) (datagram : List Byte)
  /-- UNSUPPORTED_OPCODE (R435). -/
  | unsupportedOpcode (port : Fin 2) (qp : Fin 64)
  /-- RESERVED_OPCODE (R256). -/
  | reservedOpcode (c : CoreId) (w : Word)
  deriving DecidableEq, Repr

end Sys2Proof
end

