-- ==== Sys2Proof/Decode.lean ====
section
/-! DEFINITION. The Stylus instruction word (R250 to R256): the fields of each format, the instruction that a word spells and
the word of an instruction. No row of the opcode table gives its command bits, so `decodeTableWord` reads none: a Stylus
instruction reaches the block as the command that its word spells (`stylusDecode`). -/
namespace Sys2Proof

/-- The command that a word spells by the table's bits: none, since the table gives no row any bits. -/
def decodeTableWord (_nbits _w : Nat) : Option Instr := none

/-! ## Fields (R250, R251) -/

/-- OPCODE, bits [63:56]. -/
def opcodeOf (w : Word) : Nat := w.toNat / 2 ^ 56

/-- GUARD, GINV and SPAN, bits [55:51]. -/
def preOf (w : Word) : Pre := ⟨w.extractLsb' 53 3, w.getLsbD 52, w.getLsbD 51⟩

/-- The fields of format R. -/
def fmtROf (w : Word) : FmtR :=
  { pre := preOf w, rd := w.extractLsb' 46 5, ra := w.extractLsb' 41 5, rb := w.extractLsb' 36 5,
    cc := w.extractLsb' 32 4, rsv := w.extractLsb' 0 32 }

/-- The fields of format I. -/
def fmtIOf (w : Word) : FmtI :=
  { pre := preOf w, rd := w.extractLsb' 46 5, ra := w.extractLsb' 41 5, cc := w.extractLsb' 37 4,
    rsv := w.extractLsb' 32 5, imm := w.extractLsb' 0 32 }

/-- The fields of format M. -/
def fmtMOf (w : Word) : FmtM :=
  { pre := preOf w, rd := w.extractLsb' 46 5, ab := w.extractLsb' 42 4, size := w.extractLsb' 40 2,
    rsv := w.extractLsb' 32 8, off := w.extractLsb' 0 32 }

/-- The fields of format B. -/
def fmtBOf (w : Word) : FmtB :=
  { pre := preOf w, ra := w.extractLsb' 46 5, rsv := w.extractLsb' 32 14, off := w.extractLsb' 0 32 }

/-- The fields of format C. -/
def fmtCOf (w : Word) : FmtC :=
  { pre := preOf w, t0 := w.extractLsb' 47 4, t1 := w.extractLsb' 43 4, t2 := w.extractLsb' 39 4, t3 := w.extractLsb' 35 4, t4 := w.extractLsb' 31 4,
    tden := w.extractLsb' 26 5, ab := w.extractLsb' 22 4, rsv := w.extractLsb' 0 22 }

/-- The fields of format K. -/
def fmtKOf (w : Word) : FmtK :=
  { pre := preOf w, tk := w.extractLsb' 47 4, tv := w.extractLsb' 43 4, ae := w.extractLsb' 39 4, af := w.extractLsb' 35 4, rsl := w.extractLsb' 30 5,
    rfs := w.extractLsb' 25 5, halves := w.extractLsb' 23 2, ctr := w.extractLsb' 18 5, rsv := w.extractLsb' 0 18 }

/-- The fields of format S. -/
def fmtSOf (w : Word) : FmtS :=
  { pre := preOf w, rs := w.extractLsb' 46 5, pd := w.extractLsb' 43 3, q := w.extractLsb' 41 2, ctr := w.extractLsb' 36 5,
    tbl := w.extractLsb' 32 4, imm := w.extractLsb' 0 32 }

/-! ## Decoding (R255, R256, R258, R266, R277) -/

/-- The command of core c that a word spells, executed at time `now`; a reserved opcode spells RESERVED_OPCODE. -/
def stylusDecode (c : CoreId) (now : Nat) (w : Word) : Instr :=
  match opcodeOf w with
  | 0x01 => .nop c (fmtROf w)
  | 0x02 => .add c (fmtROf w)
  | 0x03 => .sub c (fmtROf w)
  | 0x04 => .mul c (fmtROf w)
  | 0x05 => .mulhu c (fmtROf w)
  | 0x06 => .mulh c (fmtROf w)
  | 0x07 => .divu c (fmtROf w)
  | 0x08 => .div c (fmtROf w)
  | 0x09 => .remu c (fmtROf w)
  | 0x0A => .rem c (fmtROf w)
  | 0x0B => .and c (fmtROf w)
  | 0x0C => .or c (fmtROf w)
  | 0x0D => .xor c (fmtROf w)
  | 0x0E => .shl c (fmtROf w)
  | 0x0F => .shr c (fmtROf w)
  | 0x10 => .sra c (fmtROf w)
  | 0x11 => .min c (fmtROf w)
  | 0x12 => .max c (fmtROf w)
  | 0x13 => .minu c (fmtROf w)
  | 0x14 => .maxu c (fmtROf w)
  | 0x18 => .addi c (fmtIOf w)
  | 0x19 => .andi c (fmtIOf w)
  | 0x1A => .ori c (fmtIOf w)
  | 0x1B => .xori c (fmtIOf w)
  | 0x1C => .shli c (fmtIOf w)
  | 0x1D => .shri c (fmtIOf w)
  | 0x1E => .srai c (fmtIOf w)
  | 0x1F => .movi c (fmtIOf w)
  | 0x20 => .movhi c (fmtIOf w)
  | 0x21 => .movA c (fmtROf w)
  | 0x22 => .movS c (fmtROf w)
  | 0x23 => .addA c (fmtROf w)
  | 0x24 => .addiA c (fmtIOf w)
  | 0x28 => .cmp c (fmtROf w)
  | 0x29 => .cmpi c (fmtIOf w)
  | 0x2A => .pAnd c (fmtROf w)
  | 0x2B => .pOr c (fmtROf w)
  | 0x2C => .pXor c (fmtROf w)
  | 0x2D => .pNot c (fmtROf w)
  | 0x30 => .ld c (fmtMOf w)
  | 0x31 => .lds c (fmtMOf w)
  | 0x32 => .st c (fmtMOf w)
  | 0x33 => .ldP c (fmtMOf w)
  | 0x34 => .stP c (fmtMOf w)
  | 0x35 => .tdLd c (fmtMOf w)
  | 0x36 => .tdSt c (fmtMOf w)
  | 0x37 => .tdWr c (fmtIOf w)
  | 0x38 => .tdWrp c (fmtIOf w)
  | 0x3C => .br c (fmtBOf w)
  | 0x3D => .loop c (fmtBOf w)
  | 0x3E => .jr c (fmtBOf w)
  | 0x40 => .burinMm c (fmtCOf w)
  | 0x41 => .conv3 c (fmtCOf w)
  | 0x44 => .hatchRun c (fmtCOf w)
  | 0x45 => .stencilRun c (fmtCOf w)
  | 0x48 => .attn c (fmtCOf w)
  | 0x4C => .strmCopy c (fmtCOf w)
  | 0x4D => .strmFlash c (fmtCOf w)
  | 0x4E => .strmFadd c (fmtCOf w)
  | 0x4F => .kvPage c (fmtKOf w)
  | 0x50 => .folioPromote c (fmtCOf w)
  | 0x51 => .folioEvict c (fmtCOf w)
  | 0x52 => .folioFlush c (fmtCOf w)
  | 0x54 => .etchBuild c (fmtCOf w)
  | 0x58 => .xhStep c (fmtCOf w)
  | 0x59 => .xhStepArr c (fmtCOf w)
  | 0x5A => .xhTree c (fmtCOf w)
  | 0x5B => .xhTreeArr c (fmtCOf w)
  | 0x5E => .hostPost c (fmtCOf w)
  | 0x60 => .cmdWait c (fmtSOf w)
  | 0x61 => .cmdSeq c (fmtSOf w)
  | 0x62 => .tokWait c (fmtSOf w)
  | 0x63 => .tokSet c (fmtSOf w)
  | 0x64 => .tickWait c (fmtSOf w) now
  | 0x68 => .fenceL c (fmtSOf w)
  | 0x69 => .fenceD c (fmtSOf w)
  | 0x6A => .fenceG c (fmtSOf w)
  | 0x6C => .tblSwap c (fmtSOf w)
  | 0x6E => .proofMark c (fmtSOf w) now
  | _ => .reservedOpcode c w

/-! ## Encoding -/

/-- A field of n bits whose lowest bit is bit lo of the word. -/
def putField {n : Nat} (lo : Nat) (f : BitVec n) : Word := f.setWidth 64 <<< lo

/-- The common fields over those of a format. -/
def wordOf (op : Byte) (p : Pre) (low : Word) : Word :=
  putField 56 op ||| putField 53 p.guard ||| putField 52 (BitVec.ofBool p.ginv) ||| putField 51 (BitVec.ofBool p.span)
    ||| low

def FmtR.word (f : FmtR) (op : Byte) : Word :=
  wordOf op f.pre (putField 46 f.rd ||| putField 41 f.ra ||| putField 36 f.rb
    ||| putField 32 f.cc ||| putField 0 f.rsv)
def FmtI.word (f : FmtI) (op : Byte) : Word :=
  wordOf op f.pre (putField 46 f.rd ||| putField 41 f.ra ||| putField 37 f.cc
    ||| putField 32 f.rsv ||| putField 0 f.imm)
def FmtM.word (f : FmtM) (op : Byte) : Word :=
  wordOf op f.pre (putField 46 f.rd ||| putField 42 f.ab ||| putField 40 f.size
    ||| putField 32 f.rsv ||| putField 0 f.off)
def FmtB.word (f : FmtB) (op : Byte) : Word :=
  wordOf op f.pre (putField 46 f.ra ||| putField 32 f.rsv ||| putField 0 f.off)
def FmtC.word (f : FmtC) (op : Byte) : Word :=
  wordOf op f.pre (putField 47 f.t0 ||| putField 43 f.t1 ||| putField 39 f.t2 ||| putField 35 f.t3 ||| putField 31 f.t4
    ||| putField 26 f.tden ||| putField 22 f.ab ||| putField 0 f.rsv)
def FmtK.word (f : FmtK) (op : Byte) : Word :=
  wordOf op f.pre (putField 47 f.tk ||| putField 43 f.tv ||| putField 39 f.ae ||| putField 35 f.af ||| putField 30 f.rsl
    ||| putField 25 f.rfs ||| putField 23 f.halves ||| putField 18 f.ctr ||| putField 0 f.rsv)
def FmtS.word (f : FmtS) (op : Byte) : Word :=
  wordOf op f.pre (putField 46 f.rs ||| putField 43 f.pd ||| putField 41 f.q ||| putField 36 f.ctr
    ||| putField 32 f.tbl ||| putField 0 f.imm)

/-- The word of a Stylus instruction; none for a command that is no instruction. -/
def stylusEncode : Instr → Option Word
  | .nop _ f => some (f.word 0x01)
  | .add _ f => some (f.word 0x02)
  | .sub _ f => some (f.word 0x03)
  | .mul _ f => some (f.word 0x04)
  | .mulhu _ f => some (f.word 0x05)
  | .mulh _ f => some (f.word 0x06)
  | .divu _ f => some (f.word 0x07)
  | .div _ f => some (f.word 0x08)
  | .remu _ f => some (f.word 0x09)
  | .rem _ f => some (f.word 0x0A)
  | .and _ f => some (f.word 0x0B)
  | .or _ f => some (f.word 0x0C)
  | .xor _ f => some (f.word 0x0D)
  | .shl _ f => some (f.word 0x0E)
  | .shr _ f => some (f.word 0x0F)
  | .sra _ f => some (f.word 0x10)
  | .min _ f => some (f.word 0x11)
  | .max _ f => some (f.word 0x12)
  | .minu _ f => some (f.word 0x13)
  | .maxu _ f => some (f.word 0x14)
  | .addi _ f => some (f.word 0x18)
  | .andi _ f => some (f.word 0x19)
  | .ori _ f => some (f.word 0x1A)
  | .xori _ f => some (f.word 0x1B)
  | .shli _ f => some (f.word 0x1C)
  | .shri _ f => some (f.word 0x1D)
  | .srai _ f => some (f.word 0x1E)
  | .movi _ f => some (f.word 0x1F)
  | .movhi _ f => some (f.word 0x20)
  | .movA _ f => some (f.word 0x21)
  | .movS _ f => some (f.word 0x22)
  | .addA _ f => some (f.word 0x23)
  | .addiA _ f => some (f.word 0x24)
  | .cmp _ f => some (f.word 0x28)
  | .cmpi _ f => some (f.word 0x29)
  | .pAnd _ f => some (f.word 0x2A)
  | .pOr _ f => some (f.word 0x2B)
  | .pXor _ f => some (f.word 0x2C)
  | .pNot _ f => some (f.word 0x2D)
  | .ld _ f => some (f.word 0x30)
  | .lds _ f => some (f.word 0x31)
  | .st _ f => some (f.word 0x32)
  | .ldP _ f => some (f.word 0x33)
  | .stP _ f => some (f.word 0x34)
  | .tdLd _ f => some (f.word 0x35)
  | .tdSt _ f => some (f.word 0x36)
  | .tdWr _ f => some (f.word 0x37)
  | .tdWrp _ f => some (f.word 0x38)
  | .br _ f => some (f.word 0x3C)
  | .loop _ f => some (f.word 0x3D)
  | .jr _ f => some (f.word 0x3E)
  | .burinMm _ f => some (f.word 0x40)
  | .conv3 _ f => some (f.word 0x41)
  | .hatchRun _ f => some (f.word 0x44)
  | .stencilRun _ f => some (f.word 0x45)
  | .attn _ f => some (f.word 0x48)
  | .strmCopy _ f => some (f.word 0x4C)
  | .strmFlash _ f => some (f.word 0x4D)
  | .strmFadd _ f => some (f.word 0x4E)
  | .kvPage _ f => some (f.word 0x4F)
  | .folioPromote _ f => some (f.word 0x50)
  | .folioEvict _ f => some (f.word 0x51)
  | .folioFlush _ f => some (f.word 0x52)
  | .etchBuild _ f => some (f.word 0x54)
  | .xhStep _ f => some (f.word 0x58)
  | .xhStepArr _ f => some (f.word 0x59)
  | .xhTree _ f => some (f.word 0x5A)
  | .xhTreeArr _ f => some (f.word 0x5B)
  | .hostPost _ f => some (f.word 0x5E)
  | .cmdWait _ f => some (f.word 0x60)
  | .cmdSeq _ f => some (f.word 0x61)
  | .tokWait _ f => some (f.word 0x62)
  | .tokSet _ f => some (f.word 0x63)
  | .tickWait _ f _ => some (f.word 0x64)
  | .fenceL _ f => some (f.word 0x68)
  | .fenceD _ f => some (f.word 0x69)
  | .fenceG _ f => some (f.word 0x6A)
  | .tblSwap _ f => some (f.word 0x6C)
  | .proofMark _ f _ => some (f.word 0x6E)
  | .reservedOpcode _ w => some w
  | _ => none

end Sys2Proof
end

