-- ==== Sys2Proof/Machine/Bits.lean ====
section
/-! DEFINITION. Bit fields, byte order (R7), paired words (R10), status codes (R11), CRC-32C, the stipple generator
(R142) and saturating counters. -/
namespace Sys2Proof.Machine

/-- Field [hi:lo] of a word as a number. -/
def field {w : Nat} (x : BitVec w) (hi lo : Nat) : Nat := (x.toNat >>> lo) % 2 ^ (hi + 1 - lo)

/-- Bit i of a word. -/
def flag {w : Nat} (x : BitVec w) (i : Nat) : Bool := x.getLsbD i

/-- A field value placed at [lo]. -/
def place (v lo : Nat) : Nat := v <<< lo

def b2n (b : Bool) : Nat := if b then 1 else 0

/-- Replaces field [hi:lo] of a 64-bit word. -/
def setField (x : Word) (hi lo v : Nat) : Word :=
  let mask : Nat := (2 ^ (hi + 1 - lo) - 1) <<< lo
  (x &&& ~~~ BitVec.ofNat 64 mask) ||| BitVec.ofNat 64 ((v % 2 ^ (hi + 1 - lo)) <<< lo)

/-- Little-endian bytes of a number (R7). -/
def bytesLE : Nat → Nat → List Byte
  | 0, _ => []
  | n + 1, v => BitVec.ofNat 8 v :: bytesLE n (v / 256)

/-- The number that little-endian bytes hold (R7). -/
def leNat : List Byte → Nat
  | [] => 0
  | b :: bs => b.toNat + 256 * leNat bs

/-- Big-endian value: a GID or ASCII field as it appears on the wire. -/
def beNat (bs : List Byte) : Nat := bs.foldl (fun a b => a * 256 + b.toNat) 0

/-- n bytes of a byte string from offset o, zero beyond its end. -/
def slice (bs : List Byte) (o n : Nat) : List Byte :=
  let t := (bs.drop o).take n
  t ++ List.replicate (n - t.length) 0

def byteAt (bs : List Byte) (o : Nat) : Byte := bs.getD o 0
def w64At (bs : List Byte) (o : Nat) : Word := BitVec.ofNat 64 (leNat (slice bs o 8))
def w32At (bs : List Byte) (o : Nat) : Word32 := BitVec.ofNat 32 (leNat (slice bs o 4))
def w16At (bs : List Byte) (o : Nat) : Half := BitVec.ofNat 16 (leNat (slice bs o 2))
def allZero (bs : List Byte) : Bool := bs.all (· == 0)

/-- The 64-bit words of a byte string. -/
def words (bs : List Byte) (n : Nat) : List Word := (List.range n).map fun i => w64At bs (8 * i)

/-! Paired words (R10). -/

def pair (v : Nat) : Word := BitVec.ofNat 64 (v % 2 ^ 32 + ((2 ^ 32 - 1) - v % 2 ^ 32) * 2 ^ 32)
def pairOk (w : Word) : Bool := decide (w.toNat / 2 ^ 32 = (2 ^ 32 - 1) - w.toNat % 2 ^ 32)
def pairVal (w : Word) : Nat := w.toNat % 2 ^ 32
def pairBytes (v : Nat) : List Byte := bytesLE 8 (pair v).toNat
/-- The value of a paired word, or INTEGRITY. -/
def unpair (w : Word) : Except Status Nat := if pairOk w then .ok (pairVal w) else .error .integrity

/-- A quantity of up to 64 bits as two paired words (R27, R121). -/
def pw2 (v : Nat) : PW2 := ⟨pair (v % 2 ^ 32), pair (v / 2 ^ 32)⟩
def PW2.ok (p : PW2) : Bool := pairOk p.lo && pairOk p.hi
def PW2.val (p : PW2) : Nat := pairVal p.lo + 2 ^ 32 * pairVal p.hi
def pw2Bytes (v : Nat) : List Byte := pairBytes (v % 2 ^ 32) ++ pairBytes (v / 2 ^ 32)
/-- A tick number in two paired words: bits [31:16] of the high one are zero (R27). -/
def tickOk (p : PW2) : Bool := PW2.ok p && decide (pairVal p.hi < 2 ^ 16)

/-- The 8-bit code of a status (R11, R519). -/
def statusCode : Status → Nat
  | .ok => 0x00 | .dataEcc => 0x01 | .integrity => 0x02 | .timeout => 0x03 | .lowerTier => 0x04
  | .collMismatch => 0x05 | .staleTable => 0x06 | .fenced => 0x07 | .thermal => 0x08 | .allocFault => 0x09
  | .decode => 0x0A | .epoch => 0x0B | .notReady => 0x0C | .miswired => 0x0D | .overrun => 0x0E
  | .rollback => 0x80 | .revoked => 0x81

/-- The status of a code. A reserved or unknown code is a failure of its request (R12), with a status that the manual does
not name: DECODE (DESIGN CHOICE, notes/assumptions/52.md). -/
def statusOf (c : Nat) : Status :=
  match c with
  | 0x00 => .ok | 0x01 => .dataEcc | 0x02 => .integrity | 0x03 => .timeout | 0x04 => .lowerTier
  | 0x05 => .collMismatch | 0x06 => .staleTable | 0x07 => .fenced | 0x08 => .thermal | 0x09 => .allocFault
  | 0x0A => .decode | 0x0B => .epoch | 0x0C => .notReady | 0x0D => .miswired | 0x0E => .overrun
  | 0x80 => .rollback | 0x81 => .revoked | _ => .decode

/-- The queue code of a status word (R68). -/
def queueCode : QueueId → Nat
  | .bq => 1 | .hq => 2 | .sq => 3

/-- A saturating counter of w bits. -/
def satAdd (w n d : Nat) : Nat := min (n + d) (2 ^ w - 1)

def ceilDiv (a b : Nat) : Nat := (a + b - 1) / b
def roundUp (a b : Nat) : Nat := ceilDiv a b * b
/-- Two's complement value of an n-bit field. -/
def signed (n v : Nat) : Int := if v < 2 ^ (n - 1) then (v : Int) else (v : Int) - 2 ^ n

/-! CRC-32C (the Castagnoli polynomial, reflected): the manual names it and gives no polynomial;
notes/assumptions/7.md. -/

def crcBit (r : BitVec 32) : BitVec 32 :=
  if r.getLsbD 0 then (r >>> 1) ^^^ 0x82F63B78#32 else r >>> 1

def crcByte (r : BitVec 32) (b : Byte) : BitVec 32 :=
  crcBit (crcBit (crcBit (crcBit (crcBit (crcBit (crcBit (crcBit (r ^^^ b.setWidth 32))))))))

/-- The register after a string of bytes, as a number. The match on it makes the kernel evaluate it byte by byte. -/
def crcGo : List Byte → Nat → Nat
  | [], r => r
  | b :: bs, 0 => crcGo bs (crcByte 0 b).toNat
  | b :: bs, r + 1 => crcGo bs (crcByte (BitVec.ofNat 32 (r + 1)) b).toNat

def crc32c (bs : List Byte) : BitVec 32 := ~~~ BitVec.ofNat 32 (crcGo bs 0xFFFFFFFF)

/-- A byte string with n bytes at o replaced by zeros: how a CHECK field that covers itself is computed. -/
def zeroed (bs : List Byte) (o n : Nat) : List Byte :=
  bs.take o ++ List.replicate n 0 ++ bs.drop (o + n)

/-- A byte string with the given bytes written at offset o. -/
def overlay (bs : List Byte) (o : Nat) (v : List Byte) : List Byte :=
  bs.take o ++ v ++ bs.drop (o + v.length)

/-! The stipple generator (R142). -/

def rotl (x : Word) (n : Nat) : Word := (x <<< n) ||| (x >>> (64 - n))

def stippleRound (xy : Word × Word) : Word × Word :=
  let x := (xy.1 + xy.2) * 0x9F4A61C3D2B7E58B#64
  let x := x ^^^ (x >>> 31)
  (x, rotl xy.2 23 ^^^ x)

def stipple (seed hi lo : Word) : Word :=
  (stippleRound (stippleRound (stippleRound (stippleRound (lo ^^^ seed, hi ^^^ rotl seed 32))))).1

/-- Insertion into an ascending list of numbers without repeats. -/
def insertNat (n : Nat) : List Nat → List Nat
  | [] => [n]
  | m :: ms => if n < m then n :: m :: ms else if n = m then m :: ms else m :: insertNat n ms

/-- Stable insertion sort by a comparison (true: the first stays before the second). -/
def insertBy {α : Type} (le : α → α → Bool) (x : α) : List α → List α
  | [] => [x]
  | y :: ys => if le x y then x :: y :: ys else y :: insertBy le x ys

def sortBy {α : Type} (le : α → α → Bool) (l : List α) : List α := l.foldr (insertBy le) []

/-- Replaces element i of a list; no change beyond its end. -/
def setAt {α : Type} (l : List α) (i : Nat) (x : α) : List α := l.set i x

end Sys2Proof.Machine
end

