-- ==== Sys2Proof/Machine/Gf256.lean ====
section
/-! DEFINITION. The field GF(2^8) of R286 and the bounded-distance Reed–Solomon decoders: t = 4 over the 72 symbols of
an HBM codeword (R287), t = 1 over a stroke header and t = 3 over a body codeword (R353). Codes are linear, so a decoder
works on the error pattern alone: the syndromes of a received word are those of its error pattern. -/
namespace Sys2Proof.Machine

/-- Multiplication by α = 0x02 modulo 0x11D (R286). -/
def gfDouble (a : Byte) : Byte := if a.getLsbD 7 then (a <<< 1) ^^^ 0x1D#8 else a <<< 1

def gfMulGo : Nat → Byte → Byte → Byte → Byte
  | 0, _, _, acc => acc
  | n + 1, a, b, acc => gfMulGo n (gfDouble a) (b >>> 1) (if b.getLsbD 0 then acc ^^^ a else acc)

def gfMul (a b : Byte) : Byte := gfMulGo 8 a b 0

def gfPow (a : Byte) : Nat → Byte
  | 0 => 1
  | n + 1 => gfMul a (gfPow a n)

/-- a^254, the inverse of a non-zero element. -/
def gfInv (a : Byte) : Byte :=
  let a2 := gfMul a a
  let a4 := gfMul a2 a2
  let a8 := gfMul a4 a4
  let a16 := gfMul a8 a8
  let a32 := gfMul a16 a16
  let a64 := gfMul a32 a32
  let a128 := gfMul a64 a64
  gfMul a128 (gfMul a64 (gfMul a32 (gfMul a16 (gfMul a8 (gfMul a4 a2)))))

/-- An error pattern: symbols in error by degree, each with its non-zero value. -/
abbrev Pattern := List (Nat × Byte)

/-- α^d by square and multiply over the bits of d (d below 256). -/
def gfAlpha (d : Nat) : Byte :=
  (List.range 8).foldl (fun (acc : Byte) i =>
    let sq := gfMul acc acc
    if (d / 2 ^ (7 - i)) % 2 = 1 then gfDouble sq else sq) 1

/-- Syndrome j of a pattern: the sum of value · α^(j · degree). -/
def syndrome (e : Pattern) (j : Nat) : Byte :=
  e.foldl (fun acc x => acc ^^^ gfMul x.2 (gfAlpha (j * x.1 % 255))) 0

def syndromes (e : Pattern) (n : Nat) : List Byte := (List.range n).map (syndrome e)

/-- Value of a polynomial, lowest coefficient first, at x. -/
def gfEval (p : List Byte) (x : Byte) : Byte := p.foldr (fun c acc => c ^^^ gfMul x acc) 0

def gfAddPoly : List Byte → List Byte → List Byte
  | [], q => q
  | p, [] => p
  | a :: p, b :: q => (a ^^^ b) :: gfAddPoly p q

def gfScalePoly (c : Byte) (p : List Byte) : List Byte := p.map (gfMul c)

/-- The state of the Berlekamp–Massey recurrence: locator, previous locator, its shift, last discrepancy, length. -/
structure BmState where
  c : List Byte
  b : List Byte
  m : Nat
  d : Byte
  l : Nat

def bmStep (syn : List Byte) (n : Nat) (t : BmState) : BmState :=
  let disc := (List.range (t.l + 1)).foldl (fun acc i => acc ^^^ gfMul (t.c.getD i 0) (syn.getD (n - i) 0)) 0
  if disc = 0 then { t with m := t.m + 1 }
  else
    let q := gfMul disc (gfInv t.d)
    let c' := gfAddPoly t.c (List.replicate t.m 0 ++ gfScalePoly q t.b)
    if 2 * t.l ≤ n then ⟨c', t.c, 1, disc, n + 1 - t.l⟩ else { t with c := c', m := t.m + 1 }

/-- The error locator of a syndrome list. -/
def locator (syn : List Byte) : List Byte :=
  ((List.range syn.length).foldl (fun t n => bmStep syn n t) ⟨[1], [1], 1, 1, 0⟩).c

def dropZeros (p : List Byte) : List Byte := (p.reverse.dropWhile (· == 0)).reverse

/-- Error value at degree d by Forney's formula for a code whose first root is α^0. -/
def forney (syn lam : List Byte) (d : Nat) : Byte :=
  let x := gfAlpha (d % 255)
  let xi := gfInv x
  let omega := (List.range syn.length).map fun k =>
    (List.range (k + 1)).foldl (fun acc i => acc ^^^ gfMul (lam.getD i 0) (syn.getD (k - i) 0)) 0
  let deriv := (List.range lam.length).map fun i => if i % 2 = 0 then lam.getD (i + 1) 0 else 0
  gfMul x (gfMul (gfEval omega xi) (gfInv (gfEval deriv xi)))

/-- What a decoder finds: the pattern it removes, at most t symbols, or nothing when no codeword lies within t (R287).
`n` symbols, `r` check symbols, `t` the distance. -/
def rsDecode (n r t : Nat) (e : Pattern) : Option Pattern :=
  let syn := syndromes e r
  if syn.all (· == 0) then some []
  else
    let lam := dropZeros (locator syn)
    let roots := (List.range n).filter fun d => gfEval lam (gfInv (gfAlpha (d % 255))) == 0
    let found := (roots.map fun d => (d, forney syn lam d)).filter fun x => x.2 != 0
    if roots.length + 1 = lam.length ∧ found.length ≤ t ∧ syndromes found r = syn then some found else none

/-- Symbol-wise sum of two patterns, without zero values. -/
def patternAdd (e f : Pattern) : Pattern :=
  let at_ (p : Pattern) (d : Nat) : Byte := ((p.find? fun x => x.1 == d).map (·.2)).getD 0
  let ds := (e ++ f).foldl (fun l x => insertNat x.1 l) []
  (ds.map fun d => (d, at_ e d ^^^ at_ f d)).filter fun x => x.2 != 0

/-- The check symbols of data symbols in descending degree (remainder of d(x) · x^r by g(x), R286): highest first. -/
def rsGen (r : Nat) : List Byte :=
  -- coefficients below the leading one, highest first
  ((List.range r).foldl (fun (g : List Byte) i =>
    gfAddPoly (g ++ [0]) ((0 : Byte) :: gfScalePoly (gfAlpha i) g)) [1]).drop 1

def rsRemainder (r : Nat) (data : List Byte) : List Byte :=
  let g := rsGen r
  data.foldl (fun (rem : List Byte) b =>
    let f := b ^^^ rem.headD 0
    gfAddPoly (rem.drop 1 ++ [0]) (gfScalePoly f g)) (List.replicate r 0)

/-- The error pattern whose syndromes a received word has, as a pattern on its own symbols (first symbol at the highest
degree): any received word is a codeword plus a pattern, and the word itself is such a pattern. -/
def wordPattern (word : List Byte) : Pattern :=
  ((List.range word.length).map fun i => (word.length - 1 - i, word.getD i 0)).filter fun x => x.2 != 0

end Sys2Proof.Machine
end

