-- ==== Sys2Proof/Config.lean ====
section
/-! DEFINITION. What the specification leaves open (free values, no body: nothing can evaluate them) and the
fixed numbers of the running firmware. A statement about a free value holds for every value of it. -/
namespace Sys2Proof.Config

/-- A byte whose content the manual calls undefined, by the stamp of the event that made it so and its address
(R159, R171, R485); notes/assumptions/2.md. -/
opaque freeByte : Nat → Nat → Byte
/-- A fresh 64-bit value for each draw (entropy source of R522, device PSNs of R436, and every other value the
manual gives no rule for); notes/assumptions/3.md. -/
opaque freeWord : Nat → Word
/-- What a register-space offset of a listed block that names no register reads as (R6, R21);
notes/assumptions/12.md. -/
opaque rsvWord : Nat → Word
/-- The Ozdex V8 unit's exp2 and log2 for an FP32 input (R190), as a signed FP32 code: the manual gives no coefficients.
The results keep what R191 says whatever these are (`v8Chain`); notes/assumptions/4.md. -/
opaque v8Exp2 : Word32 → Int
opaque v8Log2 : Word32 → Int

/-- SHA-384, named by R515 to R517 and R524 and not given there; notes/assumptions/5.md. -/
opaque sha384 : List Byte → List Byte
/-- HMAC-SHA-384 of a key and a message (R524). -/
opaque hmacSha384 : List Byte → List Byte → List Byte
/-- RSASSA-PSS verification: public modulus, signed bytes, signature (R515). -/
opaque rsaVerify : List Byte → List Byte → List Byte → Bool
/-- SLH-DSA-SHA2-192s verification: public key, signed bytes, signature (R515). -/
opaque slhVerify : List Byte → List Byte → List Byte → Bool
/-- The device's attestation signatures over the report bytes (R523): RSA and SLH-DSA, 384 and 16,224 bytes.
The private keys never leave the root of trust. -/
opaque attestRsa : List Byte → List Byte
opaque attestSlh : List Byte → List Byte
/-- AES-256-GCM under the device's fused wrapping key (R524): UID, GEN and key in; 48 bytes out. -/
opaque wrapKey : Word → Word32 → List Byte → List Byte
/-- The inverse of `wrapKey` at boot (R524): `none` when the wrapped key does not unwrap. -/
opaque unwrapKey : Word → Word32 → List Byte → Option (List Byte)

/-- What the codec standards are given of one picture of an Intaglio session: the configuration block in force for it, its
flags on encode (key 1, long-term 2, end of stream 4), its access unit on decode or its samples on encode, and the QP that it
was encoded with. -/
structure Coded where
  cfg : List Byte
  flags : Nat
  data : List Byte
  qp : Nat
  deriving DecidableEq, Repr

/-! What the codec standards (AV1, HEVC, AVC), which the manual names and does not give, say of the last access unit of a
decode session (R403, R414, R422 to R424, R429): each is a function of the session's units so far, in order, so that equal
bitstreams and job flags give equal pictures (R406); notes/assumptions/6.md. -/

/-- The unit conforms to its standard, profile and level. -/
opaque codecConformant : List Coded → Bool
/-- Its picture is a key or IRAP picture. -/
opaque codecKey : List Coded → Bool
/-- It ends the stream. -/
opaque codecEos : List Coded → Bool
/-- It activates a changed SPS or a changed AV1 sequence header. -/
opaque codecChangedSps : List Coded → Bool
/-- Its picture awaits an output surface. -/
opaque codecShown : List Coded → Bool
/-- The pictures that its picture references, by their places in the session. -/
opaque codecRefs : List Coded → List Nat
/-- The pictures that carry a short-term and a long-term reference mark from it on, its own picture among them. -/
opaque codecShort : List Coded → List Nat
opaque codecLong : List Coded → List Nat
/-- The pictures that it makes ready, in display order. -/
opaque codecReady : List Coded → List Nat
/-- Sample i of its picture, with or without film grain: planes Y, Cb, Cr one after another, row by row. -/
opaque codecSample : List Coded → Bool → Nat → Nat
/-- The parameter sets that a unit brings, by identifier, and those that the last unit's picture activates. -/
opaque codecSets : List Byte → List Nat
opaque codecActivates : List (List Byte) → List Nat

/-! What the encoder does beyond what R417 to R420 and R422 fix, as functions of the session's pictures so far. -/

/-- The decode order of the pictures from one of them on. -/
opaque codecOrder : List Coded → Nat → List Nat
/-- The temporal layer of a picture in a shortened mini-GOP. -/
opaque codecLayer : List Coded → Nat → Nat
/-- The pictures that carry a short-term reference mark once a picture is encoded. -/
opaque codecMarks : List Coded → Nat → List Nat
/-- The access unit of a picture at a QP; the last argument is the motion search against a reference's samples (R418). -/
opaque codecUnit : List Coded → Nat → Nat → (List Byte → Nat → Nat → Int × Int × Nat) → List Byte
/-- The configuration lies within the highest level of the table "Intaglio codec support" (R403): the manual names levels
of the standards without their limits. -/
opaque levelOk : List Byte → Bool

/-! What R418 names and does not give: luma at 1/16 and 1/4 area (reduced by 4 and by 2 in each direction), luma at
quarter-sample positions between samples, λ of a QP, and a vector's bit cost. The first two arguments are the configuration
and the samples. -/
opaque lumaDown : List Byte → List Byte → Nat → Int → Int → Nat
opaque lumaQuarter : List Byte → List Byte → Int → Int → Nat
opaque lambdaOf : Nat → Nat
opaque vectorBits : Int → Int → Nat

/-- The payload of a stack's IEEE 1500 test access (R298 TEST_MODE), which the manual does not describe. -/
opaque testModeData : Word32 → Half

end Sys2Proof.Config
end

