-- ==== Sys2Proof/Machine/State.lean ====
section
/-! DEFINITION. The state of one V12 package as plain data: memories, the 128 Stylus cores with their queues, the
tick unit, the HBM stacks, the Folio engine and flash layer, Crosshatch, collectives, the Intaglio engines, the host
interface, partitions, recovery, power, start-up and security, Proof and trace, the test port, the pins; what has left
the package; the commands waiting; and `State.reset`. -/
namespace Sys2Proof.Machine

/-! ## Memory -/

/-- A range whose unlisted bytes are undefined: byte base + i reads as the free byte of the stamp at origin + i. With
`stack` and `pc`, only the bytes whose origin lies in that HBM stack or pseudo-channel of it (R284). -/
structure OpenRange where
  base : Nat
  len : Nat
  stamp : Nat
  origin : Nat
  stack : Option Nat := none
  pc : Option Nat := none
  deriving DecidableEq, Repr

/-- Byte storage in canonical form: cells of strictly rising address; an unlisted byte inside a range of `opens` (the
first that holds it counts) is undefined and reads as a free value; any other unlisted byte reads 0, and no cell outside
`opens` holds 0 (notes/assumptions/1.md). -/
structure Memory where
  cells : List Host.Cell := []
  opens : List OpenRange := []
  deriving DecidableEq, Repr

/-! ## Stylus cores -/

/-- A frame's variant, s4 (R58). -/
inductive Variant where
  | normal | replay | wide
  deriving DecidableEq, Repr

/-- The engine commands (R266). -/
inductive EngOp where
  | burinMm | conv3 | hatchRun | stencilRun | attn | strmCopy | strmFlash | strmFadd | kvPage
  | folioPromote | folioEvict | folioFlush | etchBuild | xhStep | xhTree | xhStepArr | xhTreeArr | hostPost
  deriving DecidableEq, Repr

/-- The three guarantees of the table "Fences" (R84). -/
inductive FenceKind where
  | l | d | g
  deriving DecidableEq, Repr

/-- What a Stylus stalls on (R63, R65, R69, R84, R88). -/
inductive Stall where
  | cmdWait (q : QueueId) (seq : Nat) (pd : Nat)
  | tokWait (ctr : Nat) (n : Nat)
  | tickWait
  | fence (k : FenceKind)
  | full (q : QueueId)
  deriving DecidableEq, Repr

/-- The part of a running XH step that its exchanges advance (R385 to R392): its SEQ, the pieces sent to each sink, the
elements taken of each piece from each contributor (contributor, piece, count), the values that the tree's children and
the down-sweep brought. `entry`: the words of its group's entry, as read at issue; `seqOk`: its SEQ is known; `asked`:
journal records of a flash write; `tokens`: pieces counted so far. -/
structure XhRun where
  entry : List Word := []
  seqOk : Bool := false
  seq : Nat := 0
  sentOut : List (Nat × Nat) := []
  parts : List (Nat × Nat × Nat) := []
  header : List (Nat × List (Nat × Nat)) := []
  sentUp : Bool := false
  down : Option (List (Nat × Nat)) := none
  asked : Nat := 0
  tokens : Nat := 0
  deriving DecidableEq, Repr

/-- An output tile of a Burin command whose K is not yet summed up (R136, R157): its number, its slot, the elements that
have saturated as a mask, and whether one became infinite or NaN. -/
structure TileRun where
  tile : Nat
  slot : Nat
  sat : Nat := 0
  inf : Bool := false
  nan : Bool := false
  deriving DecidableEq, Repr

/-- A command in a queue (R67): its number, the copies of its block and descriptors, whether its guard held, SPAN, the
issue outcome, and its progress. `shadow` marks ATTN's entry in HQ (R66). `doomed` is the status it ends with unexecuted
(R70, R71); `tables`: the ACTIVE bits at the start of its frame, `uses`: the tables it looks up (R194). `tiles`: its open
output tiles; `snap`: what it read at its start, the values of its slots (R159) or the micro-program's slot (R187); for a zero-run stream, its mask (R247, R248). -/
structure QCmd where
  op : EngOp
  seq : Nat
  seqHq : Nat := 0
  block : List Byte := []
  descs : List (Option (List Byte)) := []
  active : Bool := true
  span : Bool := false
  shadow : Bool := false
  doomed : Option Status := none
  started : Bool := false
  ctr : Option Nat := none
  gate : Option (Nat × Nat × Nat) := none
  pieces : Nat := 0
  banks : Word := 0
  result : Option Status := none
  waits : Nat := 0
  reads : List (Nat × List Byte) := []
  await : Nat := 0
  sent : Nat := 0
  xh : XhRun := {}
  post : Option (RingId × Nat) := none
  posted : Bool := false
  tables : Nat := 0
  uses : List Nat := []
  tiles : List TileRun := []
  snap : List Byte := []
  deriving DecidableEq, Repr

/-- One command queue of a core (R65, R68, R69). `ended` is the highest number ended, `badSeq` the lowest number that
ended otherwise than OK, `next` the next number. -/
structure Queue where
  cmds : List QCmd := []
  next : Nat := 0
  ended : Nat := 0
  badSeq : Option Nat := none
  deriving DecidableEq, Repr

/-- The first fault of a context on a core (R92): its status, queue code, number, tick and Stylus instruction
address. -/
structure FaultRec where
  code : Status
  queue : Nat
  seq : Nat
  tick : Nat
  pc : Nat
  deriving DecidableEq, Repr

/-- An open collective region of a core (R386), with the words of its group's entry. -/
structure Region where
  group : Nat
  entry : List Word
  seq : Nat
  red : Nat
  fmt : Nat
  deriving DecidableEq, Repr

/-- A logical core: register files (R57), frame position, run state (R92), queues, token counters and the per-core
counters of R158, R198, R227 and R346. -/
structure Core where
  s : Vector Word 32 := Vector.replicate 32 0
  a : Vector Word 16 := Vector.replicate 16 0
  p : Vector Bool 8 := Vector.replicate 8 false
  td : Vector (Vector Word 16) 16 := Vector.replicate 16 (Vector.replicate 16 0)
  pc : Nat := 0
  entry : Nat := 0
  rep : Nat := 0
  stepEntry : Nat := 0
  stepRep : Nat := 0
  began : Bool := false
  finished : Bool := false
  variant : Variant := .normal
  frameActive : Nat := 0
  running : Bool := false
  atWait : Bool := false
  halted : Bool := false
  err : Bool := false
  stopped : Bool := false
  startedSince : Bool := false
  frameFail : Option Status := none
  fault : Option FaultRec := none
  skipped : Nat := 0
  stall : Option Stall := none
  bq : Queue := {}
  hq : Queue := {}
  sq : Queue := {}
  tok : Vector Half 32 := Vector.replicate 32 0
  tokFailed : Word32 := 0
  tokStatus : List (Nat × Status) := []
  regions : List Region := []
  passes : Nat := 0
  satTiles : Nat := 0
  bankWaits : Nat := 0
  hatchCommands : Nat := 0
  tableFaults : Nat := 0
  swaps : Nat := 0
  pairs : Nat := 0
  pairsSkipped : Nat := 0
  etchStale : Nat := 0
  etchDamaged : Nat := 0
  etchLost : Nat := 0
  etchBuilds : Nat := 0
  deriving DecidableEq, Repr

/-! ## Tick unit -/

/-- TICK_CTRL.ROLE (R56). -/
inductive Role where
  | standalone | member | master | reserved
  deriving DecidableEq, Repr

/-- The tick unit: the fields of the registers of R56 and what R31 to R44 keep between events. `waitAlign`: started, and
waiting for the master's first alignment message (R48). `lost`: no
frame starts until the next start (R36, R478), `lostFlag` the status bit; `edgeChecked`: the heartbeat check of the last
edge has been made (R481). `lastReq`: the last tick whose combined report carried a stretch
request; `lastChange`: the tick of the last change of step (R41);
`deferredReq`: a request arrived while a step was pending (R38). -/
structure Tick where
  run : Bool := false
  waitAlign : Bool := false
  role : Role := .standalone
  lead : Nat := 8
  period : Nat := 0x1B7740
  slack : Nat := 6
  number : Nat := 0
  step : Nat := 0
  pending : Option (Nat × Nat) := none
  effective : Nat := 0x1B7740
  slackUsed : Bool := false
  overrun : Bool := false
  held : Bool := false
  voteLate : Bool := false
  stretchLimit : Bool := false
  alignFault : Bool := false
  lost : Bool := false
  lostFlag : Bool := false
  edgeChecked : Bool := false
  badWrite : Bool := false
  heldEdges : Nat := 0
  overruns : Nat := 0
  slackCount : Nat := 0
  droops : Nat := 0
  time : Nat := 0
  edge : Nat := 0
  master : Word := 0xFFFFFFFF00000000#64
  parent : Word := 0xFFFFFFFF00000000#64
  children : Vector Word 8 := Vector.replicate 8 0xFFFFFFFF00000000#64
  alignErrs : List (Nat × Nat) := []
  aligned : Bool := false
  got : List (Half × Report) := []
  ownLate : Bool := false
  overran : Bool := false
  slackSeen : Bool := false
  stretchReq : Bool := false
  stopReq : Bool := false
  sentDone : Bool := false
  sentLate : Bool := false
  verdict : Option VerdictMsg := none
  heldAt : List Nat := []
  lastReq : Option Nat := none
  lastChange : Nat := 0
  deferredReq : Bool := false
  proofAt : List Nat := []
  tickStarted : Bool := false
  hotSince : Bool := false
  deriving DecidableEq, Repr

/-! ## HBM -/

/-- Cause of a stack's fence (R301). -/
inductive FenceCause where
  | none | thermal | training | recovery
  deriving DecidableEq, Repr

/-- A row of the repair candidate list and its count (R291). -/
structure Cand where
  row : RowRef
  count : Nat
  deriving DecidableEq, Repr

/-- Last codeword recorded by HBM_CE_ADDR or HBM_UE_ADDR (R301). -/
structure ErrAddr where
  valid : Bool := false
  symbols : Nat := 0
  line : Nat := 0
  deriving DecidableEq, Repr

/-- The mailbox command in progress: its CODE and arguments as taken at the start (R298). -/
structure MboxCmd where
  code : Nat
  arg0 : Nat
  arg1 : Nat
  deriving DecidableEq, Repr

/-- An HBM stack (R292 to R301). `laneMap`: entry of each pseudo-channel; `fusedLanes`, `softLanes`, `hardRows`,
`softRows`: repairs in force; `lastCorrected`: the row last corrected on each pseudo-channel (R291); `scrubAt`: the next
codeword to scrub on each (R290); `retestRow`, `retestLane`: a fuse repair whose record a loss of power left incomplete
(R300); `retrained`: trained since its domain's reset began. -/
structure Stack where
  ready : Bool := false
  fenced : Bool := false
  cause : FenceCause := .none
  band : Fin 4 := 0
  maintReq : Bool := false
  maint : Bool := false
  scrubEn : Bool := true
  candFull : Bool := false
  degraded : Nat := 0
  peak : Nat := 0
  last : Nat := 0
  sampleTick : Word32 := 0
  corrected : Nat := 0
  uncorrected : Nat := 0
  scrubUncorrected : Nat := 0
  ue : ErrAddr := {}
  ce : ErrAddr := {}
  laneMap : Vector Half 32 := Vector.replicate 32 0
  cands : Vector (Option Cand) 8 := Vector.replicate 8 none
  arg0 : Word := 0xFFFFFFFF00000000#64
  arg1 : Word := 0xFFFFFFFF00000000#64
  busy : Option MboxCmd := none
  result : Nat := 0
  data : Half := 0
  fusedLanes : List LaneRef := []
  softLanes : List LaneRef := []
  hardRows : List RowRef := []
  softRows : List RowRef := []
  lastCorrected : Vector (Option RowRef) 32 := Vector.replicate 32 none
  scrubAt : Vector Nat 32 := Vector.replicate 32 0
  retestRow : Option RowRef := none
  retestLane : Option LaneRef := none
  retrained : Bool := false
  deriving DecidableEq, Repr

/-! ## Folio engine and flash translation layer -/

/-- A FOLIO transfer in progress at the requester, by local frame (R314); a PROMOTE with NEW asks the home alone. -/
inductive FolioKind where
  | promote | evict | flush
  | new (chip slot format size : Nat) (keep : Bool)
  deriving DecidableEq, Repr

/-- A write-back that the home serves: its slot, which is WRITING, the STATE it had, the requester (R316). -/
structure HomeWrite where
  slot : Nat
  oldState : Nat
  chip : Half
  deriving DecidableEq, Repr

/-- The Folio engine (R303 to R326). `frames`: frames in use; `units`: spill units in use; `spilling`: slot and unit of
each spill in progress; `touched`: local frames written during a write-back (R314); `writing`: write-backs that the home
serves; `passed`: slots whose spill failed since one succeeded (R318). -/
structure Folio where
  run : Bool := false
  stopping : Bool := false
  starting : Option Bool := none
  share : Nat := 0
  dir : Nat := 0
  lowater : Nat := 0
  spillUnits : Nat := 0
  spillBase : Nat := 0
  t1Count : Nat := 0
  t1Base : Nat := 0
  timeout : Nat := 16
  badEntries : Nat := 0
  spillFull : Bool := false
  poolFull : Bool := false
  cancelled : Nat := 0
  pinSkips : Nat := 0
  spills : Nat := 0
  timeouts : Nat := 0
  frames : List Nat := []
  units : List Nat := []
  spilling : List (Nat × Nat) := []
  transfers : List (Nat × FolioKind) := []
  touched : List Nat := []
  keeps : List Nat := []
  serving : List (Half × Nat) := []
  writing : List HomeWrite := []
  passed : List Nat := []
  deriving DecidableEq, Repr

/-- A journal record of the flash translation layer: sequence number, the logical unit mapped and its block (R324). -/
structure JournalRec where
  seq : Nat
  logical : Nat
  block : Nat
  deriving DecidableEq, Repr

/-- A NAND block: erase and read counts, retired or not (R324). -/
structure Block where
  erases : Nat := 0
  reads : Nat := 0
  retired : Bool := false
  deriving DecidableEq, Repr

/-- A flash write that ends with OK once the records below `seq` are committed (R325): the packet's source and tag, or
none for a request of the chip's own. -/
structure FlashWait where
  seq : Nat
  back : Option (Nat × Nat) := none
  deriving DecidableEq, Repr

/-- The flash translation layer (R324 to R326). Flash data lies in `State.nand` by block: byte o of block b at
65,536 b + o; the map gives the block of each logical unit; `journal` holds the records since the last checkpoint and
`open` those not yet committed; `blocks` the non-default blocks; `capacity` in 64 KiB units as formatted. -/
structure Ftl where
  ready : Bool := false
  readOnly : Bool := false
  replayed : Bool := false
  capacity : Nat := 0
  good : Nat := 0
  spare : Nat := 0
  retired : Nat := 0
  lock : Bool := false
  rdLimit : Nat := 0x32
  wearGap : Nat := 0xC8
  bgShare : Nat := 0x0A
  reservePct : Nat := 0x08
  relocations : Nat := 0
  commits : Nat := 0
  mapBase : BitVec 32 := 0
  nextSeq : Nat := 0
  checkpoint : List (Nat × Nat) := []
  journal : List JournalRec := []
  pendingRecs : List JournalRec := []
  waiting : List FlashWait := []
  blocks : List (Nat × Block) := []
  deriving DecidableEq, Repr

/-! ## Crosshatch -/

/-- STATE of a port (R377). -/
inductive PortState where
  | idle | backOff | equalise | errorTest | identity | upData | upMgmt | failed
  deriving DecidableEq, Repr

/-- CAUSE of a port (R377). -/
inductive PortCause where
  | none | peer | level | cls | version | abi | auth | ber | timeout
  deriving DecidableEq, Repr

/-- What a management packet of this chip says (R31, R387, R393): the manual lays out its headers and not its body. -/
inductive Mgmt where
  | report (r : Report)
  | verdict (v : VerdictMsg)
  | align (time : Nat)
  | grant (g : GrantMsg)
  | abort (a : AbortMsg)
  deriving DecidableEq, Repr

/-- A stroke that waits at an output port (R366, R367): pool (0 VC0, 1 VC1, 2 management), the input port it came from
(none: this chip), its KIND and bytes; `msg`: what a management stroke of this chip says, its bytes then being the two
headers alone. -/
structure OutStroke where
  pool : Nat
  src : Option (Fin 36)
  srcPool : Nat
  kind : Nat
  bytes : List Byte
  msg : Option Mgmt := none
  deriving DecidableEq, Repr

/-- A physical port and the map of the logical port of the same number (R366, R376, R377). `waiting`: pending a training
slot (R369); `outcome`: identity outcome kept for R375; `credVc0`, `credVc1`, `credMgmt`: credits held; `owed`: credits to
return; `windowBytes`, `windowErrors`: idle body bytes and errors of the current window (R364); `outq`: strokes that wait
here for a credit; `open0`, `open1`: the source of the packet in progress of each VC (R355); `lastVc`, `last0`, `last1`:
the VC served last and, for each, the source served last (an input port, or 36 for this chip; R367). -/
structure Port where
  state : PortState := .idle
  cause : PortCause := .none
  attempts : Nat := 0
  proto : Nat := 0
  logical : Nat := 0
  remapped : Bool := false
  degraded : Bool := false
  peerPort : Nat := 0
  level : Nat := 0
  cls : Nat := 0
  mode : Nat := 0
  spareFor : Nat := 0
  spare : Bool := false
  expect : Word := 0xFFFFFFFF00000000#64
  peer : Nat := 0
  infoFirmware : Nat := 0
  infoProto : Nat := 0
  infoAbi : Nat := 0
  infoPort : Nat := 0
  infoLevel : Nat := 0
  infoClass : Nat := 0
  delay : Nat := 0
  idleErrors : Nat := 0
  hdrCorrected : Nat := 0
  hdrLost : Nat := 0
  uncorrected : Nat := 0
  windowBytes : Nat := 0
  windowErrors : Nat := 0
  credVc0 : Nat := 0
  credVc1 : Nat := 0
  credMgmt : Nat := 0
  owedVc0 : Nat := 0
  owedVc1 : Nat := 0
  owedMgmt : Nat := 0
  waiting : Bool := false
  identityMode : Option Nat := none
  outq : List OutStroke := []
  open0 : Option (Option (Fin 36)) := none
  open1 : Option (Option (Fin 36)) := none
  lastVc : Nat := 1
  last0 : Nat := 36
  last1 : Nat := 36
  deriving DecidableEq, Repr

/-- A request of this chip that awaits its response packet (R357): tag, core, queue number of the issuing command, index
of the access in it, epoch, whether a read, and whether its packet could not leave (R361). -/
structure Outstanding where
  tag : Nat
  core : CoreId
  seq : Nat
  item : Nat
  epoch : Half
  read : Bool
  lost : Bool := false
  queue : QueueId := .sq
  addr : Nat := 0
  deriving DecidableEq, Repr

structure Fabric where
  run : Bool := false
  stopping : Bool := false
  reqTimeout : Nat := 0x14
  rowRacks : Nat := 0
  permitted : Bool := false
  nextTag : Nat := 0
  outstanding : List Outstanding := []
  deriving DecidableEq, Repr

/-! ## Collectives -/

/-- A header-step packet that came before this core's step started (R385): values as minimum and maximum. -/
structure EarlyHdr where
  core : Nat
  group : Nat
  chip : Nat
  down : Bool
  vals : List (Nat × Nat)
  deriving DecidableEq, Repr

/-- An abort of a collective that this chip has seen, and the cores that it ends steps of (R393, R401): a core whose
context starts counts its SEQs anew, and leaves it. -/
structure Aborted where
  group : Nat
  seq : Nat
  status : Status
  cores : BitVec 128 := BitVec.allOnes 128
  deriving DecidableEq, Repr

/-- Collectives (R379 to R400). `aborted`: the aborts seen; `grants`: grants received and not yet
used up; `early`: header-step packets that came before their step. -/
structure Coll where
  run : Bool := false
  stopping : Bool := false
  waitLimit : Nat := 2
  base : BitVec 33 := 0
  valid : Bool := false
  seqLow : Nat := 0
  origin : Nat := 0
  code : Nat := 0
  group : Nat := 0
  steps : Nat := 0
  aborts : Nat := 0
  mismatches : Nat := 0
  aborted : List Aborted := []
  grants : List GrantMsg := []
  early : List EarlyHdr := []
  deriving DecidableEq, Repr

/-! ## Intaglio -/

/-- A job accepted by an engine (R410): its entry as copied, the place of its access unit in its session, and, once served,
its outcome to be written. -/
structure Job where
  n : Nat
  entry : List Byte
  unit : Option Nat := none
  served : Bool := false
  status : Option Status := none
  flags : Nat := 0
  resultIdx : Option Nat := none
  bytes : Nat := 0
  deriving DecidableEq, Repr

/-- A buffer of a session's frame pool: picture, and its marks (R422). -/
structure Buf where
  pic : Nat
  shortRef : Bool := false
  longRef : Bool := false
  outMark : Bool := false
  deriving DecidableEq, Repr

/-- A parameter-set entry in use (R423): index, the identifier that maps to it, references. -/
structure SetEntry where
  idx : Nat
  ident : Option Nat
  refs : Nat
  deriving DecidableEq, Repr

/-- A picture of a session: its access unit (decode) or its samples (encode), the status with which its access unit could not
be read, and the configuration in force for it. `lost`: damaged, or not decoded yet (R429); `key`, `long`, `eos`: a key
picture, MARK_LONG, EOS (R417). Of an encoded picture: its QP, its access unit, CAP_EXCEEDED (R420). -/
structure Pic where
  data : List Byte
  failed : Option Status := none
  cfg : List Byte := []
  lost : Bool := false
  key : Bool := false
  long : Bool := false
  eos : Bool := false
  qp : Nat := 0
  au : List Byte := []
  cap : Bool := false
  deriving DecidableEq, Repr

/-- A session (R413 to R424): its configuration copy; its pictures, in the order of its jobs; those ready and not written
yet, in the order in which they are written, and how many have been written; the picture written last and whether with film
grain (R426); the last key picture; its frame pool (index, buffer); the parameter-set entries in use, and those that a
picture in progress activates. On encode: how many pictures have been encoded; long-term references and pictures since the
last key picture; whether the next picture is a key picture by R417 or R424; the fullness of the hypothetical decoder
buffer, in bits times the frame rate's numerator (R420). -/
structure Session where
  cfg : List Byte
  pics : List Pic := []
  queue : List Nat := []
  written : Nat := 0
  lastOut : Option (Nat × Bool) := none
  lastKey : Nat := 0
  bufs : List (Nat × Buf) := []
  sets : List SetEntry := []
  activated : List (Nat × List Nat) := []
  encoded : Nat := 0
  longRefs : Nat := 0
  sinceKey : Nat := 0
  keyNext : Bool := true
  fullness : Option Nat := none
  deriving DecidableEq, Repr

/-- An engine (R407 to R430). -/
structure Engine where
  run : Bool := false
  stopping : Bool := false
  mode : Bool := false
  thresh : Nat := 0xA0
  log2 : Nat := 0
  ring : BitVec 42 := 0
  prod : Nat := 0
  cons : Nat := 0
  pictures : Nat := 0
  decodeErrors : Nat := 0
  capExceeded : Nat := 0
  ringFaults : Nat := 0
  jobs : List Job := []
  sessions : Vector (Option Session) 16 := Vector.replicate 16 none
  lastServed : Nat := 15
  deriving DecidableEq, Repr

/-! ## Host interface -/

/-- State of a queue pair (R436). -/
inductive QpState where
  | reset | ready | error
  deriving DecidableEq, Repr

/-- A queue pair (R434 to R439). `rate` in b/s; `rxCount`: messages received (R439); `cnpAt`: time of the last
congestion notification sent. -/
structure Qp where
  state : QpState := .reset
  hostQpn : BitVec 24 := 0
  hostPsn : BitVec 24 := 0
  psn : BitVec 24 := 0
  gid : BitVec 128 := 0
  retries : Nat := 0
  ackTimeout : Nat := 0
  rxBase : Nat := 0
  rxK : Nat := 0
  rxCount : Nat := 0
  rate : Nat := 800000000000
  cnpAt : Option Nat := none
  deriving DecidableEq, Repr

/-- An Ethernet port (R432 to R434, R458). -/
structure EthPort where
  up : Bool := false
  changed : Bool := false
  fecDegraded : Bool := false
  paused : Bool := false
  prio : Nat := 3
  fecCorrected : Nat := 0
  discarded : Nat := 0
  pfcPauses : Nat := 0
  ipv4 : Word32 := 0
  prefix4 : Nat := 0
  ipv6 : BitVec 128 := 0
  prefix6 : Nat := 0
  qps : Vector Qp 64 := Vector.replicate 64 {}
  deriving DecidableEq, Repr

/-- An access window (R437). -/
structure Window where
  open_ : Bool := false
  base : Nat := 0
  length : Nat := 0
  read : Bool := false
  write : Bool := false
  count : Nat := 0
  deriving DecidableEq, Repr

/-- A record that awaits space in a ring's backlog (R457): TYPE, CODE, the tick words and the body; for a POST record,
the core and SQ number of its HOST.POST. -/
structure Rec where
  type : Nat
  code : Nat
  tick : Nat
  body : List Byte
  post : Option (CoreId × Nat) := none
  deriving DecidableEq, Repr

/-- A completion ring (R453, R457, R458). `unacked`: records written whose RDMA WRITE is not yet acknowledged. -/
structure Ring where
  set : Bool := false
  port : Fin 2 := 0
  qp : Fin 64 := 0
  log2 : Nat := 0
  postWait : Nat := 0
  rkey : Word32 := 0
  host : Nat := 0
  consOff : Nat := 0
  cons : Nat := 0
  seq : Nat := 0
  lost : Nat := 0
  lostFlag : Bool := false
  backlog : List Rec := []
  unacked : List (Nat × Option (CoreId × Nat)) := []
  deriving DecidableEq, Repr

/-- The QCP commands (R443), with the codes that the table does not list in `other`. -/
inductive QcpCmd where
  | hello | status | regRead | regWrite | qpConnect | qpDestroy | windowSet | ringSet | programLoad | ctxStart
  | ctxStop | proofTrigger | reset | other (code : Nat)
  deriving DecidableEq, Repr

/-- A request that executes over time, or waits (R442, R447). -/
structure QcpJob where
  cmd : QcpCmd
  req : QcpReq
  deriving DecidableEq, Repr

/-- The QCP endpoint (R441 to R447, R458). `kept`: the last 64 responses by source, latest first; `current`: the request
executing; `waiting`: up to 16 behind it; `aside`: an abort that overtook the deferred save it ends (R475); `keyCount`: the
count in the last R_Key (R437). -/
structure Qcp where
  ready : Bool := false
  stage : Nat := 0
  estimate : Nat := 0
  routeMedia : Nat := 0
  routeDevice : Nat := 0
  routeTick : Nat := 0
  discarded : Nat := 0
  duplicates : Nat := 0
  naks : Nat := 0
  recordsLost : Nat := 0
  kept : List (Word × Word32 × List Byte) := []
  current : Option QcpJob := none
  waiting : List QcpJob := []
  aside : List QcpJob := []
  keyCount : Nat := 0
  deriving DecidableEq, Repr

/-! ## Partitions and contexts -/

/-- A frame-table entry (R59, R121): the code offsets of its variants, its repeat count and STEP_START. -/
structure FrameEntry where
  offsets : List Nat := []
  repeat_ : Nat := 1
  stepStart : Bool := false
  deriving DecidableEq, Repr

/-- An entry of an image's core table (R59), offsets from the image start, with its frame table. -/
structure CoreImage where
  code : Nat
  codeSize : Nat
  frames : Nat
  data : Nat
  table : List FrameEntry := []
  deriving DecidableEq, Repr

/-- A loaded image (R59, R60): its header's fields and its core table. -/
structure Image where
  base : Nat
  size : Nat
  check : Word32
  cores : Nat
  groupSize : Nat
  entries : Nat
  seed : Word
  variants : Nat
  table : List CoreImage
  deriving DecidableEq, Repr

/-- PART_STATUS_p.STATE (R474). -/
inductive PartState where
  | idle | startPending | running | switchDeferred | saving | restoring
  deriving DecidableEq, Repr

/-- What a valid save header says (R466), kept for the resume's first frame (R470). -/
structure Resume where
  entry : Nat
  rep : Nat
  stepEntry : Nat
  stepRep : Nat
  variant : Nat
  hold : Bool
  rewind : Bool
  cores : Nat
  seqs : List (Nat × Nat × Nat)
  firstTick : Nat := 0
  loaded : Bool := false
  deriving DecidableEq, Repr

/-- A partition (R460 to R474) and its watch registers (R129). `next`: the decision its cores take at the next edge
(R122, R126); `abort`: the fault its report carries (R477) and whether it arose here; `windowTicks`: for each replay and
wide run of the last 1,024 ticks, the edges since it began (R127); `ctl`: RETRY (true) or SKIP (false) written on the
master; `restart`: the tick stopped under the context, which starts again at tick 0 (R128). -/
structure Part where
  reserved : Bool := false
  enable : Bool := false
  count : Nat := 0
  first : Nat := 0
  image : Option Image := none
  state : PartState := .idle
  ctxId : Word32 := 0
  nextId : Word32 := 0
  ring : RingId := 0
  startTick : Nat := 0
  resumeOff : BitVec 32 := 0
  resumeValid : Bool := false
  resume : Option Resume := none
  stopReq : Option Bool := none
  saveOff : Nat := 0
  saveStatus : Option Status := none
  saveTick : Nat := 0
  variant : Variant := .normal
  held : Bool := false
  escalated : Bool := false
  stepFailed : Bool := false
  failedSteps : Nat := 0
  replays : Nat := 0
  windowTicks : List Nat := []
  aboveEight : Bool := false
  voteFlags : Word := 0
  voteActive : Word := 0
  ctl : Option Bool := none
  restart : Bool := false
  rewindTo : Option Variant := none
  abort : Option Status := none
  faultHere : Bool := false
  faultCore : Option Nat := none
  deriving DecidableEq, Repr

/-! ## Recovery, power -/

/-- Reset-domain kinds (R480). -/
inductive DomKind where
  | device | die | cluster | port | engine | stack
  deriving DecidableEq, Repr

/-- How far the running recovery has come (R483). -/
inductive RecPhase where
  | draining | awaitEpoch | resetting | fuseWait
  deriving DecidableEq, Repr

/-- A recovery: domain, index, what began it (1 hang, 2 QCP RESET), and its phase. -/
structure Recov where
  kind : DomKind
  index : Nat
  trigger : Nat
  phase : RecPhase := .draining
  deriving DecidableEq, Repr

/-- A suspect (R486, R492). -/
inductive Suspect where
  | ctx (id : Word32) (part : Nat) (epoch : Half)
  | media (engine session : Nat) (epoch : Half)
  deriving DecidableEq, Repr

structure Recovery where
  hbLimit : Nat := 4
  drain : Nat := 0x64
  epoch : Half := 0
  lastKind : Nat := 0
  lastIndex : Nat := 0
  suspects : Vector (Option Suspect) 16 := Vector.replicate 16 none
  suspectOvf : Bool := false
  current : Option Recov := none
  waiting : List Recov := []
  missed : Vector Nat 96 := Vector.replicate 96 0
  hangs : Nat := 0
  recoveries : Nat := 0
  integrity : Nat := 0
  fenceRefused : Nat := 0
  crashBase : BitVec 23 := 0
  crashValid : Bool := false
  crashMissed : Nat := 0
  crashKind : Nat := 0
  crashIndex : Nat := 0
  bumpEpoch : Bool := false
  deriving DecidableEq, Repr

/-- A die's band (R503). -/
inductive DieBand where
  | normal | stretch | stop
  deriving DecidableEq, Repr

structure Power where
  cap : Nat := 0x258
  window : Nat := 0x10
  on : BitVec 28 := 0
  raising : List (Fin 30) := []
  samples : List Nat := []
  average : Nat := 0
  peak : Nat := 0
  last : Nat := 0
  quiet : Nat := 0
  quietFor : Option Nat := none
  capRequests : Nat := 0
  thermRequests : Nat := 0
  dieTemp : Vector Nat 13 := Vector.replicate 13 0
  dieBand : Vector DieBand 13 := Vector.replicate 13 .normal
  stretchAsk : Bool := false
  thermAbort : Bool := false
  tripped : Bool := false
  deriving DecidableEq, Repr

/-! ## Start-up and security -/

/-- What fuses hold: grade, core map, identifiers, keys, anti-rollback counter (R4, R17, R432, R516, R522, R524). -/
structure Fuses where
  gradeB : Bool := false
  coreMap : Vector Word 16
  uid : Word := 0
  mac : Vector (BitVec 48) 2 := Vector.replicate 2 0
  rootKeys : Vector (List Byte) 4 := Vector.replicate 4 []
  revoked : BitVec 4 := 0
  svn : Nat := 0
  deriving DecidableEq, Repr

/-- The configuration copy in force and its outcome (R512 to R514, R525). -/
structure Cfg where
  defaulted : Bool := false
  copy : Nat := 0
  seq : Nat := 0
  reason0 : Nat := 0
  reason1 : Nat := 0
  memberNone : Bool := false
  clustersOff : Nat := 0
  ftl : Nat := 0
  tagged : Bool := false
  vlan : Nat := 0
  key : Option (List Byte) := none
  keyGen : Nat := 0
  nextKey : Option (Option (List Byte) × Nat) := none
  applied : Bool := false
  chip : Half := 0
  deriving DecidableEq, Repr

/-- Boot outcome and the running firmware (R515 to R517, R525). -/
structure Boot where
  powered : Bool := false
  booted : Bool := false
  version : Nat := 0
  imageSvn : Nat := 0
  gen : Nat := 0
  key : Nat := 0
  failed : Nat := 0
  slot : Nat := 0
  fallback : Bool := false
  abi : Nat := 0
  rsaPub : List Byte := []
  slhPub : List Byte := []
  meas : Vector (List Byte) 4 := Vector.replicate 4 (List.replicate 48 0)
  deriving DecidableEq, Repr

/-- The security mailbox (R518). `attestMeas`: M0 to M3 when ATTEST began; `stage`, `outcome`: what a flash write in
progress still has to write, and the status it ends with (R519, R520). -/
structure Sec where
  arg : BitVec 48 := 0
  busy : Option Nat := none
  attestMeas : List Byte := []
  stage : List Byte := []
  outcome : Nat := 0
  lastCmd : Nat := 0
  code : Nat := 0
  perms : Nat := 0
  nonce : Word := 0
  deriving DecidableEq, Repr

/-! ## Proof, trace, test port, pins -/

/-- A trace entry awaiting its drain (R534). -/
structure TraceEntry where
  type : Nat
  code : Nat
  core : Nat
  tag : Nat
  value : Word
  tick : Nat
  cc : Nat
  deriving DecidableEq, Repr

structure Proof where
  errBcast : Bool := false
  bcastEn : Bool := true
  qcpEn : Bool := true
  errEn : Bool := false
  tickEn : Bool := false
  tickLo : Word := 0xFFFFFFFF00000000#64
  tickHi : Word := 0xFFFFFFFF00000000#64
  errMask : Half := 0
  armed : Bool := true
  missed : Nat := 0
  source : Nat := 0
  banks : List (List Word) := []
  bcastAt : Option Nat := none
  traceLog2 : Nat := 0x0B
  traceRec : Bool := false
  traceFail : Bool := false
  traceEdge : Bool := false
  traceMark : Bool := false
  traceWrap : Bool := false
  traceEn : Bool := false
  traceBase : BitVec 32 := 0
  traceCores : BitVec 128 := 0
  dropped : Nat := 0
  full : Bool := false
  next : Nat := 0
  accepted : Nat := 0
  queue : List TraceEntry := []
  deriving DecidableEq, Repr

/-- The selected instruction of the test port (R538). -/
inductive TapInstr where
  | idcode | samplePreload | extest | clamp | highz | bypass | regacc
  deriving DecidableEq, Repr

structure Tap where
  ir : TapInstr := .idcode
  preload : Option Word := none
  dr : BitVec 128 := 0
  deriving DecidableEq, Repr

/-- The sideband's offset pointer (R552). -/
structure Sideband where
  offset : Option (BitVec 48) := none
  deriving DecidableEq, Repr

/-! ## What leaves the package -/

/-- A message or effect that leaves the package (the model's own log, notes/assumptions/9.md). -/
inductive Output where
  | mgmt (port : Nat) (header : List Byte) (m : Mgmt)
  | qcp (dst : Word) (msg : List Byte)
  | record (r : RingId) (addr : Nat) (bytes : List Byte)
  | rdmaAck (port : Fin 2) (qp : Fin 64)
  | rdmaData (port : Fin 2) (qp : Fin 64) (data : List Byte)
  | rdmaNak (port : Fin 2) (qp : Fin 64) (kind : String)
  | cnp (port : Fin 2) (qp : Fin 64)
  | arpReply (port : Fin 2) (dst : Word)
  | ndReply (port : Fin 2) (dst : BitVec 128)
  | echoReply (port : Fin 2) (v6 : Bool) (payload : List Byte)
  | strokes (port : Nat) (s : List (List Byte))
  | folioPromote (dst : Half) (slot : Nat)
  | folioRefresh (dst : Half) (slot : Nat)
  | folioEnd (dst : Half) (slot : Nat)
  | folioProbe (dst : Half) (slot : Nat)
  | folioWriteBack (dst : Half) (slot : Nat) (keep : Bool) (format : Word32) (data : List Byte)
  | folioAnswer (dst : Half) (slot : Nat) (st : Status) (format : Word32) (data : List Byte)
  | identity (port : Nat) (body : List Byte) (reached : Nat)
  | tap (ir : TapInstr) (dr : BitVec 128)
  | i3c (data : Option Word)
  | thermtrip
  | access (st : Status) (data : List Byte)
  deriving DecidableEq, Repr

/-! ## The package -/

structure State where
  mem : Memory := {}
  nand : Memory := {}
  bootFlash : Memory := {}
  damage : List (Nat × List (Nat × Byte)) := []
  fuses : Fuses
  chipId : Word := 0xFFFFFFFF00000000#64
  cores : Vector Core 128 := Vector.replicate 128 {}
  tick : Tick := {}
  hbmStacks : Vector Stack 12 := Vector.replicate 12 {}
  folio : Folio := {}
  ftl : Ftl := {}
  fabric : Fabric := {}
  ports : Vector Port 36
  coll : Coll := {}
  engines : Vector Engine 8 := Vector.replicate 8 {}
  mediaBw : Vector Nat 2 := Vector.replicate 2 8
  eth : Vector EthPort 2 := Vector.replicate 2 {}
  windows : Vector Window 16 := Vector.replicate 16 {}
  rings : Vector Ring 16 := Vector.replicate 16 {}
  qcp : Qcp := {}
  parts : Vector Part 8
  recov : Recovery := {}
  power : Power := {}
  cfg : Cfg := {}
  boot : Boot := {}
  sec : Sec := {}
  proof : Proof := {}
  tap : Tap := {}
  i3c : Sideband := {}
  drive : Bool := true
  free : Nat := 0
  out : List Output := []
  pending : List Instr := []
  deriving DecidableEq, Repr

/-- Why the machine stops. -/
inductive Fault where
  /-- Raised by a meaning whose command carries operands that no sender can supply (a stroke that is not 544 bytes, a
  header list of the wrong length). Safe: no real event has such a shape. -/
  | illFormed (what : String)
  deriving DecidableEq, Repr

/-- Why a command has no meaning. -/
inductive Refusal where
  /-- Raised by a dispatch arm of a command that is not modelled yet. Safe: nothing is claimed about it. -/
  | notModelled (mnemonic : String)
  deriving DecidableEq, Repr

/-- The identity core map of an OZV12-A part: logical core n is physical core n (notes/assumptions/10.md). -/
def identityMapEntry (k : Nat) : Word :=
  (List.range 8).foldl (fun w i =>
    w ||| BitVec.ofNat 64 ((0x80 + 32 * ((8 * k + i) / 32) + 8 * ((8 * k + i) / 8 % 4) + i) <<< (8 * i))) 0

/-- LEVEL of a port by its number (R348). -/
def portLevel (p : Nat) : Nat := if p < 21 then 0 else if p < 28 then 1 else if p < 32 then 2 else 3

/-- The partitions at reset: partition 0 covers every logical cluster (R474). -/
def resetParts (logicalCores : Nat) : Vector Part 8 :=
  Vector.ofFn fun (p : Fin 8) => if p.val = 0 then { enable := true, count := logicalCores / 8 - 1 } else {}

/-- The machine right after COLD_RESET_N: every register at its reset value, every memory at 0
(notes/assumptions/1.md), no command waiting. -/
def State.reset : State where
  fuses := { coreMap := Vector.ofFn fun (k : Fin 16) => identityMapEntry k.val }
  ports := Vector.ofFn fun (p : Fin 36) => { level := portLevel p.val, logical := 0 }
  parts := resetParts 128

end Sys2Proof.Machine
end

