-- ==== Sys2Proof/Machine/Ops.lean ====
section
/-! DEFINITION. The named operations over memory, cores and the shared logs: byte memory in canonical form, the local
address map (R21 to R25), HBM access with its code (R284 to R291), protections (R196, R305, R379, R381), completion
records (R453 to R457), trace entries (R534), and the engine monad. -/
namespace Sys2Proof.Machine

/-! ## Memory -/

/-- Entry a of a sorted cell list set to v, or removed. -/
def cellPut (a : Nat) (o : Option Byte) : List Host.Cell → List Host.Cell
  | [] => match o with
    | none => []
    | some v => [(a, v)]
  | (b, w) :: r =>
    if a < b then (match o with
      | none => (b, w) :: r
      | some v => (a, v) :: (b, w) :: r)
    else if a = b then (match o with
      | none => r
      | some v => (a, v) :: r)
    else (b, w) :: cellPut a o r

def cellGet (a : Nat) : List Host.Cell → Option Byte
  | [] => none
  | (b, w) :: r => if a = b then some w else if a < b then none else cellGet a r

/-- Stack, pseudo-channel and offset within it (R284). -/
def hbmMap (o : Nat) : Nat × Nat × Nat :=
  let g := o / 256
  let u := g % 384
  (u % 12, u / 12, g / 384 * 256 + o % 256)

/-- An open range holds address a. -/
def OpenRange.holds (r : OpenRange) (a : Nat) : Bool :=
  decide (r.base ≤ a) && decide (a < r.base + r.len) && (match r.stack with
    | none => true
    | some k =>
      let m := hbmMap (r.origin + (a - r.base))
      m.1 == k && (match r.pc with
        | none => true
        | some p => m.2.1 == p))

/-- The first open range that holds a. -/
def openAt (a : Nat) : List OpenRange → Option OpenRange
  | [] => none
  | r :: rs => if r.holds a then some r else openAt a rs

/-- What an unlisted address reads as: 0, or a free value inside an open range (notes/assumptions/1.md). -/
def Memory.blank (m : Memory) (a : Nat) : Byte :=
  match openAt a m.opens with
  | some r => Config.freeByte r.stamp (r.origin + (a - r.base))
  | none => 0

def Memory.byte (m : Memory) (a : Nat) : Byte := (cellGet a m.cells).getD (m.blank a)

def Memory.setByte (m : Memory) (a : Nat) (v : Byte) : Memory :=
  if v = 0 ∧ openAt a m.opens = none then { m with cells := cellPut a none m.cells }
  else { m with cells := cellPut a (some v) m.cells }

def Memory.bytes (m : Memory) (a n : Nat) : List Byte := (List.range n).map fun i => m.byte (a + i)

def Memory.setBytes (m : Memory) (a : Nat) : List Byte → Memory
  | [] => m
  | v :: vs => (m.setByte a v).setBytes (a + 1) vs

/-- The parts of an open range that lie outside [a, a + n). -/
def openMinus (a n : Nat) (o : OpenRange) : List OpenRange :=
  let e := o.base + o.len
  if e ≤ a ∨ a + n ≤ o.base then [o]
  else (if o.base < a then [{ o with len := a - o.base }] else [])
    ++ (if a + n < e then [⟨a + n, e - (a + n), o.stamp, o.origin + (a + n - o.base), o.stack, o.pc⟩] else [])

/-- The part of an open range inside [a, a + n), moved to b. -/
def openMove (a n b : Nat) (o : OpenRange) : List OpenRange :=
  let lo := max a o.base
  let hi := min (a + n) (o.base + o.len)
  if hi ≤ lo then [] else [⟨b + (lo - a), hi - lo, o.stamp, o.origin + (lo - o.base), o.stack, o.pc⟩]

def inRange (a n : Nat) (c : Host.Cell) : Bool := decide (a ≤ c.1) && decide (c.1 < a + n)

/-- A range that reads as zero from now on. -/
def Memory.zero (m : Memory) (a n : Nat) : Memory :=
  { cells := m.cells.filter fun c => !inRange a n c, opens := m.opens.flatMap (openMinus a n) }

/-- A range whose content is undefined from now on (stamp st). -/
def Memory.forget (m : Memory) (a n st : Nat) : Memory :=
  { cells := m.cells.filter fun c => !inRange a n c, opens := ⟨a, n, st, a, none, none⟩ :: m.opens }

/-- The contents of scratchpad and accumulator windows are undefined from now on (stamps st and st + 1); the bytes above the
table control word, at `rsv`, still read as zero (R193). -/
def Memory.forgetCore (m : Memory) (spm spmLen rsv acc accLen st : Nat) : Memory :=
  ((m.forget spm spmLen st).forget acc accLen (st + 1)).zero rsv 56

/-- The contents of an HBM stack, or of one pseudo-channel of it, are undefined from now on (stamp st); n bytes of
HBM. -/
def Memory.forgetStack (m : Memory) (n k : Nat) (pc : Option Nat) (st : Nat) : Memory :=
  let o : OpenRange := ⟨0, n, st, 0, some k, pc⟩
  { cells := m.cells.filter fun c => !o.holds c.1, opens := o :: m.opens }

/-- The bytes [a, a + n) copied to b; the ranges do not overlap. -/
def Memory.copy (m : Memory) (a n b : Nat) : Memory :=
  let z := m.zero b n
  { cells := z.cells.filter (fun c => decide (c.1 < b))
      ++ (m.cells.filter (inRange a n)).map (fun c => (c.1 - a + b, c.2)) ++ z.cells.filter (fun c => !decide (c.1 < b)),
    opens := m.opens.flatMap (openMove a n b) ++ z.opens }

def risingFrom : List Host.Cell → Bool
  | [] => true
  | [_] => true
  | a :: b :: r => decide (a.1 < b.1) && risingFrom (b :: r)

/-- The canonical form of memory. -/
def Memory.wf (m : Memory) : Bool :=
  risingFrom m.cells && m.cells.all fun c => c.2 != 0 || (openAt c.1 m.opens).isSome

def State.peek (s : State) (off n : Nat) : List Byte := s.mem.bytes off n
/-- The V12's own write, without the checks that requests meet. -/
def State.poke (s : State) (off : Nat) (bs : List Byte) : State := { s with mem := s.mem.setBytes off bs }
def State.peek64 (s : State) (off : Nat) : Word := BitVec.ofNat 64 (leNat (s.peek off 8))

/-- A fresh free 64-bit value (notes/assumptions/3.md). -/
def State.draw (s : State) : Word × State := (Config.freeWord s.free, { s with free := s.free + 1 })

def State.emit (s : State) (o : Output) : State := { s with out := s.out ++ [o] }

/-! ## Indexed updates -/

def State.core (s : State) (c : CoreId) : Core := s.cores[c]
def State.setCore (s : State) (c : CoreId) (x : Core) : State := { s with cores := s.cores.set c.val x c.isLt }
def State.modCore (s : State) (c : CoreId) (f : Core → Core) : State := s.setCore c (f (s.core c))
def State.stack (s : State) (i : StackId) : Stack := s.hbmStacks[i]
def State.setStack (s : State) (i : StackId) (x : Stack) : State := { s with hbmStacks := s.hbmStacks.set i.val x i.isLt }
def State.modStack (s : State) (i : StackId) (f : Stack → Stack) : State := s.setStack i (f (s.stack i))
def State.part (s : State) (p : PartId) : Part := s.parts[p]
def State.setPart (s : State) (p : PartId) (x : Part) : State := { s with parts := s.parts.set p.val x p.isLt }
def State.modPart (s : State) (p : PartId) (f : Part → Part) : State := s.setPart p (f (s.part p))
def State.port (s : State) (p : PortId) : Port := s.ports[p]
def State.setPort (s : State) (p : PortId) (x : Port) : State := { s with ports := s.ports.set p.val x p.isLt }
def State.modPort (s : State) (p : PortId) (f : Port → Port) : State := s.setPort p (f (s.port p))
def State.ring (s : State) (r : RingId) : Ring := s.rings[r]
def State.setRing (s : State) (r : RingId) (x : Ring) : State := { s with rings := s.rings.set r.val x r.isLt }
def State.modRing (s : State) (r : RingId) (f : Ring → Ring) : State := s.setRing r (f (s.ring r))
def State.engine (s : State) (e : EngineId) : Engine := s.engines[e]
def State.setEngine (s : State) (e : EngineId) (x : Engine) : State :=
  { s with engines := s.engines.set e.val x e.isLt }
def State.modEngine (s : State) (e : EngineId) (f : Engine → Engine) : State := s.setEngine e (f (s.engine e))
def State.setEth (s : State) (p : Fin 2) (x : EthPort) : State := { s with eth := s.eth.set p.val x p.isLt }
def State.modEth (s : State) (p : Fin 2) (f : EthPort → EthPort) : State := s.setEth p (f s.eth[p])
def State.qp (s : State) (p : Fin 2) (q : Fin 64) : Qp := s.eth[p].qps[q]
def State.modQp (s : State) (p : Fin 2) (q : Fin 64) (f : Qp → Qp) : State :=
  s.modEth p fun e => { e with qps := e.qps.set q.val (f e.qps[q]) q.isLt }

/-- A function over the indices of a fixed-count unit, in ascending order. -/
def overFin (n : Nat) (f : Fin n → State → State) (s : State) : State := (List.finRange n).foldl (fun t i => f i t) s

def State.coreIds : List CoreId := List.finRange 128

/-! ## Identity and lookups -/

def State.logicalCores (s : State) : Nat := if s.fuses.gradeB then 112 else 128
/-- The chip's own number (R20). -/
def State.chip (s : State) : Nat := pairVal s.chipId % 65536
def State.epoch (s : State) : Half := s.recov.epoch

/-- The enabled partition that holds a core (R460). -/
def State.partOf (s : State) (c : CoreId) : Option PartId :=
  (List.finRange 8).find? fun p =>
    let x := s.part p
    x.enable && decide (8 * x.first ≤ c.val) && decide (c.val < 8 * (x.first + x.count + 1))

/-- The partition, its image and the core's entry, for a core that the loaded image was compiled for (R461, R62). -/
def State.imageOf (s : State) (c : CoreId) : Option (PartId × Image × CoreImage) :=
  match s.partOf c with
  | none => none
  | some p =>
    match (s.part p).image with
    | none => none
    | some im =>
      let i := c.val - 8 * (s.part p).first
      if i < im.cores then (im.table[i]?).map fun e => (p, im, e) else none

/-- True while a context runs on the partition. -/
def Part.active (p : Part) : Bool :=
  match p.state with
  | .idle | .startPending => false
  | _ => true

def PartState.code : PartState → Nat
  | .idle => 0 | .startPending => 1 | .running => 2 | .switchDeferred => 3 | .saving => 4 | .restoring => 5

def Variant.code : Variant → Nat
  | .normal => 0 | .replay => 1 | .wide => 2

def Variant.ofCode : Nat → Variant
  | 1 => .replay | 2 => .wide | _ => .normal

def Core.queue (x : Core) : QueueId → Queue
  | .bq => x.bq | .hq => x.hq | .sq => x.sq

def Core.setQueue (x : Core) (q : QueueId) (y : Queue) : Core :=
  match q with
  | .bq => { x with bq := y } | .hq => { x with hq := y } | .sq => { x with sq := y }

def Core.allCmds (x : Core) : List QCmd := x.bq.cmds ++ x.hq.cmds ++ x.sq.cmds

/-- BURIN_BANKS: banks of commands in progress (R158). -/
def Core.banks (x : Core) : Word := x.allCmds.foldl (fun w q => if q.started then w ||| q.banks else w) 0

/-- A command issued with SPAN has not ended (R92). -/
def Core.spanning (x : Core) : Bool := x.allCmds.any (·.span)

/-! ## Physical mapping, domains -/

/-- The physical compute die and cluster of a logical core (R17). -/
def State.physical (s : State) (c : Nat) : Nat × Nat :=
  let e := field (s.fuses.coreMap.toList.getD (c / 8) 0) (8 * (c % 8) + 7) (8 * (c % 8))
  (e / 32 % 4, e / 8 % 4)

/-- The power domain of a core's cluster is off (R494, R496). -/
def State.coreOff (s : State) (c : Nat) : Bool :=
  let (d, k) := s.physical c
  s.boot.booted && !(flag s.power.on (4 * d + k))

/-- The recovery domain fence that holds a core (R483 step 2). -/
def Recov.hasCore (s : State) (r : Recov) (c : Nat) : Bool :=
  match r.kind with
  | .device => true
  | .die => decide (r.index < 4) && decide ((s.physical c).1 = r.index)
  | .cluster => decide (c / 8 = r.index)
  | _ => false

def State.coreFenced (s : State) (c : Nat) : Bool :=
  s.coreOff c || (match s.recov.current with
    | some r => r.hasCore s c
    | none => false)

/-! ## Counting and recording -/

/-- A request ends with a status (R479): INTEGRITY outcomes are counted. -/
def State.countIntegrity (s : State) (st : Status) : State :=
  if st = .integrity then { s with recov := { s.recov with integrity := satAdd 16 s.recov.integrity 1 } } else s

def State.badWrite (s : State) : State := { s with tick := { s.tick with badWrite := true } }

/-- An entry for the trace queue (R534, R535). -/
def State.trace (s : State) (on : Proof → Bool) (e : TraceEntry) : State :=
  let p := s.proof
  if p.traceEn && on p && !p.full then
    if p.queue.length < 4096 then { s with proof := { p with queue := p.queue ++ [e] } }
    else { s with proof := { p with dropped := satAdd 16 p.dropped 1 } }
  else s

/-- Core cycles since the edge, as the state's clock shows them. -/
def State.sinceEdge (s : State) : Nat := s.tick.time - s.tick.edge

/-- A record for a ring's backlog (R457). A ring that is not set takes none. -/
def State.post (s : State) (r : RingId) (x : Rec) : State :=
  let g := s.ring r
  let drop : State :=
    { s.setRing r { g with lost := satAdd 32 g.lost 1, lostFlag := true } with
      qcp := { s.qcp with recordsLost := satAdd 16 s.qcp.recordsLost 1 } }
  if ¬ g.set then s
  else if (s.qp g.port g.qp).state ≠ .ready then drop
  else if x.post.isNone ∧ (g.backlog.filter (·.post.isNone)).length ≥ 64 then drop
  else s.setRing r { g with backlog := g.backlog ++ [x] }

def le (n v : Nat) : List Byte := bytesLE n v
def zeros (n : Nat) : List Byte := List.replicate n 0

/-- A body of 36 bytes from its parts. -/
def bodyOf (parts : List (Nat × List Byte)) : List Byte :=
  slice (parts.foldl (fun b x => overlay b (x.1 - 0x18) x.2) (zeros 36)) 0 36

def State.ringOf (n : Nat) : RingId := ⟨n % 16, Nat.mod_lt _ (by decide)⟩

/-- CORE_FAULT of a core (R92). -/
def Core.faultWord (x : Core) : Word :=
  match x.fault with
  | none => 0
  | some f => BitVec.ofNat 64 (place (statusCode f.code) 48 + place f.queue 46 + f.seq % 2 ^ 32)

/-- CONTEXT record of a partition (R455). -/
def State.contextRecord (s : State) (p : PartId) (code : Status) (reason : Nat) (faulty : Option Nat) : State :=
  let x := s.part p
  let fw : Word := match faulty with
    | some c => (s.cores.toList.getD c {}).faultWord
    | none => 0
  s.post x.ring { type := 1, code := statusCode code, tick := s.tick.number, body := bodyOf [
      (0x18, le 1 p.val), (0x19, le 1 reason), (0x1A, le 2 (faulty.getD 0xFFFF)), (0x1C, le 4 x.ctxId.toNat),
     (0x20, le 8 fw.toNat)] }

/-- TICK record (R455). -/
def State.tickRecord (s : State) (code : Status) (late : Nat) : State :=
  s.post (State.ringOf s.qcp.routeTick) { type := 2, code := statusCode code, tick := s.tick.number, body := bodyOf [
      (0x18, le 16 late), (0x28, le 1 s.tick.step)] }

/-- PRECISION record (R455). -/
def State.precisionRecord (s : State) (p : PartId) (kind entry : Nat) (vf va : Word) : State :=
  s.post (s.part p).ring { type := 3, code := 0, tick := s.tick.number, body := bodyOf [
      (0x18, le 1 p.val), (0x19, le 1 kind), (0x1C, le 4 entry), (0x20, le 8 vf.toNat), (0x28, le 8 va.toNat)] }

/-- DEVICE record (R455). -/
def State.deviceRecord (s : State) (code : Status) (source index detail : Nat) : State :=
  s.post (State.ringOf s.qcp.routeDevice) { type := 4, code := statusCode code, tick := s.tick.number, body := bodyOf [
      (0x18, le 1 source), (0x19, le 1 index), (0x20, le 8 detail)] }

/-- MEDIA record (R412, R455). -/
def State.mediaRecord (s : State) (e : EngineId) (session : Nat) (status result : Word) : State :=
  s.post (State.ringOf s.qcp.routeMedia) { type := 6, code := status.toNat % 256, tick := s.tick.number, body := bodyOf [
      (0x18, le 1 e.val), (0x19, le 1 session), (0x20, le 8 status.toNat), (0x28, le 8 result.toNat)] }

/-! ## Address map -/

/-- Where a local offset lies (R21). -/
inductive Place where
  | hbm
  | spm (c : Nat) (o : Nat)
  | acc (c : Nat) (o : Nat)
  | reg
  | flash (o : Nat)
  deriving DecidableEq, Repr

def hbmEnd : Nat := 0x009000000000
def spmBase : Nat := 0x010000000000
def spmSize : Nat := 0x800000
def accBase : Nat := 0x010100000000
def accSize : Nat := 0x100000
def regBase : Nat := 0x020000000000
def regEnd : Nat := 0x02000A000000
def flashBase : Nat := 0x100000000000
def flashEnd : Nat := 0x500000000000

def spmOf (c : Nat) : Nat := spmBase + c * spmSize
def accOf (c : Nat) : Nat := accBase + c * accSize

/-- The place of [off, off + n) with n positive, or none where R23 refuses it (reserved, or across a region's end). -/
def State.locate (s : State) (off n : Nat) : Option Place :=
  if off < hbmEnd then (if off + n ≤ hbmEnd then some .hbm else none)
  else if spmBase ≤ off ∧ off < spmBase + s.logicalCores * spmSize then
    let c := (off - spmBase) / spmSize
    let o := (off - spmBase) % spmSize
    if o + n ≤ spmSize then some (.spm c o) else none
  else if accBase ≤ off ∧ off < accBase + s.logicalCores * accSize then
    let c := (off - accBase) / accSize
    let o := (off - accBase) % accSize
    if o + n ≤ accSize then some (.acc c o) else none
  else if regBase ≤ off ∧ off < regEnd then (if off + n ≤ regEnd then some .reg else none)
  else if flashBase ≤ off ∧ off < flashEnd then
    let top := if s.ftl.ready then min flashEnd (flashBase + s.ftl.capacity * 65536) else flashEnd
    if off + n ≤ top then some (.flash (off - flashBase)) else none
  else none

/-! ## HBM -/

/-- The local offset of a stack's pseudo-channel offset (the inverse of R284). -/
def hbmUnmap (stack pc p : Nat) : Nat := (p / 256 * 384 + pc * 12 + stack) * 256 + p % 256

/-- The row of a codeword (R285). -/
def rowOf (pc p : Nat) : RowRef :=
  { pc := ⟨pc % 32, Nat.mod_lt _ (by decide)⟩, sid := BitVec.ofNat 2 (p / 2 ^ 29), bankGroup := BitVec.ofNat 2 (p / 2 ^ 12),
    bank := BitVec.ofNat 2 (p / 2 ^ 10), row := BitVec.ofNat 15 (p / 2 ^ 14) }

/-- Stacks that [off, off + n) touches. -/
def stacksOf (off n : Nat) : List StackId :=
  if n = 0 then []
  else
    let g0 := off / 256
    let g1 := (off + n - 1) / 256
    if g1 - g0 ≥ 11 then List.finRange 12
    else (List.range (g1 - g0 + 1)).map fun i => ⟨((g0 + i) % 384) % 12, Nat.mod_lt _ (by decide)⟩

/-- Why a stack serves no request (R293, R295 to R297, R483, R496); notes/assumptions/11.md for an untrained one. -/
def Stack.refuses (x : Stack) : Option Status :=
  if x.maint then some .fenced
  else if x.fenced then some (if x.cause = .thermal then .thermal else .fenced)
  else if x.ready then none
  else some .fenced

def State.hbmRefuses (s : State) (off n : Nat) : Option Status :=
  (stacksOf off n).findSome? fun i => (s.stack i).refuses

/-- The engine monad: a status ends the command, what it changed before remains (R77). -/
abbrev Eng := ExceptT Status (StateM State)

def Eng.exec {α : Type} (m : Eng α) (s : State) : Except Status α × State := (m.run).run s

/-- The status with which an engine program ends. -/
def Eng.outcome {α : Type} (m : Eng α) (s : State) : Status × State :=
  match m.exec s with
  | (.ok _, t) => (.ok, t)
  | (.error e, t) => (e, t)

/-- A failing check. -/
def need (b : Bool) (st : Status) : Eng Unit := if b then pure () else throw st

def getPair (w : Word) : Eng Nat := if pairOk w then pure (pairVal w) else throw .integrity

/-- Enters a row in the candidate list (R291). -/
def Stack.listRow (x : Stack) (r : RowRef) : Stack :=
  let cs := x.cands.toList
  match cs.findIdx? (fun o => (o.map (·.row)) == some r) with
  | some i => { x with cands := Vector.ofFn fun (k : Fin 8) =>
      if k.val = i then (x.cands[k]).map fun c => { c with count := Nat.min 31 (c.count + 1) } else x.cands[k] }
  | none =>
    match cs.findIdx? Option.isNone with
    | some i => { x with cands := Vector.ofFn fun (k : Fin 8) => if k.val = i then some ⟨r, 1⟩ else x.cands[k] }
    | none => { x with candFull := true }

/-- The records of one correction of n symbols (R288, R291). -/
def Stack.correct (x : Stack) (line pc p n : Nat) : Stack :=
  let r := rowOf pc p
  let twice := x.lastCorrected.toList.getD pc none == some r
  let y := { x with
    corrected := satAdd 32 x.corrected 1, ce := ⟨true, n, line⟩,
    lastCorrected := Vector.ofFn fun (k : Fin 32) => if k.val = pc then some r else x.lastCorrected[k] }
  if n ≥ 3 ∨ twice then y.listRow r else y

def State.stackAt (s : State) (i : Nat) (f : Stack → Stack) : State :=
  s.modStack ⟨i % 12, Nat.mod_lt _ (by decide)⟩ f

/-- The error pattern stored with a line (none: a clean codeword). -/
def State.damageOf (s : State) (line : Nat) : Pattern := ((s.damage.find? fun x => x.1 == line).map (·.2)).getD []

def State.setDamage (s : State) (line : Nat) (e : Pattern) : State :=
  let rest := s.damage.filter fun x => x.1 != line
  { s with damage := if e.isEmpty then rest else insertBy (fun a b => decide (a.1 ≤ b.1)) (line, e) rest }

/-- The 64 data bytes that a decode of pattern e with correction f delivers. -/
def residual (data : List Byte) (e f : Pattern) : List Byte :=
  let r := patternAdd e f
  (List.range 64).map fun n => byteAt data n ^^^ ((r.find? fun x => x.1 == 71 - n).map (·.2)).getD 0

/-- Reads one codeword through the decoder (R287, R288): its 64 data bytes, or DATA_ECC. -/
def readLine (line : Nat) : Eng (List Byte) := do
  let s ← get
  let data := s.peek line 64
  match s.damageOf line with
  | [] => pure data
  | e =>
    let (st, pc, p) := hbmMap line
    match rsDecode 72 8 4 e with
    | none =>
      set (s.stackAt st fun x => { x with uncorrected := satAdd 16 x.uncorrected 1, ue := ⟨true, 0, line⟩ })
      throw .dataEcc
    | some f =>
      if ¬ f.isEmpty then set (s.stackAt st fun x => x.correct line pc p f.length)
      pure (residual data e f)

/-- The lines of [off, off + n), ascending. -/
def linesOf (off n : Nat) : List Nat :=
  if n = 0 then [] else (List.range ((off + n - 1) / 64 - off / 64 + 1)).map fun i => (off / 64 + i) * 64

def hasDamage (s : State) (off n : Nat) : Bool :=
  s.damage.any fun x => decide (x.1 < off + n) && decide (off < x.1 + 64)

/-- A read of HBM (R288). -/
def hbmRead (off n : Nat) : Eng (List Byte) := do
  let s ← get
  match s.hbmRefuses off n with
  | some st => throw st
  | none => pure ()
  if hasDamage s off n then
    let ls ← (linesOf off n).mapM readLine
    pure (slice ls.flatten (off % 64) n)
  else pure (s.peek off n)

/-- A write of one codeword's bytes [off, off + data.length) (R289). -/
def writeLine (off : Nat) (data : List Byte) : Eng Unit := do
  let line := off / 64 * 64
  if data.length < 64 then
    let old ← readLine line
    modify fun s => ((s.setDamage line []).poke line old).poke off data
  else modify fun s => (s.setDamage line []).poke off data

/-- Splits a write into its lines. -/
def splitLines : Nat → Nat → List Byte → List (Nat × List Byte)
  | 0, _, _ => []
  | _ + 1, _, [] => []
  | k + 1, off, bs =>
    let n := 64 - off % 64
    (off, bs.take n) :: splitLines k (off + n) (bs.drop n)

/-- A write of HBM (R289). -/
def hbmWrite (off : Nat) (data : List Byte) : Eng Unit := do
  let s ← get
  match s.hbmRefuses off data.length with
  | some st => throw st
  | none => pure ()
  if hasDamage s off data.length then
    (splitLines (data.length / 64 + 2) off data).forM fun x => writeLine x.1 x.2
  else modify fun s => s.poke off data

/-! ## Protected ranges -/

def overlaps (a n b k : Nat) : Bool := decide (a < b + k) && decide (b < a + n)

/-- Base of the pool region (R304). -/
def Folio.poolBase (f : Folio) : Nat := hbmEnd - f.share * 2 ^ 30
def Folio.dirSlots (f : Folio) : Nat := 16384 * f.dir
/-- Frames that the pool region holds (R304). -/
def Folio.frameCount (f : Folio) : Nat := 16 * (1024 * f.share - f.dir)
def Folio.frameOff (f : Folio) (i : Nat) : Nat := f.poolBase + f.dir * 2 ^ 20 + 65536 * i
/-- Local frame h (R311). -/
def Folio.tableOff (f : Folio) : Nat := f.t1Base * 65536
def Folio.localOff (f : Folio) (h : Nat) : Nat := f.tableOff + roundUp (64 * f.t1Count) 65536 + 65536 * h

/-- The collective table's offset (R379). -/
def Coll.tableOff (c : Coll) : Nat := c.base.toNat * 2 ^ 15

/-- An HBM range that requests may not touch now: the folio directory or local table (R305), the collective table
(R379). -/
def State.hbmGuarded (s : State) (off n : Nat) : Bool :=
  (s.folio.run && (overlaps off n s.folio.poolBase (64 * s.folio.dirSlots)
    || overlaps off n s.folio.tableOff (64 * s.folio.t1Count)))
  || (s.coll.run && overlaps off n s.coll.tableOff 32768)

/-- Window offset of the table control word (R193). -/
def controlOff : Nat := 0x7FF580
def State.control (s : State) (c : Nat) : Nat := (s.peek64 (spmOf c + controlOff)).toNat
def ctlActive (w : Nat) : Nat := w % 65536
def ctlPending (w : Nat) : Nat := w / 65536 % 65536
def ctlHeld (w : Nat) : Nat := w / 2 ^ 32 % 65536
def State.setControl (s : State) (c active pending held : Nat) : State :=
  s.poke (spmOf c + controlOff) (le 8 (active + place pending 16 + place held 32))

/-- Window offset and size of bank b of table t (R184, R211, R242). -/
def bankOff (t b : Nat) : Nat :=
  match t with
  | 0 => 0x7D8000 + b * 0x4000
  | 1 => 0x7D0000 + b * 0x4000
  | _ => 0x7C0000 + b * 0x8000
def bankSize (t : Nat) : Nat := if t = 2 then 0x8000 else 0x4000

/-- The scratchpad and the accumulator file of core n lose their contents (R485, R496). -/
def State.forgetCore (s : State) (n : Nat) : State :=
  { s with mem := s.mem.forgetCore (spmOf n) spmSize (spmOf n + controlOff + 8) (accOf n) accSize s.free, free := s.free + 2 }

/-- Bit t of a 16-bit field. -/
def bitOf (w t : Nat) : Nat := w / 2 ^ t % 2

/-- A scratchpad range that no request may write: control word, active and held banks (R196), sequence words (R381),
Etch slots (R336). -/
def State.spmGuarded (s : State) (c o n : Nat) : Bool :=
  let w := s.control c
  overlaps o n controlOff 64 || overlaps o n 0x7FE800 0x800 || overlaps o n 0x7E0000 0x4400
  || (List.range 3).any fun t =>
    overlaps o n (bankOff t (bitOf (ctlActive w) t)) (bankSize t)
    || (decide (bitOf (ctlHeld w) t = 1) && overlaps o n (bankOff t (1 - bitOf (ctlActive w) t)) (bankSize t))

/-- The accumulator banks of [o, o + n) as a mask. -/
def bankMask (o n : Nat) : Word :=
  if n = 0 then 0
  else (List.range ((o + n - 1) / 0x4000 - o / 0x4000 + 1)).foldl (fun w i => w ||| (1#64 <<< (o / 0x4000 + i))) 0

/-! ## Requests to a location of this chip -/

/-- Who makes a request: the core's own engines, or any other agent, by a window access. -/
inductive Requester where
  | engine (c : Nat)
  | window
  deriving DecidableEq, Repr

def countFence (s : State) : State :=
  { s with recov := { s.recov with fenceRefused := satAdd 16 s.recov.fenceRefused 1 } }

def fenced {α : Type} : Eng α := do
  modify countFence
  throw .fenced

def Requester.isOwn (r : Requester) (c : Nat) : Bool :=
  match r with
  | .engine d => d == c
  | .window => false

/-- Refusals of a request to an accumulator range (R25). -/
def accCheck (r : Requester) (c o n : Nat) : Eng Unit := do
  let s ← get
  if !r.isOwn c && (s.cores.toList.getD c {}).banks &&& bankMask o n != 0 then throw .allocFault

/-- A read of n bytes at a local offset, outside register and flash space. -/
def memRead (r : Requester) (off n : Nat) : Eng (List Byte) := do
  if n = 0 then return []
  let s ← get
  match s.locate off n with
  | some .hbm => do
    if s.hbmGuarded off n then throw .allocFault
    hbmRead off n
  | some (.spm c _) => do
    if !r.isOwn c && s.coreFenced c then fenced else pure (s.peek off n)
  | some (.acc c o) => do
    if !r.isOwn c && s.coreFenced c then fenced
    accCheck r c o n
    pure (s.peek off n)
  | _ => throw .allocFault

/-- Sets DIRTY of local entry h where LSTATE is a valid word and says VALID, WRITEBACK or FLUSHING (R311); the word is
read and written as HBM reads and writes are (R288, R289). -/
def dirtyOne (h : Nat) : Eng Unit := do
  let s ← get
  let o := s.folio.tableOff + 64 * h
  let bs ← hbmRead o 8
  let w := BitVec.ofNat 64 (leNat bs)
  let st := field w 31 29
  if pairOk w ∧ (st = 2 ∨ st = 3 ∨ st = 4) then
    hbmWrite o (pairBytes (pairVal w ||| 2 ^ 28))
    if st ≠ 2 then modify fun s => { s with folio := { s.folio with touched := insertNat h s.folio.touched } }

/-- Sets DIRTY of every local frame that a write to [off, off + n) lands in (R311). -/
def State.markDirty (s : State) (off n : Nat) : State :=
  let f := s.folio
  let base := f.localOff 0
  if f.t1Count = 0 ∨ n = 0 ∨ off + n ≤ base ∨ base + 65536 * f.t1Count ≤ off then s
  else
    let h0 := (max off base - base) / 65536
    let h1 := min ((off + n - 1 - base) / 65536) (f.t1Count - 1)
    (List.range (h1 - h0 + 1)).foldl (fun t i => ((dirtyOne (h0 + i)).exec t).2) s

/-- A write at a local offset, outside register and flash space. -/
def memWrite (r : Requester) (off : Nat) (data : List Byte) : Eng Unit := do
  if data.isEmpty then return ()
  let s ← get
  match s.locate off data.length with
  | some .hbm => do
    if s.hbmGuarded off data.length then throw .allocFault
    hbmWrite off data
    modify fun s => s.markDirty off data.length
  | some (.spm c o) => do
    if !r.isOwn c && s.coreFenced c then fenced
    if s.spmGuarded c o data.length then
      modify fun s => s.modCore ⟨c % 128, Nat.mod_lt _ (by decide)⟩ fun x =>
        { x with tableFaults := satAdd 16 x.tableFaults 1 }
      throw .allocFault
    modify fun s => s.poke off data
  | some (.acc c o) => do
    if !r.isOwn c && s.coreFenced c then fenced
    accCheck r c o data.length
    modify fun s => s.poke off data
  | _ => throw .allocFault

/-- A read and a write by a unit of the chip that no command waits for: what a read brought, if it succeeded. -/
def State.tryRead (s : State) (off n : Nat) : Option (List Byte) × State :=
  match (memRead .window off n).exec s with
  | (.ok bs, t) => (some bs, t)
  | (.error _, t) => (none, t)
def State.tryWrite (s : State) (off : Nat) (data : List Byte) : State := ((memWrite .window off data).exec s).2

/-- HBM range outside the pool region (R466, R518). -/
def State.plainHbm (s : State) (off n : Nat) : Bool := decide (off + n ≤ s.folio.poolBase)

end Sys2Proof.Machine
end

