-- ==== Sys2Proof/Machine/Flags.lean ====
section
/-! DEFINITION. Predicates and conditions: the comparison codes of R260 and the guard of R253. The Stylus has no flags
register; its one-bit results are p1 to p7 (R57). -/
namespace Sys2Proof.Machine

/-- Predicate register i; p0 reads 1 (R57). -/
def Core.pred (x : Core) (i : Nat) : Bool := if i % 8 = 0 then true else x.p.toList.getD (i % 8) false

/-- Writes a predicate register; p0 discards (R57). -/
def Core.setPred (x : Core) (i : Nat) (v : Bool) : Core :=
  if i % 8 = 0 then x
  else { x with p := x.p.set (i % 8) v (Nat.mod_lt _ (by decide)) }

/-- The guard of an instruction holds (R253). -/
def Core.guardHolds (x : Core) (pre : Pre) : Bool := x.pred pre.guard.toNat != pre.ginv

/-- The condition a comparison code names (R260); `none` for a reserved code. -/
def condition (cc : BitVec 4) (a b : Word) : Option Bool :=
  match cc.toNat with
  | 0 => some (a == b)
  | 1 => some (a != b)
  | 2 => some (a.slt b)
  | 3 => some (a.ult b)
  | 4 => some !(a.slt b)
  | 5 => some !(a.ult b)
  | _ => none

end Sys2Proof.Machine
end

