-- ==== Sys2Proof/Machine/RegRead.lean ====
section
/-! DEFINITION. Reading registers (R8): the word that each register of the local address map shows, by its offset;
`none` where no register lies (reserved, R23). Fields that are WO or Rsv read 0. -/
namespace Sys2Proof.Machine

/-- A register word from its fields: value and low bit of each. -/
def fields (fs : List (Nat × Nat)) : Word := BitVec.ofNat 64 (fs.foldl (fun a f => a + place f.1 f.2) 0)

/-! ## Device identity and configuration region -/

/-- DEVICE_ID (R4). -/
def State.deviceId (s : State) : Word :=
  fields [(2, 32), (0xB1, 24), (s.logicalCores, 16), (if s.fuses.gradeB then 2 else 1, 8), (0x0C, 0)]

def Role.code : Role → Nat
  | .standalone => 0 | .member => 1 | .master => 2 | .reserved => 3
def Role.ofCode : Nat → Role
  | 0 => .standalone | 1 => .member | 2 => .master | _ => .reserved

/-- TICK_CTRL (R56). -/
def Tick.ctrlWord (t : Tick) : Word := fields [(t.lead, 8), (t.role.code, 1), (b2n t.run, 0)]
def Tick.stretchWord (t : Tick) : Word :=
  fields [(t.effective, 8), (b2n t.pending.isSome, 7), (t.step, 0)]
def Tick.statusWord (t : Tick) : Word :=
  fields [(b2n t.badWrite, 7), (b2n t.lostFlag, 6), (b2n t.alignFault, 5), (b2n t.stretchLimit, 4), (b2n t.voteLate, 3),
    (b2n t.held, 2), (b2n t.overrun, 1), (b2n t.slackUsed, 0)]
def Tick.countsWord (t : Tick) : Word :=
  fields [(t.heldEdges, 48), (t.overruns, 32), (t.slackCount, 16), (t.droops, 0)]
def Tick.alignWord (t : Tick) : Word := fields [(t.alignErrs.foldl (fun a e => max a (Nat.min 255 e.2)) 0, 8), (b2n t.aligned, 0)]

/-- CFG_STATUS and BOOT_STATUS (R525). -/
def Cfg.statusWord (c : Cfg) : Word :=
  fields [(c.seq % 2 ^ 32, 16), (c.reason1, 9), (c.reason0, 6), (b2n c.memberNone, 2), (c.copy, 1), (b2n c.defaulted, 0)]
def State.bootStatus (s : State) : Word :=
  let b := s.boot
  fields [(b.version % 65536, 48), (Nat.min 64 s.fuses.svn, 40), (b.imageSvn, 32), (b.gen % 65536, 16), (b.key, 4),
    (b.failed, 2), (b.slot, 1), (b2n b.fallback, 0)]

/-- WATCH_STATUS_p (R129). -/
def State.watchStatus (s : State) (p : PartId) : Word :=
  let x := s.part p
  fields [(x.failedSteps, 32), (x.replays, 16), (Nat.min 15 x.windowTicks.length, 8), (b2n x.held, 7),
    (b2n x.escalated, 6), (x.variant.code, 4), (b2n x.stepFailed, 0)]

/-- PART_CFG_p, PART_STATUS_p, PART_RESUME_p (R474). -/
def Part.cfgWord (x : Part) : Word := fields [(b2n x.reserved, 9), (b2n x.enable, 8), (x.count, 4), (x.first, 0)]
def Part.statusWord (x : Part) : Word := fields [(x.ctxId.toNat, 32), (b2n x.image.isSome, 3), (x.state.code, 0)]
def Part.resumeWord (x : Part) : Word := fields [(x.resumeOff.toNat, 16), (b2n x.resumeValid, 0)]

/-- Bit p of XH_STATUS.UP (R376). -/
def State.xhStatus (s : State) : Word :=
  fields ((List.finRange 36).map fun p => (b2n (decide ((s.port p).state = .upData)), p.val))

def Fabric.ctrlWord (f : Fabric) : Word := fields [(f.reqTimeout, 24), (f.rowRacks, 8), (b2n f.run, 0)]

def Coll.ctrlWord (c : Coll) : Word := fields [(c.waitLimit, 8), (b2n c.run, 0)]
def Coll.statusWord (c : Coll) : Word :=
  fields [(c.seqLow % 65536, 48), (c.origin, 36), (c.code, 24), (b2n c.valid, 8), (c.group, 0)]
def Coll.countsWord (c : Coll) : Word := fields [(c.steps, 32), (c.aborts, 16), (c.mismatches, 0)]

/-- CORE_MAP_k (R17): the fused entries; those of logical cores that the part does not have read 0x00. -/
def State.coreMap (s : State) (k : Nat) : Word :=
  fields ((List.range 8).map fun i =>
    (if 8 * k + i < s.logicalCores then field (s.fuses.coreMap.toList.getD k 0) (8 * i + 7) (8 * i) else 0, 8 * i))

/-- Registers at 0x0200_0000_0000 + o, o below 0x0100_0000. -/
def State.readConfig (s : State) (o : Nat) : Option Word :=
  let t := s.tick
  match o with
  | 0x0 => some s.deviceId
  | 0x8 => some s.chipId
  | 0x10 => some s.cfg.statusWord
  | 0x18 => some s.bootStatus
  | 0x20 => some s.fuses.uid
  | 0x1000 => some t.ctrlWord
  | 0x1008 => some (fields [(t.period, 0)])
  | 0x1010 => some (fields [(t.slack, 0)])
  | 0x1018 => some (pair (t.number % 2 ^ 32))
  | 0x1020 => some (pair (t.number / 2 ^ 32 % 2 ^ 16))
  | 0x1028 => some t.stretchWord
  | 0x1030 => some t.statusWord
  | 0x1038 => some t.countsWord
  | 0x1040 => some (BitVec.ofNat 64 t.time)
  | 0x1048 => some t.master
  | 0x1050 => some t.alignWord
  | 0x1058 => some t.parent
  | 0x1200 => some s.fabric.ctrlWord
  | 0x1208 => some s.xhStatus
  | 0x1210 => some (fields [(s.coll.base.toNat, 15)])
  | 0x1218 => some s.coll.ctrlWord
  | 0x1220 => some s.coll.statusWord
  | 0x1228 => some s.coll.countsWord
  | _ =>
    if 0x400 ≤ o ∧ o < 0x480 then some (s.coreMap ((o - 0x400) / 8))
    else if 0x1060 ≤ o ∧ o < 0x10A0 then (t.children.toList)[(o - 0x1060) / 8]?
    else if 0x1100 ≤ o ∧ o < 0x1180 then
      let x := s.parts.toList.getD ((o - 0x1100) / 16) {}
      some (if o / 8 % 2 = 0 then x.voteFlags else x.voteActive)
    else if 0x1180 ≤ o ∧ o < 0x11C0 then some (s.watchStatus ⟨(o - 0x1180) / 8 % 8, Nat.mod_lt _ (by decide)⟩)
    else if 0x11C0 ≤ o ∧ o < 0x1200 then some 0
    else if 0x1300 ≤ o ∧ o < 0x1340 then some (s.parts.toList.getD ((o - 0x1300) / 8) {}).cfgWord
    else if 0x1340 ≤ o ∧ o < 0x1380 then some (s.parts.toList.getD ((o - 0x1340) / 8) {}).statusWord
    else if 0x1380 ≤ o ∧ o < 0x13C0 then some (s.parts.toList.getD ((o - 0x1380) / 8) {}).resumeWord
    else none

/-! ## Cores -/

/-- CORE_STATUS (R92). -/
def Core.statusWord (x : Core) : Word :=
  fields [((x.fault.map fun f => statusCode f.code).getD 0, 32), (x.skipped, 16), (b2n x.halted, 7), (b2n x.err, 6),
    (x.variant.code, 4), (b2n x.spanning, 3), (b2n x.atWait, 2), (b2n x.running, 1)]
def Core.faultAtWord (x : Core) : Word := BitVec.ofNat 64 ((x.fault.map (·.tick)).getD 0 % 2 ^ 48)
def Queue.doneWord (q : Queue) : Word := BitVec.ofNat 64 (q.ended % 2 ^ 32)
def Core.burinCounts (x : Core) : Word := fields [(x.passes, 32), (x.satTiles, 16), (x.bankWaits, 0)]
def Core.hatchCounts (x : Core) : Word := fields [(x.hatchCommands, 32), (x.tableFaults, 16), (x.swaps, 0)]
def Core.attnCounts (x : Core) : Word := fields [(x.pairs, 32), (x.pairsSkipped, 8)]
def Core.etchCounts (x : Core) : Word :=
  fields [(x.etchStale, 48), (x.etchDamaged, 32), (x.etchLost, 16), (x.etchBuilds, 0)]
/-- TABLE_BANKS: a copy of the table control word (R198). -/
def State.tableBanks (s : State) (c : Nat) : Word := BitVec.ofNat 64 (s.control c % 2 ^ 48)
/-- CMD.SEQ's value for a queue (R277). -/
def Queue.lastIssued (q : Queue) : Word :=
  if q.next = 0 then BitVec.allOnes 64 else BitVec.ofNat 64 ((q.next - 1) % 2 ^ 32)

def State.readCore (s : State) (c : CoreId) (o : Nat) : Option Word :=
  let x := s.core c
  match o with
  | 0x0 => some x.statusWord
  | 0x8 => some x.faultWord
  | 0x10 => some x.faultAtWord
  | 0x18 => some x.bq.doneWord
  | 0x20 => some x.hq.doneWord
  | 0x28 => some x.sq.doneWord
  | 0x30 => some (x.tokFailed.setWidth 64)
  | 0x100 => some x.banks
  | 0x108 => some x.burinCounts
  | 0x110 => some x.hatchCounts
  | 0x118 => some (s.tableBanks c.val)
  | 0x120 => some x.attnCounts
  | 0x128 => some x.etchCounts
  | _ => none

/-! ## HBM stacks -/

def FenceCause.code : FenceCause → Nat
  | .none => 0 | .thermal => 1 | .training => 2 | .recovery => 3

/-- HBM_STATUS (R301): a stack that is fenced or in maintenance does not serve, so READY is 0. -/
def Stack.statusWord (x : Stack) : Word :=
  fields [(x.degraded, 8), (b2n x.candFull, 7), (b2n x.maint, 6), (x.cause.code, 4), (x.band.val, 2), (b2n x.fenced, 1),
    (b2n (x.ready && !x.fenced && !x.maint), 0)]
def Stack.tempWord (x : Stack) : Word := fields [(x.peak, 40), (x.last, 32), (x.sampleTick.toNat, 0)]
def Stack.countsWord (x : Stack) : Word := fields [(x.corrected, 32), (x.uncorrected, 16), (x.scrubUncorrected, 0)]
def ErrAddr.word (e : ErrAddr) : Word := fields [(b2n e.valid, 63), (e.symbols, 56), (e.line / 64, 6)]
/-- Row form of ARG0 (R298) as a value. -/
def rowForm (r : RowRef) : Nat :=
  place r.pc.val 27 + place r.sid.toNat 25 + place r.bankGroup.toNat 23 + place r.bank.toNat 21 + place r.row.toNat 6
/-- HBM_CAND_k (R301). -/
def candWord : Option Cand → Word
  | none => pair 0
  | some c => pair (rowForm c.row + 32 + Nat.min 31 c.count)

def State.readStack (s : State) (i : StackId) (o : Nat) : Option Word :=
  let x := s.stack i
  match o with
  | 0x0 => some x.statusWord
  | 0x8 => some (fields [(b2n x.maintReq, 1), (b2n x.scrubEn, 0)])
  | 0x10 => some x.tempWord
  | 0x18 => some x.countsWord
  | 0x20 => some x.ue.word
  | 0x28 => some x.ce.word
  | 0x100 => some 0
  | 0x108 => some x.arg0
  | 0x110 => some x.arg1
  | 0x118 => some (fields [(x.data.toNat, 16), (x.result, 8), (b2n x.busy.isSome, 0)])
  | _ =>
    if 0x40 ≤ o ∧ o < 0x80 then
      let k := (o - 0x40) / 8
      some (fields ((List.range 4).map fun j => ((x.laneMap.toList.getD (4 * k + j) 0).toNat, 16 * j)))
    else if 0x80 ≤ o ∧ o < 0xC0 then some (candWord (x.cands.toList.getD ((o - 0x80) / 8) none))
    else none

/-! ## Crosshatch ports -/

def PortState.code : PortState → Nat
  | .idle => 0 | .backOff => 1 | .equalise => 2 | .errorTest => 3 | .identity => 4 | .upData => 5 | .upMgmt => 6
  | .failed => 7
def PortCause.code : PortCause → Nat
  | .none => 0 | .peer => 1 | .level => 2 | .cls => 3 | .version => 4 | .abi => 5 | .auth => 6 | .ber => 7 | .timeout => 8

def Port.statusWord (x : Port) : Word :=
  fields [(x.attempts, 32), (x.cause.code, 24), (x.proto, 20), (x.logical, 14), (b2n x.remapped, 13), (b2n x.degraded, 12),
    (x.state.code, 4)]
def Port.mapWord (x : Port) : Word :=
  fields [(x.peerPort, 18), (x.level, 16), (x.cls, 14), (x.mode, 12), (x.spareFor, 6), (b2n x.spare, 5)]
def Port.infoWord (x : Port) : Word :=
  fields [(x.infoFirmware, 48), (x.infoProto, 40), (x.infoAbi % 2 ^ 26, 14), (x.infoPort, 8), (x.infoLevel, 6),
    (x.infoClass, 4)]
def Port.countsWord (x : Port) : Word :=
  fields [(x.idleErrors, 32), (x.hdrCorrected, 16), (x.hdrLost, 8), (x.uncorrected, 0)]

def State.readPort (s : State) (p : PortId) (o : Nat) : Option Word :=
  let x := s.port p
  match o with
  | 0x0 => some x.statusWord
  | 0x8 => some x.mapWord
  | 0x10 => some x.expect
  | 0x18 => some (pair x.peer)
  | 0x20 => some x.infoWord
  | 0x28 => some (fields [(x.delay % 2 ^ 20, 0)])
  | 0x30 => some x.countsWord
  | _ => none

/-! ## Folio engine and flash translation layer -/

/-- POOL_STATUS (R326). -/
def Folio.statusWord (f : Folio) : Word :=
  let free := if f.run then f.frameCount - f.frames.length else 0
  fields [(free, 20), (f.badEntries, 4), (b2n f.spillFull, 3), (b2n f.poolFull, 2)]
def Folio.countsWord (f : Folio) : Word := fields [(f.cancelled, 48), (f.pinSkips, 32), (f.spills, 16), (f.timeouts, 0)]
def Ftl.statusWord (f : Ftl) : Word :=
  fields [(f.spare, 32), (f.retired, 16), (b2n f.replayed, 2), (b2n f.readOnly, 1), (b2n f.ready, 0)]
def Ftl.policyWord (f : Ftl) : Word :=
  fields [(b2n f.lock, 63), (f.rdLimit, 32), (f.wearGap, 16), (f.bgShare, 8), (f.reservePct, 0)]

def State.readFolio (s : State) (o : Nat) : Option Word :=
  let f := s.folio
  match o with
  | 0x0 => some (fields [(b2n f.run, 0)])
  | 0x8 => some (fields [(f.lowater, 32), (f.dir, 16), (f.share, 0)])
  | 0x10 => some (fields [(f.spillUnits, 32), (f.spillBase, 0)])
  | 0x18 => some (fields [(f.t1Count, 32), (f.t1Base, 0)])
  | 0x20 => some (fields [(f.timeout, 0)])
  | 0x28 => some f.statusWord
  | 0x30 => some f.countsWord
  | 0x400000 => some s.ftl.statusWord
  | 0x400008 => some (fields [(if s.ftl.ready then s.ftl.capacity else 0, 0)])
  | 0x400010 => some s.ftl.policyWord
  | 0x400018 => some (fields [(s.ftl.relocations, 32), (s.ftl.commits, 0)])
  | 0x400020 => some (fields [(s.ftl.mapBase.toNat, 16)])
  | _ => none

/-! ## Intaglio -/

def Engine.openBits (x : Engine) : Nat :=
  (List.range 16).foldl (fun a i => a + (if (x.sessions.toList.getD i none).isSome then 2 ^ i else 0)) 0
def Engine.countsWord (x : Engine) : Word :=
  fields [(x.pictures, 32), (x.decodeErrors, 16), (x.capExceeded, 8), (x.ringFaults, 0)]

def State.readEngine (s : State) (e : EngineId) (o : Nat) : Option Word :=
  let x := s.engine e
  match o with
  | 0x0 => some (fields [(x.thresh, 8), (b2n x.mode, 4), (b2n x.run, 0)])
  | 0x8 => some (fields [(x.openBits, 0)])
  | 0x10 => some (fields [(x.log2, 48), (x.ring.toNat, 6)])
  | 0x18 => some x.countsWord
  | 0xF000 => if e.val % 4 = 0 then some (fields [(s.mediaBw.toList.getD (e.val / 4) 0, 0)]) else none
  | _ => none

/-! ## Easel: recovery, power, security -/

def DomKind.code : DomKind → Nat
  | .device => 0 | .die => 1 | .cluster => 2 | .port => 3 | .engine => 4 | .stack => 5
def DomKind.ofCode : Nat → Option DomKind
  | 0 => some .device | 1 => some .die | 2 => some .cluster | 3 => some .port | 4 => some .engine | 5 => some .stack
  | _ => none

def Recovery.suspectCount (r : Recovery) : Nat := (r.suspects.toList.filter Option.isSome).length
def Recovery.statusWord (r : Recovery) : Word :=
  fields [(r.epoch.toNat, 32), (r.lastKind, 24), (r.lastIndex, 16), (r.suspectCount, 6), (b2n r.suspectOvf, 5),
    (b2n r.current.isSome, 0)]
def suspectWord : Option Suspect → Word
  | none => 0
  | some (.ctx id p ep) => fields [(id.toNat, 32), (1, 30), (p, 20), (ep.toNat, 0)]
  | some (.media e k ep) => fields [(2, 30), (k, 26), (e, 23), (ep.toNat, 0)]
def Recovery.crashWord (r : Recovery) : Word :=
  fields [(r.crashMissed, 16), (r.crashIndex, 8), (r.crashKind, 4), (b2n r.crashValid, 0)]

def Power.statusWord (p : Power) : Word := fields [(p.average, 32), (p.peak, 16), (p.last, 0)]
/-- The hottest die, the lowest number of equals. -/
def Power.hotDie (p : Power) : Nat :=
  (List.range 13).foldl (fun b i => if p.dieTemp.toList.getD i 0 > p.dieTemp.toList.getD b 0 then i else b) 0
def Power.thermWord (p : Power) : Word :=
  let bits (f : DieBand → Bool) : Nat :=
    (List.range 13).foldl (fun a i => a + (if f (p.dieBand.toList.getD i .normal) then 2 ^ i else 0)) 0
  fields [(bits (· == .stop), 26), (bits (· != .normal), 12), (p.hotDie, 8), (p.dieTemp.toList.getD p.hotDie 0, 0)]

def Sec.statusWord (x : Sec) : Word :=
  fields [(x.perms, 32), (x.lastCmd, 16), (x.code, 8), (b2n x.busy.isSome, 0)]

def State.readEasel (s : State) (o : Nat) : Option Word :=
  let r := s.recov
  match o with
  | 0x0 => some (fields [(r.drain, 8), (r.hbLimit, 0)])
  | 0x8 => some r.statusWord
  | 0x10 => some (fields [(r.hangs, 48), (r.recoveries, 32), (r.integrity, 16), (r.fenceRefused, 0)])
  | 0x18 => some (fields [(r.crashBase.toNat, 25)])
  | 0x20 => some r.crashWord
  | 0x100 => some 0
  | 0x1000 => some (fields [(s.power.window, 16), (s.power.cap, 0)])
  | 0x1008 => some (fields [(3, 28), (s.power.on.toNat, 0)])
  | 0x1010 => some s.power.statusWord
  | 0x1018 => some s.power.thermWord
  | 0x1020 => some (fields [(s.power.capRequests, 32), (s.power.thermRequests, 0)])
  | 0x2000 => some 0
  | 0x2008 => some (fields [(s.sec.arg.toNat, 0)])
  | 0x2010 => some s.sec.statusWord
  | 0x2018 => some s.sec.nonce
  | _ =>
    if 0x40 ≤ o ∧ o < 0x70 then
      let k := (o - 0x40) / 8
      some (fields ((List.range 16).map fun i => (Nat.min 15 (r.missed.toList.getD (16 * k + i) 0), 4 * i)))
    else if 0x80 ≤ o ∧ o < 0x100 then some (suspectWord (r.suspects.toList.getD ((o - 0x80) / 8) none))
    else if 0x2100 ≤ o ∧ o < 0x2200 ∧ (o - 0x2100) % 0x40 < 0x30 then
      some (w64At (s.boot.meas.toList.getD ((o - 0x2100) / 0x40) []) ((o - 0x2100) % 0x40))
    else none

/-! ## Host interface -/

def EthPort.count (x : EthPort) (st : QpState) : Nat := (x.qps.toList.filter fun q => q.state == st).length
def EthPort.statusWord (x : EthPort) : Word :=
  fields [(x.count .error, 16), (x.count .ready, 8), (b2n x.paused, 3), (b2n x.fecDegraded, 2), (b2n x.changed, 1),
    (b2n x.up, 0)]
def State.qcpStatus (s : State) : Word :=
  let q := s.qcp
  fields [(s.recov.epoch.toNat, 32), (if q.ready then 0 else q.estimate, 16), (q.stage, 4), (b2n s.cfg.defaulted, 2),
    (b2n q.current.isSome, 1), (b2n q.ready, 0)]

def State.readHost (s : State) (o : Nat) : Option Word :=
  if o < 0x20000 then
    let x := s.eth.toList.getD (o / 0x10000) {}
    match o % 0x10000 with
    | 0x0 => some x.statusWord
    | 0x8 => some ((s.fuses.mac.toList.getD (o / 0x10000) 0).setWidth 64)
    | 0x10 => some (fields [(x.prio, 0)])
    | 0x18 => some (fields [(x.fecCorrected, 32), (x.discarded, 16), (x.pfcPauses, 0)])
    | _ => none
  else if 0x100100 ≤ o ∧ o < 0x100180 then
    let g := s.rings.toList.getD ((o - 0x100100) / 8) {}
    some (fields [(g.lost, 32), (g.seq % 2 ^ 32, 0)])
  else match o with
    | 0x100000 => some s.qcpStatus
    | 0x100008 => some (fields [(s.qcp.routeMedia, 8), (s.qcp.routeDevice, 4), (s.qcp.routeTick, 0)])
    | 0x100010 => some (fields [(s.qcp.discarded, 48), (s.qcp.duplicates, 32), (s.qcp.naks, 16), (s.qcp.recordsLost, 0)])
    | _ => none

/-! ## Proof and trace -/

def State.readProof (s : State) (o : Nat) : Option Word :=
  let p := s.proof
  match o with
  | 0x0 => some (fields [(b2n p.errBcast, 5), (b2n p.bcastEn, 4), (b2n p.qcpEn, 3), (b2n p.errEn, 2), (b2n p.tickEn, 1)])
  | 0x8 => some (fields [(p.missed, 16), (p.source, 8), (b2n p.armed, 0)])
  | 0x10 => some p.tickLo
  | 0x18 => some p.tickHi
  | 0x20 => some (p.errMask.setWidth 64)
  | 0x100 => some (fields [(p.traceLog2, 11), (b2n p.traceRec, 6), (b2n p.traceFail, 5), (b2n p.traceEdge, 4),
      (b2n p.traceMark, 3), (b2n p.traceWrap, 1), (b2n p.traceEn, 0)])
  | 0x108 => some (fields [(p.traceBase.toNat, 16)])
  | 0x110 => some (fields [(p.dropped, 48), (b2n p.full, 32), (p.next % 2 ^ 32, 0)])
  | 0x118 => some (p.traceCores.setWidth 64)
  | 0x120 => some ((p.traceCores >>> 64).setWidth 64)
  | _ =>
    if 0x10000 ≤ o ∧ o < 0x10000 + 187 * 0x100 then
      some ((p.banks.getD ((o - 0x10000) / 0x100) []).getD ((o - 0x10000) % 0x100 / 8) 0)
    else none

/-! ## The whole register space -/

/-- The block of the table "Register space regions" (R21) that holds an offset, and the register there: `none` outside
every block and in the windows of absent cores; inside a block an offset that names no register has no register. -/
def State.regAt (s : State) (off : Nat) : Option (Option Word) :=
  if off % 8 ≠ 0 ∨ off < regBase then none
  else
    let o := off - regBase
    if o < 0x1000000 then some (s.readConfig o)
    else if o < 0x2000000 then
      let c := (o - 0x1000000) / 0x10000
      if h : c < 128 then (if c < s.logicalCores then some (s.readCore ⟨c, h⟩ (o % 0x10000)) else none) else none
    else if o < 0x3000000 then
      let i := (o - 0x2000000) / 0x100000
      if h : i < 12 then some (s.readStack ⟨i, h⟩ (o % 0x100000)) else none
    else if o < 0x4000000 then
      let p := (o - 0x3000000) / 0x10000
      if h : p < 36 then some (s.readPort ⟨p, h⟩ (o % 0x10000)) else none
    else if o < 0x5000000 then some (s.readFolio (o - 0x4000000))
    else if o < 0x7000000 then
      let d := (o - 0x5000000) / 0x1000000
      let k := o % 0x1000000 / 0x10000
      if h : 4 * d + k < 8 ∧ k < 4 then some (s.readEngine ⟨4 * d + k, h.1⟩ (o % 0x10000)) else some none
    else if o < 0x8000000 then some (s.readEasel (o - 0x7000000))
    else if o < 0x9000000 then some (s.readHost (o - 0x8000000))
    else if o < 0xA000000 then some (s.readProof (o - 0x9000000))
    else none

/-- The word that an 8-byte read at a local offset of register space returns (R8); `none` at a reserved offset (R23).
An offset of a listed block that names no register reads as a free value (notes/assumptions/12.md). -/
def State.readReg (s : State) (off : Nat) : Option Word := (s.regAt off).map fun r => r.getD (Config.rsvWord off)

/-- The identity region of R443. -/
def inIdentity (off : Nat) : Bool := decide (regBase ≤ off) && decide (off < regBase + 0x1000)

/-! ## Proof latches (R527 to R531) -/

def bank (s : State) (src code : Nat) (ws : List Word) : List Word :=
  let all := fields [(src, 56), (code, 48), (s.tick.number % 2 ^ 48, 0)] :: BitVec.ofNat 64 s.tick.time :: ws
  all ++ List.replicate (32 - all.length) 0

/-- Words 2 to 31 of the bank of each block (R527). -/
def State.snapDevice (s : State) : List Word :=
  [s.tick.statusWord, s.tick.countsWord, s.tick.stretchWord, s.tick.alignWord, s.recov.statusWord, s.power.statusWord,
   s.power.thermWord, s.folio.statusWord, s.folio.countsWord, s.coll.statusWord, s.coll.countsWord, s.xhStatus]

def State.snapCore (s : State) (c : CoreId) : List Word :=
  let x := s.core c
  let toks : List Word := (List.range 8).map fun k =>
    fields ((List.range 4).map fun j => ((x.tok.toList.getD (4 * k + j) 0).toNat, 16 * j))
  [BitVec.ofNat 64 x.pc, x.statusWord, x.faultWord, x.faultAtWord, x.bq.doneWord, x.hq.doneWord, x.sq.doneWord,
   x.bq.lastIssued, x.hq.lastIssued, x.sq.lastIssued, x.banks, x.burinCounts, x.hatchCounts, s.tableBanks c.val,
   x.attnCounts, x.etchCounts] ++ toks ++ [x.tokFailed.setWidth 64]

def State.snapPort (s : State) (p : PortId) : List Word :=
  let x := s.port p
  [x.statusWord, x.countsWord, fields [(x.delay % 2 ^ 20, 0)],
   fields [(x.credVc0, 0), (x.credVc1, 8), (x.credMgmt, 16)]]

def State.snapEngine (s : State) (e : EngineId) : List Word :=
  let x := s.engine e
  [fields [(x.openBits, 0)], x.countsWord, pair (x.cons % 2 ^ 32), fields [(x.jobs.length, 0)]]

def State.snapStack (s : State) (i : StackId) : List Word :=
  let x := s.stack i
  [x.statusWord, x.tempWord, x.countsWord, x.ue.word, x.ce.word]

def State.snapEth (s : State) (p : Fin 2) : List Word :=
  let x := s.eth[p]
  [x.statusWord, fields [(x.fecCorrected, 32), (x.discarded, 16), (x.pfcPauses, 0)]]

/-- Every bank latches (R528); banks of absent cores never latch (R527). -/
def State.latchBanks (s : State) (src code : Nat) : List (List Word) :=
  [bank s src code s.snapDevice]
  ++ (List.finRange 128).map (fun c => if c.val < s.logicalCores then bank s src code (s.snapCore c) else [])
  ++ (List.finRange 12).map (fun i => bank s src code (s.snapStack i))
  ++ (List.finRange 36).map (fun p => bank s src code (s.snapPort p))
  ++ (List.finRange 8).map (fun e => bank s src code (s.snapEngine e))
  ++ (List.finRange 2).map (fun p => bank s src code (s.snapEth p))

/-- A trigger of an enabled source (R530): latches when armed, else counts in MISSED. -/
def State.trigger (s : State) (src code : Nat) : State :=
  if s.proof.armed then
    { s with proof := { s.proof with armed := false, source := src, banks := s.latchBanks src code } }
  else { s with proof := { s.proof with missed := satAdd 16 s.proof.missed 1 } }

/-- An error-source trigger, with its broadcast (R531, R532). -/
def State.triggerError (s : State) (code : Nat) : State :=
  let fires := s.proof.armed
  let t := s.trigger 2 code
  if fires ∧ s.proof.errBcast then
    let at_ := s.tick.number + 3
    { t with proof := { t.proof with bcastAt := some (match t.proof.bcastAt with
      | none => at_
      | some x => Nat.min x at_) } }
  else t

/-- A request on the chip ends with a status: INTEGRITY is counted (R479) and the error source may fire (R531). -/
def State.endRequest (s : State) (st : Status) : State :=
  let s := s.countIntegrity st
  let c := statusCode st
  if s.proof.errEn ∧ 1 ≤ c ∧ c ≤ 14 ∧ flag s.proof.errMask c then s.triggerError c else s

end Sys2Proof.Machine
end

