-- ==== Sys2Proof/Machine/Operands.lean ====
section
/-! DEFINITION. The operand forms of Stylus instructions (R250 to R254, R261, R262): register fields as s, a, p or td
registers, sign extension, the checks that a word alone decides, and the loads and stores. -/
namespace Sys2Proof.Machine

/-- s register i; s0 reads 0 (R57). -/
def Core.sreg (x : Core) (i : Nat) : Word := if i % 32 = 0 then 0 else x.s.toList.getD (i % 32) 0
/-- Writes an s register; s0 discards (R57). -/
def Core.setS (x : Core) (i : Nat) (v : Word) : Core :=
  if i % 32 = 0 then x else { x with s := x.s.set (i % 32) v (Nat.mod_lt _ (by decide)) }

def Core.areg (x : Core) (i : Nat) : Word := x.a.toList.getD (i % 16) 0
def Core.setA (x : Core) (i : Nat) (v : Word) : Core :=
  { x with a := x.a.set (i % 16) v (Nat.mod_lt _ (by decide)) }

def Core.tdreg (x : Core) (i : Nat) : Vector Word 16 := x.td.toList.getD (i % 16) (Vector.replicate 16 0)
def Core.setTd (x : Core) (i : Nat) (v : Vector Word 16) : Core :=
  { x with td := x.td.set (i % 16) v (Nat.mod_lt _ (by decide)) }
/-- Word k of a td register replaced (R258 TD.WR). -/
def Core.setTdWord (x : Core) (i k : Nat) (v : Word) : Core :=
  x.setTd i ((x.tdreg i).set (k % 16) v (Nat.mod_lt _ (by decide)))
/-- The 128 bytes of a td register (R262). -/
def Core.tdBytes (x : Core) (i : Nat) : List Byte := (x.tdreg i).toList.flatMap fun w => le 8 w.toNat
def tdOfBytes (bs : List Byte) : Vector Word 16 := Vector.ofFn fun (i : Fin 16) => w64At bs (8 * i.val)

/-- IMM and OFF as 64-bit two's complement (R252). -/
def sext (v : Word32) : Word := v.signExtend 64

/-! ## Checks of the word alone (R253, R254) -/

/-- A field used as an s register: any value. -/
def asS (_ : BitVec 5) : Bool := true
/-- A field used as an a or td register: bit 4 is Rsv (R252). -/
def asA (f : BitVec 5) : Bool := !f.getLsbD 4
/-- A field used as a p register: bits [4:3] are Rsv (R252). -/
def asP (f : BitVec 5) : Bool := !f.getLsbD 4 && !f.getLsbD 3
/-- A field that the instruction does not use is Rsv (R252). -/
def unused {w : Nat} (f : BitVec w) : Bool := f == 0

/-- GINV with p0 is refused (R254). -/
def guardForm (p : Pre) : Bool := !(p.ginv && p.guard == 0)
/-- The common fields of an instruction that may not set SPAN (R254). -/
def plainPre (p : Pre) : Bool := guardForm p && !p.span

/-- Format R with register uses given: RD, RA, RB; CC and Rsv zero. -/
def formR (d a b : BitVec 5 → Bool) (f : FmtR) : Bool :=
  plainPre f.pre && d f.rd && a f.ra && b f.rb && unused f.cc && unused f.rsv
def formI (d a : BitVec 5 → Bool) (f : FmtI) : Bool :=
  plainPre f.pre && d f.rd && a f.ra && unused f.cc && unused f.rsv
/-- A shift by an immediate: IMM[31:6] Rsv (R258). -/
def shiftImm (f : FmtI) : Bool := decide (f.imm.toNat < 64)
/-- TD.WR and TD.WRP: IMM[31:4] Rsv (R258). -/
def wordImm (f : FmtI) : Bool := decide (f.imm.toNat < 16)
def formM (d : BitVec 5 → Bool) (f : FmtM) : Bool := plainPre f.pre && d f.rd && unused f.rsv
def formB (a : BitVec 5 → Bool) (f : FmtB) : Bool := plainPre f.pre && a f.ra && unused f.rsv
/-- Format S with the fields used given (true: the field is used). -/
def formS (rs pd q ctr tbl imm : Bool) (f : FmtS) : Bool :=
  plainPre f.pre && (rs || unused f.rs) && (pd || unused f.pd) && (q || unused f.q) && (ctr || unused f.ctr)
    && (tbl || unused f.tbl) && (imm || unused f.imm)

/-! ## Loads and stores -/

/-- Bytes that SIZE names (R261). -/
def sizeBytes (z : BitVec 2) : Nat := 2 ^ z.toNat

/-- The local offset of a global address on this chip, aligned to n bytes, or ALLOC_FAULT (R18, R261, R71). -/
def ownOffset (addr : Word) (align : Nat) : Eng Nat := do
  let s ← get
  let g := addr.toNat
  if g / 2 ^ 48 ≠ s.chip ∨ g % align ≠ 0 then throw .allocFault
  pure (g % 2 ^ 48)

/-- A scalar load of n bytes at a global address (R261, R262). -/
def scalarLoad (addr : Word) (n align : Nat) (regs : Bool) : Eng (List Byte) := do
  let off ← ownOffset addr align
  let s ← get
  match s.locate off n with
  | some .reg =>
    if regs ∧ n = 8 then match s.readReg off with
      | some w => pure (le 8 w.toNat)
      | none => throw .allocFault
    else throw .allocFault
  | some (.flash _) => throw .allocFault
  | some _ => memRead .window off n
  | none => throw .allocFault

/-- A scalar store at a global address (R261, R262). -/
def scalarStore (addr : Word) (align : Nat) (data : List Byte) : Eng Unit := do
  let off ← ownOffset addr align
  memWrite .window off data

end Sys2Proof.Machine
end

