-- ==== Sys2Proof/Machine/Route.lean ====
section
/-! DEFINITION. How strokes leave this chip (R353 to R355, R358, R361, R366, R367, R375): headers and check symbols, routes,
credits, the order in which an output serves what waits for it, and the management packets of this chip. -/
namespace Sys2Proof.Machine

/-! ## The stroke (R353, R354) -/

/-- A stroke header (R354). -/
structure Hdr where
  dest : Nat
  kind : Nat
  vc : Nat := 0
  run : Nat := 0
  bad : Bool := false
  spread : Nat := 0
  cred : Nat := 0
  cpool : Nat := 0
  deriving DecidableEq, Repr

def Hdr.bytes (h : Hdr) : List Byte :=
  le 6 (place h.dest 32 + place h.kind 29 + place h.vc 28 + place h.run 26 + place (b2n h.bad) 25 + place h.spread 21
    + place h.cred 13 + place h.cpool 11)

/-- The 128 body bytes of codeword w (R353). -/
def bodyWord (body : List Byte) (w : Nat) : List Byte :=
  ((List.range 512).filter fun n => n / 4 % 4 == w).map fun n => byteAt body n

/-- The body check of a body. -/
def bodyCheck (body : List Byte) : List Byte := (List.range 4).flatMap fun w => rsRemainder 6 (bodyWord body w)

/-- A stroke encoded from its header and body. -/
def encodeStroke (h : Hdr) (body : List Byte) : List Byte :=
  let hb := h.bytes
  hb ++ rsRemainder 2 hb ++ body ++ bodyCheck body

/-- A stroke with another header, its body and body check as they are. -/
def reheader (h : Hdr) (stroke : List Byte) : List Byte := h.bytes ++ rsRemainder 2 h.bytes ++ slice stroke 8 536

/-! ## Routing (R358, R361) -/

/-- Logical port toward DEST, and whether the stroke leaves the rack (VC := 1); none for this chip. -/
def routePort (chip racks dest spread : Nat) : Option (Nat × Bool) :=
  let r := chip / 64 % 64
  let b := chip / 8 % 8
  let st := chip % 8
  let x := chip % 64
  let r2 := dest / 64 % 64
  if dest = chip then none
  else
    let g := ((r2 + racks - r % racks) % racks + racks - 1) % racks
    if r2 ≠ r ∧ x = g then some (28 + spread % 4, true)
    else
      let bt := if r2 ≠ r then g / 8 else dest / 8 % 8
      let t := if r2 ≠ r then g % 8 else dest % 8
      if bt ≠ b then some (20 + (bt + 8 - b) % 8, false)
      else some (3 * ((t + 8 - st) % 8 - 1) + spread % 3, false)

/-- The physical port up in data mode that serves a logical port. -/
def State.upFor (s : State) (l : Nat) : Option PortId :=
  (List.finRange 36).find? fun p => decide ((s.port p).state = .upData) && decide ((s.port p).logical = l)

/-- Logical ports of the same peer as l, ascending from l and wrapping (R361, R371). -/
def samePeer (l : Nat) : List Nat :=
  if l < 21 then
    let base := l / 3 * 3
    (List.range 2).map fun i => base + (l - base + 1 + i) % 3
  else if 28 ≤ l ∧ l < 32 then (List.range 3).map fun i => 28 + (l - 28 + 1 + i) % 4
  else []

/-- A logical port's expected peer. -/
def State.peerOf (s : State) (l : Nat) : Option Nat :=
  let w := (s.ports.toList.getD l { level := 0, logical := 0 }).expect
  if pairOk w then some (pairVal w % 65536) else none

/-- The physical port that a stroke leaves by (R361): an extra flex port for SPREAD mod 4 = 3, the chosen port, its
spare, or the next port of the same peer. -/
def State.outPort (s : State) (l spread : Nat) : Option PortId :=
  let flex := [32, 33, 34, 35]
  let info (f : Nat) : Port := s.ports.toList.getD f {}
  let extra : Option PortId :=
    if spread % 4 = 3 then
      flex.findSome? fun f =>
        if !(info f).spare && decide ((info f).mode = 2) && (s.peerOf l).isSome && s.peerOf f == s.peerOf l then s.upFor f
        else none
    else none
  match extra with
  | some p => some p
  | none =>
    match s.upFor l with
    | some p => some p
    | none =>
      match flex.findSome? fun f =>
          if (info f).spare && decide ((info f).spareFor = l) then s.upFor f else none with
      | some p => some p
      | none => (samePeer l).findSome? s.upFor

/-! ## Credits and output queues (R366, R367) -/

def Port.credits (x : Port) : Nat → Nat
  | 0 => x.credVc0 | 1 => x.credVc1 | _ => x.credMgmt
def Port.addCredits (x : Port) (pool n : Nat) : Port :=
  match pool with
  | 0 => { x with credVc0 := x.credVc0 + n } | 1 => { x with credVc1 := x.credVc1 + n }
  | _ => { x with credMgmt := x.credMgmt + n }
def Port.takeCredit (x : Port) (pool : Nat) : Port :=
  match pool with
  | 0 => { x with credVc0 := x.credVc0 - 1 } | 1 => { x with credVc1 := x.credVc1 - 1 }
  | _ => { x with credMgmt := x.credMgmt - 1 }
def Port.owe (x : Port) (pool n : Nat) : Port :=
  match pool with
  | 0 => { x with owedVc0 := x.owedVc0 + n } | 1 => { x with owedVc1 := x.owedVc1 + n }
  | _ => { x with owedMgmt := x.owedMgmt + n }

/-- The credits that the next stroke out of a port returns, and the port without them. -/
def Port.payBack (x : Port) : (Nat × Nat) × Port :=
  if x.owedVc0 > 0 then ((min 255 x.owedVc0, 0), { x with owedVc0 := x.owedVc0 - min 255 x.owedVc0 })
  else if x.owedVc1 > 0 then ((min 255 x.owedVc1, 1), { x with owedVc1 := x.owedVc1 - min 255 x.owedVc1 })
  else if x.owedMgmt > 0 then ((min 255 x.owedMgmt, 2), { x with owedMgmt := x.owedMgmt - min 255 x.owedMgmt })
  else ((0, 0), x)

/-- Takes the first element that satisfies a test out of a list. -/
def takeFirst {α : Type} (f : α → Bool) : List α → Option (α × List α)
  | [] => none
  | x :: xs => if f x then some (x, xs) else (takeFirst f xs).map fun r => (r.1, x :: r.2)

def srcIndex : Option (Fin 36) → Nat
  | none => 36
  | some p => p.val

def Port.inPacket (x : Port) (vc : Nat) : Option (Option (Fin 36)) := if vc = 0 then x.open0 else x.open1
def Port.lastSrc (x : Port) (vc : Nat) : Nat := if vc = 0 then x.last0 else x.last1

/-- A waiting stroke may go: a credit; no other packet of its VC in progress (R355, R366); and while the fabric stops,
only as part of a packet begun (R376). -/
def State.mayGo (s : State) (x : Port) (o : OutStroke) : Bool :=
  decide (x.credits o.pool > 0) && (if o.pool = 2 then !s.fabric.stopping
    else match x.inPacket o.pool with
      | none => !s.fabric.stopping
      | some src => src == o.src)

/-- The next data stroke of a VC: the packet in progress goes on; else the input ports (and this chip) take turns, after
the one served last (R367; notes/assumptions/49.md). -/
def State.nextOf (s : State) (x : Port) (vc : Nat) : Option (OutStroke × List OutStroke) :=
  (List.range 37).findSome? fun i =>
    match takeFirst (fun o => decide (o.pool = vc) && decide (srcIndex o.src = (x.lastSrc vc + 1 + i) % 37)) x.outq with
    | some r => if s.mayGo x r.1 then some r else none
    | none => none

/-- What a port sends next (R367): management ahead of data; the VC of a packet in progress goes on with it, and at a packet
boundary the other VC comes first. -/
def State.pick (s : State) (x : Port) : Option (OutStroke × List OutStroke) :=
  match takeFirst (fun o => decide (o.pool = 2) && s.mayGo x o) x.outq with
  | some r => some r
  | none =>
    let first := if (x.inPacket x.lastVc).isSome then x.lastVc else 1 - x.lastVc
    match s.nextOf x first with
    | some r => some r
    | none => s.nextOf x (1 - first)

/-- A port after a stroke of a VC's packet has gone: the packet in progress, the VC and the source served last. -/
def Port.served (x : Port) (o : OutStroke) : Port :=
  let opened : Option (Option (Fin 36)) := if o.kind = 1 ∨ o.kind = 2 then some o.src else none
  match o.pool with
  | 0 => { x with open0 := opened, last0 := srcIndex o.src, lastVc := 0 }
  | 1 => { x with open1 := opened, last1 := srcIndex o.src, lastVc := 1 }
  | _ => x

/-- Sends one stroke of a port's queue; none when nothing can go. -/
def State.sendOne (s : State) (q : PortId) : Option State :=
  let x := s.port q
  (s.pick x).map fun (o, rest) =>
    let ((n, pool), x) := ((({ x with outq := rest } : Port).takeCredit o.pool).served o).payBack
    let s := s.setPort q x
    let h := leNat (slice o.bytes 0 6)
    let hb := le 6 (h / 2 ^ 21 * 2 ^ 21 + place n 13 + place pool 11)
    let head := hb ++ rsRemainder 2 hb
    let s := s.emit (match o.msg with
      | none => .strokes q.val [head ++ slice o.bytes 8 536]
      | some m => .mgmt q.val (head ++ slice o.bytes 8 64) m)
    match o.src with
    | some p => s.modPort p fun y => y.owe o.srcPool 1
    | none => s

/-- Sends what a port can send. -/
def State.drainPort (q : PortId) : Nat → State → State
  | 0, s => s
  | n + 1, s => match s.sendOne q with
    | some t => State.drainPort q n t
    | none => s

/-- Idle strokes that return credits when no stroke carries them (R354, R366). -/
def State.returnCredits (q : PortId) : Nat → State → State
  | 0, s => s
  | n + 1, s =>
    let x := s.port q
    if x.owedVc0 + x.owedVc1 + x.owedMgmt = 0 ∨ (x.state ≠ .upData ∧ x.state ≠ .upMgmt) then s
    else
      let ((k, pool), y) := x.payBack
      State.returnCredits q n ((s.setPort q y).emit
        (.strokes q.val [encodeStroke { dest := 0, kind := 0, cred := k, cpool := pool } (zeros 512)]))

/-- Every port returns the credits it owes; a port whose strokes all wait for credits returns them by idle strokes too. -/
def State.payAll (s : State) : State := overFin 36 (fun p s => State.returnCredits p 3 s) s

/-- After a change at a port: strokes that can go, then the credits owed. -/
def State.pump (s : State) (q : PortId) : State := (State.drainPort q ((s.port q).outq.length) s).payAll

/-- After a change at several ports. -/
def State.pumpAll (s : State) : State :=
  (overFin 36 (fun q s => State.drainPort q ((s.port q).outq.length) s) s).payAll

/-- A stroke joins a port's queue. -/
def State.queueStroke (s : State) (q : PortId) (o : OutStroke) : State :=
  (s.modPort q fun x => { x with outq := x.outq ++ [o] }).pump q

/-- A port without buffers and credits. -/
def Port.flush (x : Port) : Port :=
  { x with credVc0 := 0, credVc1 := 0, credMgmt := 0, owedVc0 := 0, owedVc1 := 0, owedMgmt := 0,
           outq := [], open0 := none, open1 := none }

/-- A port without the strokes that wait in the input buffer of another one. -/
def Port.without (x : Port) (p : PortId) : Port :=
  { x with outq := x.outq.filter fun o => o.src != some p
           open0 := if x.open0 = some (some p) then none else x.open0
           open1 := if x.open1 = some (some p) then none else x.open1 }

/-- A port loses the strokes buffered at it in either direction (R375): those bound for its link, whose input ports return
their credits, and those that came over it. -/
def State.flushPort (s : State) (p : PortId) : State :=
  let gone := (s.port p).outq
  let s := overFin 36 (fun q s => s.modPort q fun x => if q = p then x.flush else x.without p) s
  (gone.foldl (fun s o => match o.src with
    | some r => if r = p then s else s.modPort r fun y => y.owe o.srcPool 1
    | none => s) s).pumpAll

/-! ## Packets of this chip (R355, R357) -/

/-- A transaction header (R355). -/
structure Trans where
  src : Nat
  dest : Nat
  addr : Nat := 0
  op : Nat
  units : Nat := 0
  epoch : Nat
  tag : Nat := 0
  code : Nat := 0
  deriving DecidableEq, Repr

def Trans.bytes (t : Trans) : List Byte :=
  pairBytes t.src ++ pairBytes t.dest ++ pairBytes (t.addr % 2 ^ 32) ++ pairBytes (t.addr / 2 ^ 32 % 65536)
    ++ pairBytes (place t.op 28 + place t.units 22 + t.epoch) ++ pairBytes (place t.code 24 + t.tag) ++ zeros 16

def half (n : Nat) : Half := BitVec.ofNat 16 n

/-- VC of a stroke of this chip (R358): 0 toward another rack, 1 within it and out of an L2 port. -/
def State.vcTo (s : State) (dest : Nat) (leaves : Bool) : Nat :=
  if leaves ∨ dest / 64 % 64 = s.chip / 64 % 64 then 1 else 0

/-- A chip number names a chip of the row (R18, R360). -/
def State.inRow (s : State) (dest : Nat) : Bool := decide (dest / 64 < s.fabric.rowRacks + 1) && decide (dest < 4096)

/-- The headers of a management packet of this chip (R354, R355): one stroke of KIND 5, OP 7. -/
def State.mgmtBytes (s : State) (dest vc : Nat) : List Byte :=
  let hb := Hdr.bytes { dest := dest, kind := 5, vc := vc }
  hb ++ rsRemainder 2 hb ++ Trans.bytes { src := s.chip, dest := dest, op := 7, epoch := s.epoch.toNat }

/-- A management packet to a chip (R31, R358, R387, R393): it takes the route of SPREAD 0, and is lost where that offers no
port up in data mode (R361, R373; notes/assumptions/49.md). -/
def State.tell (s : State) (m : Mgmt) (dst : Half) : State :=
  if !s.inRow dst.toNat then s
  else match routePort s.chip (s.fabric.rowRacks + 1) dst.toNat 0 with
    | none => s
    | some (l, leaves) =>
      match s.outPort l 0 with
      | none => s
      | some q => s.queueStroke q { pool := 2, src := none, srcPool := 2, kind := 5,
                                    bytes := s.mgmtBytes dst.toNat (s.vcTo dst.toNat leaves), msg := some m }

def State.tellAll (s : State) (m : Mgmt) (dsts : List Half) : State := dsts.foldl (State.tell · m) s

end Sys2Proof.Machine
end

