-- ==== Sys2Proof/Machine/Queue.lean ====
section
/-! DEFINITION. The command queues of a core: status words (R68), how a command ends and what its failure ends with it
(R70, R71, R89), Stylus faults, and the completion of stalls (R63, R65, R69, R84, R88). -/
namespace Sys2Proof.Machine

/-- Where a queue's status ring begins in the scratchpad window (R68). -/
def ringOff : QueueId → Nat
  | .bq => 0x7FFA00 | .hq => 0x7FFC00 | .sq => 0x7FFE00

/-- The status word of a command (R68). -/
def statusWord (q : QueueId) (seq : Nat) (st : Status) : Word :=
  fields [(statusCode st, 0), (queueCode q, 8), (seq % 2 ^ 32, 32)]

def State.writeStatus (s : State) (c : CoreId) (q : QueueId) (seq : Nat) (st : Status) : State :=
  s.poke (spmOf c.val + ringOff q + 8 * (seq % 64)) (le 8 (statusWord q seq st).toNat)

/-- The queue of an engine command (R266); ATTN's own entry stands in BQ. -/
def EngOp.queue : EngOp → QueueId
  | .burinMm | .conv3 | .attn => .bq
  | .hatchRun | .stencilRun => .hq
  | _ => .sq

/-- The mark T or B of a command: SPAN may be set on it (R264, R266). -/
def EngOp.marked : EngOp → Bool
  | .strmFlash | .strmFadd | .folioPromote | .folioEvict | .folioFlush | .xhStepArr | .xhTreeArr | .hostPost => true
  | _ => false

/-- Records the first fault of a core's context, and the abort that its chip's report then carries (R70, R72, R477). -/
def State.recordFault (s : State) (c : CoreId) (q seq : Nat) (st : Status) : State :=
  let x := s.core c
  let y := { x with err := true, frameFail := some (x.frameFail.getD st) }
  match x.fault with
  | some _ => s.setCore c y
  | none =>
    let s := s.setCore c { y with fault := some ⟨st, q, seq, s.tick.number, x.pc⟩ }
    match s.partOf c with
    | none => s
    | some p =>
      if (s.part p).active then
        s.modPart p fun x => { x with abort := some (x.abort.getD st), faultHere := true,
                                      faultCore := some (x.faultCore.getD c.val) }
      else s

/-- Every command that is queued and has not started ends with the status (R70). -/
def Core.doom (x : Core) (st : Status) : Core :=
  let f (q : Queue) : Queue := { q with cmds := q.cmds.map fun k =>
    if k.started || k.doomed.isSome then k else { k with doomed := some st } }
  { x with bq := f x.bq, hq := f x.hq, sq := f x.sq }

/-- A queue after one of its commands has ended. -/
def Queue.drop (q : Queue) (seq : Nat) (st : Status) : Queue :=
  { q with
    cmds := q.cmds.filter fun k => k.seq != seq
    ended := max q.ended seq
    badSeq := if st = .ok then q.badSeq else some (match q.badSeq with
      | none => seq
      | some b => min b seq) }

/-- FAIL trace entry (R534). -/
def State.traceFail (s : State) (c : CoreId) (q : QueueId) (seq : Nat) (st : Status) : State :=
  if st = .ok then s
  else s.trace (·.traceFail) ⟨3, statusCode st, c.val, queueCode q, BitVec.ofNat 64 seq, s.tick.number, s.sinceEdge⟩

/-- A delivery of a failed command sets its counter's TOK_FAILED bit (R89). Where two deliveries to one counter fail, the
later status is the one that gated commands then take (DESIGN CHOICE, notes/assumptions/53.md). -/
def Core.failToken (x : Core) (k : QCmd) (st : Status) : Core :=
  match k.ctr with
  | none => x
  | some t =>
    if st = .ok ∨ ¬ k.active then x
    else { x with tokFailed := x.tokFailed ||| (1#32 <<< t),
                  tokStatus := (x.tokStatus.filter fun e => e.1 != t) ++ [(t, st)] }

/-- The status of a failed delivery that a gated command ends with (R89). -/
def Core.gateFailed (x : Core) (k : QCmd) : Option Status :=
  match k.gate with
  | none => none
  | some (t, _, _) =>
    if flag x.tokFailed t then some (((x.tokStatus.find? fun e => e.1 == t).map (·.2)).getD .timeout) else none

/-- Pieces of a gated operand that the counter has released (R88). -/
def Core.released (x : Core) (k : QCmd) : Nat :=
  match k.gate with
  | none => 0
  | some (t, base, n) => min n ((x.tok.toList.getD t 0).toNat - base)

/-- A HELD bit whose bank no running command uses any more is cleared (R194). -/
def State.releaseHeld (s : State) (c : CoreId) : State :=
  let w := s.control c.val
  let users (t : Nat) : Bool := (s.core c).allCmds.any fun k =>
    k.started && k.uses.contains t && bitOf k.tables t != bitOf (ctlActive w) t
  let held := (List.range 16).foldl (fun a t => a + (if bitOf (ctlHeld w) t = 1 ∧ users t then 2 ^ t else 0)) 0
  if held = ctlHeld w then s else s.setControl c.val (ctlActive w) (ctlPending w) held

/-! ## Collective groups and aborts -/

/-- An entry of the collective table as its words read (R379). -/
structure GroupEntry where
  words : List Word
  deriving DecidableEq, Repr

def GroupEntry.word (e : GroupEntry) (i : Nat) : Nat := pairVal (e.words.getD i 0)
/-- Every paired word of the entry is valid (words 0 to 12). -/
def GroupEntry.paired (e : GroupEntry) : Bool := (e.words.take 13).all pairOk
def GroupEntry.valid (e : GroupEntry) : Bool := decide (e.word 0 / 2 ^ 31 = 1)
def GroupEntry.rank (e : GroupEntry) : Nat := e.word 0 / 2 ^ 12 % 4096
def GroupEntry.size (e : GroupEntry) : Nat := e.word 0 % 4096 + 1
def GroupEntry.gid (e : GroupEntry) : Nat := e.word 1
def GroupEntry.prev (e : GroupEntry) : Nat := e.word 2 / 65536
def GroupEntry.next (e : GroupEntry) : Nat := e.word 2 % 65536
def GroupEntry.root (e : GroupEntry) : Bool := decide (e.word 3 / 65536 % 2 = 1)
def GroupEntry.parent (e : GroupEntry) : Nat := e.word 3 % 65536
def GroupEntry.children (e : GroupEntry) : List Nat := (List.range (min 8 (e.word 4 % 16))).map fun k => e.word (5 + k) % 65536
/-- The fields are in range (R380, R384): up to eight children, and every chip number of the entry below 4,096. -/
def GroupEntry.inRange (e : GroupEntry) : Bool :=
  decide (e.word 4 % 16 ≤ 8) && ([e.prev, e.next, e.parent] ++ (List.range 8).map fun k => e.word (5 + k) % 65536).all fun n =>
    decide (n < 4096)
/-- The members next to this one in the group's tree; none of an entry that cannot be read. -/
def GroupEntry.neighbours (e : GroupEntry) : List Nat :=
  if e.words.isEmpty then [] else (if e.root then [] else [e.parent]) ++ e.children

/-- Records a failure in XH_COLL_STATUS unless one is held (R393, R400). -/
def Coll.record (x : Coll) (group seq origin : Nat) (st : Status) : Coll :=
  if x.valid then x
  else { x with valid := true, group := group, seqLow := seq % 65536, origin := origin, code := statusCode st }

/-- The entry of group g as the V12 reads it, where its paired words are valid (R379, R380). -/
def State.groupEntry (s : State) (g : Nat) : Option GroupEntry × State :=
  match (hbmRead (s.coll.tableOff + 128 * g) 128).exec s with
  | (.ok bs, t) => if GroupEntry.paired ⟨words bs 16⟩ then (some ⟨words bs 16⟩, t) else (none, t)
  | (.error _, t) => (none, t)

/-- The abort without the cores whose context starts; none when it concerns no core any more. -/
def Aborted.without (cores : List Nat) (a : Aborted) : Option Aborted :=
  let m : BitVec 128 := cores.foldl (fun (m : BitVec 128) c => m &&& ~~~(1#128 <<< c)) a.cores
  if m == 0#128 then none else some { a with cores := m }

/-- The abort of a collective that concerns a core, and the abort that concerns every core. -/
def Coll.abortOf (x : Coll) (c : CoreId) (group seq : Nat) : Option Aborted :=
  x.aborted.find? fun a => a.group == group && a.seq == seq && a.cores.getLsbD c.val
def Coll.abortSeen (x : Coll) (group seq : Nat) : Bool :=
  x.aborted.any fun a => a.group == group && a.seq == seq && a.cores == BitVec.allOnes 128

/-- An abort of a collective goes out over the group's tree, and is recorded (R393). -/
def State.sendAbort (s : State) (e : GroupEntry) (group seq origin : Nat) (st : Status) : State :=
  let m : AbortMsg := ⟨⟨group % 256, Nat.mod_lt _ (by decide)⟩, BitVec.ofNat 32 seq, st, BitVec.ofNat 12 origin, s.epoch⟩
  let old := s.coll.aborted.filter fun a => !(a.group == group && a.seq == seq)
  let s := { s with coll := { s.coll.record group seq origin st with
    aborted := old ++ [(⟨group, seq, st, BitVec.allOnes 128⟩ : Aborted)], aborts := satAdd 16 s.coll.aborts 1 } }
  s.tellAll (.abort m) (e.neighbours.map half)

def EngOp.isXh : EngOp → Bool
  | .xhStep | .xhTree | .xhStepArr | .xhTreeArr => true
  | _ => false

/-- The group that an XH block names (R382). -/
def QCmd.group (k : QCmd) : Nat := pairVal (w64At k.block 0) % 256
/-- HDR of an XH block. -/
def QCmd.isHeader (k : QCmd) : Bool := flag (w64At k.block 0) 25
/-- The entry of the command's group, as read at issue. -/
def QCmd.entry (k : QCmd) : GroupEntry := ⟨k.xh.entry⟩

/-- The sequence number of a core's group; none where its paired word is invalid (R10, R381). -/
def State.seqWord (s : State) (c g : Nat) : Option Nat :=
  let w := s.peek64 (spmOf c + 0x7FE800 + 8 * g)
  if pairOk w then some (pairVal w) else none

/-- A header step's end writes the next sequence number (R385). -/
def State.bumpSeq (s : State) (c : CoreId) (g seq : Nat) : State :=
  s.poke (spmOf c.val + 0x7FE800 + 8 * g) (pairBytes ((seq + 1) % 2 ^ 32))

/-- The SEQ of a failed XH command, where it is known: its region's, that of the header step once it has started, or the
core's for a header step that never did (notes/assumptions/14.md). -/
def State.failedSeq (s : State) (c : CoreId) (k : QCmd) : Option Nat :=
  match (s.core c).regions.find? fun r => r.group == k.group with
  | some r => some r.seq
  | none =>
    if ¬ k.isHeader then none
    else if k.started then (if k.xh.seqOk then some k.xh.seq else none)
    else s.seqWord c.val k.group

/-- The group entry that a failed XH command's abort goes by: as read at issue, by its region's header step, or now. -/
def State.failedEntry (s : State) (c : CoreId) (k : QCmd) : Option GroupEntry × State :=
  if k.xh.entry ≠ [] then (some k.entry, s)
  else match (s.core c).regions.find? fun r => r.group == k.group with
    | some r => (some ⟨r.entry⟩, s)
    | none => s.groupEntry k.group

/-- A failure's abort (R393), unless an abort of that collective has reached the core already. -/
def State.abortXh (s : State) (c : CoreId) (k : QCmd) (st : Status) : State :=
  match s.failedSeq c k with
  | none => s
  | some seq =>
    if (s.coll.abortOf c k.group seq).isSome then s
    else match s.failedEntry c k with
      | (some e, t) => t.sendAbort e k.group seq e.rank st
      | (none, t) => t.sendAbort ⟨[]⟩ k.group seq 0 st

/-- What a failed XH command does to its collective: an abort goes out when its number is known (R393;
notes/assumptions/14.md), its region closes (R386), and a header step that has run ends its number (R385). A block whose
CTRL is no valid pair names no group (R10). -/
def State.failXh (s : State) (c : CoreId) (k : QCmd) (st : Status) : State :=
  if ¬ k.op.isXh ∨ st = .ok ∨ ¬ k.active ∨ k.block.isEmpty ∨ ¬ pairOk (w64At k.block 0) then s
  else
    let g := k.group
    let s := if st = .collMismatch then
      { s with coll := { s.coll with mismatches := satAdd 16 s.coll.mismatches 1 } } else s
    let inRegion := (s.core c).regions.any fun r => r.group == g
    let s := s.abortXh c k st
    if inRegion then s.modCore c fun x => { x with regions := x.regions.filter fun y => y.group != g }
    else if k.isHeader ∧ k.started ∧ k.xh.seqOk then s.bumpSeq c g k.xh.seq else s

/-- A command ends (R68): status words, counters, trace; `skipped` when it was not executed (R70). The effects of its
failure on the rest of the frame are `endCmd`'s. -/
def State.endOne (s : State) (c : CoreId) (k : QCmd) (st : Status) (skipped : Bool) : State :=
  let q := k.op.queue
  let s := s.failXh c k st
  let s := s.writeStatus c q k.seq st
  let s := if k.op = .attn then s.writeStatus c .hq k.seqHq st else s
  let s := s.modCore c fun x =>
    let x := x.setQueue q ((x.queue q).drop k.seq st)
    let x := if k.op = .attn then { x with hq := x.hq.drop k.seqHq st } else x
    let x := if skipped then { x with skipped := satAdd 16 x.skipped 1 } else x
    let x := if k.op = .hatchRun then { x with hatchCommands := satAdd 32 x.hatchCommands 1 } else x
    x.failToken k st
  let s := s.traceFail c q k.seq st
  (if skipped then s else s.endRequest st).releaseHeld c

/-- A queue head that ends at once: doomed (R70), or guarded off (R253); ATTN guarded off stands at both heads (R66). -/
def Core.endsAtOnce (x : Core) (k : QCmd) : Bool :=
  !k.started && !k.shadow && (k.doomed.isSome
    || (!k.active && (k.op != .attn || (x.hq.cmds.head?.map fun h => h.shadow && h.seq == k.seqHq) == some true)))

/-- Ends commands that are not executed, from the head of each queue (R70, R253, R281). -/
def State.drainDoomed (c : CoreId) : Nat → State → State
  | 0, s => s
  | n + 1, s =>
    let x := s.core c
    let heads := [QueueId.bq, .hq, .sq].filterMap fun q => (x.queue q).cmds.head?
    match heads.find? x.endsAtOnce with
    | some k => State.drainDoomed c n (s.endOne c k (k.doomed.getD .ok) k.doomed.isSome)
    | none => s

/-- True when no command of the core but those with SPAN is left (R63). -/
def Core.quiet (x : Core) : Bool := x.allCmds.all fun k => k.span

/-- The core has reached TICK.WAIT (R63, R71): it is done for the tick; a frame that ends in the slack is counted
(notes/assumptions/13.md). A TICK_SLACK outside 2 to 50 is kept as written and counts as the nearer bound (DESIGN CHOICE,
notes/assumptions/51.md). -/
def State.reachWait (s : State) (c : CoreId) : State :=
  let t := s.tick
  let late := decide (100 * (t.time - t.edge) > t.effective * (100 - max 2 (min 50 t.slack)))
  let s := s.modCore c fun x => { x with atWait := true, running := false, stall := none }
  if late then { s with tick := { t with slackUsed := true, slackCount := satAdd 16 t.slackCount 1 } } else s

/-- Completes what a core stalls on, when its condition holds (R63, R65, R69, R71, R84, R88, R278). -/
def State.settle (s : State) (c : CoreId) : State :=
  let x := s.core c
  if ¬ x.running then s
  else if x.stopped then (if x.quiet then s.reachWait c else s)
  else match x.stall with
    | none => s
    | some .tickWait => if x.quiet then s.reachWait c else s
    | some (.fence _) =>
      if x.allCmds.isEmpty then s.setCore c { x with stall := none, pc := x.pc + 8 } else s
    | some (.full q) => if (x.queue q).cmds.length < 16 then s.setCore c { x with stall := none } else s
    | some (.cmdWait q n pd) =>
      let y := x.queue q
      if y.cmds.any fun k => decide (k.seq ≤ n) then s
      else
        let good := match y.badSeq with
          | none => true
          | some b => decide (n < b)
        let p := if pd = 0 then x.p else Vector.ofFn fun (i : Fin 8) => if i.val = pd then good else x.p[i]
        s.setCore c { x with stall := none, pc := x.pc + 8, p := p }
    | some (.tokWait t n) =>
      let failed := flag x.tokFailed t
      if failed ∨ (x.tok.toList.getD t 0).toNat ≥ n then
        s.setCore c { x with stall := none, pc := x.pc + 8,
                             p := Vector.ofFn fun (i : Fin 8) => if i.val = 7 then !failed else x.p[i] }
      else s

/-- A command ends with a status; when it is not OK, the frame's other commands end with it (R70). -/
def State.endCmd (s : State) (c : CoreId) (k : QCmd) (st : Status) : State :=
  let s := s.endOne c k st false
  let s := if st = .ok then s
    else (s.recordFault c (queueCode k.op.queue) (k.seq % 2 ^ 32) st).modCore c fun x => x.doom st
  (State.drainDoomed c 49 s).settle c

/-- A Stylus fault (R71). -/
def State.stylusFault (s : State) (c : CoreId) (st : Status) : State :=
  let s := (s.recordFault c 0 0 st).endRequest st
  let s := s.modCore c fun x => { x.doom st with stopped := true, stall := none }
  (State.drainDoomed c 49 s).settle c

/-- Replaces a queued command, by its number in its queue. -/
def State.putCmd (s : State) (c : CoreId) (k : QCmd) : State :=
  s.modCore c fun x =>
    let y := x.queue k.op.queue
    x.setQueue k.op.queue { y with cmds := y.cmds.map fun j => if j.seq = k.seq then k else j }

def State.findCmd (s : State) (c : CoreId) (q : QueueId) (seq : Nat) : Option QCmd :=
  ((s.core c).queue q).cmds.find? fun k => k.seq == seq

/-- A piece is counted in a token counter (R87, R90). -/
def countToken (c : CoreId) (t : Nat) : Eng Unit := do
  let s ← get
  let x := s.core c
  let v := (x.tok.toList.getD t 0).toNat
  if v ≥ 65535 then throw .allocFault
  set ((s.setCore c { x with
    tok := Vector.ofFn fun (i : Fin 32) => if i.val = t then BitVec.ofNat 16 (v + 1) else x.tok[i] }).settle c)

end Sys2Proof.Machine
end

