-- ==== Sys2Proof/Machine/Report.lean ====
section
/-! DEFINITION. The tick report and the verdict: a chip's own report (R31, R121, R477), the combination up the report
tree, and what the master makes of it (R32, R34, R37 to R41, R122, R126, R483, R532). -/
namespace Sys2Proof.Machine

/-- Window offset of the watch table (R115). -/
def watchOff : Nat := 0x7FF5C0
/-- Entry w of a core's watch table. -/
def watchEntryOff (c w : Nat) : Nat := spmOf c + watchOff + 64 + 16 * w

/-- The logical cores of a partition (R460). -/
def Part.coreNats (x : Part) : List Nat := (List.range (8 * (x.count + 1))).map (· + 8 * x.first)
def coreIdOf (n : Nat) : CoreId := ⟨n % 128, Nat.mod_lt _ (by decide)⟩
def Part.coreIds (x : Part) : List CoreId := x.coreNats.map coreIdOf

/-- The cores of a partition that its image was compiled for (R461, R62). -/
def Part.imageCores (x : Part) : List CoreId :=
  match x.image with
  | none => []
  | some im => (x.coreNats.take im.cores).map coreIdOf

/-- The other cores of a partition. -/
def Part.otherCores (x : Part) : List CoreId :=
  match x.image with
  | none => x.coreIds
  | some im => (x.coreNats.drop im.cores).map coreIdOf

/-- VF and VA of all of a partition's cores (R121). -/
def State.watchVectors (s : State) (p : PartId) : Word × Word :=
  let x := s.part p
  if ¬ x.active then (0, 0)
  else
    let bytes := x.coreIds.flatMap fun c =>
      (List.range 64).map fun w => (w, s.mem.byte (watchEntryOff c.val w + 0xE))
    bytes.foldl (fun a e =>
      (if e.2.toNat % 16 ≠ 0 then a.1 ||| (1#64 <<< e.1) else a.1,
       if e.2.getLsbD 4 then a.2 ||| (1#64 <<< e.1) else a.2)) (0, 0)

/-- Every core of the chip is done for the tick (R28, R62, R72). -/
def State.allDone (s : State) : Bool := s.cores.toList.all fun x => !x.running

/-- A stack of the chip is in band 0b10 (R294). -/
def State.stackHold (s : State) : Bool := s.hbmStacks.toList.any fun x => x.band.val == 2
/-- A stack of the chip is above 95 °C, or has been since the last edge (R37, R294). -/
def State.stackHot (s : State) : Bool := s.tick.hotSince || s.hbmStacks.toList.any fun x => decide (x.last > 95)

/-- The chip's own report for the tick in progress (R31, R37, R121, R295, R477, R532). -/
def State.ownReport (s : State) : Report :=
  let t := s.tick
  let vs := (List.finRange 8).map s.watchVectors
  let vec (w : Word) : PW2 := pw2 w.toNat
  { tick := pw2 t.number
    edge := pw2 t.edge
    done := s.allDone
    late := t.ownLate
    stretch := t.stretchReq || s.stackHot || s.power.stretchAsk
    hold := s.stackHold
    thermal := s.power.thermAbort
    epochUp := s.recov.bumpEpoch
    vf := vs.map fun v => vec v.1
    va := vs.map fun v => vec v.2
    abort := s.parts.toList.map (·.abort)
    proof := s.proof.bcastAt.map fun n => pw2 (n % 2 ^ 48) }

def firstSome {α : Type} (a b : Option α) : Option α := match a with
  | some x => some x
  | none => b

def lowest (a b : Option PW2) : Option PW2 :=
  match a, b with
  | some x, some y => some (if PW2.val x ≤ PW2.val y then x else y)
  | some x, none => some x
  | none, y => y

/-- Vector i of a list carried as paired words (R121). -/
def vecAt (l : List PW2) (i : Nat) : Word := BitVec.ofNat 64 (PW2.val (l.getD i (pw2 0)))

/-- Two reports combined: done by AND, the rest by OR (R31); the lowest broadcast tick (R532). -/
def joinReports (a b : Report) : Report :=
  { a with
    done := a.done && b.done
    late := a.late || b.late
    stretch := a.stretch || b.stretch
    hold := a.hold || b.hold
    thermal := a.thermal || b.thermal
    epochUp := a.epochUp || b.epochUp
    vf := (List.range 8).map fun i => pw2 (vecAt a.vf i ||| vecAt b.vf i).toNat
    va := (List.range 8).map fun i => pw2 (vecAt a.va i ||| vecAt b.va i).toNat
    abort := (List.range 8).map fun i => firstSome (a.abort.getD i none) (b.abort.getD i none)
    proof := lowest a.proof b.proof }

/-- The valid children of a member or master (R31); an entry that is no valid paired word names none (R10). -/
def Tick.validChildren (t : Tick) : List Half :=
  if t.role = .standalone ∨ t.role = .reserved then []
  else (t.children.toList.filter fun w => pairOk w && decide (pairVal w / 65536 % 2 = 1)).map fun w => half (pairVal w % 65536)

/-- The combination of the own report with the latest of every valid child; a child not heard of is not done (R31). -/
def State.combined (s : State) : Report :=
  s.tick.validChildren.foldl (fun r c =>
    match s.tick.got.find? fun g => g.1 == c with
    | some g => joinReports r g.2
    | none => { r with done := false }) s.ownReport

/-- The role whose behaviour a chip has: the reserved code acts as standalone (notes/assumptions/15.md). -/
def Tick.decides (t : Tick) : Bool :=
  match t.role with
  | .member => false
  | _ => true

/-- P_k (R39). -/
def stepPeriod (p0 : Nat) : Nat → Nat
  | 0 => p0
  | k + 1 => min (stepPeriod p0 k * 5 / 4) (4 * p0)

/-- L in cc: values below 2 act as 2 (R56). -/
def Tick.leadCc (t : Tick) : Nat := 1800 * max 2 t.lead

/-- The decision of the table "Vote outcomes" for a partition (R122), with the variants of its image. -/
def decideVote (variants : Nat) (v : Variant) (vf va : Word) : Decision :=
  let wideOr := if variants / 2 % 2 = 1 then Decision.wide else .failedStep
  if vf = 0 then .goOn
  else match v with
    | .normal => if vf = va then wideOr else if variants % 2 = 1 then .replay else wideOr
    | .replay => wideOr
    | .wide => .failedStep

/-- The stretch part of a verdict for tick n (R37 to R41): the tick unit after it and the change granted. -/
def Tick.grantStretch (t : Tick) (request hold held : Bool) : Tick × Int :=
  let n := t.number
  let recent := t.heldAt.filter fun k => decide (n < k + 256)
  let heldAt := if held then recent ++ [n] else recent
  let fourth := held && decide (heldAt.length ≥ 4)
  let t := { t with heldAt := if fourth then [] else heldAt }
  let asked := request || fourth
  let t := if asked then { t with lastReq := some n } else t
  if t.pending.isSome then ({ t with deferredReq := t.deferredReq || asked }, 0)
  else if asked || t.deferredReq then
    let t := { t with deferredReq := false }
    if t.step ≥ 7 then ({ t with stretchLimit := true }, 0) else (t, 1)
  else
    let calm := match t.lastReq with
      | none => true
      | some r => decide (n ≥ r + 256)
    if t.step > 0 ∧ calm ∧ n ≥ t.lastChange + 64 ∧ ¬ hold then (t, -1) else (t, 0)

/-- The verdict that the master or a standalone chip makes of the combined report, whose last part arrived at `now`
(R34, R38, R48, R122, R126, R295, R477, R483, R532). -/
def State.makeVerdict (s : State) (r : Report) (now : Nat) : State :=
  let t := s.tick
  let h := max (t.edge + t.effective) (now + t.leadCc)
  let onTime := decide (now ≤ t.edge + t.effective) && t.validChildren.isEmpty
  let h := if onTime then t.edge + t.effective else h
  let held := decide (h > t.edge + t.effective)
  let (t, grant) := t.grantStretch r.stretch r.hold held
  let stop : Option Status := if r.thermal then some .thermal else if t.stopReq then some .ok else none
  let dec := (List.finRange 8).map fun p =>
    let x := s.part p
    if stop.isSome ∨ (r.abort.getD p.val none).isSome ∨ ¬ x.active ∨ x.held then Decision.goOn
    else decideVote ((x.image.map (·.variants)).getD 0) x.variant (vecAt r.vf p.val) (vecAt r.va p.val)
  let v : VerdictMsg :=
    { tick := pw2 t.number
      edge := pw2 h
      vf := r.vf
      va := r.va
      decide := dec
      grant := if stop.isSome then 0 else grant
      stop := stop
      partStop := r.abort
      release := (List.finRange 8).map fun p => (s.part p).ctl
      epoch := if r.epochUp then s.epoch + 1 else s.epoch
      proof := r.proof }
  let t := { t with
    verdict := some v
    voteLate := t.voteLate || (held && !r.late)
    stopReq := false }
  let s := { s with tick := t }
  let s := overFin 8 (fun p s => s.modPart p fun x => { x with ctl := none }) s
  s.tellAll (.verdict v) t.validChildren

/-- The group time has gone on by an amount that the command does not show (notes/assumptions/50.md). -/
def State.sometime (s : State) : State :=
  let (w, s) := s.draw
  { s with tick := { s.tick with time := s.tick.time + w.toNat } }

/-- A report goes to the chip that TICK_PARENT names (R31); a word that is no valid pair names none (R10). -/
def State.tellParent (s : State) (r : Report) : State :=
  if pairOk s.tick.parent then s.tell (.report r) (half (pairVal s.tick.parent % 65536)) else s

/-- What a completed subtree does (R31): a member sends its done report to its parent, the master issues the verdict. The
last done report reached the master now (R34): at the group time that the command brought, or at one it does not show. -/
def State.tryReportAt (timed : Bool) (s : State) : State :=
  let t := s.tick
  if ¬ t.run ∨ t.waitAlign ∨ t.lost ∨ t.sentDone ∨ ¬ t.tickStarted ∨ s.allDone = false then s
  else
    let r := s.combined
    if ¬ r.done then s
    else
      let s := { s with
        tick := { t with sentDone := true, stretchReq := false }
        power := { s.power with stretchAsk := false }
        proof := { s.proof with bcastAt := none } }
      if t.decides then
        let s := if timed then s else s.sometime
        s.makeVerdict r s.tick.time
      else s.tellParent r

/-- After a command that carries no time. -/
def State.tryReport (s : State) : State := s.tryReportAt false
/-- After a command that carries its time. -/
def State.tryReportNow (s : State) : State := s.tryReportAt true

/-- The group time that a command's event shows. -/
def State.atTime (s : State) (now : Nat) : State := { s with tick := { s.tick with time := max s.tick.time now } }

end Sys2Proof.Machine
end

