-- ==== Sys2Proof/Machine/Issue.lean ====
section
/-! DEFINITION. How the Stylus takes an instruction: when it issues, fetch, decode before the guard (R253, R254, R263),
the outcome of its body, and the issue of engine commands into the queues (R65 to R68, R265). -/
namespace Sys2Proof.Machine

/-- What an instruction does to the flow: next word, a branch to an offset in the code segment, or a stall. -/
inductive Flow where
  | step
  | jump (off : Int)
  | stall (x : Stall)
  | again
  deriving DecidableEq, Repr

/-- A core that issues nothing now: absent, outside a frame, after a Stylus fault, or stalled (R28, R71, R82). -/
def State.issues (s : State) (c : CoreId) : Bool :=
  let x := s.core c
  decide (c.val < s.logicalCores) && x.running && !x.stopped && x.stall.isNone

/-- The bytes of the core's code segment (R59); 0 where no image covers the core. -/
def State.codeSize (s : State) (c : CoreId) : Nat :=
  match s.imageOf c with
  | some (_, _, e) => e.codeSize
  | none => 0

/-- The instruction that stands at the core's pc: the word of its code segment there (R250). The commands of Stylus
instructions are what the sequencer fetched (DESIGN CHOICE, notes/assumptions/55.md). -/
def State.nextInstr (s : State) (c : CoreId) (now : Nat) : Option Instr :=
  (s.imageOf c).map fun x => stylusDecode c now (w64At (s.peek (x.2.1.base + x.2.2.code + (s.core c).pc) 8) 0)

/-- The flow of an instruction that executed. A branch target is checked when it is fetched (R263): a negative target
lies outside the segment, as the segment's end does. -/
def State.flow (s : State) (c : CoreId) (f : Flow) : State :=
  match f with
  | .step => s.modCore c fun x => { x with pc := x.pc + 8 }
  | .jump off => s.modCore c fun x => { x with pc := if off < 0 then s.codeSize c else off.toNat }
  | .stall y => (s.modCore c fun x => { x with stall := some y }).settle c
  | .again => s

/-- One Stylus instruction of core c (R253): nothing where the core issues nothing; a fault for a fetch outside the code
segment or an ill-formed word; `skip` where the guard fails; else `body`. A completed frame is reported (R31). -/
def stylusAt (timed : Bool) (c : CoreId) (pre : Pre) (formed : Bool) (skip body : Eng Flow) (s : State) : State :=
  if ¬ s.issues c then s
  else
    let x := s.core c
    if x.pc % 8 ≠ 0 ∨ x.pc + 8 > s.codeSize c then (s.stylusFault c .allocFault).tryReportAt timed
    else if ¬ formed then (s.stylusFault c .decode).tryReportAt timed
    else
      match (if x.guardHolds pre then body else skip).exec s with
      | (.ok f, t) => (t.flow c f).tryReportAt timed
      | (.error st, t) => (t.stylusFault c st).tryReportAt timed

/-- An instruction whose command carries no time. -/
def stylus (c : CoreId) (pre : Pre) (formed : Bool) (skip body : Eng Flow) (s : State) : State :=
  stylusAt false c pre formed skip body s

/-- A scalar, memory, control-flow or synchronisation instruction: without effect where the guard fails (R253). -/
def scalar (c : CoreId) (pre : Pre) (formed : Bool) (body : Eng Flow) (s : State) : State :=
  stylus c pre formed (pure .step) body s

/-- The core's registers after a function, then the next word. -/
def regsStep (c : CoreId) (f : Core → Core) : Eng Flow := do
  modify fun s => s.modCore c f
  pure .step

/-! ## Engine commands -/

/-- Positions T0 to T4 with a role, by command (R265, R266). -/
def EngOp.roles : EngOp → Nat
  | .burinMm => 5
  | .conv3 => 3
  | .hatchRun | .stencilRun => 4
  | .strmCopy | .strmFlash | .strmFadd => 2
  | .etchBuild => 1
  | .xhStep | .xhTree | .xhStepArr | .xhTreeArr => 2
  | _ => 0

/-- Bytes of the command block (R266). -/
def EngOp.blockSize : EngOp → Nat
  | .conv3 => 96
  | .attn => 128
  | .kvPage => 0
  | _ => 64

def FmtC.t (f : FmtC) (i : Nat) : BitVec 4 :=
  match i with
  | 0 => f.t0 | 1 => f.t1 | 2 => f.t2 | 3 => f.t3 | _ => f.t4

/-- The checks of a format C word (R254, R265): TDEN against the T fields and the roles, Rsv, SPAN by the mark. -/
def formC (op : EngOp) (f : FmtC) : Bool :=
  guardForm f.pre && (!f.pre.span || op.marked) && unused f.rsv
    && (List.range 5).all fun i =>
      if f.tden.getLsbD i then decide (i < op.roles) else FmtC.t f i == 0

/-- Space in the queue, or queues, of a command (R65, R66). A command keeps its slot until it ends (DESIGN CHOICE,
notes/assumptions/53.md). -/
def Core.hasRoom (x : Core) (op : EngOp) : Bool :=
  decide ((x.queue op.queue).cmds.length < 16) && (op != .attn || decide (x.hq.cmds.length < 16))

def fullStall (x : Core) (op : EngOp) : Stall :=
  if (x.queue op.queue).cmds.length < 16 then .full .hq else .full op.queue

/-- A command takes its number, or for ATTN its two numbers, and enters its queue (R66, R68). The number itself has no
bound; the words that show it hold its low 32 bits (DESIGN CHOICE, notes/assumptions/53.md). -/
def State.enqueue (s : State) (c : CoreId) (k : QCmd) : State :=
  s.modCore c fun x =>
    let q := x.queue k.op.queue
    let x := x.setQueue k.op.queue { q with cmds := q.cmds ++ [k], next := q.next + 1 }
    if k.op = .attn then
      { x with hq := { x.hq with
        cmds := x.hq.cmds ++ [{ k with seq := k.seqHq, shadow := true }], next := x.hq.next + 1 } }
    else x

/-- The token counter that a command's block names (R87): TOK_EN and the counter of stream, XH and FOLIO.PROMOTE blocks; none
where the word that holds them is no valid paired word. -/
def QCmd.counter (k : QCmd) : Option Nat :=
  let w := w64At k.block 0
  let v := pairVal w
  match k.op with
  | .strmCopy | .strmFlash | .strmFadd => if pairOk w && v / 2 ^ 13 % 2 == 1 then some (v / 2 ^ 8 % 32) else none
  | .xhStep | .xhTree | .xhStepArr | .xhTreeArr => if pairOk w && v / 2 ^ 21 % 2 == 1 then some (v / 2 ^ 16 % 32) else none
  | .folioPromote => if flag (w64At k.block 0x28) 5 then some (field (w64At k.block 0x28) 4 0) else none
  | _ => none

/-- Issues a command (R65 to R68, R70, R253): `copy` makes its copies, `check` the checks on them. A command that fails at
issue ends at issue (notes/assumptions/16.md), with the counter that its block names (R89). -/
def issueCmd (c : CoreId) (op : EngOp) (active span : Bool) (copy check : QCmd → Eng QCmd) : Eng Flow := do
  let s ← get
  let x := s.core c
  if ¬ x.hasRoom op then return .stall (fullStall x op)
  let k : QCmd := { op := op, seq := (x.queue op.queue).next, seqHq := x.hq.next, active := active, span := span,
                    tables := x.frameActive, doomed := x.frameFail }
  let copied := match ((copy k).exec s).1 with
    | .ok j => j
    | .error _ => k
  if x.frameFail.isSome ∨ ¬ active then
    set (State.drainDoomed c 49 (s.enqueue c (if active then copied else k)))
    return .step
  match (copy k >>= check).exec s with
  | (.ok j, t) => set (t.enqueue c j)
  | (.error st, t) => set ((t.enqueue c copied).endCmd c copied st)
  return .step

/-- The copies that a format C command makes at issue (R67, R265): its block, wholly in the core's own scratchpad, and
the descriptors named. -/
def copyC (c : CoreId) (f : FmtC) (k : QCmd) : Eng QCmd := do
  let s ← get
  let x := s.core c
  let addr := (x.areg f.ab.toNat).toNat
  let o := addr % 2 ^ 48
  let n := k.op.blockSize
  need (decide (addr / 2 ^ 48 = s.chip) && decide (addr % 64 = 0) && decide (spmOf c.val ≤ o)
    && decide (o + n ≤ spmOf c.val + spmSize)) .allocFault
  let j := { k with block := s.peek o n }
  pure { j with
    ctr := j.counter
    descs := (List.range 5).map fun i => if f.tden.getLsbD i then some (x.tdBytes (FmtC.t f i).toNat) else none }

/-- A format C engine command of core c, with its table of checks at issue (R265, R266). -/
def engineC (c : CoreId) (op : EngOp) (f : FmtC) (check : CoreId → QCmd → Eng QCmd) (s : State) : State :=
  let go (active : Bool) : Eng Flow := issueCmd c op active f.pre.span (copyC c f) (check c)
  stylus c f.pre (formC op f) (go false) (go true) s

end Sys2Proof.Machine
end

