-- ==== Sys2Proof/Machine/Float.lean ====
section
/-! DEFINITION. The number formats of R93 to R102 and R138, exact arithmetic on their values and the one rounding of
each conversion (R95, R96), division and square root correctly rounded, and Contour's exp2 and log2 (R179). -/
namespace Sys2Proof.Machine

/-- The value of a floating-point number: NaN, an infinity, a signed zero, or n * 2^e with n not zero. -/
inductive Fp where
  | nan
  | inf (neg : Bool)
  | zero (neg : Bool)
  | fin (n : Int) (e : Int)
  deriving DecidableEq, Repr

/-- A scalar floating-point format (R93, R138). `maxCode` is the magnitude code of the largest finite value. -/
structure FFmt where
  ebits : Nat
  mbits : Nat
  bias : Nat
  maxCode : Nat
  infCode : Option Nat
  nanCode : Nat
  clamps : Bool
  deriving DecidableEq, Repr

def fp32 : FFmt := ⟨8, 23, 127, 0x7F7FFFFF, some 0x7F800000, 0x7FC00000, false⟩
def bf16 : FFmt := ⟨8, 7, 127, 0x7F7F, some 0x7F80, 0x7FC0, false⟩
def e4m3 : FFmt := ⟨4, 3, 7, 0x7E, none, 0x7F, true⟩
def e5m2 : FFmt := ⟨5, 2, 15, 0x7B, some 0x7C, 0x7E, true⟩
def e40f : FFmt := ⟨8, 31, 127, 0x7F7FFFFFFF, some 0x7F80000000, 0x7FC0000000, false⟩

def FFmt.width (f : FFmt) : Nat := 1 + f.ebits + f.mbits
/-- The exponent of the unit in the last place of the subnormals. -/
def FFmt.qmin (f : FFmt) : Int := 1 - (f.bias : Int) - f.mbits

/-- n * 2^e as a value; n = 0 gives a zero of the sign given. -/
def Fp.mk (neg : Bool) (n e : Int) : Fp := if n = 0 then .zero neg else .fin n e

def Fp.isNeg : Fp → Bool
  | .nan => false | .inf b => b | .zero b => b | .fin n _ => decide (n < 0)

def Fp.isNan : Fp → Bool
  | .nan => true | _ => false

def Fp.isInf : Fp → Bool
  | .inf _ => true | _ => false

def Fp.isFinite : Fp → Bool
  | .zero _ => true | .fin _ _ => true | _ => false

def Fp.isZero : Fp → Bool
  | .zero _ => true | _ => false

/-- Decodes a code of a format (R93, R94). -/
def FFmt.decode (f : FFmt) (code : Nat) : Fp :=
  let mag := code % 2 ^ (f.ebits + f.mbits)
  let neg := decide (code / 2 ^ (f.ebits + f.mbits) % 2 = 1)
  if f.infCode = some mag then .inf neg
  else if mag > f.maxCode then .nan
  else
    let e := mag / 2 ^ f.mbits
    let m := mag % 2 ^ f.mbits
    let n : Int := if e = 0 then (m : Int) else ((m + 2 ^ f.mbits : Nat) : Int)
    let q : Int := f.qmin + (if e = 0 then 0 else (e : Int) - 1)
    if n = 0 then .zero neg else .fin (if neg then -n else n) q

/-- The rounding of a conversion: nearest with ties to even, or stochastic with a 16-bit draw (R95). -/
inductive Rnd where
  | near
  | stoch (r : Nat)
  deriving DecidableEq, Repr

/-- floor(m * 2^s) and what is lost of it, as a pair (numerator, log2 of the denominator). -/
def shiftParts (m : Nat) (s : Int) : Nat × Nat × Nat :=
  if s ≥ 0 then (m * 2 ^ s.toNat, 0, 0)
  else (m / 2 ^ (-s).toNat, m % 2 ^ (-s).toNat, (-s).toNat)

/-- Rounds the non-negative m * 2^s to a whole number (R95). -/
def roundNat (r : Rnd) (m : Nat) (s : Int) : Nat :=
  let (k, rem, d) := shiftParts m s
  match r with
  | .near =>
    if 2 * rem > 2 ^ d then k + 1
    else if 2 * rem = 2 ^ d ∧ rem ≠ 0 then k + k % 2
    else k
  | .stoch draw => if rem * 65536 / 2 ^ d > draw then k + 1 else k

/-- The magnitude code of |m * 2^e| on the format's grid, which continues past the largest finite value at the spacing
of the top binade (R96). -/
def FFmt.roundMag (f : FFmt) (r : Rnd) (m : Nat) (e : Int) : Nat :=
  if m = 0 then 0
  else
    let qtop : Int := f.qmin + ((f.maxCode / 2 ^ f.mbits : Nat) : Int) - 1
    let q : Int := min qtop (max f.qmin (e + (Nat.log2 m : Int) - f.mbits))
    let k := roundNat r m (e - q)
    (q - f.qmin).toNat * 2 ^ f.mbits + k

/-- What a conversion did besides its code: whether a finite value overflowed and was clamped (R96, R98). -/
structure Enc where
  code : Nat
  clamped : Bool := false
  deriving DecidableEq, Repr

def FFmt.signBit (f : FFmt) (neg : Bool) : Nat := if neg then 2 ^ (f.ebits + f.mbits) else 0

/-- Converts a value to a format under R94 to R96. -/
def FFmt.encode (f : FFmt) (r : Rnd) : Fp → Enc
  | .nan => ⟨f.nanCode, false⟩
  | .zero neg => ⟨f.signBit neg, false⟩
  | .inf neg =>
    match f.infCode with
    | some c => ⟨f.signBit neg + c, false⟩
    | none => ⟨f.nanCode, false⟩
  | .fin n e =>
    let neg := decide (n < 0)
    let c := f.roundMag r n.natAbs e
    if c ≤ f.maxCode then ⟨f.signBit neg + c, false⟩
    else if f.clamps then ⟨f.signBit neg + f.maxCode, true⟩
    else ⟨f.signBit neg + f.infCode.getD f.nanCode, true⟩

/-- FP32 bits of a value, to nearest (R162). -/
def toF32 (x : Fp) : Word32 := BitVec.ofNat 32 (fp32.encode .near x).code
def ofF32 (b : Word32) : Fp := fp32.decode b.toNat
def toBf16 (x : Fp) : Half := BitVec.ofNat 16 (bf16.encode .near x).code

/-! Exact arithmetic with the special values of IEEE 754. -/

/-- n1 * 2^e1 + n2 * 2^e2 on a common exponent. -/
def dyAdd (n1 e1 n2 e2 : Int) : Int × Int :=
  let e := min e1 e2
  (n1 * 2 ^ (e1 - e).toNat + n2 * 2 ^ (e2 - e).toNat, e)

def Fp.neg : Fp → Fp
  | .nan => .nan | .inf b => .inf !b | .zero b => .zero !b | .fin n e => .fin (-n) e

def Fp.abs : Fp → Fp
  | .nan => .nan | .inf _ => .inf false | .zero _ => .zero false | .fin n e => .fin n.natAbs e

/-- Exact sum; an exact zero of unlike operands is +0 under round to nearest. -/
def Fp.add : Fp → Fp → Fp
  | .nan, _ => .nan
  | _, .nan => .nan
  | .inf a, .inf b => if a = b then .inf a else .nan
  | .inf a, _ => .inf a
  | _, .inf b => .inf b
  | .zero a, .zero b => .zero (a && b)
  | .zero _, y => y
  | x, .zero _ => x
  | .fin n1 e1, .fin n2 e2 => let r := dyAdd n1 e1 n2 e2; Fp.mk false r.1 r.2

def Fp.sub (x y : Fp) : Fp := Fp.add x y.neg

/-- Exact product. -/
def Fp.mul : Fp → Fp → Fp
  | .nan, _ => .nan
  | _, .nan => .nan
  | .inf a, y => if y.isZero then .nan else .inf (a != y.isNeg)
  | x, .inf b => if x.isZero then .nan else .inf (x.isNeg != b)
  | .zero a, y => .zero (a != y.isNeg)
  | x, .zero b => .zero (x.isNeg != b)
  | .fin n1 e1, .fin n2 e2 => .fin (n1 * n2) (e1 + e2)

/-- Multiplication by a power of two, exact. -/
def Fp.scale (k : Int) : Fp → Fp
  | .fin n e => .fin n (e + k)
  | x => x

/-- Strict order of numbers that are not NaN, with −0 below +0 (R162). -/
def Fp.lt : Fp → Fp → Bool
  | .nan, _ => false
  | _, .nan => false
  | .inf true, .inf true => false
  | .inf true, _ => true
  | _, .inf true => false
  | .inf false, _ => false
  | _, .inf false => true
  | .zero a, .zero b => a && !b
  | .zero _, .fin n _ => decide (n > 0)
  | .fin n _, .zero _ => decide (n < 0)
  | .fin n1 e1, .fin n2 e2 => decide ((dyAdd n1 e1 (-n2) e2).1 < 0)

/-- Numeric comparison with the zeros equal: x > y. -/
def Fp.gt (x y : Fp) : Bool :=
  match x, y with
  | .zero _, .zero _ => false
  | _, _ => Fp.lt y x

def Fp.le (x y : Fp) : Bool := !x.isNan && !y.isNan && !(Fp.gt x y)

def Fp.max (x y : Fp) : Fp := if x.isNan || y.isNan then .nan else if Fp.lt x y then y else x
def Fp.min (x y : Fp) : Fp := if x.isNan || y.isNan then .nan else if Fp.lt y x then y else x

/-! FP32 operations: exact, then one rounding (R162). -/

abbrev F32 := Word32

def f32Add (x y : F32) : F32 := toF32 ((ofF32 x).add (ofF32 y))
def f32Sub (x y : F32) : F32 := toF32 ((ofF32 x).sub (ofF32 y))
def f32Mul (x y : F32) : F32 := toF32 ((ofF32 x).mul (ofF32 y))
def f32Fma (x y z : F32) : F32 := toF32 (((ofF32 x).mul (ofF32 y)).add (ofF32 z))
def f32Max (x y : F32) : F32 := toF32 ((ofF32 x).max (ofF32 y))
def f32Min (x y : F32) : F32 := toF32 ((ofF32 x).min (ofF32 y))
def f32Zero : F32 := 0
def f32NegZero : F32 := 0x80000000#32
def f32One : F32 := 0x3F800000#32
def f32Half : F32 := 0x3F000000#32
def f32NegHalf : F32 := 0xBF000000#32
def f32NegInf : F32 := 0xFF800000#32
def f32PosInf : F32 := 0x7F800000#32
def f32Nan : F32 := 0x7FC00000#32
def f32OfInt (n : Int) : F32 := toF32 (Fp.mk false n 0)
def f32OfNat (n : Nat) : F32 := f32OfInt n
def f32Gt (x y : F32) : Bool := Fp.gt (ofF32 x) (ofF32 y)

/-- Correctly rounded quotient: 80 quotient bits and a sticky bit decide every rounding to nearest. -/
def Fp.div : Fp → Fp → Fp
  | .nan, _ => .nan
  | _, .nan => .nan
  | .inf a, y => if y.isInf then .nan else .inf (a != y.isNeg)
  | x, .inf b => .zero (x.isNeg != b)
  | .zero a, y => if y.isZero then .nan else .zero (a != y.isNeg)
  | x, .zero b => .inf (x.isNeg != b)
  | .fin n1 e1, .fin n2 e2 =>
    let k := 80 + Nat.log2 n2.natAbs
    let num := n1.natAbs * 2 ^ k
    let q := num / n2.natAbs
    let st : Nat := if num % n2.natAbs = 0 then 0 else 1
    let m : Int := ((2 * q + st : Nat) : Int)
    .fin (if (decide (n1 < 0)) != (decide (n2 < 0)) then -m else m) (e1 - e2 - k - 1)

def f32Div (x y : F32) : F32 := toF32 ((ofF32 x).div (ofF32 y))

/-- Integer square root, bit by bit from bit b − 1 down. -/
def isqrtGo (n : Nat) : Nat → Nat → Nat
  | 0, r => r
  | b + 1, r =>
    let c := r + 2 ^ b
    isqrtGo n b (if c * c ≤ n then c else r)

def isqrt (n : Nat) : Nat := isqrtGo n (Nat.log2 n / 2 + 1) 0

/-- Square root with a sticky bit; the square root of a negative number is NaN. -/
def Fp.sqrt : Fp → Fp
  | .nan => .nan
  | .zero b => .zero b
  | .inf b => if b then .nan else .inf false
  | .fin n e =>
    if n < 0 then .nan
    else
      let sh : Nat := if e % 2 = 0 then 160 else 161
      let m := n.natAbs * 2 ^ sh
      let r := isqrt m
      let st : Nat := if r * r = m then 0 else 1
      .fin ((2 * r + st : Nat) : Int) ((e - sh) / 2 - 1)

def f32Sqrt (x : F32) : F32 := toF32 (ofF32 x).sqrt

/-- 1 / sqrt(x), rounded once from its exact value (R175): floor(sqrt(2^(2k) / x)) with a sticky bit. -/
def Fp.rsqrt : Fp → Fp
  | .nan => .nan
  | .zero b => .inf b
  | .inf b => if b then .nan else .zero false
  | .fin n e =>
    if n < 0 then .nan
    else
      let odd : Nat := if e % 2 = 0 then 0 else 1
      let m := n.natAbs * 2 ^ odd
      let k := 2 * (Nat.log2 m + 90)
      let num := 2 ^ k
      let r := isqrt (num / m)
      let st : Nat := if r * r * m = num then 0 else 1
      .fin ((2 * r + st : Nat) : Int) (-((e - odd) / 2) - (k / 2 : Nat) - 1)

def f32Rsqrt (x : F32) : F32 := toF32 (ofF32 x).rsqrt

/-- floor of a finite value. -/
def Fp.floor : Fp → Int
  | .fin n e => if e ≥ 0 then n * 2 ^ e.toNat else n / 2 ^ (-e).toNat
  | _ => 0

/-- truncation toward zero of a finite value. -/
def Fp.trunc : Fp → Int
  | .fin n e =>
    if e ≥ 0 then n * 2 ^ e.toNat
    else
      let m : Int := ((n.natAbs / 2 ^ (-e).toNat : Nat) : Int)
      if n < 0 then -m else m
  | _ => 0

/-! Contour (R179): exp2 and log2 rounded to nearest from enough bits. Working precision `contourBits` fractional
bits, far past the FP32 rounding boundaries, which R179 says no other input meets; notes/assumptions/8.md. -/

def contourBits : Nat := 192

/-- Successive square roots of 2 in fixed point: element i is 2^(2^−(i+1)). -/
def rootTable : Nat → Nat → List Nat
  | 0, _ => []
  | n + 1, r => let r' := isqrt (r * 2 ^ contourBits); r' :: rootTable n r'

/-- Product of the roots that the fraction bits select; frac is a fraction of w bits. -/
def expProduct (frac w : Nat) : List Nat → Nat → Nat → Nat
  | [], _, acc => acc
  | r :: rs, i, acc =>
    let bit := (frac / 2 ^ (w - 1 - i)) % 2
    expProduct frac w rs (i + 1) (if i < w ∧ bit = 1 then acc * r / 2 ^ contourBits else acc)

/-- 2^frac for a fraction frac / 2^w, in fixed point of contourBits. -/
def exp2Frac (frac w : Nat) : Nat :=
  expProduct frac w (rootTable (min w 150) (2 ^ (contourBits + 1))) 0 (2 ^ contourBits)

/-- exp2 on exact values (R179 and its special values). -/
def exp2Val (x : Fp) : Fp :=
  match x with
  | .nan => .nan
  | .inf true => .zero false
  | .inf false => .inf false
  | .zero _ => .fin 1 0
  | .fin n e =>
    if e ≥ 8 then (if n < 0 then .zero false else .inf false)
    else if e ≥ 0 then
      let v := n * 2 ^ e.toNat
      if v ≥ 128 then .inf false else if v < -400 then .zero false else .fin 1 v
    else
      let w := (-e).toNat
      let i := n / 2 ^ w
      let f := (n % 2 ^ w).toNat
      if i ≥ 128 then .inf false
      else if i < -400 then .zero false
      else if f = 0 then .fin 1 i
      else .fin ((2 * exp2Frac f w + 1 : Nat) : Int) (i - contourBits - 1)

/-- log2 of a mantissa y in [1, 2), fixed point, by repeated squaring: n more bits, accumulated into acc. -/
def log2Bits (p : Nat) : Nat → Nat → Nat → Nat
  | 0, _, acc => acc
  | n + 1, y, acc =>
    let s := y * y / 2 ^ p
    if s ≥ 2 ^ (p + 1) then log2Bits p n (s / 2) (2 * acc + 1) else log2Bits p n s (2 * acc)

/-- log2 on exact values. -/
def log2Val (x : Fp) : Fp :=
  match x with
  | .nan => .nan
  | .zero _ => .inf true
  | .inf true => .nan
  | .inf false => .inf false
  | .fin n e =>
    if n < 0 then .nan
    else
      let l := Nat.log2 n.natAbs
      let k : Int := e + (l : Int)
      if n.natAbs = 2 ^ l then Fp.mk false k 0
      else
        let p := 3 * contourBits
        let m := n.natAbs * 2 ^ (p - l)
        let bits := log2Bits p contourBits m 0
        let v : Int := k * 2 ^ (contourBits + 1) + (2 * bits + 1 : Nat)
        .fin v (-(contourBits : Int) - 1)

/-! The V8 unit (R190, R191): free values, held within 2 ulp of the exact result, monotone but for the seams, where the
result drops by 1 ulp. -/

/-- An FP32 value as a signed code, in the order of the values: one ulp is 1. Both zeros are 0. -/
def f32Ord (x : F32) : Int :=
  if x.toNat < 2 ^ 31 then (x.toNat : Int) else -((x.toNat - 2 ^ 31 : Nat) : Int)
/-- The FP32 value of a signed code; infinities at the ends. -/
def ofOrd (v : Int) : F32 :=
  let m := min v.natAbs 0x7F800000
  BitVec.ofNat 32 (if v < 0 then 2 ^ 31 + m else m)

/-- The signed codes within 2 ulp of an exact result: from the first at or above it less 2 to the last at or below it
plus 2. -/
def ulpRange (v : Fp) : Int × Int :=
  let t : F32 := BitVec.ofNat 32 (fp32.encode (.stoch 65535) v).code
  let o := f32Ord t
  if (v.sub (ofF32 t)).isZero then (o - 2, o + 2)
  else if v.isNeg then (o - 2, o + 1)
  else (o - 1, o + 2)

/-- The V8 result at input n of an ascending list of inputs: the free value there, kept within its range, never below the
result before it; at a seam, 1 ulp below the result before it, which stands high enough for that. -/
def v8Chain (raw : Nat → Int) (range : Nat → Int × Int) (seam : Nat → Bool) : Nat → Int
  | 0 => max (range 0).1 (min (range 0).2 (raw 0))
  | n + 1 =>
    if seam (n + 1) then v8Chain raw range seam n - 1
    else
      let lo := if seam (n + 2) then max (range (n + 1)).1 ((range (n + 2)).1 + 1) else (range (n + 1)).1
      max (v8Chain raw range seam n) (max lo (min (range (n + 1)).2 (raw (n + 1))))

/-- The finite FP32 inputs in ascending order: number n. -/
def v8Input (n : Nat) : F32 := ofOrd ((n : Int) - 0x7F7FFFFF)
def v8Index (x : F32) : Nat := (f32Ord x + 0x7F7FFFFF).toNat

/-- The fractional part of x is at or above 0.59375. -/
def pastExpSeam (x : F32) : Bool :=
  match ofF32 x with
  | .fin n e => e < 0 && decide (32 * (n % 2 ^ (-e).toNat) ≥ 19 * 2 ^ (-e).toNat)
  | _ => false

/-- The first input at or above exp2's seam, where its result is not zero. -/
def expSeam (n : Nat) : Bool :=
  n != 0 && pastExpSeam (v8Input n) && !pastExpSeam (v8Input (n - 1)) && toF32 (exp2Val (ofF32 (v8Input n))) != 0

/-- The binade of a positive input, and whether its mantissa is at or above k / 32. -/
def logPlace (k : Nat) (x : F32) : Option (Int × Bool) :=
  match ofF32 x with
  | .fin m e =>
    let l := Nat.log2 m.natAbs
    if m > 0 then some (e + (l : Int), decide (32 * m.natAbs ≥ k * 2 ^ l)) else none
  | _ => none

/-- The first input of its binade at or above one of log2's seams, at mantissas 1.28125 = 41/32 and 1.6875 = 54/32. -/
def logSeam (n : Nat) : Bool :=
  [41, 54].any fun k => match logPlace k (v8Input n) with
    | some (b, true) => logPlace k (v8Input (n - 1)) != some (b, true)
    | _ => false

/-- The V8 unit's result for x, where `exact` is the exact one; where that is no finite number, and for log2 at inputs that
are not positive, the result is that of R179 (notes/assumptions/4.md). -/
def v8Result (raw : F32 → Int) (exact : Fp → Fp) (seam : Nat → Bool) (x : F32) : F32 :=
  let r := exact (ofF32 x)
  if ¬ r.isFinite then toF32 r
  else ofOrd (v8Chain (fun n => raw (v8Input n)) (fun n => ulpRange (exact (ofF32 (v8Input n)))) seam (v8Index x))

/-- log2 as the V8 chain takes it: inputs at or below zero stand below every result. -/
def log2Chain (x : Fp) : Fp := if x.isNeg || x.isZero then .inf true else log2Val x

def f32Exp2 (v8 : Bool) (x : F32) : F32 :=
  if v8 then v8Result Config.v8Exp2 exp2Val expSeam x else toF32 (exp2Val (ofF32 x))
def f32Log2 (v8 : Bool) (x : F32) : F32 :=
  if v8 then (if (log2Val (ofF32 x)).isFinite then v8Result Config.v8Log2 log2Chain logSeam x else toF32 (log2Val (ofF32 x)))
  else toF32 (log2Val (ofF32 x))

/-! Saturating INT32 (R137). -/

def satI32 (v : Int) : Word32 :=
  if v > 0x7FFFFFFF then 0x7FFFFFFF#32 else if v < -0x80000000 then 0x80000000#32 else BitVec.ofInt 32 v

/-! Narrow cells (R99 to R102). -/

inductive CellFmt where
  | n4f | n4i | n2
  deriving DecidableEq, Repr

def CellFmt.count : CellFmt → Nat
  | .n2 => 60 | _ => 30

def CellFmt.qmax : CellFmt → Nat
  | .n4f => 6 | .n4i => 7 | .n2 => 1

/-- The scale of a code 0x01 to 0xFE as n * 2^e (R100). -/
def scaleVal (code : Nat) : Int × Int :=
  if code < 8 then ((code : Int), -17) else (((8 + code % 8 : Nat) : Int), ((code / 8 : Nat) : Int) - 18)

/-- An element code's value, in halves (R101); `none` is the N2 escape. -/
def codeHalves (f : CellFmt) (q : Nat) : Option Int :=
  match f with
  | .n4f =>
    let m : Int := match q % 8 with
      | 0 => 0 | 1 => 1 | 2 => 2 | 3 => 3 | 4 => 4 | 5 => 6 | 6 => 8 | _ => 12
    some (if q < 8 then m else -m)
  | .n4i => some (2 * signed 4 q)
  | .n2 => match q with
    | 0 => some 0 | 1 => some 2 | 2 => none | _ => some (-2)

/-- The code of value i of a 16-byte cell (R99). -/
def cellCode (f : CellFmt) (cell : List Byte) (i : Nat) : Nat :=
  match f with
  | .n2 => ((byteAt cell (1 + i / 4)).toNat / 2 ^ (2 * (i % 4))) % 4
  | _ => ((byteAt cell (1 + i / 2)).toNat / 2 ^ (4 * (i % 2))) % 16

/-- The decoded value of element i of a cell (R100 to R102); `none` is an N2 escape. A zero element keeps N4F's sign. The
scale codes 0x00 and 0xFF decide alone (notes/assumptions/41.md). -/
def cellVal (f : CellFmt) (cell : List Byte) (i : Nat) (texp : Int) : Option Fp :=
  let sc := (byteAt cell 0).toNat
  if sc = 0 then some (.zero false)
  else if sc = 0xFF then some .nan
  else
    match codeHalves f (cellCode f cell i) with
    | none => none
    | some h =>
      let (n, e) := scaleVal sc
      some (if h = 0 then .zero (f = .n4f ∧ cellCode f cell i = 8) else .fin (n * h) (e - 1 + texp))

/-- Rounds x / S to the grid of a cell format (R106): the code's magnitude in halves and whether it was clamped. -/
def cellRound (f : CellFmt) (r : Rnd) (x : Nat × Int) (scode : Nat) : Nat × Bool :=
  -- q = x / S: numerator and denominator in whole numbers, q in units of 1/2^t
  let (sn, se) := scaleVal scode
  let t : Int := x.2 - se
  let num := x.1 * 2 ^ (max t 0).toNat
  let den := sn.natAbs * 2 ^ (max (-t) 0).toNat
  -- grid points in halves
  let grid : List Nat := match f with
    | .n4f => [0, 1, 2, 3, 4, 6, 8, 12]
    | .n4i => [0, 2, 4, 6, 8, 10, 12, 14]
    | .n2 => [0, 2]
  let top := 2 * f.qmax
  -- the lower neighbour's index, the greatest grid point at or below q
  let idx := (grid.filter fun g => g * den ≤ 2 * num).length - 1
  let lo := grid.getD idx 0
  if lo = top then
    -- past the grid the end of the grid is taken; it counts when q lies beyond it
    (top, decide (2 * num > top * den))
  else
    let hi := grid.getD (idx + 1) 0
    match r with
    | .near =>
      let twice := 2 * (2 * num)
      let mid := (lo + hi) * den
      let up := if twice > mid then true
        else if twice < mid then false
        else match f with
          | .n2 => false
          | .n4f => idx % 2 = 1
          | .n4i => (lo / 2) % 2 = 1
      (if up then hi else lo, false)
    | .stoch d =>
      let frac := (2 * num - lo * den) * 65536 / ((hi - lo) * den)
      (if frac > d then hi else lo, false)

/-- The code of a signed grid value in halves (R101, R106): a zero result is code 0. -/
def cellCodeOf (f : CellFmt) (neg : Bool) (h : Nat) : Nat :=
  if h = 0 then 0
  else match f with
    | .n4f =>
      let m := match h with
        | 1 => 1 | 2 => 2 | 3 => 3 | 4 => 4 | 6 => 5 | 8 => 6 | _ => 7
      if neg then m + 8 else m
    | .n4i => if neg then 16 - h / 2 else h / 2
    | .n2 => if neg then 3 else 1

/-- The smallest scale code 0x01 to 0xFE with S * Qmax at least amax, or 0xFE (R105). -/
def chooseScale (f : CellFmt) (amax : Nat × Int) : Nat :=
  let fits (code : Nat) : Bool :=
    let (sn, se) := scaleVal code
    let t : Int := amax.2 - se
    decide (amax.1 * 2 ^ (max t 0).toNat ≤ sn.natAbs * f.qmax * 2 ^ (max (-t) 0).toNat)
  ((List.range 254).map (· + 1)).find? fits |>.getD 0xFE

/-- Packs element codes into a 16-byte cell (R99). -/
def packCell (f : CellFmt) (scale : Nat) (codes : List Nat) : List Byte :=
  let per := match f with | .n2 => 4 | _ => 2
  let w := match f with | .n2 => 4 | _ => 16
  BitVec.ofNat 8 scale ::
    (List.range 15).map fun k =>
      BitVec.ofNat 8 ((List.range per).foldr (fun j a => a * w + codes.getD (k * per + j) 0) 0)

/-- The smallest TEXP t with A ≤ Vmax * 2^t, clamped to −64 to +63; 0 for a zero or non-finite A (R109). -/
def fitTexp (vmax : Nat) (a : Fp) : Int :=
  match a with
  | .fin n e =>
    let ok (t : Int) : Bool :=
      let d : Int := e - t
      decide (n.natAbs * 2 ^ (max d 0).toNat ≤ vmax * 2 ^ (max (-d) 0).toNat)
    (((List.range 128).map fun (i : Nat) => (i : Int) - 64).find? ok).getD 63
  | _ => 0

end Sys2Proof.Machine
end

