-- ==== Sys2Proof/Machine/Job.lean ====
section
/-! DEFINITION. Intaglio jobs: the ring's layout (R407), the fields of a job entry (R410), and how a job ends: its STATUS
and RESULT words and its MEDIA record (R410, R412). -/
namespace Sys2Proof.Machine

/-- Local offset of an engine's ring. -/
def Engine.base (x : Engine) : Nat := x.ring.toNat * 64
/-- Entries of the ring; LOG2 above 8 acts as 8 (notes/assumptions/33.md). -/
def Engine.entries (x : Engine) : Nat := 2 ^ (min 8 x.log2 + 4)
/-- Local offset of job n's entry (R407). -/
def Engine.entryOff (x : Engine) (n : Nat) : Nat := x.base + 64 + 128 * (n % x.entries)

/-- Word JOB of an entry (R410). -/
def jobWord (b : List Byte) : Nat := pairVal (w64At b 0)
def Job.kind (j : Job) : Nat := jobWord j.entry / 2 ^ 28
def Job.session (j : Job) : Nat := jobWord j.entry / 2 ^ 20 % 16
def Job.bit (j : Job) (i : Nat) : Bool := jobWord j.entry / 2 ^ i % 2 == 1
/-- A 64-bit value from two paired words at o and o + 8. -/
def pairs64 (b : List Byte) (o : Nat) : Nat := pairVal (w64At b o) + 2 ^ 32 * pairVal (w64At b (o + 8))

/-- The job status word (R410). -/
def Job.statusWord (j : Job) (st : Status) : Word :=
  fields [(statusCode st, 0), (j.flags, 8), (1, 15), (j.n % 2 ^ 32, 32)]
def Job.resultWord (j : Job) : Word := fields [(j.bytes % 2 ^ 32, 0), (j.resultIdx.getD 0xFFFFFFFF % 2 ^ 32, 32)]

/-- The engine reads and writes its ring, which lies in HBM outside the pool region (R402): elsewhere nothing is read or
written. -/
def ringRead (off n : Nat) : Eng (List Byte) := do
  let s ← get
  need (s.plainHbm off n) .allocFault
  memRead .window off n
def ringWrite (off : Nat) (data : List Byte) : Eng Unit := do
  let s ← get
  need (s.plainHbm off data.length) .allocFault
  memWrite .window off data

/-- A job ends: STATUS and RESULT are written where HBM takes them, and with POST the host gets a record (R410 to R412). -/
def State.endJob (s : State) (e : EngineId) (j : Job) (st : Status) : State :=
  let x := s.engine e
  let s := ((ringWrite (x.entryOff j.n + 0x58) (le 8 (j.statusWord st).toNat ++ le 8 j.resultWord.toNat)).exec s).2
  let s := s.modEngine e fun y => { y with jobs := y.jobs.filter fun k => k.n != j.n }
  let s := if j.bit 6 then s.mediaRecord e j.session (j.statusWord st) j.resultWord else s
  s.endRequest st

/-- Every job in flight ends with a status (R429, R483). -/
def State.endJobs (s : State) (e : EngineId) (st : Status) : State :=
  (s.engine e).jobs.foldl (fun t j => t.endJob e { j with flags := 0, resultIdx := none, bytes := 0 } st) s

end Sys2Proof.Machine
end

