-- ==== Sys2Proof/Machine/Context.lean ====
section
/-! DEFINITION. Contexts (chapters 3 and 17): what a start writes (R68, R92, R193, R337, R381), frame tables (R59, R121;
notes/assumptions/17.md), frame starts (R58, R119, R195), replay and rewind (R123, R126), stops, saves and restores
(R465 to R471). -/
namespace Sys2Proof.Machine

/-! ## Frame tables -/

/-- Entry i of a core's frame table (R59), as the load read it. -/
def CoreImage.frame (ci : CoreImage) (i : Nat) : FrameEntry := ci.table.getD i {}

/-- Whether a repetition of entry i begins a step (R121): a flagged entry, and the first one, whose every repetition
begins a step too (DEDUCED, notes/assumptions/54.md). -/
def CoreImage.beginsStep (ci : CoreImage) (i : Nat) : Bool := i == 0 || (ci.frame i).stepStart

/-- The frame after (entry, rep); `none` past the last entry. -/
def CoreImage.nextPos (ci : CoreImage) (entry rep : Nat) : Option (Nat × Nat) :=
  if rep + 1 < (ci.frame entry).repeat_ then some (entry, rep + 1)
  else if entry + 1 < ci.table.length then some (entry + 1, 0) else none

/-- The first entry at or after i that begins a step. -/
def CoreImage.stepFrom (ci : CoreImage) : Nat → Nat → Option Nat
  | 0, _ => none
  | k + 1, i => if i ≥ ci.table.length then none else if ci.beginsStep i then some i else ci.stepFrom k (i + 1)

/-- The frame after the step's last frame (R126). -/
def CoreImage.afterStep (ci : CoreImage) (entry rep : Nat) : Option (Nat × Nat) :=
  if ci.beginsStep entry ∧ rep + 1 < (ci.frame entry).repeat_ then some (entry, rep + 1)
  else (ci.stepFrom ci.table.length (entry + 1)).map fun e => (e, 0)

/-- The code offset of a variant's frame, from the start of the core's code segment (DESIGN CHOICE); a frame that does not
name the variant runs its normal code (notes/assumptions/17.md). -/
def FrameEntry.offset (e : FrameEntry) (v : Variant) : Nat :=
  let o := e.offsets.getD v.code 0xFFFFFFFF
  if o = 0xFFFFFFFF then e.offsets.getD 0 0 else o

/-! ## What the start of a context writes -/

/-- Every core of a context at its start: registers of R92, queues (R68), tokens, control word (R193), sequence words
(R381), Etch slots (R337). -/
def State.startCore (s : State) (c : CoreId) : State :=
  let b := spmOf c.val
  let s := s.setCore c { startedSince := (s.core c).startedSince }
  let m := ((s.mem.zero (b + controlOff) 64).zero (b + 0x7E0000) 0x4400)
  { s with mem := m.setBytes (b + 0x7FE800) ((List.replicate 256 (pairBytes 0)).flatten) }

/-- The parts of a start that a resume keeps from (R471): counters and W1C fields from zero, queue numbers as saved. -/
def State.resumeCore (s : State) (c : CoreId) (r : Resume) (i : Nat) : State :=
  let q (n : Nat) : Queue := { next := n, ended := n - 1 }
  let n := r.seqs.getD i (0, 0, 0)
  s.setCore c { startedSince := (s.core c).startedSince, bq := q n.1, hq := q n.2.1, sq := q n.2.2 }

/-! ## Frames -/

/-- Pending swaps of a core take place (R195); a bank that running commands use becomes held (R194). -/
def State.applySwaps (s : State) (c : CoreId) : State :=
  let w := s.control c.val
  let pend := ctlPending w
  if pend = 0 then s
  else
    let x := s.core c
    let active := (ctlActive w) ^^^ pend
    let held := (List.range 16).foldl (fun a t =>
      let used := x.allCmds.any fun k => k.started && k.uses.contains t && bitOf k.tables t != bitOf active t
      a + (if used ∨ (bitOf (ctlHeld w) t = 1 ∧ bitOf pend t = 0) then 2 ^ t else 0)) 0
    let n := (List.range 16).foldl (fun a t => a + bitOf pend t) 0
    (s.setControl c.val active 0 held).setCore c { x with swaps := satAdd 16 x.swaps n }

/-- PENDING clears without a swap (R197, R199). -/
def State.clearSwaps (s : State) (c : CoreId) : State :=
  let w := s.control c.val
  if ctlPending w = 0 then s else s.setControl c.val (ctlActive w) 0 (ctlHeld w)

/-- The edge that begins a step clears UNDER, SAT and FLAGS of every watch entry (R119). -/
def State.clearWatch (s : State) (c : CoreId) : State :=
  (List.range 64).foldl (fun t w =>
    let o := watchEntryOff c.val w
    let live := (t.peek (o + 8) 4).any (· != 0) || t.mem.byte (o + 0xE) != 0
    if live then { t with mem := ((t.mem.zero (o + 8) 4).zero (o + 0xE) 1) } else t) s

/-- A core starts the frame at its position in a variant (R58, R119, R195). -/
def State.startFrame (s : State) (c : CoreId) (p : PartId) (im : Image) (ci : CoreImage) (pos : Nat × Nat)
    (v : Variant) (stepBegins : Bool) : State :=
  let s := s.applySwaps c
  let s := if stepBegins then s.clearWatch c else s
  let x := s.core c
  let chip := s.chip
  let addr (off : Nat) : Word := BitVec.ofNat 64 (chip * 2 ^ 48 + off)
  let regs : List Word :=
    [0, BitVec.ofNat 64 (s.tick.number % 2 ^ 32), BitVec.ofNat 64 pos.1, BitVec.ofNat 64 pos.2, BitVec.ofNat 64 v.code,
     BitVec.ofNat 64 c.val, BitVec.ofNat 64 im.groupSize]
  let _ := p
  s.setCore c { x with
    s := Vector.ofFn fun (i : Fin 32) => regs.getD i.val 0
    a := Vector.ofFn fun (i : Fin 16) =>
      if i.val = 0 then addr (spmOf c.val) else if i.val = 1 then addr (im.base + ci.data) else 0
    p := Vector.replicate 8 false
    td := Vector.replicate 16 (Vector.replicate 16 0)
    pc := (ci.frame pos.1).offset v
    entry := pos.1
    rep := pos.2
    stepEntry := if stepBegins then pos.1 else x.stepEntry
    stepRep := if stepBegins then pos.2 else x.stepRep
    began := true
    finished := false
    variant := v
    frameActive := ctlActive (s.control c.val)
    running := true
    atWait := false
    stopped := false
    startedSince := true
    frameFail := none
    stall := none }

/-- What the cores of a running partition do at an edge (R28, R122, R123, R126). -/
inductive Advance where
  | first
  | goOn
  | rewind (v : Variant)
  | skipStep
  | at_ (entry rep : Nat) (v : Variant)
  deriving DecidableEq, Repr

/-- A replay or wide run takes effect (R123, R197); a RETRY in the normal variant is none (R126). -/
def Advance.replays : Advance → Bool
  | .rewind v => v != .normal
  | _ => false

/-- The position and variant of a core's next frame, and whether it begins a step. -/
def State.nextFrame (s : State) (c : CoreId) (ci : CoreImage) (a : Advance) :
    Option ((Nat × Nat) × Variant × Bool) :=
  let x := s.core c
  let plain (o : Option (Nat × Nat)) : Option ((Nat × Nat) × Variant × Bool) := o.map fun q =>
    let b := ci.beginsStep q.1
    (q, if b then .normal else x.variant, b)
  match a with
  | .first => some ((0, 0), .normal, true)
  | .goOn =>
    if x.finished then none
    else if ¬ x.began then some ((0, 0), .normal, true)
    else plain (ci.nextPos x.entry x.rep)
  | .rewind v => some ((x.stepEntry, x.stepRep), v, true)
  | .skipStep => (ci.afterStep x.entry x.rep).map fun q => (q, .normal, true)
  | .at_ e r v => some ((e, r), v, ci.beginsStep e)

/-- One core's part of an edge at which its partition runs: it starts its next frame, or passes its last entry, or stays
halted (R28, R62, R72). -/
def State.advanceCore (s : State) (p : PartId) (im : Image) (a : Advance) (i : Nat) (c : CoreId) : State :=
  let x := s.core c
  if x.halted then s
  else match im.table[i]? with
    | none => s
    | some ci =>
      match s.nextFrame c ci a with
      | none => s.setCore c { x with finished := true, running := false, atWait := true }
      | some (pos, v, b) => s.startFrame c p im ci pos v b

def enumFrom {α : Type} : Nat → List α → List (Nat × α)
  | _, [] => []
  | n, x :: xs => (n, x) :: enumFrom (n + 1) xs

/-- A core of the partition that the image was not compiled for is done at every edge (R62); the edge that begins a step
clears its watch entries with the others' (R119). -/
def State.restCore (s : State) (begins : Bool) (c : CoreId) : State :=
  (if begins then s.clearWatch c else s).modCore c fun x => { x with atWait := true }

/-- The partition's shown variant is that of its first core (R129). -/
def State.advancePart (s : State) (p : PartId) (a : Advance) : State :=
  match (s.part p).image with
  | none => s
  | some im =>
    let cs := (s.part p).imageCores
    let begins := match cs.head?, im.table.head? with
      | some c, some ci => ((s.nextFrame c ci a).map (·.2.2)).getD false
      | _, _ => false
    let s := (enumFrom 0 cs).foldl (fun t e => t.advanceCore p im a e.1 e.2) s
    let s := (s.part p).otherCores.foldl (fun t c => t.restCore begins c) s
    s.modPart p fun y => { y with variant := (cs.head?.map fun c => (s.core c).variant).getD .normal }

/-! ## Ends of contexts -/

/-- Cores of a stopped partition run nothing: token counters and TOK_FAILED are zeroed (R91), open regions are discarded
(R397), queued commands go (notes/assumptions/18.md). -/
def State.idleCores (s : State) (p : PartId) : State :=
  (s.part p).coreIds.foldl (fun t c => (t.clearSwaps c).modCore c fun x =>
    { x with running := false, atWait := false, stopped := false, stall := none, regions := [], began := false,
             finished := false, tok := Vector.replicate 32 0, tokFailed := 0, tokStatus := [],
             bq := { x.bq with cmds := [] }, hq := { x.hq with cmds := [] }, sq := { x.sq with cmds := [] } }) s

/-- A context ends with a CONTEXT record (R455). -/
def State.endContext (s : State) (p : PartId) (code : Status) (reason : Nat) : State :=
  let faulty := if reason = 1 then (s.part p).faultCore else none
  let s := (s.contextRecord p code reason faulty).idleCores p
  s.modPart p fun x => { x with
    state := .idle, stopReq := none, abort := none, faultHere := false, faultCore := none, held := false, resume := none,
    restart := false, rewindTo := none, variant := .normal, ctl := none }

/-- Every core of the context has passed its last entry (R62). -/
def State.contextFinished (s : State) (p : PartId) : Bool :=
  (s.part p).imageCores.all fun c => (s.core c).finished

/-- A SPAN command or an open region defers a switch (R280, R397, R465). -/
def State.switchBlocked (s : State) (p : PartId) : Bool :=
  (s.part p).coreIds.any fun c => (s.core c).spanning || !(s.core c).regions.isEmpty

/-! ## Save and restore -/

def saveStride : Nat := 9437184
def State.saveSize (im : Image) : Nat := 65536 + im.cores * saveStride

/-- A save area lies as R466 requires. -/
def State.saveAreaOk (s : State) (off size : Nat) : Bool := decide (off % 65536 = 0) && s.plainHbm off size

/-- Replaces [b, b + n) of HBM by a copy of a range of this chip: a guarded range (R305, R379) or a fenced stack ends it;
damaged lines there are written whole; local frames that it lands in are dirty (R311). -/
def bulkSave (src n dst : Nat) : Eng Unit := do
  let s ← get
  need (!s.hbmGuarded dst n) .allocFault
  match s.hbmRefuses dst n with
  | some st => throw st
  | none =>
    let t := { s with
      mem := s.mem.copy src n dst, damage := s.damage.filter fun x => !(decide (dst ≤ x.1) && decide (x.1 < dst + n)) }
    set (t.markDirty dst n)

/-- Copies a range of HBM to a scratchpad or accumulator file, through the decoder. -/
def bulkRestore (src n dst : Nat) : Eng Unit := do
  let s ← get
  need (!s.hbmGuarded src n) .allocFault
  match s.hbmRefuses src n with
  | some st => throw st
  | none => pure ()
  let bad := s.damage.filter fun x => decide (src ≤ x.1) && decide (x.1 < src + n)
  modify fun t => { t with mem := t.mem.copy src n dst }
  bad.forM fun x => do
    let bs ← readLine x.1
    modify fun t => t.poke (dst + (x.1 - src)) bs

/-- The save header (R466), MAGIC included. -/
def State.saveHeader (s : State) (p : PartId) (im : Image) : List Byte :=
  let x := s.part p
  let cs := x.imageCores
  let k : Core := ((cs.head?).map s.core).getD {}
  let variant := (match x.rewindTo with
    | some v => v.code + 8
    | none => k.variant.code) + 4 * b2n x.held
  let qs := cs.flatMap fun c =>
    let y := s.core c
    le 4 y.bq.next ++ le 4 y.hq.next ++ le 4 y.sq.next ++ zeros 4
  let h := [0x4F, 0x5A, 0x44, 0x58, 0x53, 0x41, 0x56, 0x45] ++ pairBytes 2 ++ pairBytes im.check.toNat
    ++ pairBytes im.size ++ pairBytes im.cores ++ pairBytes k.entry ++ pairBytes k.rep ++ pairBytes k.stepEntry
    ++ pairBytes k.stepRep ++ pairBytes variant ++ pairBytes x.ctxId.toNat ++ pw2Bytes x.saveTick ++ zeros 4
  let h := slice (h ++ zeros 916 ++ qs) 0 0xC00
  overlay h 0x68 (le 4 (crc32c h).toNat)

/-- What follows the header in the first 64 KiB of a save area (R466). -/
def savePad : List Byte := zeros (65536 - 0xC00)

/-- Writes the whole save area: core blocks, header, MAGIC last (R466, R467). -/
def writeSave (p : PartId) (im : Image) : Eng Unit := do
  let s ← get
  let x := s.part p
  let off := x.saveOff
  (enumFrom 0 x.imageCores).forM fun e => do
    bulkSave (spmOf e.2.val) spmSize (off + 65536 + e.1 * saveStride)
    bulkSave (accOf e.2.val) accSize (off + 65536 + e.1 * saveStride + spmSize)
  let t ← get
  let h := t.saveHeader p im
  memWrite .window (off + 8) (h.drop 8 ++ savePad)
  memWrite .window off (h.take 8)

/-- Reads and checks a save header (R469); a reserved variant code counts with the Rsv fields (notes/assumptions/56.md). -/
def readSave (im : Image) (count off : Nat) : Eng Resume := do
  let h ← memRead .window off 65536
  let w (i : Nat) : Word := w64At h (8 * i)
  let v (i : Nat) : Nat := pairVal (w i)
  need (h.take 8 == [0x4F, 0x5A, 0x44, 0x58, 0x53, 0x41, 0x56, 0x45]
    && w32At h 0x68 == crc32c (zeroed (h.take 0xC00) 0x68 4)
    && (List.range 12).all fun i => pairOk (w (i + 1))) .integrity
  need (decide (v 1 = 2) && allZero (slice h 0x6C 916) && allZero (slice h 0xC00 62464)
    && decide (v 5 < 2 ^ 17) && decide (v 6 < 2 ^ 16) && decide (v 7 < 2 ^ 17) && decide (v 8 < 2 ^ 16)
    && decide (v 9 < 16) && decide (v 9 % 4 < 3) && decide (v 12 < 2 ^ 16)
    && (List.range 128).all fun i => allZero (slice h (0x400 + 16 * i + 12) 4)) .decode
  need (decide (v 2 = im.check.toNat) && decide (v 3 = im.size)) .decode
  let s ← get
  need (decide (v 4 ≤ 8 * (count + 1)) && s.saveAreaOk off (65536 + v 4 * saveStride)) .allocFault
  pure { entry := v 5, rep := v 6, stepEntry := v 7, stepRep := v 8, variant := v 9 % 4, hold := decide (v 9 / 4 % 2 = 1),
         rewind := decide (v 9 / 8 % 2 = 1), cores := v 4,
         seqs := (List.range (v 4)).map fun i =>
           (leNat (slice h (0x400 + 16 * i) 4), leNat (slice h (0x404 + 16 * i) 4), leNat (slice h (0x408 + 16 * i) 4)) }

/-- Restores the scratchpads and accumulator files of a resumed context (R470). -/
def restoreCores (p : PartId) (r : Resume) : Eng Unit := do
  let s ← get
  let x := s.part p
  let off := x.resumeOff.toNat * 65536
  (enumFrom 0 (x.imageCores.take r.cores)).forM fun e => do
    bulkRestore (off + 65536 + e.1 * saveStride) spmSize (spmOf e.2.val)
    bulkRestore (off + 65536 + e.1 * saveStride + spmSize) accSize (accOf e.2.val)

/-- At the switch edge: swaps applied, token counters zeroed, the next frame's position noted, saving begun (R465, R475).
A context whose cores have all passed their last entry has finished instead. -/
def State.beginSave (s : State) (p : PartId) (a : Advance) : State :=
  match (s.part p).image with
  | none => s
  | some im =>
    let cs := (s.part p).imageCores
    let s := cs.foldl (fun t c =>
      let t := if a.replays then t.clearSwaps c else t.applySwaps c
      t.modCore c fun x => { x with tok := Vector.replicate 32 0, tokFailed := 0, tokStatus := [] }) s
    let rw : Option Variant := match a with
      | .rewind v => some v
      | _ => none
    let s := (enumFrom 0 cs).foldl (fun t e =>
      match im.table[e.1]?, rw with
      | some ci, none => (match t.nextFrame e.2 ci a with
        | some (pos, v, b) => t.modCore e.2 fun x => { x with
            entry := pos.1, rep := pos.2, variant := v,
            stepEntry := if b then pos.1 else x.stepEntry, stepRep := if b then pos.2 else x.stepRep }
        | none => t.modCore e.2 fun x => { x with finished := true })
      | _, _ => t) s
    let s := s.modPart p fun x => { x with rewindTo := rw, saveTick := s.tick.number }
    if rw.isNone ∧ s.contextFinished p then s.endContext p .ok 0
    else s.modPart p fun x => { x with state := .saving }

end Sys2Proof.Machine
end

