-- ==== Sys2Proof/Machine/Answer.lean ====
section
/-! DEFINITION. QCP responses (R441 to R444): the message, the kept responses, and the answers that a request in
execution receives when a context has stopped (R450). -/
namespace Sys2Proof.Machine

/-- The CMD codes of the table "QCP commands" (R443). -/
def QcpCmd.code : QcpCmd → Nat
  | .hello => 0x01 | .status => 0x02 | .regRead => 0x10 | .regWrite => 0x11 | .qpConnect => 0x20 | .qpDestroy => 0x21
  | .windowSet => 0x22 | .ringSet => 0x23 | .programLoad => 0x30 | .ctxStart => 0x31 | .ctxStop => 0x32
  | .proofTrigger => 0x40 | .reset => 0x50 | .other c => c

def QcpCmd.ofCode (c : Nat) : QcpCmd :=
  match c with
  | 0x01 => .hello | 0x02 => .status | 0x10 => .regRead | 0x11 => .regWrite | 0x20 => .qpConnect | 0x21 => .qpDestroy
  | 0x22 => .windowSet | 0x23 => .ringSet | 0x30 => .programLoad | 0x31 => .ctxStart | 0x32 => .ctxStop
  | 0x40 => .proofTrigger | 0x50 => .reset | c => .other c

/-- ASCII "QCPM". -/
def qcpMagic : List Byte := [0x51, 0x43, 0x50, 0x4D]

/-- A response message (R441). -/
def State.responseBytes (s : State) (cmd : QcpCmd) (r : QcpReq) (st : Status) (retry : Nat) (body : List Byte) :
    List Byte :=
  let h := qcpMagic ++ [r.version, 1] ++ le 2 cmd.code ++ le 4 r.tag.toNat ++ le 4 body.length
    ++ le 2 s.recov.epoch.toNat ++ le 1 (statusCode st) ++ [0] ++ le 2 retry ++ zeros 10
  let m := h ++ body
  overlay m 0x1C (le 4 (crc32c m).toNat)

/-- The kept responses after one more, 64 for each source (R442). -/
def keepResponse (kept : List (Word × Word32 × List Byte)) (e : Word × Word32 × List Byte) :
    List (Word × Word32 × List Byte) :=
  e :: (kept.foldl (fun (a : Nat × List (Word × Word32 × List Byte)) x =>
    if x.1 = e.1 then (if a.1 < 63 then (a.1 + 1, a.2 ++ [x]) else a) else (a.1, a.2 ++ [x])) (0, [])).2

/-- RETRY_AFTER of a NOT_READY response (R445, R510). -/
def State.retryAfter (s : State) (r : QcpReq) : Nat :=
  max 1 (min 1000 (s.qcp.estimate + (stipple 0 s.fuses.uid (r.tag.setWidth 64)).toNat % 16))

/-- A request ends: its response goes to its source and is kept (R441, R442). RETRY_AFTER goes with NOT_READY only. -/
def State.answer (s : State) (cmd : QcpCmd) (r : QcpReq) (st : Status) (body : List Byte) : State :=
  let m := s.responseBytes cmd r st (if st = .notReady then s.retryAfter r else 0) body
  let s := { s with qcp := { s.qcp with kept := keepResponse s.qcp.kept (r.src, r.tag, m) } }
  s.emit (.qcp r.src m)

/-- The request in execution ends (R447). -/
def State.finishQcp (s : State) (st : Status) (body : List Byte) : State :=
  match s.qcp.current with
  | none => s
  | some j =>
    let s := { s with qcp := { s.qcp with current := none } }
    s.answer j.cmd j.req st body

/-- The partition that a CTX_STOP in execution names. -/
def QcpJob.stops (j : QcpJob) (p : PartId) : Bool :=
  decide (j.cmd = .ctxStop) && decide ((byteAt j.req.body 0).toNat = p.val)

/-- A CTX_STOP of partition p in execution ends when the partition has stopped (R450, R467, R475); so does an abort that
overtook a deferred save. -/
def State.answerStop (s : State) (p : PartId) (st : Status) : State :=
  let s := match s.qcp.current with
    | some j => if j.stops p then s.finishQcp st [] else s
    | none => s
  let (mine, rest) := s.qcp.aside.partition fun j => j.stops p
  mine.foldl (fun t j => t.answer j.cmd j.req st []) { s with qcp := { s.qcp with aside := rest } }

/-- A context ends and a CTX_STOP that waits for it is answered. -/
def State.stopContext (s : State) (p : PartId) (code : Status) (reason : Nat) (answer : Status) : State :=
  (s.endContext p code reason).answerStop p answer

end Sys2Proof.Machine
end

