-- ==== Sys2Proof/Machine/Tick.lean ====
section
/-! DEFINITION. The tick unit: start and stop (R48), overrun and late report (R31, R33), reports and verdicts (R31, R32),
tick loss (R36, R478), alignment (R43, R44), and the edge with all that takes place at it (R27, R28, R34 to R42, R122 to
R128, R465 to R475, R483, R528 to R532). -/
namespace Sys2Proof.Machine

/-! ## Start, stop, requests -/

/-- A die is in band stop: TICK_CTRL.START is refused (R504). -/
def State.dieStopped (s : State) : Bool := s.power.dieBand.toList.any (· == .stop)

/-- What an edge and a start leave of a tick's reports. -/
def Tick.freshReports (t : Tick) : Tick :=
  { t with got := [], verdict := none, ownLate := false, overran := false, slackSeen := false, sentDone := false,
           sentLate := false, edgeChecked := false, hotSince := false }

/-- A write of 1 to TICK_CTRL.START (R48, R504). A member waits for the master's first alignment message. -/
def State.tickStart (s : State) : State :=
  let t := s.tick
  if t.run then s
  else if s.dieStopped then s.badWrite
  else { s with tick := { t.freshReports with
    run := true, waitAlign := decide (t.role = .member), number := 0, step := 0, pending := none, effective := t.period,
    heldEdges := 0, overruns := 0, slackCount := 0, droops := 0, lost := false, stopReq := false, heldAt := [],
    lastReq := none, lastChange := 0, deferredReq := false, tickStarted := false, alignErrs := [], aligned := false,
    proofAt := [] } }

/-- The tick stops: the step returns to 0 and a pending step is cancelled (R41); pending starts are cancelled (R449); a request of Easel
for the report of the tick that a stop cuts off is dropped with it (R499). -/
def State.halt (s : State) : State :=
  let t := s.tick
  let s := { s with power := { s.power with stretchAsk := false }, tick := { t.freshReports with
    run := false, waitAlign := false, step := 0, pending := none, effective := t.period, stopReq := false,
    deferredReq := false, tickStarted := false, lost := false } }
  overFin 8 (fun p s => s.modPart p fun x => if x.state = .startPending then { x with state := .idle } else x) s

/-- A write of 1 to TICK_CTRL.STOP (R48): on the master it goes into the next verdict; a chip that has lost the tick
stops at once (notes/assumptions/20.md). -/
def State.tickStop (s : State) : State :=
  let t := s.tick
  if ¬ t.run then s
  else if t.lost then s.halt
  else if t.decides then { s with tick := { t with stopReq := true } } else s

/-- A write of 1 to TICK_CTRL.STRETCH_REQ (R37). -/
def State.stretchReq (s : State) : State := { s with tick := { s.tick with stretchReq := true } }

/-! ## Overrun, late report, loss -/

/-- Cores that have not reached TICK.WAIT, as a mask. -/
def State.lateMask (s : State) : Nat :=
  (List.range 128).foldl (fun a n => a + (if (s.cores.toList.getD n {}).running then 2 ^ n else 0)) 0

/-- The tick runs, has had its first edge, and has not been lost. -/
def Tick.live (t : Tick) : Bool := t.run && !t.waitAlign && t.tickStarted && !t.lost

/-- OVERRUN (R33): at the nominal edge a core is not at TICK.WAIT. -/
def State.overrun (s : State) (now : Nat) : State :=
  let s := s.atTime now
  let t := s.tick
  if t.live && !t.overran && decide (now ≥ t.edge + t.effective) && !s.allDone then
    let s := { s with tick := { t with overrun := true, overruns := satAdd 16 t.overruns 1, ownLate := true, overran := true } }
    s.tickRecord .overrun s.lateMask
  else s

/-- LATE_REPORT (R31): at the nominal edge a member whose subtree is not done sends what it has, late flag set. -/
def State.lateReport (s : State) (now : Nat) : State :=
  let s := s.atTime now
  let t := s.tick
  if t.live && !t.decides && !t.sentDone && !t.sentLate && decide (now ≥ t.edge + t.effective) then
    let r := { s.combined with late := true }
    if r.done then s
    else
      { s with tick := { t with sentLate := true } }.tellParent r
  else s

/-- Every context of the chip ends with a CONTEXT record of REASON group stop (R295, R478). -/
def State.endAll (s : State) (code : Status) : State :=
  overFin 8 (fun p s => if (s.part p).active then s.stopContext p code 3 code else s) s

/-- A chip that waits for its group: a member, or the master whose members have not all reported (R36). A chip that is its
own group waits for nobody (notes/assumptions/20.md). -/
def Tick.grouped (t : Tick) : Bool :=
  match t.role with
  | .member | .master => true
  | _ => false

/-- TICK_LOST (R36, R478): a chip of a group has held its edge for four nominal periods without a verdict. -/
def State.tickLost (s : State) (now : Nat) : State :=
  let s := s.atTime now
  let t := s.tick
  if t.live && t.grouped && t.verdict.isNone && decide (now ≥ t.edge + 5 * t.effective) then
    let s := { s with tick := { t with lost := true, lostFlag := true } }
    (s.tickRecord .timeout s.lateMask).endAll .timeout
  else s

/-! ## Reports and verdicts -/

/-- The paired words of a message besides its tick and edge: the vectors and the tick of a broadcast (R27, R121). -/
def pairsOk (vf va : List PW2) (proof : Option PW2) : Bool :=
  vf.all PW2.ok && va.all PW2.ok && (match proof with
    | none => true
    | some p => tickOk p)

/-- Every paired word of the message is valid (R10, R32). -/
def Report.valid (r : Report) : Bool := tickOk r.tick && PW2.ok r.edge && pairsOk r.vf r.va r.proof
def VerdictMsg.valid (v : VerdictMsg) : Bool := tickOk v.tick && PW2.ok v.edge && pairsOk v.vf v.va v.proof

/-- TICK_REPORT (R31, R32): the latest report of a valid child for the tick in progress is kept. -/
def State.tickReport (s : State) (child : Half) (r : Report) (now : Nat) : State :=
  let s := s.atTime now
  let t := s.tick
  if t.live && Report.valid r && decide (PW2.val r.tick = t.number) && t.validChildren.contains child then
    let s := { s with tick := { t with got := (t.got.filter fun (g : Half × Report) => g.1 != child) ++ [(child, r)] } }
    s.tryReportNow
  else s

/-- VERDICT (R31, R32): a member keeps the verdict for the tick in progress and passes it on. -/
def State.takeVerdict (s : State) (v : VerdictMsg) (now : Nat) : State :=
  let s := s.atTime now
  let t := s.tick
  if t.live && !t.decides && VerdictMsg.valid v && t.verdict.isNone && decide (PW2.val v.tick = t.number) then
    { s with tick := { t with verdict := some v } }.tellAll (.verdict v) t.validChildren
  else s

/-! ## Alignment -/

/-- Whole nanoseconds of a number of core cycles at 1,800 MHz. -/
def ccToNs (cc : Nat) : Nat := cc * 5 / 9

/-- ALIGNMENT_MESSAGE (R43, R44, R48): the error against the master's time; the first message of a start sets the group
time and lets the first edge fire; every message goes on to the children. -/
def State.align (s : State) (masterTime pathDelay now : Nat) : State :=
  let t := s.tick
  if ¬ t.run ∨ t.decides then s
  else
    let pass (s : State) : State := s.tellAll (.align masterTime) t.validChildren
    let m := masterTime + pathDelay
    if t.waitAlign then pass { s with tick := { t with waitAlign := false, time := m, aligned := true } }
    else
      let err := if m ≤ now then now - m else m - now
      let recent := t.alignErrs.filter fun e => decide (t.number < e.1 + 256)
      let t := { t with
        time := max t.time now
        aligned := decide (5 * err ≤ 9 * 40)
        alignFault := t.alignFault || decide (5 * err > 9 * 40)
        alignErrs := recent ++ [(t.number, ccToNs err)] }
      pass { s with tick := t }

/-! ## The edge -/

/-- When the edge fires (R32, R34) and the verdict it follows: none for the first edge of a start, which falls at the group
time in force (DESIGN CHOICE: the manual gives it no time); a verdict that names a held edge is followed by every member,
also by one that it reached before the nominal edge (DEDUCED from R34 and R43; notes/assumptions/51.md). -/
def State.edgeDue (s : State) : Option (Nat × Option VerdictMsg) :=
  let t := s.tick
  if ¬ t.run ∨ t.waitAlign ∨ t.lost then none
  else if ¬ t.tickStarted then some (t.time, none)
  else t.verdict.map fun v => (max t.time (PW2.val v.edge), some v)

/-- The tick unit at an edge at time `at_` (R27, R34, R38, R39, R41): number, held edge, the step that takes effect, the
step that the verdict grants. -/
def Tick.fire (t : Tick) (at_ : Nat) (v : Option VerdictMsg) : Tick :=
  let number := if t.tickStarted then (t.number + 1) % 2 ^ 48 else 0
  let held := t.tickStarted && decide (at_ > t.edge + t.effective)
  let takes : Option Nat := match t.pending with
    | some (n, k) => if n ≤ number then some k else none
    | none => none
  let step := takes.getD t.step
  let pending := if takes.isSome then none else t.pending
  let granted : Int := (v.map (·.grant)).getD 0
  let pending := if granted ≠ 0 ∧ pending.isNone
    then some (t.number + 4, (min 7 (max 0 ((step : Int) + granted))).toNat) else pending
  { t.freshReports with
    number := number
    time := at_
    edge := at_
    tickStarted := true
    held := t.held || held
    heldEdges := if held then satAdd 16 t.heldEdges 1 else t.heldEdges
    step := step
    pending := pending
    lastChange := if takes.isSome then number else t.lastChange
    effective := stepPeriod t.period step
    alignErrs := t.alignErrs.filter fun e => decide (number < e.1 + 256)
    proofAt := match v.bind (·.proof) with
      | some p => insertNat (PW2.val p) t.proofAt
      | none => t.proofAt }

/-- A ring without its backlog, and how many records that drops (R457). -/
def Ring.dropBacklog (g : Ring) : Nat × Ring :=
  let n := (g.backlog.filter (·.post.isNone)).length
  (n, { g with backlog := g.backlog.filter (·.post.isSome), lost := satAdd 32 g.lost n, lostFlag := g.lostFlag || decide (n > 0) })

/-- A ring whose queue pair is not ready drops its backlog (R457). -/
def State.ringDown (s : State) (r : RingId) : State :=
  let (n, g) := (s.ring r).dropBacklog
  { s.setRing r g with qcp := { s.qcp with recordsLost := satAdd 16 s.qcp.recordsLost n } }

/-- HOST.POST commands that wait on a ring end with a status (R456, R459). -/
def State.failPosts (s : State) (r : RingId) (st : Status) : State :=
  let g := s.ring r
  let waiting := g.backlog.filterMap (·.post) ++ g.unacked.filterMap (·.2)
  let s := s.setRing r { g with
    backlog := g.backlog.filter (·.post.isNone)
    unacked := g.unacked.map fun u => (u.1, none) }
  waiting.foldl (fun t w => match t.findCmd w.1 .sq w.2 with
    | some k => t.endCmd w.1 k st
    | none => t) s

/-- A queue pair leaves the ready-to-send state (R436, R440, R457, R459). -/
def State.qpDown (s : State) (port : Fin 2) (qp : Fin 64) (dst : QpState) : State :=
  let s := s.modQp port qp fun x => { x with state := dst }
  overFin 16 (fun r s =>
    let g := s.ring r
    if g.set ∧ g.port = port ∧ g.qp = qp then (s.failPosts r .fenced).ringDown r else s) s

/-- R440: every queue pair of both ports enters the error state. -/
def State.failQps (s : State) : State :=
  overFin 2 (fun p s => overFin 64 (fun q s => s.qpDown p q .error) s) s

/-- A member adopts the recovery epoch that a verdict carries (R483 step 5, R440, R490); a recovery that waited for it
goes on to its reset. -/
def State.adoptEpoch (s : State) (e : Half) : State :=
  if e = s.recov.epoch then s
  else
    let r := s.recov
    { s.failQps with recov := { r with
      epoch := e, bumpEpoch := false
      current := r.current.map fun c => if c.phase = .awaitEpoch then { c with phase := .resetting } else c } }

/-- Tick compare and broadcast latches at an edge, before any core starts its frame (R528, R530 to R532). -/
def State.edgeProof (s : State) : State :=
  let n := s.tick.number
  let p := s.proof
  let cmp := p.tickEn && pairOk p.tickLo && pairOk p.tickHi
    && decide (pairVal p.tickLo + 2 ^ 32 * (pairVal p.tickHi % 65536) = n)
  let bc := p.bcastEn && s.tick.proofAt.any fun x => decide (x ≤ n)
  let s := { s with tick := { s.tick with proofAt := s.tick.proofAt.filter fun x => decide (n < x) } }
  let s := if cmp then s.trigger 1 0 else s
  if bc ∧ ¬ (cmp ∧ p.armed) then s.trigger 4 0 else s

/-- EDGE trace entry (R534). -/
def State.edgeTrace (s : State) (held : Bool) : State :=
  s.trace (·.traceEdge) ⟨2, b2n held, 0xFF, s.tick.step, BitVec.ofNat 64 s.tick.time, s.tick.number, 0⟩

/-- A core that has recorded a fault is halted from the next edge on (R72). -/
def State.haltFaulted (s : State) : State :=
  { s with cores := s.cores.map fun x => if x.fault.isSome then { x with halted := true } else x }

/-! ## Votes at an edge -/

/-- The frame-table entry at which a partition's step began. -/
def State.stepEntryOf (s : State) (p : PartId) : Nat :=
  ((s.part p).imageCores.head?.map fun c => (s.core c).stepEntry).getD 0

/-- A replay or wide run begins (R123, R127, R129): the vectors, the record, the counts; at the chip that decides, the
escalation. One that a switch at the same edge puts off (R128) is recorded and counted at that edge, and not again when
the context resumes (DESIGN CHOICE, notes/assumptions/54.md). -/
def State.beginVariant (s : State) (p : PartId) (v : Variant) (vf va : Word) : State :=
  let x := s.part p
  let entry := s.stepEntryOf p
  let ticks := x.windowTicks ++ [0]
  let rises := decide (ticks.length ≥ 8) && !x.aboveEight && s.tick.decides
  let s := s.setPart p { x with
    voteFlags := vf, voteActive := va, variant := v, replays := satAdd 16 x.replays 1, windowTicks := ticks,
    aboveEight := decide (ticks.length ≥ 8), escalated := x.escalated || rises }
  let s := s.precisionRecord p (if v = .wide then 2 else 1) entry vf va
  if rises then s.precisionRecord p 3 entry vf va else s

/-- Failed step (R126, R129). -/
def State.failStep (s : State) (p : PartId) (vf va : Word) : State :=
  let x := s.part p
  let s := s.setPart p { x with
    voteFlags := vf, voteActive := va, held := true, stepFailed := true, failedSteps := satAdd 16 x.failedSteps 1 }
  s.precisionRecord p 4 (s.stepEntryOf p) vf va

/-- Runs begun within the last 1,024 ticks (R127), at an edge: each is one tick older. -/
def State.pruneWindow (s : State) (p : PartId) : State :=
  s.modPart p fun x =>
    let ticks := (x.windowTicks.map (· + 1)).filter fun k => decide (k < 1024)
    { x with windowTicks := ticks, aboveEight := x.aboveEight && decide (ticks.length ≥ 8) }

/-! ## Contexts at an edge -/

/-- The context finishes when all its cores have passed their last entry (R62). -/
def State.finishIfDone (s : State) (p : PartId) : State :=
  if s.contextFinished p then s.stopContext p .ok 0 .ok else s

/-- The partition's cores take their next frames; a replay or wide run clears pending swaps first (R197). -/
def State.runPart (s : State) (p : PartId) (a : Advance) : State :=
  let s := if a.replays then (s.part p).imageCores.foldl (fun (t : State) c => t.clearSwaps c) s else s
  (s.advancePart p a).finishIfDone p

/-- An edge of a running or deferred partition: the switch edge when a save is due and nothing blocks it (R465, R475). -/
def State.runOrSwitch (s : State) (p : PartId) (a : Advance) : State :=
  match (s.part p).stopReq with
  | some true =>
    if s.switchBlocked p then (s.modPart p fun x => { x with state := .switchDeferred }).runPart p a
    else
      let t := s.beginSave p a
      if (t.part p).active then t else t.answerStop p .ok
  | _ => s.runPart p a

/-- A held partition starts no frame; a due save is made as it stands (R126, R465). -/
def State.heldEdge (s : State) (p : PartId) : State :=
  match (s.part p).stopReq with
  | some true =>
    if s.switchBlocked p then s.modPart p fun x => { x with state := .switchDeferred }
    else
      let k := ((s.part p).imageCores.head?.map s.core).getD {}
      s.beginSave p (.at_ k.entry k.rep k.variant)
  | _ => s

/-- The vote outcome or release that a verdict carries for a running partition (R122, R123, R126). -/
def State.voteEdge (s : State) (p : PartId) (v : Option VerdictMsg) : State :=
  let x := s.part p
  let d := (v.bind fun m => m.decide[p.val]?).getD .goOn
  let vf := (v.map fun m => vecAt m.vf p.val).getD 0
  let va := (v.map fun m => vecAt m.va p.val).getD 0
  if x.held then
    match (v.bind fun m => m.release[p.val]?).getD none with
    | some true => (s.modPart p fun x => { x with held := false, variant := .normal }).runOrSwitch p (.rewind .normal)
    | some false => (s.modPart p fun x => { x with held := false, variant := .normal }).runOrSwitch p .skipStep
    | none => s.heldEdge p
  else match d with
    | .goOn => s.runOrSwitch p .goOn
    | .replay => (s.beginVariant p .replay vf va).runOrSwitch p (.rewind .replay)
    | .wide => (s.beginVariant p .wide vf va).runOrSwitch p (.rewind .wide)
    | .failedStep => (s.failStep p vf va).heldEdge p

/-- What the start of a context clears in its partition (R129): the vote registers and the counts since the start;
ESCALATED and STEP_FAILED wait for a write of 1, and the window of 1,024 ticks goes on. -/
def State.clearPart (s : State) (p : PartId) : State :=
  s.modPart p fun x => { x with
    voteFlags := 0, voteActive := 0, failedSteps := 0, replays := 0, held := false, ctxId := x.nextId, variant := .normal,
    abort := none, faultHere := false, faultCore := none, ctl := none, restart := false, rewindTo := none, stopReq := none }

/-- The first frame of a resumed context (R470, R471). -/
def State.firstResumed (s : State) (p : PartId) (r : Resume) : State :=
  let v := Variant.ofCode r.variant
  let cs := (s.part p).imageCores
  let s := (enumFrom 0 cs).foldl (fun t e => (t.resumeCore e.2 r e.1).modCore e.2 fun x => { x with
    entry := if r.rewind then r.stepEntry else r.entry, rep := if r.rewind then r.stepRep else r.rep
    stepEntry := r.stepEntry, stepRep := r.stepRep, variant := v, began := true }) s
  let s := s.modPart p fun x => { x with
    state := .running, resumeValid := false, resume := none, held := r.hold, variant := v }
  if r.hold then s
  else if r.rewind then s.runPart p (.rewind v)
  else s.runPart p (.at_ r.entry r.rep v)

/-- The first frames of a context that starts (R448). -/
def State.freshPart (s : State) (p : PartId) : State :=
  let s := s.modPart p fun x => { x with state := .running }
  let s := (s.part p).coreIds.foldl (fun t c => t.startCore c) s
  s.runPart p .first

/-- A context under which the tick stopped starts again (R128, R397; notes/assumptions/20.md); a save asked for stays due. -/
def State.restartPart (s : State) (p : PartId) : State :=
  let req := (s.part p).stopReq
  ((s.clearPart p).freshPart p).modPart p fun x => { x with stopReq := req }

/-- A pending start reaches its edge (R448, R449): a fresh context runs its first frames; a resumed one restores in this
tick, and a restore that fails leaves the partition idle with VALID set (R469, R475, R491). -/
def State.startPart (s : State) (p : PartId) : State :=
  let x := s.part p
  let s := s.clearPart p
  let s := { s with coll := { s.coll with aborted := s.coll.aborted.filterMap (Aborted.without x.coreNats),
                                          grants := s.coll.grants.filter fun g => !x.coreNats.contains g.core.val,
                                          early := s.coll.early.filter fun e => !x.coreNats.contains e.core } }
  match x.resume with
  | none => s.freshPart p
  | some r =>
    match (restoreCores p r).exec s with
    | (.ok _, t) => t.modPart p fun y => { y with
        state := .restoring, resume := some { r with loaded := true, firstTick := t.tick.number + ceilDiv 180000 t.tick.effective } }
    | (.error _, t) => t.modPart p fun y => { y with state := .idle, resume := none }

/-- A partition at an edge: stop of the partition (R477), abort by the host (R450), pending start, resume, votes,
switches and frames. -/
def State.partEdge (s : State) (p : PartId) (v : Option VerdictMsg) : State :=
  let s := s.pruneWindow p
  let x := s.part p
  let n := s.tick.number
  let stop := (v.bind fun m => m.partStop[p.val]?).getD none
  if x.active ∧ stop.isSome then s.stopContext p (stop.getD .ok) (if x.faultHere then 1 else 3) (stop.getD .ok)
  else if x.active ∧ x.stopReq = some false then s.stopContext p .ok 2 .ok
  else match x.state with
    | .idle | .saving => s
    | .startPending => if x.startTick ≤ n then s.startPart p else s
    | .restoring => (match x.resume with
      | some r => if r.firstTick ≤ n then s.firstResumed p r else s
      | none => s)
    | .running | .switchDeferred => if x.restart then s.restartPart p else s.voteEdge p v

/-- A partition at the edge at which the tick stops (R42, R48, R128, R197, R397, R450, R477): partition stops and aborts
take place; a context that was running loses its open regions and pending swaps, and starts again at tick 0 (DEDUCED,
notes/assumptions/20.md); a resume whose first frame has not begun is cancelled, VALID still set (notes/assumptions/56.md). -/
def State.partHalt (s : State) (p : PartId) (v : Option VerdictMsg) : State :=
  let s := s.pruneWindow p
  let x := s.part p
  let stop := (v.bind fun m => m.partStop[p.val]?).getD none
  if x.active ∧ stop.isSome then s.stopContext p (stop.getD .ok) (if x.faultHere then 1 else 3) (stop.getD .ok)
  else if x.active ∧ x.stopReq = some false then s.stopContext p .ok 2 .ok
  else if x.state = .restoring then
    (s.modPart p fun y => { y with state := .idle, resume := none, stopReq := none }).answerStop p .ok
  else if x.active then
    (x.imageCores.foldl (fun t c => (t.clearSwaps c).modCore c fun y => { y with regions := [], running := false }) s).modPart p
      fun y => { y with restart := y.state == .running || y.state == .switchDeferred }
  else s

/-! ## Waits counted in edges -/

/-- No free slot by the CONS that the V12 knows (R453). -/
def Ring.full (g : Ring) : Bool := decide ((g.seq + 2 ^ 32 - g.cons) % 2 ^ 32 ≥ 2 ^ g.log2)

/-- A ring holds no free slot (R453): when it appears full, CONS is read again; a word that is invalid or cannot be read
leaves the ring full (notes/assumptions/21.md). -/
def State.ringFull (s : State) (r : RingId) : Bool × State :=
  let g := s.ring r
  if ¬ g.full then (false, s)
  else if g.consOff + 8 > hbmEnd then (true, s)
  else match s.tryRead g.consOff 8 with
    | (none, t) => (true, t)
    | (some bs, t) =>
      let w := w64At bs 0
      if pairOk w then
        let g := { t.ring r with cons := pairVal w }
        (g.full, t.setRing r g)
      else (true, t)

/-- Commands whose limit is counted in edges and held periods (R320, R394). -/
def EngOp.limited : EngOp → Bool
  | .strmFlash | .folioPromote | .folioEvict | .folioFlush | .xhStep | .xhTree | .xhStepArr | .xhTreeArr => true
  | _ => false

/-- One count of a period for the running commands of every core. -/
def State.countWaits (s : State) : State :=
  { s with cores := s.cores.map fun x => { x with
    sq := { x.sq with cmds := x.sq.cmds.map fun k =>
      if k.started && k.op.limited then { k with waits := k.waits + 1 } else k } } }

/-- POST_WAIT (R456): a HOST.POST whose ring stays full for that many edges ends with TIMEOUT. -/
def State.countPosts (s : State) (c : CoreId) : State :=
  match (s.core c).sq.cmds.head? with
  | none => s
  | some k =>
    match k.post with
    | some (r, _) =>
      let queued := (s.ring r).backlog.any fun x => x.post == some (c, k.seq)
      if ¬ k.started ∨ ¬ queued then s
      else
        let (full, s) := s.ringFull r
        if ¬ full then s.putCmd c { k with waits := 0 }
        else if k.waits + 1 ≥ (s.ring r).postWait then
          (s.modRing r fun g => { g with backlog := g.backlog.filter fun x => x.post != some (c, k.seq) }).endCmd c k .timeout
        else s.putCmd c { k with waits := k.waits + 1 }
    | none => s

/-- The tick edge (R27, R28, R32, R34, R42). -/
def State.tickEdge (s : State) : State :=
  match s.edgeDue with
  | none => s
  | some (at_, v) =>
    let held := s.tick.tickStarted && decide (at_ > s.tick.edge + s.tick.effective)
    let s := { s with tick := s.tick.fire at_ v }
    let s := match v with
      | some m => s.adoptEpoch m.epoch
      | none => s
    let s := (s.edgeProof.edgeTrace held).haltFaulted
    match v.bind (·.stop) with
    | some .ok => (overFin 8 (fun p s => s.partHalt p v) s).halt
    | some st => { (s.endAll st).halt with power := { s.power with thermAbort := false } }
    | none =>
      let s := overFin 8 (fun p s => s.partEdge p v) s
      let s := overFin 128 (fun c s => s.countPosts c) s.countWaits
      let t := s.tick
      let s := if t.role = .master then s.tellAll (.align t.time) t.validChildren else s
      s.tryReportNow

end Sys2Proof.Machine
end

