-- ==== Sys2Proof/Machine/Train.lean ====
section
/-! DEFINITION. Crosshatch training (R366, R368 to R376, R560): slots, attempts and back-off, equalise, error test,
identity and delay, loss of signal, and the fabric's start and stop. -/
namespace Sys2Proof.Machine

/-- Link die of a port (R348). -/
def dieOfPort (p : Nat) : Nat := if p < 18 then 0 else 1

/-- A port in stage 2 or 3. -/
def Port.inSlot (x : Port) : Bool := decide (x.state = .equalise) || decide (x.state = .errorTest)

def State.slotsUsed (s : State) (die : Nat) : Nat :=
  ((List.finRange 36).filter fun p => dieOfPort p.val == die && (s.port p).inSlot).length

/-- The map's MODE of a port lets it train: 1 management-only, 2 data; the reserved code acts as disabled
(notes/assumptions/22.md). -/
def Port.trains (x : Port) : Bool := decide (x.mode = 1) || decide (x.mode = 2)

/-- The link die of a port is powered (R496). -/
def State.linkDieOn (s : State) (p : Nat) : Bool := flag s.power.on (24 + dieOfPort p)

/-- A port begins an attempt (R368, R369, R509, R560): stage 2, or pending where its link die already trains nine ports
or training is not permitted yet. -/
def State.beginTraining (s : State) (p : PortId) : State :=
  let s := s.flushPort p
  let x := s.port p
  if ¬ s.fabric.run ∨ ¬ x.trains then s.setPort p { x with state := .idle, waiting := false }
  else if s.fabric.permitted && s.linkDieOn p.val && decide (s.slotsUsed (dieOfPort p.val) < 9) then
    s.setPort p { x with state := .equalise, waiting := false }
  else s.setPort p { x with waiting := true, state := if x.state = .backOff then .backOff else .idle }

/-- A failed attempt (R369): back-off, or after 32 of them STATE 7. -/
def State.failAttempt (s : State) (p : PortId) (c : PortCause) : State :=
  s.modPort p fun x =>
    let n := Nat.min 255 (x.attempts + 1)
    { x with attempts := n, cause := c, state := if n ≥ 32 then .failed else .backOff, identityMode := none }

/-- Cores of back-off: 1 ms and n times 125 µs (R369), in µs. -/
def State.backOffMicros (s : State) (p : PortId) : Nat :=
  let x := s.port p
  1000 + 125 * ((stipple 0 s.chipId (BitVec.ofNat 64 (256 * p.val + x.attempts))).toNat % 57)

/-- TRAINING_SLOT (R369): the lowest pending port of a link die takes a free slot. -/
def execTrainingSlot (p : PortId) (s : State) : Host.Outcome State Fault Refusal :=
  let x := s.port p
  let first := (List.finRange 36).find? fun q => dieOfPort q.val == dieOfPort p.val && (s.port q).waiting
  .next (if x.waiting ∧ first = some p then s.beginTraining p else s)

/-- BACK_OFF (R369): a port's wait is over and it tries again. -/
def execBackOff (p : PortId) (s : State) : Host.Outcome State Fault Refusal :=
  .next (if (s.port p).state = .backOff ∧ ¬ (s.port p).waiting then s.beginTraining p else s)

/-- EQUALISE (R368, R553): stage 2 ends. -/
def execEqualise (p : PortId) (passed : Bool) (s : State) : Host.Outcome State Fault Refusal :=
  .next (if (s.port p).state = .equalise then
    (if passed then s.modPort p fun x => { x with state := .errorTest } else s.failAttempt p .timeout)
  else s)

/-! ## Identity -/

/-- MEMBER of an identity stroke body (R524). -/
def State.memberTag (s : State) (body : List Byte) : List Byte :=
  match s.cfg.key with
  | none => zeros 16
  | some k => slice (Config.hmacSha384 k ([0x58, 0x48, 0x4D, 0x45, 0x4D, 0x42, 0x45, 0x52] ++ le 4 s.cfg.keyGen
      ++ slice body 0 0x30)) 0 16

/-- The identity stroke body that this side sends (R370), with the outcome it reached. -/
def State.identityBody (s : State) (p : PortId) (cause : Nat) : List Byte :=
  let x := s.port p
  let b := pairBytes s.chip ++ pairBytes (place p.val 8 + place x.level 6 + place x.cls 4) ++ pairBytes s.boot.version
    ++ pairBytes 2 ++ pairBytes s.boot.abi ++ pairBytes cause
  b ++ s.memberTag b

/-- ERROR_TEST (R368, R370): at most 4 bit errors on every lane; the port then enters the identity stage and sends its
identity stroke, with no outcome so far. -/
def execErrorTest (p : PortId) (bitErrors : List Nat) (s : State) : Host.Outcome State Fault Refusal :=
  if bitErrors.length ≠ 4 then .fault (.illFormed "ERROR_TEST")
  else .next (if (s.port p).state = .errorTest then
    (if bitErrors.all fun n => decide (n ≤ 4) then
      (s.modPort p fun x => { x with state := .identity, identityMode := none }).emit
        (.identity p.val (s.identityBody p 0) 0)
     else s.failAttempt p .ber)
  else s)

/-- What an identity exchange gives a port: data or management-only mode or none, its CAUSE and the logical port. -/
structure Identity where
  mode : Nat
  cause : PortCause
  logical : Nat
  deriving DecidableEq, Repr

def causeOf : Nat → PortCause
  | 1 => .peer | 2 => .level | 3 => .cls | 4 => .version | 5 => .abi | 6 => .auth | _ => .none

/-- This side's row of the table "Identity outcomes" (R371, R372). -/
def State.identify (s : State) (p : PortId) (body : List Byte) : Identity :=
  let x := s.port p
  let v (i : Nat) : Nat := pairVal (w64At body (8 * i))
  let chip := v 0 % 65536
  let logical := v 1 / 256 % 64
  let level := v 1 / 64 % 4
  let cls := v 1 / 16 % 4
  let proto := v 3 % 256
  let expected (m : Port) : Bool := pairOk m.expect && decide (pairVal m.expect % 65536 = chip)
  if slice body 0x30 16 ≠ s.memberTag body then ⟨0, .auth, p.val⟩
  else if level ≠ x.level then ⟨1, .level, p.val⟩
  else if cls ≠ x.cls then ⟨1, .cls, p.val⟩
  else if ¬ expected x then ⟨1, .peer, p.val⟩
  else if logical ≠ x.peerPort then
    match (List.finRange 36).find? fun q =>
        let m := s.port q
        expected m && decide (m.peerPort = logical) && decide (m.level = x.level) with
    | some q => ⟨2, .none, q.val⟩
    | none => ⟨1, .peer, p.val⟩
  else if proto = 0 ∨ proto > 3 then ⟨1, .version, p.val⟩
  else if v 4 ≠ s.boot.abi then ⟨1, .abi, p.val⟩
  else ⟨x.mode, .none, p.val⟩

/-- The less favourable of this side's outcome and the peer's STATE (R371): a peer without membership takes the port
down, and any other cause of the peer leaves it management-only. -/
def Identity.join (own : Identity) (p theirs : Nat) : Identity :=
  if own.mode = 0 then own
  else if theirs = 6 then ⟨0, .auth, p⟩
  else if own.cause = .none ∧ 1 ≤ theirs ∧ theirs ≤ 5 then ⟨1, causeOf theirs, p⟩
  else own

/-- IDENTITY_STROKE (R370 to R372): the peer's fields are kept, the outcome of both sides is joined, and this side sends
the STATE it reached, once. A side that verified no member stays down (notes/assumptions/22.md). -/
def execIdentityStroke (p : PortId) (body : List Byte) (s : State) : Host.Outcome State Fault Refusal :=
  if body.length < 64 then .fault (.illFormed "IDENTITY_STROKE")
  else if (s.port p).state ≠ .identity then .next s
  else if ¬ (List.range 6).all fun i => pairOk (w64At body (8 * i)) then .next (s.failAttempt p .timeout)
  else
    let v (i : Nat) : Nat := pairVal (w64At body (8 * i))
    let own := s.identify p body
    let proto := v 3 % 256
    let out := own.join p.val (v 5 % 256)
    let s := if (s.port p).identityMode.isSome then s
      else s.emit (.identity p.val (s.identityBody p own.cause.code) own.cause.code)
    let s := s.modPort p fun x => { x with
      peer := v 0 % 65536, infoPort := v 1 / 256 % 64, infoLevel := v 1 / 64 % 4, infoClass := v 1 / 16 % 4,
      infoFirmware := v 2 % 65536, infoProto := proto, infoAbi := v 4 % 2 ^ 26, cause := out.cause,
      logical := out.logical, remapped := x.remapped || decide (out.logical ≠ p.val),
      proto := if proto = 1 then 1 else if proto = 2 ∨ proto = 3 then 2 else 0,
      identityMode := if out.mode = 0 then none else some out.mode,
      state := if out.mode = 0 then .idle else .identity }
    .next s

/-- The report of a port that ends training miswired (R371, R455). -/
def State.reportMiswired (s : State) (p : PortId) : State :=
  let x := s.port p
  let c := x.cause.code
  if 1 ≤ c ∧ c ≤ 3 then
    s.deviceRecord .miswired 2 p.val (x.peer + place c 16 + place x.logical 24)
  else s

/-- The median of the round trips. -/
def median (l : List Nat) : Nat :=
  let t := sortBy (fun a b => decide (a ≤ b)) l
  (t.getD (t.length / 2 - 1) 0 + t.getD (t.length / 2) 0) / 2

/-- DELAY_MEASUREMENT (R368, R374): 64 round trips in ps of group time; the port comes up in the mode that identity gave,
and grants its partner every credit (R366). -/
def execDelayMeasurement (p : PortId) (roundTrips : List Nat) (turnaround : Nat) (s : State) :
    Host.Outcome State Fault Refusal :=
  let x := s.port p
  match (if x.state = .identity then x.identityMode else none) with
  | none => .next s
  | some m =>
    if roundTrips.length < 64 then .next (s.failAttempt p .timeout)
    else
      let s := s.modPort p fun x => { x with
        state := if m = 2 then .upData else .upMgmt, identityMode := none,
        delay := (median (roundTrips.take 64) - turnaround) / 2 % 2 ^ 20,
        credVc0 := 48, credVc1 := 48, credMgmt := 8, owedVc0 := 0, owedVc1 := 0, owedMgmt := 0 }
      .next (s.reportMiswired p)

/-! ## Loss, retraining, start and stop -/

/-- LOSS_OF_SIGNAL (R375): a port that is up returns to stage 2. -/
def execLossOfSignal (p : PortId) (s : State) : Host.Outcome State Fault Refusal :=
  let x := s.port p
  .next (if x.state = .upData ∨ x.state = .upMgmt then s.beginTraining p else s)

/-- A retrain request for a port (R375, R377); nothing while the fabric is stopped or the MODE is disabled. -/
def State.retrain (s : State) (p : PortId) : State :=
  if s.fabric.run ∧ (s.port p).trains then (s.modPort p fun x => { x with attempts := 0, waiting := false }).beginTraining p
  else s

/-- RETRAIN (R375). -/
def execRetrain (p : PortId) (s : State) : Host.Outcome State Fault Refusal := .next (s.retrain p)

/-- RETRAIN_ALL (R375, R376). -/
def State.retrainAll (s : State) : State := overFin 36 (fun p s => s.retrain p) s
def execRetrainAll (s : State) : Host.Outcome State Fault Refusal := .next s.retrainAll

/-- XH_START (R376, R368, R524): the map applies, a membership key read since the last start takes effect, and every port
whose MODE is not disabled trains, L0 first. -/
def State.xhStart (s : State) : State :=
  if s.fabric.run then s
  else
    let cfg := match s.cfg.nextKey with
      | none => s.cfg
      | some (k, g) => { s.cfg with key := k, keyGen := g, nextKey := none, memberNone := k.isNone }
    let s := { s with cfg := cfg, fabric := { s.fabric with run := true, stopping := false } }
    let s := overFin 36 (fun p s => s.modPort p fun x => { x with
      logical := p.val, attempts := 0, cause := .none, waiting := false, state := .idle, identityMode := none }) s
    overFin 36 (fun p s => s.beginTraining p) s
def execXhStart (s : State) : Host.Outcome State Fault Refusal := .next s.xhStart

/-- XH_STOP (R376): ignored while the tick runs; ports finish what they have begun. -/
def State.xhStop (s : State) : State :=
  if s.tick.run ∨ ¬ s.fabric.run then s else { s with fabric := { s.fabric with stopping := true } }
def execXhStop (s : State) : Host.Outcome State Fault Refusal := .next s.xhStop

/-- Every port has finished the packets it has begun (R376). -/
def State.xhDrained (s : State) : Bool := s.ports.toList.all fun x => x.open0.isNone && x.open1.isNone

/-- XH_STOP_DRAINED (R376, R378): once every port has finished the packets it has begun, it enters electrical idle and RUN
becomes 0. -/
def execXhStopDrained (s : State) : Host.Outcome State Fault Refusal :=
  if s.fabric.run ∧ s.fabric.stopping ∧ s.xhDrained then
    let s := { s with fabric := { s.fabric with run := false, stopping := false } }
    .next (overFin 36 (fun p s => s.modPort p fun x => { x.flush with state := .idle, waiting := false }) s)
  else .next s

/-- FABRIC_TRAINING_PERMITTED (R20, R509): 650 ms after power good, and once boot firmware has applied the configuration,
it writes XH_CTRL.START. -/
def execFabricTrainingPermitted (s : State) : Host.Outcome State Fault Refusal :=
  if s.boot.booted && s.cfg.applied then
    let s := { s with fabric := { s.fabric with permitted := true } }
    .next (if s.fabric.run then overFin 36 (fun p s => if (s.port p).waiting then s.beginTraining p else s) s else s.xhStart)
  else .next s

end Sys2Proof.Machine
end

