-- ==== Sys2Proof/Machine/Recovery.lean ====
section
/-! DEFINITION. Heartbeats, hangs and the recovery sequence (R480 to R486, R491, R493): domains and their nesting, the
crash record, fence, drain, suspects, epoch and reset, and the reset of the device domain (R485). -/
namespace Sys2Proof.Machine

/-! ## Domains (R480) -/

/-- Number of indices of a domain kind. -/
def DomKind.count (s : State) : DomKind → Nat
  | .device => 1 | .die => 8 | .cluster => s.logicalCores / 8 | .port => 36 | .engine => 8 | .stack => 12

/-- Domain number of the heartbeat (R492). -/
def DomKind.number (k : DomKind) (i : Nat) : Nat :=
  match k with
  | .device => 0 | .die => 1 + i | .cluster => 9 + i | .port => 25 + i | .engine => 61 + i | .stack => 69 + i

def domOfNumber (n : Nat) : Option (DomKind × Nat) :=
  if n = 0 then some (.device, 0) else if n < 9 then some (.die, n - 1) else if n < 25 then some (.cluster, n - 9)
  else if n < 61 then some (.port, n - 25) else if n < 69 then some (.engine, n - 61)
  else if n < 81 then some (.stack, n - 69) else none

/-- A logical cluster has a core on compute die d (R16, R480; notes/assumptions/23.md). -/
def State.clusterOnDie (s : State) (k d : Nat) : Bool := (List.range 8).any fun i => (s.physical (8 * k + i)).1 == d

/-- Domain (k, i) holds domain (l, j). -/
def State.domContains (s : State) (k : DomKind) (i : Nat) (l : DomKind) (j : Nat) : Bool :=
  match k with
  | .device => true
  | .die => match l with
    | .die => i == j
    | .cluster => decide (i < 4) && s.clusterOnDie j i
    | .stack => decide (i < 4) && j / 3 == i
    | .port => decide (4 ≤ i) && decide (i < 6) && dieOfPort j == i - 4
    | .engine => decide (6 ≤ i) && j / 4 == i - 6
    | .device => false
  | k => k == l && i == j

/-- The clusters, ports, engines and stacks that a domain holds. -/
def State.domHolds (s : State) (k : DomKind) (i : Nat) (l : DomKind) : List Nat :=
  (List.range (l.count s)).filter fun j => s.domContains k i l j

/-- A running recovery's domain holds (l, j) (R483 step 2). -/
def State.domFenced (s : State) (l : DomKind) (j : Nat) : Bool :=
  match s.recov.current with
  | some r => s.domContains r.kind r.index l j
  | none => false

/-- Cores of the clusters that a domain holds. -/
def State.domCores (s : State) (k : DomKind) (i : Nat) : List Nat :=
  (s.domHolds k i .cluster).flatMap fun c => (List.range 8).map fun j => 8 * c + j

/-- Partitions with a context that runs on the chip. -/
def State.activeParts (s : State) : List PartId := (List.finRange 8).filter fun p => (s.part p).active

/-! ## The crash record (R484) -/

def State.crashOff (s : State) : Nat := s.recov.crashBase.toNat * 2 ^ 25

/-- Bytes 0x000 to 0x1FFF of the record. -/
def State.crashHeader (s : State) (r : Recov) (cores : List Nat) : List Byte :=
  let sus := s.recov.suspects.toList
  let coreInfo (n : Nat) : List Byte :=
    if cores.contains n then
      let x := s.core (coreIdOf n)
      le 8 x.pc ++ le 8 x.statusWord.toNat ++ le 8 x.faultWord.toNat ++ le 8 x.faultAtWord.toNat
    else zeros 32
  let h := [0x4F, 0x5A, 0x44, 0x58, 0x43, 0x52, 0x53, 0x48]
    ++ pairBytes (place r.kind.code 16 + place r.index 8 + r.trigger)
    ++ pw2Bytes s.tick.number ++ pairBytes s.recov.epoch.toNat ++ pairBytes s.chip
    ++ pairBytes (sus.filter Option.isSome).length ++ zeros 8 ++ zeros 960
    ++ (List.range 128).flatMap coreInfo ++ sus.flatMap (fun x => le 8 (suspectWord x).toNat) ++ zeros 2944
  overlay h 0x38 (le 4 (crc32c h).toNat)

/-- Writes the crash record: samples, header, MAGIC last; VALID stays 0 where the region cannot be written
(notes/assumptions/23.md). -/
def State.writeCrash (s : State) (r : Recov) : State :=
  if s.recov.crashValid then { s with recov := { s.recov with crashMissed := satAdd 16 s.recov.crashMissed 1 } }
  else
    let off := s.crashOff
    let cores := s.domCores r.kind r.index
    let body : Eng Unit := do
      cores.forM fun n => (List.range 32).forM fun k =>
        bulkSave (spmOf n + k * 0x40000) 0x1000 (off + 0x10000 + n * 0x20000 + k * 0x1000)
      let t ← get
      let h := t.crashHeader r cores
      memWrite .window (off + 8) (h.drop 8)
      memWrite .window off (h.take 8)
    match body.exec s with
    | (.ok _, t) => { t with recov := { t.recov with crashValid := true, crashKind := r.kind.code, crashIndex := r.index } }
    | (.error _, t) => t

/-! ## Device reset (R485, R480) -/

/-- A stack at its reset values (R301): what fuses hold stays; a mailbox command in progress reads INTERRUPTED (R300). -/
def Stack.atReset (x : Stack) : Stack :=
  { fusedLanes := x.fusedLanes, hardRows := x.hardRows, retestRow := x.retestRow, retestLane := x.retestLane
    result := if x.busy.isSome then 5 else 0 }

/-- The fused security version that a reset finds: with SVN_COMMIT in progress, between what was fused and the running
image's, as far as the blowing had come (R521). -/
def State.svnLoss (s : State) (st : Nat) : Fuses :=
  if s.sec.busy = some 2 ∧ s.fuses.svn < s.boot.imageSvn then
    { s.fuses with svn := s.fuses.svn + (Config.freeWord st).toNat % (s.boot.imageSvn - s.fuses.svn + 1) }
  else s.fuses

/-- What a device recovery keeps: fuses, NAND and boot flash, the fuse repairs of the stacks, the crash region, the epoch
advanced by one, the counters that only COLD_RESET_N clears, and what the model itself keeps. Every other HBM content is
undefined. -/
def State.deviceReset (s : State) : State :=
  let c := s.crashOff
  let n := 2 ^ 25
  let m := (s.mem.forget 0 c s.free).forget (c + n) (hbmEnd - (c + n)) (s.free + 1)
  let m := ((m.zero spmBase (128 * spmSize)).zero accBase (128 * accSize))
  let r : State := State.reset
  { r with
    mem := m
    nand := s.nand
    bootFlash := s.bootFlash
    damage := s.damage.filter fun x => decide (c ≤ x.1) && decide (x.1 < c + n)
    fuses := s.svnLoss (s.free + 2)
    hbmStacks := s.hbmStacks.map Stack.atReset
    ftl := { r.ftl with capacity := s.ftl.capacity, nextSeq := s.ftl.nextSeq, checkpoint := s.ftl.checkpoint,
                        journal := s.ftl.journal, blocks := s.ftl.blocks, good := s.ftl.good, spare := s.ftl.spare,
                        retired := s.ftl.retired }
    recov := { r.recov with epoch := s.recov.epoch + 1, hangs := s.recov.hangs, recoveries := s.recov.recoveries,
                            integrity := s.recov.integrity, fenceRefused := s.recov.fenceRefused }
    power := { r.power with capRequests := s.power.capRequests, thermRequests := s.power.thermRequests,
                            peak := s.power.peak, tripped := s.power.tripped }
    parts := resetParts s.logicalCores
    boot := { r.boot with powered := s.boot.powered }
    sec := { r.sec with nonce := Config.freeWord (s.free + 3) }
    qcp := { r.qcp with stage := 5 }
    tap := s.tap
    drive := s.drive
    free := s.free + 4
    out := s.out
    pending := s.pending }

/-- A mailbox command of a stack blows fuses (R298, R300). -/
def Stack.fusing (x : Stack) : Bool := x.busy.any fun b => b.code == 3 || b.code == 5

/-- A device reset waits for a running fuse step (R300, R493). -/
def State.deviceRecover (s : State) (trigger : Nat) : State :=
  if s.hbmStacks.toList.any Stack.fusing then
    { s with recov := { s.recov with current := some ⟨.device, 0, trigger, .fuseWait⟩, waiting := [] } }
  else s.deviceReset

/-! ## The sequence (R483) -/

/-- Steps 1 and 2: crash record and fence. -/
def State.startRecovery (s : State) (r : Recov) : State :=
  let s := s.writeCrash r
  let s := { s with recov := { s.recov with
    current := some r, lastKind := r.kind.code, lastIndex := r.index, recoveries := satAdd 16 s.recov.recoveries 1 } }
  (s.domHolds r.kind r.index .stack).foldl (fun t j => t.stackAt j fun x =>
    if x.fenced ∧ x.cause = .thermal then x else { x with fenced := true, cause := .recovery }) s

/-- A recovery of a domain other than the device: it begins, waits, or is absorbed (R483, R493). -/
def State.submitRecovery (s : State) (r : Recov) : State :=
  let held (x : Recov) : Bool := s.domContains x.kind x.index r.kind r.index
  match s.recov.current with
  | none => s.startRecovery r
  | some c =>
    if held c || s.recov.waiting.any held then s
    else { s with recov := { s.recov with waiting := s.recov.waiting ++ [r] } }

/-- One suspect more (R486). -/
def Recovery.suspect (r : Recovery) (x : Suspect) : Recovery :=
  match r.suspects.toList.findIdx? Option.isNone with
  | some i => { r with suspects := Vector.ofFn fun (k : Fin 16) => if k.val = i then some x else r.suspects[k] }
  | none => { r with suspectOvf := true }

/-- Suspects by domain (R486, R492): EPOCH is the epoch that this recovery brings. -/
def State.recordSuspects (s : State) (k : DomKind) (i : Nat) : State :=
  let ep := s.recov.epoch + 1
  let ctx (p : PartId) : Suspect := .ctx (s.part p).ctxId p.val ep
  let ctxs : List Suspect :=
    match k with
    | .device | .stack => s.activeParts.map ctx
    | .die => if i < 4 then s.activeParts.map ctx else []
    | .cluster => (s.activeParts.filter fun p => (s.part p).coreNats.contains (8 * i)).map ctx
    | _ => []
  let media := (s.domHolds k i .engine).flatMap fun e =>
    let x := s.engines.toList.getD e {}
    ((List.range 16).filter fun n => (x.sessions.toList.getD n none).isSome).map fun n => Suspect.media e n ep
  { s with recov := (ctxs ++ media).foldl Recovery.suspect s.recov }

/-- A declared hang (R481, R482, R531): counted, Proof latched before the sample; a device hang is recovered in hardware
alone, after its crash record, whose copies are all that its reset leaves of the suspects (notes/assumptions/23.md). -/
def State.hang (s : State) (k : DomKind) (i : Nat) : State :=
  let s := { s with recov := { s.recov with hangs := satAdd 16 s.recov.hangs 1 } }
  let s := if s.proof.errEn ∧ flag s.proof.errMask 15 then s.triggerError 0 else s
  let r : Recov := ⟨k, i, 1, .draining⟩
  if k = .device then
    let s := (s.recordSuspects .device 0).writeCrash r
    let s := { s with recov := { s.recov with recoveries := satAdd 16 s.recov.recoveries 1 } }
    s.deviceRecover 1
  else s.submitRecovery r

/-- Step 3 at the end of the drain: what a core of the domain has outstanding ends with FENCED, and the core counts as
halted and done. -/
def State.fenceCore (s : State) (c : CoreId) : State :=
  let x := s.core c
  let cmds := x.allCmds.filter fun k => !k.shadow
  let s := cmds.foldl (fun t k => match t.findCmd c k.op.queue k.seq with
    | some j => t.endCmd c j .fenced
    | none => t) s
  s.modCore c fun x => { x with running := false, halted := true, stall := none, stopped := false }

/-- Step 4: a context with a core in the domain is stopped through the report (R477). -/
def State.abortParts (s : State) (cores : List Nat) : State :=
  overFin 8 (fun p s =>
    let x := s.part p
    if x.active && cores.any (fun n => x.coreNats.contains n) then
      s.setPart p { x with abort := some (x.abort.getD .fenced), faultHere := true }
    else s) s

/-- Step 5: the report asks for the next epoch; with no tick running the epoch advances at once. -/
def State.seekEpoch (s : State) : State :=
  if s.tick.run && !s.tick.lost then s.tryReport else s.adoptEpoch (s.recov.epoch + 1)

/-- RECOVERY_DRAIN_END (R483 steps 3 to 5): with no tick running the epoch advances at once
(notes/assumptions/23.md). -/
def State.drainEnd (s : State) : State :=
  match s.recov.current with
  | none => s
  | some r =>
    if r.phase ≠ .draining then s
    else
      let cores := s.domCores r.kind r.index
      let s := cores.foldl (fun t n => t.fenceCore (coreIdOf n)) s
      let s := (s.domHolds r.kind r.index .port).foldl (fun t j => 
        let p : PortId := ⟨j % 36, Nat.mod_lt _ (by decide)⟩
        (t.flushPort p).modPort p fun x => { x with state := .idle, waiting := false }) s
      let s := (s.domHolds r.kind r.index .engine).foldl (fun t j => t.endJobs ⟨j % 8, Nat.mod_lt _ (by decide)⟩ .fenced) s
      let s := (s.recordSuspects r.kind r.index).abortParts cores
      let s := { s with recov := { s.recov with bumpEpoch := true, current := some { r with phase := .awaitEpoch } } }
      s.seekEpoch

/-- Resets one logical cluster (R480): core state gone, scratchpads and accumulator files zero. -/
def State.resetCluster (s : State) (k : Nat) : State :=
  (List.range 8).foldl (fun t i =>
    let n := 8 * k + i
    let t := t.setCore (coreIdOf n) {}
    { t with mem := (t.mem.zero (spmOf n) spmSize).zero (accOf n) accSize }) s

/-- Resets one media engine (R480): every session is closed and its jobs are gone. -/
def Engine.resetEngine (x : Engine) : Engine :=
  { x with sessions := Vector.replicate 16 none, jobs := [] }

/-- The PHY group of a stack is powered (R494). -/
def State.phyOn (s : State) (st : Nat) : Bool := flag s.power.on (20 + st / 3)

/-- A stack of the domain is still away: its fuse step runs (R300), or it has not been trained since the reset began
(R296). -/
def State.stackAway (s : State) (j : Nat) : Bool :=
  let x := s.hbmStacks.toList.getD j {}
  x.fusing || (s.phyOn j && !x.retrained)

/-- Resets one stack (R296, R301): contents undefined (notes/assumptions/24.md), soft repairs gone; it is ready again
with the outcome of the training that its reset brought (R292, R293), and not ready where its PHY has no power. -/
def State.resetStack (s : State) (i : StackId) : State :=
  let x := s.stack i
  let y := x.atReset
  let y := if x.retrained then
      { y with laneMap := x.laneMap, degraded := x.degraded, fenced := decide (x.cause = .training),
               cause := if x.cause = .training then .training else .none, ready := decide (x.cause ≠ .training) }
    else y
  let s := s.setStack i y
  { s with mem := s.mem.forgetStack hbmEnd i.val none s.free, free := s.free + 1,
           damage := s.damage.filter fun d => (hbmMap d.1).1 != i.val }

/-- Step 6 on every domain that (k, i) holds (R480). -/
def State.resetDomain (s : State) (k : DomKind) (i : Nat) : State :=
  let s := (s.domHolds k i .cluster).foldl State.resetCluster s
  let s := (s.domHolds k i .stack).foldl (fun t j => t.resetStack ⟨j % 12, Nat.mod_lt _ (by decide)⟩) s
  let s := (s.domHolds k i .engine).foldl (fun t j => t.modEngine ⟨j % 8, Nat.mod_lt _ (by decide)⟩ Engine.resetEngine) s
  let s := (s.domHolds k i .port).foldl (fun t j =>
    let p : PortId := ⟨j % 36, Nat.mod_lt _ (by decide)⟩
    (t.modPort p fun x => { x with idleErrors := 0, hdrCorrected := 0, hdrLost := 0, uncorrected := 0,
                                         windowBytes := 0, windowErrors := 0, attempts := 0 }).beginTraining p) s
  let nums := (DomKind.number k i) :: [DomKind.cluster, .stack, .engine, .port].flatMap fun l =>
    (s.domHolds k i l).map fun j => DomKind.number l j
  let missed : Vector Nat 96 := Vector.ofFn fun n => if nums.contains n.val then 0 else s.recov.missed[n]
  { s with recov := { s.recov with missed := missed } }

/-- SOURCE of the DEVICE record of a domain kind (R455, R483). -/
def DomKind.source : DomKind → Nat
  | .stack => 1 | .port => 2 | .engine => 3 | .cluster => 4 | _ => 5

/-- DETAIL of that record (R455). -/
def State.domDetail (s : State) (k : DomKind) (i : Nat) : Nat :=
  match k with
  | .stack => (s.hbmStacks.toList.getD i {}).last
  | .port =>
    let x := s.ports.toList.getD i {}
    x.peer + place x.cause.code 16 + place x.logical 24
  | _ => 0

/-- A QCP RESET in execution that names a domain within (k, i) (R451, R493). -/
def QcpJob.resets (j : QcpJob) (s : State) (k : DomKind) (i : Nat) : Bool :=
  decide (j.cmd = .reset) && (match DomKind.ofCode (byteAt j.req.body 0).toNat with
    | some l => s.domContains k i l (byteAt j.req.body 1).toNat
    | none => false)

/-- DOMAIN_RESET_DONE (R483 step 6, R451): the domain is back; the DEVICE record is written, a QCP RESET answered, and the
next waiting recovery begins. A stack whose fuse step runs (R300) or that is not trained yet (R296) is not back. -/
def State.domainResetDone (s : State) : State :=
  match s.recov.current with
  | none => s
  | some r =>
    if decide (r.phase ≠ .resetting) || (s.domHolds r.kind r.index .stack).any s.stackAway then s
    else
      let s := s.resetDomain r.kind r.index
      let s := { s with recov := { s.recov with current := none } }
      let s := s.deviceRecord .fenced r.kind.source r.index (s.domDetail r.kind r.index)
      let s := match s.qcp.current with
        | some j => if j.resets s r.kind r.index then s.finishQcp .ok [] else s
        | none => s
      match s.recov.waiting with
      | [] => s
      | w :: ws => ({ s with recov := { s.recov with waiting := ws } }).startRecovery w

/-! ## Heartbeats (R480, R481) -/

/-- What a stalled Stylus awaits (R480). -/
def Core.awaited (x : Core) : Option (List QCmd) :=
  match x.stall with
  | none => none
  | some .tickWait => some (x.allCmds.filter fun k => !k.span)
  | some (.fence _) => some x.allCmds
  | some (.full q) => some ((x.queue q).cmds.take 1)
  | some (.cmdWait q n _) => some ((x.queue q).cmds.filter fun k => decide (k.seq ≤ n))
  | some (.tokWait t _) => some (x.allCmds.filter fun k => k.ctr == some t)

/-- A core passes its cluster's liveness check: done, halted, outside every partition, a frame started, or stalled on
marked commands alone. -/
def State.coreLive (s : State) (n : Nat) : Bool :=
  let c := coreIdOf n
  let x := s.core c
  !x.running || x.halted || (s.partOf c).isNone || x.startedSince || (match x.awaited with
    | some ks => !ks.isEmpty && ks.all fun k => k.op.marked
    | none => false)

/-- A domain passes its liveness check (R480). -/
def State.domLive (s : State) (f : LivenessFacts) (k : DomKind) (i : Nat) : Bool :=
  match k with
  | .device => f.easel
  | .die => f.dies.getLsbD i
  | .cluster => (List.range 8).all fun j => s.coreLive (8 * i + j)
  | .port => f.ports.getLsbD i || (match (s.ports.toList.getD i {}).state with
    | .idle | .backOff | .failed => true
    | _ => false)
  | .engine => f.engines.getLsbD i || (s.engines.toList.getD i {}).jobs.isEmpty
  | .stack => f.hbmStacks.getLsbD i

/-- HEARTBEAT_CHECK (R481, R482): counts, hangs; and one more period for the commands whose limit counts the nominal
periods of a held edge (R320). -/
def State.heartbeat (s : State) (f : LivenessFacts) : State :=
  let t := s.tick
  let s := if t.run ∧ t.tickStarted ∧ t.edgeChecked then s.countWaits else s
  let s := { s with tick := { t with edgeChecked := true } }
  let limit := max 1 s.recov.hbLimit
  let count (n : Nat) : Nat :=
    match domOfNumber n with
    | none => 0
    | some (k, i) => if i ≥ k.count s ∨ s.domLive f k i then 0 else s.recov.missed.toList.getD n 0 + 1
  let missed : Vector Nat 96 := Vector.ofFn fun (n : Fin 96) => count n.val
  let s := { s with
    recov := { s.recov with missed := missed }
    cores := s.cores.map fun x => { x with startedSince := false } }
  let hung := (List.range 81).filter fun n => missed.toList.getD n 0 == limit
  if hung.contains 0 then s.hang .device 0
  else hung.foldl (fun s n => match domOfNumber n with
    | some (k, i) => s.hang k i
    | none => s) s

/-- HB_BEAT (R481, R492): a beat by Easel firmware clears the domain's count; from any other agent it is ignored. -/
def execHbBeat (dom : BitVec 7) (firmware : Bool) (s : State) : Host.Outcome State Fault Refusal :=
  .next (if firmware then
    { s with recov := { s.recov with missed := Vector.ofFn fun (n : Fin 96) =>
        if n.val = dom.toNat then 0 else s.recov.missed[n] } }
  else s)

/-- CLEAR_SUSPECTS (R486, R492). -/
def State.clearSuspects (s : State) : State :=
  { s with recov := { s.recov with suspects := Vector.replicate 16 none, suspectOvf := false } }
def execClearSuspects (s : State) : Host.Outcome State Fault Refusal := .next s.clearSuspects

end Sys2Proof.Machine
end

