-- ==== Sys2Proof/Machine/Tensor.lean ====
section
/-! DEFINITION. Tensors (R73 to R80, R99 to R117, R307, R308): descriptors and their checks at issue, element addresses
in each layout, loop orders, reading and encoding elements, outlier lists, and the precision watch. -/
namespace Sys2Proof.Machine

/-! ## Descriptors (R73 to R75) -/

/-- A tensor descriptor that has passed R75. Dimensions at or above the rank have extent and bucket 1. -/
structure Desc where
  base : Nat
  fmt : Nat
  layout : Nat
  rank : Nat
  slot : Nat
  gen : Nat
  limit : Nat
  ext : List Nat
  bkt : List Nat
  str : List Nat
  deriving DecidableEq, Repr

/-- Bytes of an element of a scalar format (R74). -/
def fmtSize : Nat → Nat
  | 1 => 4 | 2 => 2 | 3 => 1 | 4 => 1 | 8 => 4 | 9 => 5 | _ => 0

def scalarFmt : Nat → Option FFmt
  | 1 => some fp32 | 2 => some bf16 | 3 => some e4m3 | 4 => some e5m2 | 9 => some e40f | _ => none

def cellFmt : Nat → Option CellFmt
  | 5 => some .n4f | 6 => some .n4i | 7 => some .n2 | _ => none

def isCell (f : Nat) : Bool := (cellFmt f).isSome
/-- Any floating-point format other than E40 (R166). -/
def isFloat (f : Nat) : Bool := (1 ≤ f) && (f ≤ 7)

def Desc.e (d : Desc) : Nat := fmtSize d.fmt
def Desc.x (d : Desc) (i : Nat) : Nat := d.ext.getD i 1
def Desc.b (d : Desc) (i : Nat) : Nat := d.bkt.getD i 1
/-- STRIDE1 to STRIDE3. -/
def Desc.s (d : Desc) (i : Nat) : Nat := d.str.getD (i - 1) 0
def Desc.bytes (d : Desc) : Nat := 64 * d.limit
/-- NB0 of R307. -/
def Desc.nb0 (d : Desc) : Nat := ceilDiv (d.b 0 * d.e) 512
/-- Values in a cell, for a cell format. -/
def Desc.per (d : Desc) : Nat := ((cellFmt d.fmt).map CellFmt.count).getD 1
def Desc.empty (d : Desc) : Bool := d.ext.any (· == 0)

/-- FMT and EXTENT i of a descriptor of 128 bytes whatever else it holds; none where the paired words that hold them are
invalid, whose values nothing uses (R10). -/
def descFmt (t : List Byte) : Option Nat := if pairOk (w64At t 0x10) then some (pairVal (w64At t 0x10) % 256) else none
def descExt (t : List Byte) (i : Nat) : Option Nat :=
  let f := w64At t 0x10
  let w := w64At t (0x20 + 8 * i)
  if pairOk f && pairOk w then some (if i < pairVal f / 2 ^ 8 % 8 + 1 then pairVal w else 1) else none

/-- Two fields that can be read and are not the same. -/
def differ (a b : Option Nat) : Bool := a.isSome && b.isSome && a != b

/-- R75, with R104 and R308: the descriptor of 128 bytes or the status of its first failing row. -/
def parseDesc (t : List Byte) : Except Status Desc := do
  let w (o : Nat) : Word := w64At t o
  let paired := [0x00, 0x08, 0x10, 0x18, 0x20, 0x28, 0x30, 0x38]
  if paired.any fun o => !pairOk (w o) then throw .integrity
  let f := pairVal (w 0x10)
  let fmt := f % 256
  let layout := f / 2 ^ 12 % 4
  let rank := f / 2 ^ 8 % 8 + 1
  let slot := f / 2 ^ 14 % 16
  let gen := f / 2 ^ 18 % 4096
  let limit := pairVal (w 0x18)
  let ext (i : Nat) : Nat := pairVal (w (0x20 + 8 * i))
  let bkt (i : Nat) : Nat := (w (0x40 + 8 * i)).toNat
  let str (i : Nat) : Nat := (w (0x58 + 8 * i)).toNat
  let dims := List.range 4
  if !(decide (1 ≤ fmt) && decide (fmt ≤ 9) && decide (rank ≤ 4) && decide (f / 2 ^ 30 = 0) && decide (f / 2 ^ 11 % 2 = 0)
      && dims.all (fun i => decide (ext i < 2 ^ 24) && decide (bkt i < 2 ^ 24))
      && [1, 2, 3].all (fun i => decide (str i < 2 ^ 40)) && w 0x78 == 0
      && (isCell fmt == (layout == 3)) && (fmt != 9 || layout == 0)
      && (layout == 2 || (slot == 0 && gen == 0)) && limit != 0) then throw .decode
  if dims.any fun i => decide (rank ≤ i) && (ext i != 0 || bkt i != 0 || (i != 0 && str i != 0)) then throw .decode
  if dims.any fun i => decide (i < rank) && (decide (bkt i = 0) || decide (bkt i < ext i)) then throw .allocFault
  let base := pairVal (w 0x00) + 2 ^ 32 * pairVal (w 0x08)
  if base % (if layout = 0 then fmtSize fmt else 64) ≠ 0 then throw .allocFault
  let d : Desc :=
    { base := base, fmt := fmt, layout := layout, rank := rank, slot := slot, gen := gen, limit := limit,
      ext := dims.map fun i => if i < rank then ext i else 1
      bkt := dims.map fun i => if i < rank then bkt i else 1
      str := [str 1, str 2, str 3] }
  if layout = 3 ∧ (d.b 0 % d.per ≠ 0 ∨ (rank ≥ 2 ∧ (d.s 1 % 64 ≠ 0 ∨ d.s 1 < 64 * (d.b 0 / d.per)))) then throw .decode
  if layout = 1 ∧ (d.s 1 ≠ 0 ∨ (rank ≥ 3 ∧ (d.s 2 % 65536 ≠ 0 ∨ d.s 2 < 65536 * d.nb0 * ceilDiv (d.b 1) 128))) then
    throw .decode
  pure d

def liftE {α : Type} (m : Except Status α) : Eng α := match m with
  | .ok a => pure a
  | .error e => throw e

/-- The descriptor named at position i of a queued command, checked; none where the instruction names none. -/
def QCmd.desc (k : QCmd) (i : Nat) : Except Status (Option Desc) :=
  match k.descs.getD i none with
  | none => .ok none
  | some b => (parseDesc b).map some

/-- A descriptor that the command's checks at issue have accepted. -/
def QCmd.descOk (k : QCmd) (i : Nat) : Eng Desc :=
  match k.desc i with
  | .ok (some d) => pure d
  | .ok none => throw .decode
  | .error e => throw e

def QCmd.named (k : QCmd) (i : Nat) : Bool := (k.descs.getD i none).isSome

/-! ## Where tensors lie -/

/-- [addr, addr + n) lies in a window of this chip from local offset w, of given size. -/
def State.inWindow (s : State) (addr n w size : Nat) : Bool :=
  let o := addr % 2 ^ 48
  decide (addr / 2 ^ 48 = s.chip) && decide (w ≤ o) && decide (o + n ≤ w + size)
def State.inSpm (s : State) (c : CoreId) (addr n : Nat) : Bool := s.inWindow addr n (spmOf c.val) spmSize
def State.inAcc (s : State) (c : CoreId) (addr n : Nat) : Bool := s.inWindow addr n (accOf c.val) accSize
/-- The scratchpad or accumulator window of the core (R169, R236). -/
def State.inOwn (s : State) (c : CoreId) (addr n : Nat) : Bool := s.inSpm c addr n || s.inAcc c addr n
/-- Accumulator banks that a tensor of the core's accumulator window spans, or none. -/
def State.banksOf (s : State) (c : CoreId) (d : Desc) : Word :=
  if s.inAcc c d.base d.bytes then bankMask (d.base % 2 ^ 48 - accOf c.val) d.bytes else 0

/-! ## Element addresses -/

/-- Logical indices of an element, dimension 0 first. -/
structure Idx where
  d0 : Nat := 0
  d1 : Nat := 0
  d2 : Nat := 0
  d3 : Nat := 0
  deriving DecidableEq, Repr

/-- Byte offset from BASE of an element of LAYOUT 0b00 or 0b01 (R73, R307). -/
def Desc.elemOff (d : Desc) (i : Idx) : Nat :=
  let up := i.d2 * d.s 2 + i.d3 * d.s 3
  if d.layout = 1 then
    let o := i.d0 * d.e
    65536 * (i.d1 / 128 * d.nb0 + o / 512) + 64 * (128 * (o % 512 / 64) + i.d1 % 128) + o % 64 + up
  else i.d0 * d.e + i.d1 * d.s 1 + up

/-- Byte offset of the cell that holds an element of LAYOUT 0b11 (R103). -/
def Desc.cellOff (d : Desc) (i : Idx) : Nat :=
  i.d1 / 4 * d.s 1 + 64 * (i.d0 / d.per) + 16 * (i.d1 % 4) + i.d2 * d.s 2 + i.d3 * d.s 3

/-- Byte offset of the 64-byte burst of that cell. -/
def Desc.burstOff (d : Desc) (i : Idx) : Nat := d.cellOff { i with d1 := i.d1 / 4 * 4 }

/-- Bytes [o, o + n) of a tensor of this chip; beyond LIMIT, ALLOC_FAULT (R77). -/
def tRead (r : Requester) (d : Desc) (o n : Nat) : Eng (List Byte) := do
  need (decide (o + n ≤ d.bytes)) .allocFault
  memRead r (d.base % 2 ^ 48 + o) n

def tWrite (r : Requester) (d : Desc) (o : Nat) (bs : List Byte) : Eng Unit := do
  need (decide (o + bs.length ≤ d.bytes)) .allocFault
  memWrite r (d.base % 2 ^ 48 + o) bs

/-- The code of a scalar element. -/
def readCode (r : Requester) (d : Desc) (i : Idx) : Eng Nat := do
  let bs ← tRead r d (d.elemOff i) d.e
  pure (leNat bs)

def writeCode (r : Requester) (d : Desc) (i : Idx) (v : Nat) : Eng Unit := tWrite r d (d.elemOff i) (le d.e v)

/-- The cell that holds an element: the engine reads its whole burst (R103, R153). -/
def readCell (r : Requester) (d : Desc) (i : Idx) : Eng (List Byte) := do
  let burst ← tRead r d (d.burstOff i) 64
  pure (slice burst (16 * (i.d1 % 4)) 16)

/-- The value of an element with its tensor exponent (R97, R102, R161); an N2 escape is none. -/
def readVal (r : Requester) (d : Desc) (i : Idx) (texp : Int) : Eng (Option Fp) := do
  match cellFmt d.fmt with
  | some f =>
    let cell ← readCell r d i
    pure (cellVal f cell (i.d0 % d.per) texp)
  | none =>
    let v ← readCode r d i
    match scalarFmt d.fmt with
    | some f =>
      let x := f.decode v
      pure (some (if d.fmt = 3 ∨ d.fmt = 4 then x.scale texp else x))
    | none => pure (some (Fp.mk false (signed 32 v) 0))

/-- FP32 of an element (R161); an N2 escape ends the command with DECODE. -/
def readF32 (r : Requester) (d : Desc) (i : Idx) (texp : Int) : Eng F32 := do
  match ← readVal r d i texp with
  | some x => pure (toF32 x)
  | none => throw .decode

/-- Every index of the given extents, dimension 0 fastest. -/
def indices (x0 x1 x2 x3 : Nat) : List Idx :=
  (List.range x3).flatMap fun d => (List.range x2).flatMap fun c => (List.range x1).flatMap fun b =>
    (List.range x0).map fun a => ⟨a, b, c, d⟩

/-- The rows of a tensor in linear order: dimension 1 fastest (R173). -/
def Desc.rows (d : Desc) : List Idx := indices 1 (d.x 1) (d.x 2) (d.x 3)

/-- The bytes of a tensor's valid elements become undefined (R171, R159). -/
def forgetElems (d : Desc) : Eng Unit :=
  d.rows.forM fun r => (List.range (d.x 0)).forM fun k => modify fun s =>
    let i : Idx := { r with d0 := k }
    let o := if isCell d.fmt then d.cellOff i else d.elemOff i
    let n := if isCell d.fmt then 16 else d.e
    if o + n ≤ d.bytes then { s with mem := s.mem.forget (d.base % 2 ^ 48 + o) n s.free, free := s.free + 1 } else s

/-! ## Loop orders (R78) -/

/-- The loop order of a field for n indices, outermost first. -/
def loopOrder (f n : Nat) : Option (List Nat) :=
  let slots := (List.range 6).map fun i => f / 2 ^ (15 - 3 * i) % 8
  let head := slots.take n
  if f / 2 ^ 21 % 8 = 0 ∧ f / 2 ^ 18 % 8 + 1 = n ∧ (List.range n).all (fun i => head.contains i) ∧ (slots.drop n).all (· == 0)
  then some head else none

/-- Every tuple of a nest: radix of each index, and the order outermost first; an entry is the value of each index by
number. -/
def nest (radix : List Nat) : List Nat → List (List Nat)
  | [] => [radix.map fun _ => 0]
  | i :: is => (List.range (radix.getD i 0)).flatMap fun v => (nest radix is).map fun t => t.set i v

/-! ## Draws -/

/-- The program seed of a core's image (R50, R142). -/
def State.seedOf (s : State) (c : CoreId) : Word := ((s.imageOf c).map fun x => x.2.1.seed).getD 0

/-- A 16-bit stipple draw. -/
def draw16 (seed : Word) (hi lo : Nat) : Nat := (stipple seed (BitVec.ofNat 64 hi) (BitVec.ofNat 64 lo)).toNat % 65536

/-! ## The precision watch (R115 to R119) -/

/-- What a command does to its watch entry: saturations and underflows it counts (R98, R139). -/
structure Counts where
  sat : Nat := 0
  under : Nat := 0
  deriving DecidableEq, Repr

def Counts.add (a b : Counts) : Counts := ⟨a.sat + b.sat, a.under + b.under⟩

/-- IDS of a command block: the watch entry it names. -/
def watchName (ids : Word) : Option Nat := if flag ids 23 then some (field ids 21 16) else none
def idsOk (ids : Word) : Bool := decide (field ids 63 24 = 0) && !flag ids 22
def streamId (ids : Word) : Nat := field ids 15 0

/-- A field of the watch control block, or its default (R116). -/
def State.watchCtl (s : State) (c o mask lo hi dflt : Nat) : Nat :=
  let v := leNat (s.peek (spmOf c + watchOff + o) 4) % mask
  if lo ≤ v ∧ v ≤ hi then v else dflt

def State.setFlags (s : State) (c w bits : Nat) : State :=
  let o := watchEntryOff c w + 0xE
  s.poke o [s.mem.byte o ||| BitVec.ofNat 8 bits]

/-- A command that names an entry: ACTIVE, its counts and the flags they raise (R98, R119). -/
def State.watchAdd (s : State) (c : CoreId) (w : Option Nat) (n : Counts) : State :=
  match w with
  | none => s
  | some w =>
    let o := watchEntryOff c.val w
    let under := satAdd 16 (leNat (s.peek (o + 8) 2)) n.under
    let sat := satAdd 16 (leNat (s.peek (o + 0xA) 2)) n.sat
    let lim (k : Nat) : Nat := leNat (s.peek (spmOf c.val + watchOff + k) 2)
    let s := s.poke (o + 8) (le 2 under ++ le 2 sat)
    s.setFlags c.val w (16 + (if sat > lim 0xC then 4 else 0) + (if under > lim 0x10 then 8 else 0))

/-- An observation of R118. In replay and wide frames a norm that is not finite raises no flag either: R125 lets SAT and
UNDER alone flag there (DEDUCED, notes/assumptions/54.md). -/
def State.observe (s : State) (c : CoreId) (w : Nat) (grad : Bool) (n : F32) : State :=
  let o := watchEntryOff c.val w
  let ea := if grad then o + 4 else o
  let eo := if grad then o + 0xD else o + 0xC
  let nf := if grad then 2 else 1
  let a : F32 := w32At (s.peek ea 4) 0
  let obs := (s.mem.byte eo).toNat
  let band := s.watchCtl c.val 0 16 1 15 2
  let alpha := s.watchCtl c.val 4 16 1 8 4
  let warm := s.watchCtl c.val 8 256 1 255 4
  let x := ofF32 n
  let y := ofF32 a
  let outside := Fp.gt x (y.scale band) || Fp.gt (y.scale (-(band : Int))) x
  let s :=
    if ¬ x.isFinite then (if (s.core c).variant = .normal then s.setFlags c.val w nf else s)
    else if obs = 0 then s.poke ea (le 4 n.toNat)
    else if (s.core c).variant = .normal ∧ obs ≥ warm ∧ outside then s.setFlags c.val w nf
    else
      let step := toF32 ((ofF32 (f32Sub n a)).scale (-(alpha : Int)))
      s.poke ea (le 4 (f32Add a step).toNat)
  s.poke eo (le 1 (min 255 (obs + 1)))

/-! ## Encoding (R95 to R98, R105 to R108) -/

/-- A value converted to a scalar format, dividing by 2^TEXP for FP8, with what R98 counts. -/
def encodeScalar (fmt : Nat) (r : Rnd) (texp : Int) (x : Fp) : Nat × Counts :=
  let f := (scalarFmt fmt).getD fp32
  let fp8 := decide (fmt = 3) || decide (fmt = 4)
  let x := if fp8 then x.scale (-texp) else x
  let e := f.encode r x
  let sat := fp8 && (e.clamped || (x.isInf && decide (fmt = 3)))
  let under := fp8 && x.isFinite && !x.isZero && decide (e.code % 2 ^ (f.ebits + f.mbits) = 0)
  (e.code, ⟨b2n sat, b2n under⟩)

/-- A cell of source values (R105 to R108). `listed` marks the positions that the outlier list names; `r` gives the
rounding of each position; values beyond the extent are none. -/
def encodeCell (f : CellFmt) (fixed : Option Nat) (texp : Int) (r : Nat → Rnd) (listed : Nat → Bool)
    (xs : List (Option Fp)) : List Byte × Counts :=
  let n := f.count
  let val (i : Nat) : Fp := if listed i then .zero false else ((xs.getD i none).getD (.zero false)).scale (-texp)
  let vals := (List.range n).map val
  let blank (scale : Nat) : List Byte := packCell f scale ((List.range n).map fun i =>
    if listed i ∧ (xs.getD i none).isSome ∧ f = .n2 then 2 else 0)
  if vals.any fun x => !x.isFinite then (blank 0xFF, ⟨(vals.filter Fp.isInf).length, 0⟩)
  else
    let amax := vals.foldl (fun m x => Fp.max m x.abs) (.zero false)
    match amax with
    | .fin an ae =>
      let scale := fixed.getD (chooseScale f (an.natAbs, ae))
      let enc := (enumFrom 0 vals).map fun p => match p.2 with
        | .fin m e =>
          let q := cellRound f (r p.1) (m.natAbs, e) scale
          (decide (m < 0), q.1, q.2)
        | _ => (false, 0, false)
      let sat := (enc.filter fun q => q.2.2).length
      if enc.all (fun q => q.2.1 == 0) then (blank 0, ⟨sat, 1⟩)
      else
        let codes := (enumFrom 0 enc).map fun p =>
          if listed p.1 ∧ (xs.getD p.1 none).isSome then (if f = .n2 then 2 else 0) else cellCodeOf f p.2.1 p.2.2.1
        (packCell f scale codes, ⟨sat, 0⟩)
    | _ => (blank 0, {})

/-! ## Outlier lists (R110) -/

/-- Segments of a K extent. -/
def segCount (bucket0 : Nat) : Nat := ceilDiv bucket0 4096

/-- The records of a list of n segments at a local offset, 320 bytes each. -/
def State.outlierRecs (s : State) (off n : Nat) : List (List Byte) := (List.range n).map fun i => s.peek (off + 320 * i) 320
/-- COUNT of every record is a valid paired word. -/
def countsPaired (rs : List (List Byte)) : Bool := rs.all fun r => pairOk (w64At r 0)
def recCount (r : List Byte) : Nat := pairVal (w64At r 0)
def recEntry (r : List Byte) (j : Nat) : Nat := (w16At r (0x40 + 2 * j)).toNat
/-- The channel positions of a record. -/
def recPositions (r : List Byte) : List Nat := (List.range (recCount r)).map (recEntry r)

def ascending : List Nat → Bool
  | [] => true
  | [_] => true
  | a :: b :: r => decide (a < b) && ascending (b :: r)

/-- The rules of R110 beyond its paired words. -/
def recOk (r : List Byte) : Bool :=
  decide (recCount r ≤ 128) && allZero (slice r 8 56) && (List.range 128).all (fun j => decide (recEntry r j < 4096))
    && ascending (recPositions r) && (List.range 128).all (fun j => decide (j < recCount r) || recEntry r j == 0)

/-- K position k is named by the list of segments' positions. -/
def listedAt (segs : List (List Nat)) (k : Nat) : Bool := (segs.getD (k / 4096) []).contains (k % 4096)

end Sys2Proof.Machine
end

