-- ==== Sys2Proof/Machine/Burin.lean ====
section
/-! DEFINITION. Burin (R130 to R158, R558) and CONV3 (R228 to R233): checks at issue, the exact group sums and their one
rounding, tiles and accumulator slots, write-back, tile status. -/
namespace Sys2Proof.Machine

/-! ## The command block (R133) -/

structure BurinBlk where
  acc : Nat
  red : Nat
  shape : Nat
  init : Bool
  wb : Bool
  wbSr : Bool
  accBase : Nat
  tiles : Nat
  kbase : Nat
  texpD : Int
  texpB : Int
  texpA : Int
  loopP : Nat
  loopW : Nat
  pieceK : Nat
  gateBase : Nat
  gateEn : Bool
  gateCtr : Nat
  ids : Word
  outlier : Nat
  tstat : Nat
  deriving DecidableEq, Repr

def burinBlk (b : List Byte) : BurinBlk :=
  let c := pairVal (w64At b 0)
  let t := pairVal (w64At b 0x10)
  let l := w64At b 0x18
  let g := w64At b 0x20
  { acc := c / 2 ^ 26 % 4, red := c / 2 ^ 23 % 8, shape := c / 2 ^ 20 % 8, init := decide (c / 2 ^ 19 % 2 = 1),
    wb := decide (c / 2 ^ 18 % 2 = 1), wbSr := decide (c / 2 ^ 17 % 2 = 1), accBase := c / 2 ^ 10 % 64,
    tiles := c / 2 ^ 4 % 64 + 1, kbase := pairVal (w64At b 8) % 2 ^ 28, texpD := signed 7 (t / 2 ^ 14 % 128),
    texpB := signed 7 (t / 2 ^ 7 % 128), texpA := signed 7 (t % 128), loopP := field l 23 0, loopW := field l 47 24,
    pieceK := field g 47 24, gateBase := field g 23 8, gateEn := flag g 5, gateCtr := field g 4 0, ids := w64At b 0x28,
    outlier := (w64At b 0x30).toNat, tstat := (w64At b 0x38).toNat }

/-- Rsv fields of the block are zero and its codes are defined (R135 row 3). -/
def burinRsv (b : List Byte) : Bool :=
  let c := pairVal (w64At b 0)
  decide (c / 2 ^ 28 = 0) && decide (c / 2 ^ 16 % 2 = 0) && decide (c % 16 = 0) && decide (c / 2 ^ 23 % 8 < 6)
    && decide (c / 2 ^ 20 % 8 < 5) && decide (pairVal (w64At b 8) / 2 ^ 28 = 0) && decide (pairVal (w64At b 0x10) / 2 ^ 21 = 0)
    && decide (field (w64At b 0x18) 63 48 = 0) && decide (field (w64At b 0x20) 63 48 = 0) && !flag (w64At b 0x20) 7
    && idsOk (w64At b 0x28)

/-- Tile height and width (R144). -/
def tileSize : Nat → Nat × Nat
  | 0 => (128, 128) | 1 => (128, 64) | 2 => (64, 128) | 3 => (64, 64) | _ => (32, 128)

/-- Bytes of an accumulator element. -/
def BurinBlk.elem (x : BurinBlk) : Nat := if x.acc = 2 then 5 else 4
/-- Banks that a tile needs (R144). -/
def BurinBlk.bankNeed (x : BurinBlk) : Nat :=
  let (m, n) := tileSize x.shape
  ceilDiv (m * n * x.elem) 16384
def BurinBlk.slotBanks (x : BurinBlk) : Word :=
  (List.range (x.tiles * x.bankNeed)).foldl (fun w i => w ||| (1#64 <<< (x.accBase + i))) 0

/-- Operand pairs (R130): the K group of the pair, or none. -/
def pairGroup (a b : Nat) : Option Nat :=
  if a = 2 ∧ b = 2 then some 32
  else if (a = 3 ∨ a = 4) ∧ (b = 3 ∨ b = 4) then some 32
  else if (a = 5 ∨ a = 6) ∧ (b = 5 ∨ b = 6) then some 30
  else if (a = 5 ∨ a = 6) ∧ b = 7 then some 60
  else if a = 8 ∧ b = 8 then some 32
  else none

def operandLayout (d : Desc) : Bool := if isCell d.fmt then d.layout == 3 else d.layout == 0 || d.layout == 1

/-- A descriptor that no command but a stream command may name with LAYOUT Etch (R328). -/
def noEtch (d : Option Desc) : Bool := match d with
  | none => true
  | some d => d.layout != 2

/-- The table "Modes and accumulators". `df` is D's format when the command writes back. -/
def modeOk (x : BurinBlk) (a b : Nat) (df : Option Nat) : Bool :=
  let dIn (l : List Nat) : Bool := match df with
    | none => true
    | some f => l.contains f
  if x.red = 0 then
    if x.acc = 3 then
      decide (a = 6) && (decide (b = 6) || decide (b = 7)) && dIn [8, 1] && x.texpA == 0 && x.texpB == 0 && x.outlier == 0
    else a != 8 && dIn [1, 2, 3, 4]
  else a == 8 && x.acc == 3 && dIn [8] && x.texpA == 0 && x.texpB == 0 && x.texpD == 0 && x.outlier == 0

/-! ## Groups and sums (R136 to R140) -/

/-- A K group: its K positions, the draw's kpos, and the segment when it is a side group (R149). -/
structure KGroup where
  ks : List Nat
  kpos : Nat
  side : Option Nat := none

/-- n positions from `a`, cut every `g` positions. -/
def cutEvery (g : Nat) : Nat → Nat → Nat → List (List Nat)
  | 0, _, _ => []
  | fuel + 1, a, n => if n = 0 then [] else
    let k := min g n
    ((List.range k).map (· + a)) :: cutEvery g fuel (a + k) (n - k)

/-- Cuts a group at multiples of 4,096 (R136). -/
def cutSegments (ks : List Nat) : List (List Nat) :=
  let lo := ks.headD 0 / 4096
  let a := ks.filter fun k => k / 4096 == lo
  let b := ks.filter fun k => k / 4096 != lo
  if b.isEmpty then [a] else [a, b]

/-- Groups of K valid positions with group size g; `segs`: side positions of each segment when a list is named. -/
def mmGroups (kbase k g : Nat) (segs : Option (List (List Nat))) : List KGroup :=
  let main := cutEvery g (k + 1) 0 k
  match segs with
  | none => main.map fun ks => { ks := ks, kpos := kbase + ks.headD 0 }
  | some segs =>
    let parts := main.flatMap cutSegments
    (enumFrom 0 segs).flatMap fun s =>
      ((parts.filter fun ks => ks.headD 0 / 4096 == s.1).map fun ks => ({ ks := ks, kpos := kbase + ks.headD 0 } : KGroup))
      ++ (if s.2.isEmpty ∨ 4096 * s.1 ≥ k then []
          else [{ ks := List.range s.2.length, kpos := kbase + 4096 * s.1, side := some s.1 }])

/-- A running accumulator element and what has befallen it (R139, R140). -/
structure Elem where
  code : Nat
  sat : Bool := false
  inf : Bool := false
  nan : Bool := false
  deriving DecidableEq, Repr

/-- Adds a group's exact sum to the running sum and rounds once (R136, R137, R139, R140). -/
def Elem.addGroup (f : FFmt) (r : Rnd) (x : Elem) (g : Fp) : Elem :=
  let run := f.decode x.code
  match run.add g with
  | .nan => { x with code := f.nanCode, nan := x.nan || g.isNan || !run.isNan }
  | .inf b => { x with code := f.signBit b + f.infCode.getD 0, inf := x.inf || g.isInf || !run.isInf }
  | v =>
    let e := f.encode r v
    if e.clamped then { x with code := f.signBit v.isNeg + f.maxCode, sat := true } else { x with code := e.code }

/-- The identity of a reduction (R133, R151). -/
def identityCode : Nat → Nat
  | 1 => 0xFFFFFFFF | 4 => 1 | _ => 0

/-- One product of a bitwise or logical mode into the running value (R151). -/
def bitStep (red : Nat) (run a b : Word32) : Word32 :=
  let l := a != 0 && b != 0
  match red with
  | 1 => run &&& (a &&& b)
  | 2 => run ||| (a &&& b)
  | 3 => run ^^^ (a &&& b)
  | 4 => if run != 0 && l then 1 else 0
  | _ => if run != 0 || l then 1 else 0

/-- What a Burin command computes: its block, dimensions, K pieces (one when it is not gated), groups and operand values.
Operand values are none where nothing is read (R152, R229). -/
structure Gemm where
  c : CoreId
  blk : BurinBlk
  seed : Word
  batches : Nat
  m : Nat
  n : Nat
  bt : Nat
  mt : Nat
  nt : Nat
  order : List Nat
  inner : List Nat
  pieceK : Nat
  pieces : Nat
  groups : List KGroup
  valA : Nat → Nat → Nat → Eng (Option Fp)
  valB : Nat → Nat → Nat → Eng (Option Fp)
  sideA : Nat → Nat → Nat → Eng Fp
  sideB : Nat → Nat → Nat → Eng Fp
  d : Option Desc
  dIdx : Nat → Nat → Nat → Idx

/-- hi of Burin's draws (R142). -/
def drawHi (b i j : Nat) : Nat := i + place j 24 + place (b % 65536) 48

def Gemm.rnd (g : Gemm) (stoch : Bool) (b i j kpos side wb : Nat) : Rnd :=
  if stoch then .stoch (draw16 g.seed (drawHi b i j) (kpos + place (streamId g.blk.ids) 28 + place side 44 + place wb 45))
  else .near

/-- The exact sum of a group's products for one element; none when no product is formed. -/
def Gemm.groupSum (g : Gemm) (b i j : Nat) (kg : KGroup) : Eng (Option Fp) := do
  let terms ← kg.ks.mapM fun k => do
    match kg.side with
    | some s =>
      let x ← g.sideA s i k
      let y ← g.sideB s j k
      pure (some (x.mul y))
    | none =>
      let x ← g.valA b i k
      let y ← g.valB b j k
      match x, y with
      | some x, some y => pure (some (x.mul y))
      | _, _ => pure none
  let ps : List Fp := terms.filterMap id
  pure (match ps with
    | [] => none
    | p :: rest => some (rest.foldl Fp.add p))

def i32Of (x : Option Fp) : Word32 := BitVec.ofInt 32 ((x.getD (.zero false)).trunc)

/-- The piece of each group: that of its last K position; a side group goes with the main group before it (R112, R155). -/
def groupPieces (pieceK : Nat) (gs : List KGroup) : List (Nat × KGroup) :=
  (gs.foldl (fun (a : Nat × List (Nat × KGroup)) kg =>
    let p := if kg.side.isSome ∨ pieceK = 0 then a.1 else (kg.ks.getLast?.getD 0) / pieceK
    (p, (p, kg) :: a.2)) (0, [])).2.reverse

/-- The groups of piece p. -/
def Gemm.piece (g : Gemm) (p : Nat) : List KGroup :=
  ((groupPieces (if g.pieces ≤ 1 then 0 else g.pieceK) g.groups).filter fun e => e.1 == p).map (·.2)

/-- One output element over a list of groups, from a running value. -/
def Gemm.element (g : Gemm) (groups : List KGroup) (b i j start : Nat) : Eng Elem := do
  let x := g.blk
  if x.acc = 3 then
    if x.red = 0 then
      let v ← groups.foldlM (fun (v : Word32) kg => do
        let t ← g.groupSum b i j kg
        pure (satI32 (v.toInt + (t.getD (.zero false)).trunc))) (BitVec.ofNat 32 start)
      pure ⟨v.toNat, false, false, false⟩
    else
      let v ← groups.foldlM (fun (v : Word32) kg => kg.ks.foldlM (fun (v : Word32) k => do
        let p ← g.valA b i k
        let q ← g.valB b j k
        match p, q with
        | some _, some _ => pure (bitStep x.red v (i32Of p) (i32Of q))
        | _, _ => pure v) v) (BitVec.ofNat 32 start)
      pure ⟨v.toNat, false, false, false⟩
  else
    let f := if x.acc = 2 then e40f else fp32
    groups.foldlM (fun (e : Elem) kg => do
      match ← g.groupSum b i j kg with
      | none => pure e
      | some t =>
        let t := if kg.side.isSome then t else t.scale (x.texpA + x.texpB)
        pure (e.addGroup f (g.rnd (x.acc == 1) b i j kg.kpos (b2n kg.side.isSome) 0) t)) ⟨start, false, false, false⟩

/-- The slot of an output tile (R146). -/
def Gemm.slot (g : Gemm) (t : List Nat) : Nat :=
  let radix := [g.bt, g.mt, g.nt]
  if g.blk.init ∨ ¬ g.blk.wb then (t.getD 0 0 * g.mt + t.getD 1 0) * g.nt + t.getD 2 0
  else if g.blk.gateEn then g.inner.foldl (fun a i => a * radix.getD i 1 + t.getD i 0) 0
  else 0

/-- Local offset of element (i, j) of a slot (R145, R146). -/
def Gemm.slotOff (g : Gemm) (slot i j : Nat) : Nat :=
  accOf g.c.val + (g.blk.accBase + slot * g.blk.bankNeed) * 16384 + g.blk.elem * (i * (tileSize g.blk.shape).2 + j)

/-- The code written to D for an accumulator code (R141). -/
def Gemm.convert (g : Gemm) (d : Desc) (b i j code : Nat) : Nat × Counts :=
  let x := g.blk
  if x.acc = 3 then
    if d.fmt = 8 then (code, {}) else ((f32OfInt (signed 32 code)).toNat, {})
  else
    let f := if x.acc = 2 then e40f else fp32
    encodeScalar d.fmt (g.rnd x.wbSr b i j 0 0 1) x.texpD (f.decode code)

/-- The number of an output tile (R146, R157). -/
def Gemm.tileNo (g : Gemm) (t : List Nat) : Nat := (t.getD 0 0 * g.mt + t.getD 1 0) * g.nt + t.getD 2 0

/-- The elements of a tile, by row and column within it. -/
def Gemm.cells (g : Gemm) : List (Nat × Nat) :=
  let (th, tw) := tileSize g.blk.shape
  (List.range th).flatMap fun i => (List.range tw).map fun j => (i, j)

/-- The bits of a mask that are 1. -/
def popCount (m : Nat) : Nat := if m = 0 then 0 else (List.range 16384).foldl (fun n i => n + m / 2 ^ i % 2) 0

/-- A finished tile: write-back (R141, R152), then its status word (R157). -/
def Gemm.finishTile (g : Gemm) (t : List Nat) (run : TileRun) : Eng Unit := do
  let x := g.blk
  let (th, tw) := tileSize x.shape
  let b := t.getD 0 0
  let i0 := t.getD 1 0 * th
  let j0 := t.getD 2 0 * tw
  match g.d with
  | none => pure ()
  | some d => if ¬ x.wb then pure () else
    g.cells.forM fun p => do
      let i := i0 + p.1
      let j := j0 + p.2
      let ix := g.dIdx b i j
      if i < g.m ∧ j < g.n ∧ ix.d0 < d.x 0 ∧ ix.d1 < d.x 1 ∧ ix.d2 < d.x 2 ∧ ix.d3 < d.x 3 then
        let s ← get
        let (v, n) := g.convert d b i j (leNat (s.peek (g.slotOff run.slot p.1 p.2) x.elem))
        writeCode (.engine g.c.val) d ix v
        if n ≠ {} then modify fun s => s.watchAdd g.c (watchName x.ids) n
  if x.tstat ≠ 0 then
    let ragged := decide (i0 + th > g.m) || decide (j0 + tw > g.n)
    let w := place (min 65535 (popCount run.sat)) 32 + place (b2n ragged) 3 + place (b2n run.inf) 2 + place (b2n run.nan) 1
      + b2n (run.sat != 0)
    memWrite (.engine g.c.val) (x.tstat % 2 ^ 48 + 8 * g.tileNo t) (le 8 w)
  modify fun s => s.modCore g.c fun y => { y with satTiles := satAdd 16 y.satTiles (b2n (run.sat != 0)) }

/-- One element's part of a tile pass: its running value goes on over the groups in its slot. An element that saturates is
counted once (R139). -/
def Gemm.passElem (g : Gemm) (k : QCmd) (groups : List KGroup) (t : List Nat) (run : TileRun) (p : Nat × Nat) :
    Eng TileRun := do
  let x := g.blk
  let (th, tw) := tileSize x.shape
  let i := t.getD 1 0 * th + p.1
  let j := t.getD 2 0 * tw + p.2
  let o := g.slotOff run.slot p.1 p.2
  let s ← get
  let start := if t.getD 3 0 ≠ 0 then leNat (s.peek o x.elem)
    else if x.init then leNat (slice k.snap (o - accOf g.c.val - x.accBase * 16384) x.elem) else identityCode x.red
  let e ← if i < g.m ∧ j < g.n then g.element groups (t.getD 0 0) i j start else pure ⟨start, false, false, false⟩
  let bit := p.1 * tw + p.2
  let fresh := e.sat && run.sat / 2 ^ bit % 2 == 0
  modify fun s => s.poke o (le x.elem e.code)
  if fresh then modify fun s => s.watchAdd g.c (watchName x.ids) ⟨1, 0⟩
  pure { run with sat := if fresh then run.sat + 2 ^ bit else run.sat, inf := run.inf || e.inf, nan := run.nan || e.nan }

/-- One tile pass (R156): an output tile's work over one K piece; the last one finishes the tile. The command in its queue
shows the tile as open from the start of its first pass. -/
def Gemm.pass (g : Gemm) (k : QCmd) (t : List Nat) : Eng QCmd := do
  let no := g.tileNo t
  let run := (k.tiles.find? fun r => r.tile == no).getD { tile := no, slot := g.slot t }
  let others := k.tiles.filter fun r => r.tile != no
  modify fun s => s.putCmd g.c { k with tiles := run :: others }
  let run ← g.cells.foldlM (g.passElem k (g.piece (t.getD 3 0)) t) run
  modify fun s => s.modCore g.c fun y => { y with passes := satAdd 32 y.passes 1 }
  let k ← if t.getD 3 0 + 1 < g.pieces then pure { k with tiles := run :: others, pieces := k.pieces + 1 }
    else do
      g.finishTile t run
      pure { k with tiles := others, pieces := k.pieces + 1 }
  modify fun s => s.putCmd g.c k
  pure k

/-- The passes of the command: the tiles within the valid extents and the K pieces, in LOOP.P order (R79, R80). -/
def Gemm.passes (g : Gemm) : List (List Nat) :=
  let (th, tw) := tileSize g.blk.shape
  nest [g.batches, ceilDiv g.m th, ceilDiv g.n tw, max 1 g.pieces] g.order

/-- Passes in order, as far as their pieces are released (R88, R155). -/
def Gemm.passOn (g : Gemm) (released : Nat) : List (List Nat) → QCmd → Eng QCmd
  | [], k => pure k
  | t :: ts, k => if t.getD 3 0 < released then do
      let k ← g.pass k t
      g.passOn released ts k
    else pure k

/-- What a command can do now, and whether that is all of it. -/
def Gemm.run (g : Gemm) (k : QCmd) : Eng (QCmd × Bool) := do
  modify fun s => s.watchAdd g.c (watchName g.blk.ids) {}
  let s ← get
  let released := if g.blk.gateEn && g.pieces != 0 then (s.core g.c).released k else 1
  let k ← g.passOn released (g.passes.drop k.pieces) k
  pure (k, decide (g.passes.length ≤ k.pieces))

/-- At its start a command with INIT takes the values present in its slots (R159). -/
def startBurin (c : CoreId) (k : QCmd) : Eng QCmd := do
  let s ← get
  let x := burinBlk k.block
  pure (if x.init then { k with snap := s.peek (accOf c.val + x.accBase * 16384) (x.tiles * x.bankNeed * 16384) } else k)

/-- The banks of the slots that hold open tiles. -/
def openBanks (k : QCmd) : Word :=
  let x := burinBlk k.block
  k.tiles.foldl (fun (w : Word) r =>
    (List.range x.bankNeed).foldl (fun w i => w ||| (1#64 <<< (x.accBase + r.slot * x.bankNeed + i))) w) 0

/-- Accumulator banks whose contents are undefined from now on (R159; notes/assumptions/25.md). -/
def forgetBanks (c : CoreId) (w : Word) (s : State) : State :=
  (List.range 64).foldl (fun t i => if flag w i then
    { t with mem := t.mem.forget (accOf c.val + i * 16384) 16384 t.free, free := t.free + 1 } else t) s

/-! ## BURIN.MM at issue (R135) -/

/-- Segments' positions of the outlier list of a command. -/
def segLists (s : State) (addr n : Nat) : List (List Nat) := (s.outlierRecs (addr % 2 ^ 48) n).map recPositions

/-- R148 for each segment of a product with K valid positions. -/
def outlierFits (k : Nat) (segs : List (List Nat)) : Bool :=
  (enumFrom 0 segs).all fun s =>
    let l := min 4096 (k - 4096 * s.1)
    decide (s.2.length ≤ l / 32) && s.2.all fun p => decide (p < l)

/-- The bank rules of R144 to R146 and the overlap rule of R558. -/
def bankRules (x : BurinBlk) (open_ whole : Nat) (dBanks : Word) : Bool :=
  decide (x.accBase + x.tiles * x.bankNeed ≤ 64) && decide (open_ ≤ x.tiles)
    && (!(x.init || !x.wb) || decide (whole ≤ x.tiles)) && (dBanks &&& x.slotBanks) == 0

def posAfter (l : List Nat) (x : Nat) : List Nat := (l.dropWhile (· != x)).drop 1

/-- Open tiles: the bucket counts of the output indices inside the K-piece loop. -/
def openTiles (x : BurinBlk) (order radix : List Nat) (kIndex : Nat) : Nat :=
  if x.gateEn then (posAfter order kIndex).foldl (fun a i => a * radix.getD i 1) 1 else 1

/-- D in the core's own windows (R558). -/
def State.burinD (s : State) (c : CoreId) (d : Desc) : Bool :=
  s.inSpm c d.base d.bytes || (s.inAcc c d.base d.bytes && (d.fmt == 1 || d.fmt == 8))

def descIf (k : QCmd) (i : Nat) (want : Bool) : Eng (Option Desc) :=
  if want then liftE (k.desc i) else pure none

/-- Row 10's part common to both commands: TSTAT in the scratchpad window. -/
def tstatIn (s : State) (c : CoreId) (x : BurinBlk) (tiles : Nat) : Bool :=
  x.tstat == 0 || s.inSpm c x.tstat (8 * tiles)

def checkBurinMm (c : CoreId) (k : QCmd) : Eng QCmd := do
  let s ← get
  let x := burinBlk k.block
  let side := decide (x.outlier ≠ 0)
  let da ← descIf k 0 true
  let db ← descIf k 1 true
  let dd ← descIf k 2 x.wb
  let dsa ← descIf k 3 side
  let dsb ← descIf k 4 side
  need ([0, 8, 0x10].all fun o => pairOk (w64At k.block o)) .integrity
  let nseg := segCount ((da.map fun a => a.b 0).getD 1)
  let listIn := s.inSpm c x.outlier (320 * nseg)
  let recs := if side ∧ listIn then s.outlierRecs (x.outlier % 2 ^ 48) nseg else []
  need (countsPaired recs) .integrity
  let np := if x.gateEn then 4 else 3
  need (burinRsv k.block && (loopOrder x.loopP np).isSome && (loopOrder x.loopW 3).isSome && da.isSome && db.isSome
    && (!x.wb || dd.isSome) && (!side || (dsa.isSome && dsb.isSome))) .decode
  match da, db with
  | some a, some b =>
    let g ← match pairGroup a.fmt b.fmt with
      | some g => pure g
      | none => throw .decode
    need (operandLayout a && operandLayout b && noEtch dd && noEtch dsa && noEtch dsb) .decode
    need (modeOk x a.fmt b.fmt (dd.map (·.fmt))) .decode
    need (!side || (isCell a.fmt && isCell b.fmt)) .decode
    need (recs.all recOk && outlierFits (a.x 0) (recs.map recPositions)) .decode
    need (decide (a.x 0 = b.x 0) && (match dd with
      | none => true
      | some d => decide (d.x 0 = b.x 1) && decide (d.x 1 = a.x 1) && (d.x 2 == 1 || d.x 2 == a.x 2))
      && (b.x 2 == 1 || b.x 2 == a.x 2)) .decode
    need (decide (x.kbase + a.x 0 ≤ 2 ^ 28)) .decode
    need (!x.gateEn || (x.pieceK != 0 && x.pieceK % g == 0)) .decode
    let (th, tw) := tileSize x.shape
    let radix := [a.b 2, ceilDiv (a.b 1) th, ceilDiv (b.b 1) tw]
    let whole := radix.foldl (· * ·) 1
    let inW (d : Option Desc) : Bool := match d with
      | none => true
      | some d => s.inSpm c d.base d.bytes
    need (inW da && inW db && inW dsa && inW dsb && (!side || listIn) && tstatIn s c x whole && (match dd with
      | none => true
      | some d => s.burinD c d)) .allocFault
    let dBanks := (dd.map (s.banksOf c)).getD 0
    let order := (loopOrder x.loopP np).getD []
    need (bankRules x (openTiles x order radix 3) whole dBanks) .allocFault
    pure { k with
      banks := x.slotBanks ||| dBanks
      gate := if x.gateEn then some (x.gateCtr, x.gateBase, ceilDiv (a.x 0) x.pieceK) else none }
  | _, _ => throw .decode

/-- The value of an operand at row i, K position k of batch b. In INT32 SUM every cell must carry scale code 0x78 or 0x00
(R150); an escape is zero at a listed position and ends the command with DECODE elsewhere (R114). -/
def operandVal (r : Requester) (d : Desc) (int : Bool) (segs : List (List Nat)) (b i k : Nat) : Eng (Option Fp) := do
  let ix : Idx := ⟨k, i, if d.x 2 = 1 then 0 else b, 0⟩
  if isCell d.fmt && int then
    let cell ← readCell r d ix
    let sc := (byteAt cell 0).toNat
    need (decide (sc = 0x78) || decide (sc = 0)) .decode
  match ← readVal r d ix 0 with
  | some v => pure (some v)
  | none => if listedAt segs k then pure (some (.zero false)) else throw .decode

/-- A side value (R111). -/
def sideVal (r : Requester) (d : Option Desc) (nseg seg row slot : Nat) : Eng Fp := do
  match d with
  | none => throw .decode
  | some d =>
    let bs ← tRead r d (2 * (row * 128 * nseg + 128 * seg + slot)) 2
    pure (bf16.decode (leNat bs))

/-- BURIN.MM runs as far as its gate lets it. -/
def runBurinMm (c : CoreId) (k : QCmd) : Eng (QCmd × Bool) := do
  let s ← get
  let x := burinBlk k.block
  let side := decide (x.outlier ≠ 0)
  let a ← k.descOk 0
  let b ← k.descOk 1
  let dd ← descIf k 2 x.wb
  let dsa ← descIf k 3 side
  let dsb ← descIf k 4 side
  let nseg := segCount (a.b 0)
  let segs := if side then segLists s x.outlier nseg else []
  let (th, tw) := tileSize x.shape
  let order := (loopOrder x.loopP (if x.gateEn then 4 else 3)).getD []
  let r : Requester := .engine c.val
  let g : Gemm :=
    { c := c, blk := x, seed := s.seedOf c, batches := a.x 2, m := a.x 1, n := b.x 1, bt := a.b 2,
      mt := ceilDiv (a.b 1) th, nt := ceilDiv (b.b 1) tw, order := if x.gateEn then order else order ++ [3], inner := posAfter order 3, pieceK := x.pieceK,
      pieces := if x.gateEn then ceilDiv (a.x 0) x.pieceK else 1,
      groups := mmGroups x.kbase (a.x 0) ((pairGroup a.fmt b.fmt).getD 32) (if side then some segs else none),
      valA := operandVal r a (x.acc == 3) segs, valB := operandVal r b (x.acc == 3) segs,
      sideA := sideVal r dsa nseg, sideB := sideVal r dsb nseg, d := dd, dIdx := fun b i j => ⟨j, i, b, 0⟩ }
  g.run k

/-! ## Windows (R228, R229) -/

/-- KERNEL and PAD along one axis. -/
structure Axis where
  k : Nat
  s : Nat
  e : Nat
  p0 : Nat
  p1 : Nat
  deriving DecidableEq, Repr

/-- Axes T, H, W of the words KERNEL and PAD. -/
def windowAxes (kernel pad : Nat) : Axis × Axis × Axis :=
  (⟨kernel / 2 ^ 24 % 8 + 1, kernel / 2 ^ 12 % 4 + 1, kernel / 2 ^ 4 % 4 + 1, pad / 2 ^ 27 % 8, pad / 2 ^ 24 % 8⟩,
   ⟨kernel / 2 ^ 20 % 8 + 1, kernel / 2 ^ 10 % 4 + 1, kernel / 2 ^ 2 % 4 + 1, pad / 2 ^ 21 % 8, pad / 2 ^ 18 % 8⟩,
   ⟨kernel / 2 ^ 16 % 8 + 1, kernel / 2 ^ 8 % 4 + 1, kernel % 4 + 1, pad / 2 ^ 15 % 8, pad / 2 ^ 12 % 8⟩)

def axisOk (a : Axis) : Bool := decide (a.k ≤ 7) && decide (a.e ≤ 3) && decide (a.p0 ≤ 6) && decide (a.p1 ≤ 6)

/-- Rsv fields zero and no reserved code (R228). -/
def windowOk (kernel pad : Nat) : Bool :=
  let (t, h, w) := windowAxes kernel pad
  decide (kernel / 2 ^ 27 = 0) && decide (kernel / 2 ^ 23 % 2 = 0) && decide (kernel / 2 ^ 19 % 2 = 0)
    && decide (kernel / 2 ^ 14 % 4 = 0) && decide (kernel / 2 ^ 6 % 4 = 0) && decide (pad / 2 ^ 30 = 0)
    && decide (pad % 2 ^ 12 = 0) && axisOk t && axisOk h && axisOk w

/-- Output extent of an axis (R229); 0 where it would be below 1. -/
def Axis.out (a : Axis) (i : Nat) : Nat :=
  let v : Int := (i : Int) + a.p0 + a.p1 - a.e * (a.k - 1 : Nat) - 1
  if v < 0 then 0 else (v / a.s).toNat + 1

/-- Input position of tap t of output o, when it is read. -/
def Axis.tap (a : Axis) (i o t : Nat) : Option Nat :=
  let v : Int := (o : Int) * a.s - a.p0 + t * a.e
  if 0 ≤ v ∧ v < i then some v.toNat else none

/-! ## CONV3 (R230 to R233) -/

/-- Output extents W', H', T' for input extents. -/
def convOut (ax : Axis × Axis × Axis) (w h t : Nat) : Nat × Nat × Nat := (ax.2.2.out w, ax.2.1.out h, ax.1.out t)

def convAxes (b : List Byte) : Axis × Axis × Axis := windowAxes (pairVal (w64At b 0x40)) (pairVal (w64At b 0x48))

/-- LOOP fields of CONV3 name 0 M tile, 1 N tile, 2 K piece; as the output indices of Gemm: 1, 2, 3. -/
def convOrder (f n : Nat) : Option (List Nat) := (loopOrder f n).map fun l => l.map (· + 1)

def checkConv3 (c : CoreId) (k : QCmd) : Eng QCmd := do
  let s ← get
  let x := burinBlk k.block
  let da ← descIf k 0 true
  let db ← descIf k 1 true
  let dd ← descIf k 2 x.wb
  need ([0, 8, 0x10, 0x40, 0x48].all fun o => pairOk (w64At k.block o)) .integrity
  let nseg := segCount ((da.map fun a => a.b 0).getD 1)
  need (x.outlier == 0 || !s.inSpm c x.outlier (320 * nseg)
    || countsPaired (s.outlierRecs (x.outlier % 2 ^ 48) nseg)) .integrity
  let np := if x.gateEn then 3 else 2
  need (burinRsv k.block && allZero (slice k.block 0x50 16)
    && windowOk (pairVal (w64At k.block 0x40)) (pairVal (w64At k.block 0x48))
    && (convOrder x.loopP np).isSome && (convOrder x.loopW 2).isSome && da.isSome && db.isSome
    && (!x.wb || dd.isSome)) .decode
  match da, db with
  | some a, some b =>
    let g ← match pairGroup a.fmt b.fmt with
      | some g => pure g
      | none => throw .decode
    need (g == 32 && a.fmt != 8 && operandLayout a && operandLayout b && noEtch dd) .decode
    need (x.red == 0 && x.acc != 3 && modeOk x a.fmt b.fmt (dd.map (·.fmt)) && x.outlier == 0) .decode
    let ax := convAxes k.block
    let taps := ax.1.k * ax.2.1.k * ax.2.2.k
    let (w, h, t) := convOut ax (a.x 1) (a.x 2) (a.x 3)
    need (b.x 0 == taps * a.x 0 && b.x 2 == 1 && b.x 3 == 1 && w != 0 && h != 0 && t != 0 && (match dd with
      | none => true
      | some d => d.x 0 == b.x 1 && d.x 1 == w && d.x 2 == h && d.x 3 == t)) .decode
    need (decide (x.kbase + b.x 0 ≤ 2 ^ 28)) .decode
    need (!x.gateEn || (x.pieceK != 0 && x.pieceK % g == 0)) .decode
    let (th, tw) := tileSize x.shape
    let (wb, hb, tb) := convOut ax (a.b 1) (a.b 2) (a.b 3)
    let radix := [1, ceilDiv (wb * hb * tb) th, ceilDiv (b.b 1) tw]
    let whole := radix.foldl (· * ·) 1
    need (s.inSpm c a.base a.bytes && s.inSpm c b.base b.bytes && tstatIn s c x whole && (match dd with
      | none => true
      | some d => s.burinD c d)) .allocFault
    let dBanks := (dd.map (s.banksOf c)).getD 0
    let order := (convOrder x.loopP np).getD []
    need (bankRules x (openTiles x order radix 3) whole dBanks) .allocFault
    pure { k with
      banks := x.slotBanks ||| dBanks
      gate := if x.gateEn then some (x.gateCtr, x.gateBase, ceilDiv (b.x 0) x.pieceK) else none }
  | _, _ => throw .decode

/-- Groups of CONV3: cut at every tap and every G positions (R232). -/
def convGroups (kbase taps cin g : Nat) : List KGroup :=
  (List.range taps).flatMap fun t => (cutEvery g (cin + 1) (t * cin) cin).map fun ks => { ks := ks, kpos := kbase + ks.headD 0 }

/-- X at output row m, K position k (R229, R231, R232). -/
def convVal (r : Requester) (a : Desc) (ax : Axis × Axis × Axis) (w h : Nat) (_ m k : Nat) : Eng (Option Fp) := do
  let cin := a.x 0
  let tap := k / cin
  let pw := ax.2.2.tap (a.x 1) (m % w) (tap % ax.2.2.k)
  let ph := ax.2.1.tap (a.x 2) (m / w % h) (tap / ax.2.2.k % ax.2.1.k)
  let pt := ax.1.tap (a.x 3) (m / w / h) (tap / ax.2.2.k / ax.2.1.k)
  match pw, ph, pt with
  | some i, some j, some l => readVal r a ⟨k % cin, i, j, l⟩ 0
  | _, _, _ => pure none

/-- CONV3 runs as far as its gate lets it. -/
def runConv3 (c : CoreId) (k : QCmd) : Eng (QCmd × Bool) := do
  let s ← get
  let x := burinBlk k.block
  let a ← k.descOk 0
  let b ← k.descOk 1
  let dd ← descIf k 2 x.wb
  let ax := convAxes k.block
  let taps := ax.1.k * ax.2.1.k * ax.2.2.k
  let (w, h, t) := convOut ax (a.x 1) (a.x 2) (a.x 3)
  let (wb, hb, tb) := convOut ax (a.b 1) (a.b 2) (a.b 3)
  let (th, tw) := tileSize x.shape
  let order := (convOrder x.loopP (if x.gateEn then 3 else 2)).getD []
  let r : Requester := .engine c.val
  let zero (_ _ _ : Nat) : Eng Fp := pure (.zero false)
  let g : Gemm :=
    { c := c, blk := x, seed := s.seedOf c, batches := 1, m := w * h * t, n := b.x 1, bt := 1,
      mt := ceilDiv (wb * hb * tb) th, nt := ceilDiv (b.b 1) tw, order := 0 :: (if x.gateEn then order else order ++ [3]), inner := posAfter order 3,
      pieceK := x.pieceK, pieces := if x.gateEn then ceilDiv (b.x 0) x.pieceK else 1,
      groups := convGroups x.kbase taps (a.x 0) 32, valA := convVal r a ax w h,
      valB := fun _ j k => readVal r b ⟨k, j, 0, 0⟩ 0, sideA := zero, sideB := zero, d := dd,
      dIdx := fun _ i j => ⟨j, i % w, i / w % h, i / w / h⟩ }
  g.run k

end Sys2Proof.Machine
end

