-- ==== Sys2Proof/Machine/Hatch.lean ====
section
/-! DEFINITION. Hatch and Contour (R160 to R187): HATCH.RUN's checks at issue, elementwise operations, the one reduction
order, normalisation statistics, norm observations, scale fits, softmax row statistics and micro-programs. -/
namespace Sys2Proof.Machine

/-! ## The command block (R165) -/

structure HatchBlk where
  op : Nat
  rmode : Nat
  bf16l : Bool
  v8c : Bool
  slot : Nat
  fixed : Bool
  fixedScale : Nat
  kind : Nat
  texpD : Int
  texpY : Int
  texpX : Int
  param : Nat
  loopP : Nat
  piece : Nat
  gateBase : Nat
  gateEn : Bool
  gateCtr : Nat
  ids : Word
  outlier : Nat
  aux : Nat
  deriving DecidableEq, Repr

def hatchBlk (b : List Byte) : HatchBlk :=
  let c := pairVal (w64At b 0)
  let t := pairVal (w64At b 8)
  let g := w64At b 0x20
  { op := c / 2 ^ 24, rmode := c / 2 ^ 22 % 4, bf16l := decide (c / 2 ^ 21 % 2 = 1), v8c := decide (c / 2 ^ 20 % 2 = 1),
    slot := c / 2 ^ 15 % 32, fixed := decide (c / 2 ^ 14 % 2 = 1), fixedScale := c / 2 ^ 6 % 256, kind := c / 2 ^ 4 % 4,
    texpD := signed 7 (t / 2 ^ 14 % 128), texpY := signed 7 (t / 2 ^ 7 % 128), texpX := signed 7 (t % 128),
    param := pairVal (w64At b 0x10), loopP := field (w64At b 0x18) 23 0, piece := field g 47 24, gateBase := field g 23 8,
    gateEn := flag g 5, gateCtr := field g 4 0, ids := w64At b 0x28, outlier := (w64At b 0x30).toNat,
    aux := (w64At b 0x38).toNat }

/-- The OP codes of R166. -/
def hatchOps : List Nat :=
  [1, 2, 3, 4, 5, 6, 7, 8, 9, 0xA, 0xB, 0xC, 0x10, 0x11, 0x12, 0x13, 0x20, 0x21, 0x22, 0x23, 0x24, 0x28, 0x29, 0x2A, 0x2B,
   0x2C]

/-- Rsv fields zero, defined codes (R169 row 3). -/
def hatchRsv (b : List Byte) (x : HatchBlk) : Bool :=
  decide (pairVal (w64At b 0) % 16 = 0) && decide (pairVal (w64At b 8) / 2 ^ 21 = 0) && hatchOps.contains x.op
    && decide (x.rmode < 2) && decide (x.kind < 2) && (x.kind == 0 || x.op == 0x2A)
    && (if x.op = 0x28 ∨ x.op = 0x29 then true else if x.op = 0x2B then decide (x.param < 64) else x.param == 0)
    && (x.op == 0x2B || x.aux == 0)
    && decide (field (w64At b 0x18) 63 24 = 0) && decide (field (w64At b 0x20) 63 48 = 0)
    && decide (field (w64At b 0x20) 7 6 = 0) && idsOk x.ids && (loopOrder x.loopP 3).isSome

/-- Which of X, Y, Z an operation takes (R166). -/
def HatchBlk.takesY (x : HatchBlk) : Bool :=
  [1, 2, 3, 4, 5, 6, 0x10, 0x11, 0x12, 0x13].contains x.op
def HatchBlk.takesZ (x : HatchBlk) : Bool := x.op == 4 || x.op == 0x2C || (x.op == 9 && x.outlier != 0)
def HatchBlk.dOptional (x : HatchBlk) : Bool := x.op == 0x2A || x.op == 0x2B

def HatchBlk.isInt (x : HatchBlk) : Bool := decide (0x10 ≤ x.op) && decide (x.op ≤ 0x13)
def HatchBlk.elementwise (x : HatchBlk) : Bool := decide (x.op ≤ 0x13)
def HatchBlk.rowReduce (x : HatchBlk) : Bool := decide (0x20 ≤ x.op) && decide (x.op ≤ 0x24)

/-- A format that Hatch reads: floating point, E40 included (R166). -/
def readable (f : Nat) : Bool := isFloat f || f == 9
def HatchBlk.formats (x : HatchBlk) (fx : Nat) (fy fz fd : Option Nat) : Bool :=
  let all (o : Option Nat) (p : Nat → Bool) : Bool := match o with
    | none => true
    | some f => p f
  if x.isInt then fx == 8 && all fy (· == 8) && all fd (· == 8)
  else if x.op = 9 then readable fx && all fd isFloat && all fz (· == 2)
  else if x.elementwise then
    readable fx && all fy readable && all fz readable && all fd isFloat
      && (!x.bf16l || (decide (x.op ≤ 8) && fx == 2 && all fy (· == 2) && all fz (· == 2) && all fd (· == 2)))
  else if x.rowReduce then readable fx && all fd fun f => f == 1 || f == 2
  else if x.op = 0x2C then
    (fx == 1 || fx == 2) && all fz (· == 1) && all fd fun f => decide (1 ≤ f) && decide (f ≤ 4)
  else readable fx && all fd (· == 1)

/-- An operand's extent equals D's or is 1, in every dimension (R167). -/
def broadcasts (d : Desc) (x : Option Desc) : Bool := match x with
  | none => true
  | some x => (List.range 4).all fun i => x.x i == d.x i || x.x i == 1

def HatchBlk.extents (op : HatchBlk) (x : Desc) (y z d : Option Desc) : Bool :=
  match d with
  | none => true
  | some d =>
    if op.elementwise then broadcasts d (some x) && broadcasts d y && (op.op != 4 || broadcasts d z)
    else if op.rowReduce ∨ op.op = 0x28 ∨ op.op = 0x29 then
      d.x 0 == (if op.rowReduce then 1 else 4) && [1, 2, 3].all fun i => d.x i == x.x i
    else if op.op = 0x2C then
      (List.range 4).all (fun i => d.x i == x.x i) && (match z with
        | none => true
        | some z => z.x 0 == 4 && [1, 2, 3].all fun i => z.x i == x.x i)
    else (List.range 4).all fun i => d.x i == 1

/-- EPS is finite and not negative (R169). -/
def epsOk (p : Nat) : Bool :=
  let v := fp32.decode p
  v.isFinite && !Fp.gt (.zero false) v

def checkHatch (c : CoreId) (k : QCmd) : Eng QCmd := do
  let s ← get
  let x := hatchBlk k.block
  let dx ← liftE (k.desc 0)
  let dy ← liftE (k.desc 1)
  let dz ← liftE (k.desc 2)
  let dd ← liftE (k.desc 3)
  need ([0, 8, 0x10].all fun o => pairOk (w64At k.block o)) .integrity
  let nseg := segCount ((dd.map fun d => d.b 0).getD 1)
  let named := decide (x.outlier ≠ 0)
  let listIn := s.inOwn c x.outlier (320 * nseg)
  let recs := if named ∧ listIn ∧ dd.isSome then s.outlierRecs (x.outlier % 2 ^ 48) nseg else []
  need (countsPaired recs) .integrity
  need (hatchRsv k.block x) .decode
  need (dy.isSome == x.takesY && dz.isSome == x.takesZ && (dd.isSome || x.dOptional)) .decode
  match dx with
  | none => throw .decode
  | some a =>
    let toCell := match dd with
      | some d => isCell d.fmt
      | none => false
    need (x.formats a.fmt (dy.map (·.fmt)) (dz.map (·.fmt)) (dd.map (·.fmt)) && noEtch dx && noEtch dy
      && noEtch dz && noEtch dd && (!x.bf16l || decide (x.op ≤ 8))
      && (!x.v8c || [0xA, 0xB, 0xC, 0x2C].contains x.op) && (match dd with
        | none => true
        | some d => !s.inAcc c d.base d.bytes || d.fmt == 1 || d.fmt == 8)) .decode
    need (x.extents a dy dz dd) .decode
    need ((toCell || (!x.fixed && x.fixedScale == 0)) && (!x.fixed || (x.fixedScale != 0 && x.fixedScale != 255))
      && (!named || (x.op == 9 && toCell)) && recs.all recOk) .decode
    need ((x.op != 0x2A || (watchName x.ids).isSome)
      && (x.op != 0x2B || (decide (3 ≤ x.param % 16) && decide (x.param % 16 ≤ 7) && decide (x.param / 16 < 3) && x.aux != 0))
      && (!(x.op == 0x28 || x.op == 0x29) || epsOk x.param)) .decode
    need (!x.gateEn || x.piece != 0) .decode
    let all := [dx, dy, dz, dd].filterMap id
    need (all.all (fun d => s.inOwn c d.base d.bytes) && all.all (fun d => d.fmt != 9 || s.inAcc c d.base d.bytes)
      && (!named || listIn) && (x.op != 0x2B || s.inOwn c x.aux 8)) .allocFault
    pure { k with
      banks := all.foldl (fun w d => w ||| s.banksOf c d) 0
      uses := if x.op = 0xC then [0] else []
      gate := if x.gateEn then some (x.gateCtr, x.gateBase, ceilDiv (a.x 1) x.piece) else none }

/-! ## The reduction order (R172) -/

/-- The tree fold of 256 partial results. -/
def treeFold (op : F32 → F32 → F32) : Nat → List F32 → F32
  | 0, p => p.headD 0
  | n + 1, p => treeFold op n ((List.range (2 ^ n)).map fun j => op (p.getD j 0) (p.getD (j + 2 ^ n) 0))

/-- A row reduced: `step` adds an element to a partial result, `join` two partial results. -/
def reduceRow (step join : F32 → F32 → F32) (ident : F32) (vs : List F32) : F32 :=
  treeFold join 8 ((List.range 256).map fun j =>
    ((enumFrom 0 vs).filter fun e => e.1 % 256 == j).foldl (fun p e => step p e.2) ident)

def rowSum : List F32 → F32 := reduceRow f32Add f32Add 0
def rowMax : List F32 → F32 := reduceRow f32Max f32Max f32NegInf
def rowMin : List F32 → F32 := reduceRow f32Min f32Min f32PosInf
def f32Abs (x : F32) : F32 := toF32 (ofF32 x).abs
def rowAmax (vs : List F32) : F32 := rowMax (vs.map f32Abs)
def rowSumSq : List F32 → F32 := reduceRow (fun p v => f32Fma v v p) f32Add 0

/-! ## Softmax row statistics (R178) -/

structure RowStat where
  e : List F32
  m : F32
  l : F32
  c : F32

def rowStat (v8 : Bool) (xs : List F32) (m l : F32) : RowStat :=
  let mn := f32Max m (rowMax xs)
  if mn = f32NegInf then ⟨xs.map fun _ => 0, mn, l, f32One⟩
  else
    let e := xs.map fun x => f32Exp2 v8 (f32Sub x mn)
    let c := if m = f32NegInf then 0 else f32Exp2 v8 (f32Sub m mn)
    ⟨e, mn, f32Fma l c (rowSum e), c⟩

/-! ## Micro-programs (R184 to R187) -/

structure MStep where
  op : Nat
  dst : Nat
  a : Nat
  b : Nat
  c : Nat
  deriving DecidableEq, Repr

def mstep (w : Word) : MStep := ⟨field w 57 52, field w 51 49, field w 48 44, field w 43 39, field w 38 34⟩

/-- Operands that a step operation uses (R185). -/
def stepUses : Nat → Option Nat
  | 1 | 2 | 4 | 5 | 8 | 0xC => some 2
  | 3 | 9 => some 3
  | 6 | 7 | 0xA | 0xB | 0xD | 0xE => some 1
  | _ => none

def operandOk (o : Nat) : Bool := decide (o ≤ 8) || decide (16 ≤ o)

/-- A step word as R187 admits it. -/
def stepOk (w : Word) : Bool :=
  let t := mstep w
  decide (field w 63 58 = 0) && decide (field w 33 0 = 0) && (match stepUses t.op with
    | none => false
    | some n => operandOk t.a && (if n ≥ 2 then operandOk t.b else t.b == 0) && (if n ≥ 3 then operandOk t.c else t.c == 0))

/-- A slot as read at the start of FN: constants and steps, or the status of R187. -/
def readSlot (b : List Byte) : Except Status (List F32 × List MStep) :=
  let h := w64At b 0
  if ¬ pairOk h then .error .integrity
  else
    let v := pairVal h
    let id := v / 65536 % 256
    let n := v % 64 + 1
    let ws := (List.range 48).map fun i => w64At b (0x80 + 8 * i)
    if id = 0 ∨ id = 255 ∨ n > 48 ∨ v / 2 ^ 24 ≠ 0 ∨ v / 64 % 4 ≠ 0 ∨ ¬ allZero (slice b 8 56)
      ∨ ¬ (ws.take n).all stepOk ∨ ¬ (ws.drop n).all (· == 0) then .error .decode
    else .ok ((List.range 16).map (fun i => w32At b (0x40 + 4 * i)), (ws.take n).map mstep)

/-- A × 2^n for SCALB. -/
def scalb (a b : F32) : F32 :=
  let x := ofF32 a
  let y := ofF32 b
  if x.isNan || y.isNan then f32Nan
  else
    let n : Int := match y with
      | .inf neg => if neg then -300 else 300
      | v => max (-300) (min 300 v.trunc)
    toF32 (x.scale n)

def floorF32 (a : F32) : F32 :=
  match ofF32 a with
  | .fin n e => toF32 (Fp.mk false (Fp.fin n e).floor 0)
  | v => toF32 v

/-- |A| with the sign bit of B as stored (R185). -/
def copySign (a b : F32) : F32 := if (ofF32 a).isNan then f32Nan else (a &&& 0x7FFFFFFF#32) ||| (b &&& 0x80000000#32)

def runStep (v8 : Bool) (x : F32) (cs : List F32) (t : List F32) (s : MStep) : List F32 :=
  let v (o : Nat) : F32 := if o < 8 then t.getD o 0 else if o = 8 then x else cs.getD (o - 16) 0
  let a := v s.a
  let b := v s.b
  let c := v s.c
  let r := match s.op with
    | 1 => f32Add a b
    | 2 => f32Mul a b
    | 3 => f32Fma a b c
    | 4 => f32Min a b
    | 5 => f32Max a b
    | 6 => f32Abs a
    | 7 => toF32 (ofF32 a).neg
    | 8 => copySign a b
    | 9 => if Fp.lt (ofF32 a) (ofF32 b) then c else t.getD s.dst 0
    | 0xA => f32Exp2 v8 a
    | 0xB => f32Log2 v8 a
    | 0xC => scalb a b
    | 0xD => floorF32 a
    | _ => a
  t.set s.dst r

/-- A micro-program on one input (R186). -/
def runMicro (v8 : Bool) (prog : List F32 × List MStep) (x : F32) : F32 :=
  (prog.2.foldl (runStep v8 x prog.1) (List.replicate 8 0)).headD 0

/-! ## Writing results (R163, R164) -/

/-- Where results go, how they are rounded and counted (`w`: the watch entry). `side`: the side tensor and its segments
(R111). -/
structure Sink where
  c : CoreId
  d : Desc
  texp : Int
  stoch : Bool
  fixed : Option Nat
  seed : Word
  stream : Nat
  segs : List (List Nat)
  w : Option Nat := none
  side : Option (Desc × Nat) := none

/-- The rounding of the element at an index of D (R164). -/
def Sink.rnd (k : Sink) (i : Idx) : Rnd :=
  if k.stoch then
    .stoch (draw16 k.seed (i.d0 + place i.d1 24 + place (i.d2 % 65536) 48) (i.d3 + place k.stream 28 + 2 ^ 46))
  else .near

def Sink.req (k : Sink) : Requester := .engine k.c.val

/-- What an encoding counts goes to the watch entry (R98, R163). -/
def Sink.count (k : Sink) (n : Counts) : Eng Unit :=
  if n = {} then pure () else modify fun s => s.watchAdd k.c k.w n

/-- One scalar element. -/
def Sink.put (k : Sink) (i : Idx) (v : F32) : Eng Unit := do
  let (code, n) := encodeScalar k.d.fmt (k.rnd i) k.texp (ofF32 v)
  writeCode k.req k.d i code
  k.count n

/-- The listed channels that a cell's position range holds: segment, slot, K position. -/
def listedIn (segs : List (List Nat)) (lo n : Nat) : List (Nat × Nat × Nat) :=
  (enumFrom 0 segs).flatMap fun sg => (enumFrom 0 sg.2).filterMap fun p =>
    let k := 4096 * sg.1 + p.2
    if lo ≤ k ∧ k < lo + n then some (sg.1, p.1, k) else none

/-- The side values of one row of a cell, from the source values that the cell took (R111, R113). -/
def Sink.putSide (k : Sink) (first : Idx) (vs : List (Option Fp)) : Eng Unit :=
  match k.side with
  | none => pure ()
  | some (z, nseg) =>
    (listedIn k.segs first.d0 k.d.per).forM fun e =>
      match vs.getD (e.2.2 - first.d0) none with
      | none => pure ()
      | some v =>
        let lin := (first.d3 * k.d.x 2 + first.d2) * k.d.x 1 + first.d1
        tWrite k.req z (2 * (lin * 128 * nseg + 128 * e.1 + e.2.1))
          (le 2 (bf16.encode (k.rnd { first with d0 := e.2.2 }) v).code)

/-- A step of the nest for a scalar D: a row is read before it is written (notes/assumptions/43.md). -/
def Sink.row (k : Sink) (f : Idx → Eng F32) (t : List Nat) : Eng Unit := do
  let at_ (i : Nat) : Idx := ⟨i, t.getD 0 0, t.getD 1 0, t.getD 2 0⟩
  let vs ← (List.range (k.d.x 0)).mapM fun i => f (at_ i)
  (enumFrom 0 vs).forM fun e => k.put (at_ e.1) e.2

/-- A step of the nest for a D of cells: the bursts of four rows (R103). -/
def Sink.bursts (k : Sink) (cf : CellFmt) (f : Idx → Eng F32) (t : List Nat) : Eng Unit :=
  let d := k.d
  (List.range (ceilDiv (d.x 0) d.per)).forM fun cell => do
    let first (r : Nat) : Idx := ⟨cell * d.per, 4 * t.getD 0 0 + r, t.getD 1 0, t.getD 2 0⟩
    let row (r : Nat) : Eng (List (Option Fp) × List Byte × Counts) := do
      if (first r).d1 ≥ d.x 1 then pure ([], zeros 16, {})
      else
        let at_ (i : Nat) : Idx := { first r with d0 := cell * d.per + i }
        let vs ← (List.range d.per).mapM fun i =>
          if cell * d.per + i < d.x 0 then do
            let v ← f (at_ i)
            pure (some (ofF32 v))
          else pure none
        pure (vs, encodeCell cf k.fixed k.texp (fun i => k.rnd (at_ i)) (fun i => listedAt k.segs (cell * d.per + i)) vs)
    let rs ← (List.range 4).mapM row
    tWrite k.req d (d.burstOff (first 0)) (rs.flatMap (·.2.1))
    (enumFrom 0 rs).forM fun e => do
      k.count e.2.2.2
      k.putSide (first e.1) e.2.1

/-- The steps of the nest over D. `order`: dimensions 1 to 3, outermost first, as LOOP.P names them. -/
def Sink.steps (k : Sink) (order : List Nat) : List (List Nat) :=
  nest [if isCell k.d.fmt then ceilDiv (k.d.x 1) 4 else k.d.x 1, k.d.x 2, k.d.x 3] order

/-- One step: every valid element of it, from a function of its index. -/
def Sink.step (k : Sink) (f : Idx → Eng F32) (t : List Nat) : Eng Unit :=
  match cellFmt k.d.fmt with
  | none => k.row f t
  | some cf => k.bursts cf f t

/-- Every valid element of D. -/
def Sink.fill (k : Sink) (order : List Nat) (f : Idx → Eng F32) : Eng Unit := (k.steps order).forM (k.step f)

/-! ## The operations (R166) -/

/-- The index of an operand for an index of D (R167). -/
def bcast (d : Desc) (i : Idx) : Idx :=
  let p (n v : Nat) : Nat := if d.x n = 1 then 0 else v
  ⟨p 0 i.d0, p 1 i.d1, p 2 i.d2, p 3 i.d3⟩

def optF32 (r : Requester) (d : Option Desc) (i : Idx) (texp : Int) : Eng F32 := match d with
  | none => pure 0
  | some d => readF32 r d (bcast d i) texp

/-- A BF16-lane result: the exact value rounded once to BF16 (R162). -/
def laneRound (bf : Bool) (x : Fp) : F32 := if bf then toF32 (bf16.decode (toBf16 x).toNat) else toF32 x

/-- FP32 of X for FN: an FP32 or BF16 operand as stored. -/
def rawF32 (r : Requester) (d : Desc) (i : Idx) (texp : Int) : Eng F32 := do
  if d.fmt = 1 then
    let v ← readCode r d i
    pure (BitVec.ofNat 32 v)
  else if d.fmt = 2 then
    let v ← readCode r d i
    pure (BitVec.ofNat 32 (v * 65536))
  else readF32 r d i texp

/-- The result of an elementwise operation at an index of D. -/
def elementOp (x : HatchBlk) (r : Requester) (dx : Desc) (dy dz : Option Desc) (prog : List F32 × List MStep) (i : Idx) :
    Eng F32 := do
  if x.op = 0xC then
    let a ← rawF32 r dx (bcast dx i) x.texpX
    pure (runMicro x.v8c prog a)
  else
    let a ← readF32 r dx (bcast dx i) x.texpX
    let b ← optF32 r dy i x.texpY
    let z ← optF32 r (if x.op = 4 then dz else none) i 0
    let u := ofF32 a
    let v := ofF32 b
    pure (match x.op with
      | 1 => laneRound x.bf16l (u.add v)
      | 2 => laneRound x.bf16l (u.sub v)
      | 3 => laneRound x.bf16l (u.mul v)
      | 4 => laneRound x.bf16l ((u.mul v).add (ofF32 z))
      | 5 => laneRound x.bf16l (u.min v)
      | 6 => laneRound x.bf16l (u.max v)
      | 7 => laneRound x.bf16l u.abs
      | 8 => laneRound x.bf16l u.neg
      | 0xA => f32Exp2 x.v8c a
      | 0xB => f32Log2 x.v8c a
      | _ => a)

/-- An INT32 operation (R166). -/
def intOp (op : Nat) (a b : Word32) : Word32 :=
  match op with
  | 0x10 => satI32 (a.toInt + b.toInt)
  | 0x11 => a &&& b
  | 0x12 => a ||| b
  | _ => a ^^^ b

/-- The values of a row of X. -/
def rowVals (r : Requester) (d : Desc) (row : Idx) (texp : Int) : Eng (List F32) :=
  (List.range (d.x 0)).mapM fun k => readF32 r d { row with d0 := k } texp

/-- Statistics of a row (R175). -/
def meanVar (eps : F32) (vs : List F32) : List F32 :=
  let l := f32OfNat vs.length
  let mean := f32Div (rowSum vs) l
  let var := f32Div (rowSumSq (vs.map fun v => f32Sub v mean)) l
  [mean, var, f32Rsqrt (f32Add var eps), l]
def meanSq (eps : F32) (vs : List F32) : List F32 :=
  let l := f32OfNat vs.length
  let ms := f32Div (rowSumSq vs) l
  [f32Sqrt ms, ms, f32Rsqrt (f32Add ms eps), l]

/-- Vmax of a target format (R109). -/
def vmaxOf : Nat → Nat
  | 3 => 448 | 4 => 57344 | 5 => 688128 | 6 => 802816 | _ => 114688

/-- Row results combined in ascending linear row index, the first being the start (R173). -/
def combineRows (op : F32 → F32 → F32) : List F32 → F32
  | [] => 0
  | v :: vs => vs.foldl op v

/-! ## Operands that lie over D (R171) -/

/-- The bytes of an element: those of its cell, for a cell format. -/
def Desc.span (d : Desc) (i : Idx) : Nat × Nat :=
  (d.base % 2 ^ 48 + (if isCell d.fmt then d.cellOff i else d.elemOff i), if isCell d.fmt then 16 else d.e)
/-- The indices of the valid elements. -/
def Desc.validIdx (d : Desc) : List Idx := indices (d.x 0) (d.x 1) (d.x 2) (d.x 3)

/-- The bytes that two spans share. -/
def meetSpan (a b : Nat × Nat) : Option (Nat × Nat) :=
  let lo := max a.1 b.1
  let hi := min (a.1 + a.2) (b.1 + b.2)
  if lo < hi then some (lo, hi - lo) else none

/-- D coincides exactly with an operand: the same format, and each element in the bytes of the one read for it. -/
def coincides (d o : Desc) : Bool := d.fmt == o.fmt && d.validIdx.all fun i => d.span i == o.span (bcast o i)

/-- The bytes of D's valid elements that an operand's valid elements share. -/
def sharedBytes (d o : Desc) : List (Nat × Nat) :=
  if overlaps (d.base % 2 ^ 48) d.bytes (o.base % 2 ^ 48) o.bytes then
    d.validIdx.flatMap fun i => o.validIdx.filterMap fun j => meetSpan (d.span i) (o.span j)
  else []

/-- The bytes of D that R171 calls undefined: shared with a read operand, except for an exact coincidence with X or Y in
OPs 0x01 to 0x13. -/
def HatchBlk.undefinedBytes (x : HatchBlk) (dx : Desc) (dy dz dd : Option Desc) : List (Nat × Nat) :=
  match dd with
  | none => []
  | some d =>
    let xy := (dx :: dy.toList).flatMap fun o => if x.elementwise && coincides d o then [] else sharedBytes d o
    xy ++ (if x.op = 4 ∨ x.op = 0x2C then dz.toList.flatMap (sharedBytes d) else [])

def forgetSpans (l : List (Nat × Nat)) (s : State) : State :=
  l.foldl (fun t e => { t with mem := t.mem.forget e.1 e.2 t.free, free := t.free + 1 }) s

/-- Makes the overlapping bytes of D undefined, when R171 is broken (R171, notes/assumptions/43.md). -/
def hatchForget (k : QCmd) (s : State) : State :=
  match k.desc 0, k.desc 1, k.desc 2, k.desc 3 with
  | .ok (some a), .ok y, .ok z, .ok d => forgetSpans ((hatchBlk k.block).undefinedBytes a y z d) s
  | _, _, _, _ => s

/-! ## The command runs -/

/-- The slot of an FN command, from the bank of its frame (R187, R194). -/
def slotBytes (s : State) (c : CoreId) (k : QCmd) (x : HatchBlk) : List Byte :=
  s.peek (spmOf c.val + bankOff 0 (bitOf k.tables 0) + x.slot * 0x200) 0x200

/-- HATCH.RUN starts: an FN command reads its slot and ends on a bad one (R187); overlapping bytes of D become undefined
(R171). -/
def startHatch (c : CoreId) (k : QCmd) : Eng QCmd := do
  let s ← get
  let x := hatchBlk k.block
  let k := if x.op = 0xC then { k with snap := slotBytes s c k x } else k
  if x.op = 0xC then let _ ← liftE (readSlot k.snap)
  set (hatchForget k s)
  pure k

/-- A running HATCH.RUN: its block, descriptors, sink and micro-program. -/
structure HatchRun where
  c : CoreId
  x : HatchBlk
  dx : Desc
  dy : Option Desc
  dz : Option Desc
  dd : Option Desc
  sink : Sink
  prog : List F32 × List MStep

def hatchRun (c : CoreId) (k : QCmd) : Eng HatchRun := do
  let s ← get
  let x := hatchBlk k.block
  let dx ← k.descOk 0
  let dy ← liftE (k.desc 1)
  let dz ← liftE (k.desc 2)
  let dd ← liftE (k.desc 3)
  let prog ← if x.op = 0xC then liftE (readSlot k.snap) else pure ([], [])
  let d := dd.getD dx
  let nseg := segCount (d.b 0)
  pure { c := c, x := x, dx := dx, dy := dy, dz := dz, dd := dd, prog := prog, sink := {
    c := c, d := d, texp := x.texpD, stoch := x.rmode == 1, fixed := if x.fixed then some x.fixedScale else none,
    seed := s.seedOf c, stream := streamId x.ids, segs := if x.outlier ≠ 0 then segLists s x.outlier nseg else [],
    w := watchName x.ids, side := if x.op = 9 then dz.map fun z => (z, nseg) else none } }

def HatchRun.req (h : HatchRun) : Requester := .engine h.c.val
def HatchRun.order (h : HatchRun) : List Nat := (loopOrder h.x.loopP 3).getD [0, 1, 2]

/-- The steps of LOOP.P's nest (R171): rows of X, or of D for an elementwise operation, four at a time for a D of cells. An
empty X has none (R174). -/
def HatchRun.steps (h : HatchRun) : List (List Nat) :=
  if h.x.elementwise then h.sink.steps h.order
  else if h.dx.empty then [] else nest [h.dx.x 1, h.dx.x 2, h.dx.x 3] h.order

/-- The piece of X's dimension 1 that a step needs last. -/
def HatchRun.pieceOf (h : HatchRun) (t : List Nat) : Nat :=
  let row := if h.x.elementwise && isCell h.sink.d.fmt then min (4 * t.getD 0 0 + 3) (h.sink.d.x 1 - 1) else t.getD 0 0
  (if h.dx.x 1 = 1 then 0 else row) / max 1 h.x.piece

/-- An INT32 row (R166). -/
def HatchRun.intRow (h : HatchRun) (t : List Nat) : Eng Unit :=
  (List.range (h.sink.d.x 0)).forM fun i => do
    let ix : Idx := ⟨i, t.getD 0 0, t.getD 1 0, t.getD 2 0⟩
    let a ← readCode h.req h.dx (bcast h.dx ix)
    let y := h.dy.getD h.dx
    let b ← readCode h.req y (bcast y ix)
    writeCode h.req h.sink.d ix (intOp h.x.op (BitVec.ofNat 32 a) (BitVec.ofNat 32 b)).toNat

/-- A row of a reduction, of normalisation statistics or of ROWSTAT (R172, R175, R178). -/
def HatchRun.statRow (h : HatchRun) (t : List Nat) : Eng Unit := do
  let x := h.x
  let row : Idx := ⟨0, t.getD 0 0, t.getD 1 0, t.getD 2 0⟩
  let vs ← rowVals h.req h.dx row x.texpX
  let putAll (l : List F32) : Eng Unit := (enumFrom 0 l).forM fun e => h.sink.put { row with d0 := e.1 } e.2
  if x.op = 0x2C then
    match h.dz with
    | none => throw .decode
    | some z =>
      let m ← readF32 h.req z row 0
      let l ← readF32 h.req z { row with d0 := 1 } 0
      let q := rowStat x.v8c vs m l
      putAll q.e
      [q.m, q.l, q.c, 0].zipIdx.forM fun e => writeCode h.req z { row with d0 := e.2 } e.1.toNat
  else
    let eps : F32 := BitVec.ofNat 32 x.param
    putAll (match x.op with
      | 0x20 => [rowSum vs] | 0x21 => [rowMax vs] | 0x22 => [rowMin vs] | 0x23 => [rowAmax vs] | 0x24 => [rowSumSq vs]
      | 0x28 => meanVar eps vs
      | _ => meanSq eps vs)

/-- One step of the nest. -/
def HatchRun.step (h : HatchRun) (t : List Nat) : Eng Unit :=
  if h.x.isInt then h.intRow t
  else if h.x.elementwise then h.sink.step (elementOp h.x h.req h.dx h.dy h.dz h.prog) t
  else h.statRow t

/-- L2NORM (R176) and FIT (R177), which combine every row. -/
def HatchRun.whole (h : HatchRun) : Eng Unit := do
  let x := h.x
  if h.dx.empty then pure ()
  else if x.op = 0x2A then
    let rows ← h.dx.rows.mapM fun row => do
      let vs ← rowVals h.req h.dx row x.texpX
      pure (rowSumSq vs)
    let n := f32Sqrt (combineRows f32Add rows)
    modify fun s => s.observe h.c (h.sink.w.getD 0) (x.kind == 1) n
    if h.dd.isSome then h.sink.put {} n
  else
    let rows ← h.dx.rows.mapM fun row => do
      let vs ← rowVals h.req h.dx row x.texpX
      pure (rowAmax vs)
    let a := combineRows f32Max rows
    let t := fitTexp (vmaxOf (x.param % 16)) (ofF32 a)
    let o := x.aux % 2 ^ 48
    let bs ← memRead h.req o 8
    let v ← getPair (w64At bs 0)
    let lo := 7 * (x.param / 16)
    let v' := (setField (BitVec.ofNat 64 v) (lo + 6) lo (t % 128).toNat).toNat
    memWrite h.req o (pairBytes v')
    if h.dd.isSome then h.sink.put {} a

/-- Steps in order, as far as their pieces are released (R88): how many were made. -/
def HatchRun.goOn (h : HatchRun) (released : Option Nat) : List (List Nat) → Nat → Eng Nat
  | [], n => pure n
  | t :: ts, n => match released with
    | none => do
      h.step t
      h.goOn released ts (n + 1)
    | some m => if h.pieceOf t < m then do
        h.step t
        h.goOn released ts (n + 1)
      else pure n

/-- HATCH.RUN runs as far as its gate lets it: the command after it, and whether that is all. -/
def runHatch (c : CoreId) (k : QCmd) : Eng (QCmd × Bool) := do
  let h ← hatchRun c k
  modify fun s => s.watchAdd c h.sink.w {}
  let s ← get
  let released := if h.x.gateEn then some ((s.core c).released k) else none
  if h.x.op = 0x2A ∨ h.x.op = 0x2B then
    let all := match released, k.gate with
      | some m, some (_, _, n) => decide (n ≤ m)
      | _, _ => true
    if all then h.whole
    pure (k, all)
  else
    let n ← h.goOn released (h.steps.drop k.pieces) k.pieces
    pure ({ k with pieces := n }, decide (h.steps.length ≤ n))

end Sys2Proof.Machine
end

