-- ==== Sys2Proof/Machine/Etch.lean ====
section
/-! DEFINITION. Etch (R328 to R344): table slots, block addresses, the encoder and the decoder with its checks, and
ETCH.BUILD. -/
namespace Sys2Proof.Machine

/-! ## Table slots (R336) -/

def slotOff (c i : Nat) : Nat := spmOf c + 0x7E0000 + i * 0x440

/-- What a slot or a table image says. -/
structure Table where
  gen : Nat
  escK : Nat
  rate : Nat
  check : Word32
  code : List F32
  deriving DecidableEq, Repr

/-- Code width of a RATE (R331). -/
def rateBits (r : Nat) : Nat := match r with
  | 0 => 8 | 1 => 6 | _ => 4
/-- Code N: the number of entries in use (R332). -/
def codeTop (b : Nat) : Nat := 2 ^ b - 2
/-- Block size (R329). -/
def blockBytes (b : Nat) : Nat := 64 + 64 * b

def readTable (bs : List Byte) : Table :=
  let h := pairVal (w64At bs 0)
  { gen := h / 2 ^ 16 % 4096, escK := h / 2 ^ 8 % 16, rate := h / 2 ^ 4 % 4, check := w32At bs 8,
    code := (List.range 256).map fun i => w32At bs (0x40 + 4 * i) }

def State.table (s : State) (c i : Nat) : Table := readTable (s.peek (slotOff c i) 0x440)
def Table.bits (t : Table) : Nat := rateBits t.rate
/-- The value of code c (R332, R333): C[0] is 0. -/
def Table.value (t : Table) (c : Nat) : Fp := if c = 0 then .zero false else ofF32 (t.code.getD c 0)

/-- The bytes of a slot. -/
def tableBytes (gen escK rate : Nat) (code : List F32) : List Byte :=
  let cs := code.flatMap fun x => le 4 x.toNat
  pairBytes (place gen 16 + place escK 8 + place rate 4) ++ le 4 (crc32c cs).toNat ++ zeros 52 ++ cs

/-- GEN of the next write of a slot (R337). -/
def nextGen (g : Nat) : Nat := g % 4095 + 1

/-- The start of a stream command with an Etch descriptor: R338, then R330 (notes/assumptions/27.md). -/
def startEtch (c : CoreId) (d : Desc) : Eng Table := do
  let s ← get
  let t := s.table c.val d.slot
  if t.gen = 0 ∨ t.gen ≠ d.gen then
    modify fun s => s.modCore c fun x => { x with etchStale := satAdd 16 x.etchStale 1 }
    throw .staleTable
  let bs := blockBytes t.bits
  need ((d.fmt == 1 || d.fmt == 2) && d.s 1 == 0
    && (decide (d.rank < 3) || (d.s 2 % 64 == 0 && decide (d.s 2 ≥ bs * ceilDiv (d.b 0) 128 * ceilDiv (d.b 1) 4)))
    && (decide (d.rank < 4) || d.s 3 % 64 == 0)) .decode
  pure t

/-- Offset of block (cb, rg) of a plane from BASE (R329). -/
def etchOff (d : Desc) (t : Table) (cb rg d2 d3 : Nat) : Nat :=
  blockBytes t.bits * (rg * ceilDiv (d.b 0) 128 + cb) + d2 * d.s 2 + d3 * d.s 3

/-- Position i of block (cb, rg) lies within the extents. -/
def etchValid (d : Desc) (cb rg i : Nat) : Bool := decide (128 * cb + i % 128 < d.x 0) && decide (4 * rg + i / 128 < d.x 1)

/-! ## Encoding (R333, R334) -/

structure EscEntry where
  pos : Nat
  val : Nat
  deriving DecidableEq, Repr

def special (x : Fp) : Bool := x.isNan || x.isInf

/-- Step 1: the positions that escape. `xs` holds the 512 values, none at pad positions. -/
def escapes (escK : Nat) (xs : List (Option Fp)) : List Nat :=
  let vs := (enumFrom 0 xs).filterMap fun p => p.2.map fun x => (p.1, x)
  let sp := (vs.filter fun p => special p.2).take 14
  let fin := vs.filter fun p => !special p.2 && !p.2.isZero
  let big := (sortBy (fun (a b : Nat × Fp) => !Fp.gt b.2.abs a.2.abs) fin).take (escK - sp.length)
  ((sp ++ big).map (·.1)).foldl (fun l p => insertNat p l) []

/-- Smallest e from −128 to +127 with a ≤ 2^e, clamped; 0 when a is zero (step 2). -/
def blockExp (a : Fp) : Int :=
  if a.isZero then 0
  else
    let es := (List.range 256).map fun (i : Nat) => ((i : Int) - 128 : Int)
    (es.find? fun e => Fp.le a (.fin 1 e)).getD 127

/-- Step 2 over a block's values and escaped positions; an infinite value is above every 2^e. -/
def blockExpOf (xs : List (Option Fp)) (esc : List Nat) : Int :=
  blockExp ((enumFrom 0 xs).foldl (fun (a : Fp) p => match p.2 with
    | some x => if esc.contains p.1 || x.isNan then a else Fp.max a x.abs
    | none => a) (.zero false))

/-- The largest finite value of a format, signed. -/
def topOf (f : FFmt) (neg : Bool) : Fp := f.decode (f.signBit neg + f.maxCode)

/-- Step 3: the nearest code, ties to the lower one. -/
def nearestCode (t : Table) (f : FFmt) (e : Int) (x : Fp) : Nat :=
  let x := if x.isNan then .zero false else if x.isInf then topOf f x.isNeg else x
  let y := x.scale (-e)
  ((List.range (codeTop t.bits)).foldl (fun (best : Nat × Fp) c =>
    let d := (y.sub (t.value (c + 1))).abs
    if Fp.lt d best.2 then (c + 1, d) else best) (0, y.abs)).1

/-- Little-endian bit string of codes of b bits each. -/
def packBits (b : Nat) (cs : List Nat) : Nat := cs.foldr (fun c v => c + 2 ^ b * v) 0

/-- A block of 512 values, and whether special values were lost (R334). -/
def encodeBlock (t : Table) (slot : Nat) (f : FFmt) (xs : List (Option Fp)) : List Byte × Bool :=
  let esc := escapes t.escK xs
  let e := blockExpOf xs esc
  let codes := (enumFrom 0 xs).map fun p => match p.2 with
    | none => 0
    | some x => if esc.contains p.1 then 2 ^ t.bits - 1 else nearestCode t f e x
  let n := (xs.filter Option.isSome).length
  let head := place n 32 + place (t.check.toNat % 256) 24 + place (e % 256).toNat 16 + place esc.length 8
    + place t.rate 4 + slot
  let entries := esc.flatMap fun p =>
    le 4 (place (bf16.encode .near ((xs.getD p none).getD (.zero false))).code 16 + p)
  let specials := (xs.filter fun x => (x.map special).getD false).length
  (le 8 head ++ slice entries 0 56 ++ le (64 * t.bits) (packBits t.bits codes), decide (specials > 14))

/-! ## Decoding (R332, R344) -/

def blockCode (b : Nat) (bs : List Byte) (i : Nat) : Nat := leNat (slice bs (64 + b * i / 8) 2) / 2 ^ (b * i % 8) % 2 ^ b

def escEntry (bs : List Byte) (i : Nat) : Nat := (w32At bs (8 + 4 * i)).toNat

/-- R344: the first failing check of a block. -/
def blockCheck (t : Table) (slot : Nat) (d : Desc) (cb rg : Nat) (bs : List Byte) : Option Status :=
  let h := w64At bs 0
  let n := field h 11 8
  let b := t.bits
  let ents := (List.range 14).map (escEntry bs)
  let valid := (List.range 512).filter (etchValid d cb rg)
  if !(field h 3 0 == slot && field h 5 4 == t.rate && field h 63 42 == 0 && field h 15 12 == 0 && field h 7 6 == 0
      && ents.all (fun e => e / 2 ^ 9 % 2 ^ 7 == 0) && decide (n ≤ 14) && field h 41 32 == valid.length) then some .integrity
  else if field h 31 24 ≠ t.check.toNat % 256 then some .staleTable
  else
    let pos := (ents.take n).map (· % 512)
    let codes := (List.range 512).map (blockCode b bs)
    let escCode := 2 ^ b - 1
    if ascending pos && pos.all (fun p => etchValid d cb rg p && codes.getD p 0 == escCode)
        && (enumFrom 0 codes).all (fun c => (c.2 != escCode || pos.contains c.1) && (c.2 == 0 || etchValid d cb rg c.1))
        && (ents.drop n).all (· == 0) then none
    else some .integrity

/-- The value at a position of a checked block. -/
def blockValue (t : Table) (bs : List Byte) (i : Nat) : Fp :=
  let c := blockCode t.bits bs i
  if c = 2 ^ t.bits - 1 then
    let e := ((List.range 14).map (escEntry bs)).find? fun e => e % 512 == i
    bf16.decode ((e.getD 0) / 65536)
  else (t.value c).scale (signed 8 (field (w64At bs 0) 23 16))

/-- The counts of a failed block (R344). -/
def countBlock (c : CoreId) (st : Status) : Eng Unit := modify fun s => s.modCore c fun x =>
  if st = .staleTable then { x with etchStale := satAdd 16 x.etchStale 1 }
  else { x with etchDamaged := satAdd 16 x.etchDamaged 1 }

/-! ## ETCH.BUILD (R339 to R343) -/

structure BuildBlk where
  mode : Nat
  init : Bool
  rate : Nat
  escK : Nat
  slot : Nat
  hist : Nat
  image : Nat
  deriving DecidableEq, Repr

def buildBlk (b : List Byte) : BuildBlk :=
  let c := pairVal (w64At b 0)
  { mode := c / 2 ^ 24 % 4, init := decide (c / 2 ^ 23 % 2 = 1), rate := c / 2 ^ 19 % 4, escK := c / 2 ^ 15 % 16,
    slot := c % 16, hist := (w64At b 8).toNat, image := (w64At b 0x10).toNat }

def checkEtchBuild (c : CoreId) (k : QCmd) : Eng QCmd := do
  let s ← get
  let x := buildBlk k.block
  let v := pairVal (w64At k.block 0)
  let dt ← if x.mode = 0 then liftE (k.desc 0) else pure none
  need (pairOk (w64At k.block 0)) .integrity
  need (decide (v / 2 ^ 26 = 0) && decide (v / 2 ^ 21 % 4 = 0) && decide (v / 2 ^ 4 % 2 ^ 11 = 0) && allZero (slice k.block 0x18 40)
    && decide (x.mode < 3) && decide (x.rate < 3) && decide (x.escK ≤ 14) && (k.named 0 == decide (x.mode = 0))
    && ((x.hist == 0) == decide (x.mode = 2)) && (x.mode == 0 || !x.init)) .decode
  match dt with
  | some d => need ((d.fmt == 1 || d.fmt == 2) && (d.layout == 0 || d.layout == 1)) .decode
  | none => pure ()
  let clear (a n : Nat) : Bool :=
    (List.range 128).all fun i => !overlaps (a % 2 ^ 48) n (spmOf i + 0x7E0000) 0x4400
  let image := x.mode == 2 || (x.mode == 1 && x.image != 0)
  need (x.hist % 64 == 0 && x.image % 64 == 0 && (x.mode == 2 || (s.inSpm c x.hist 8192 && clear x.hist 8192))
    && (!image || (decide (x.image / 2 ^ 48 = s.chip) && clear x.image 0x440 && (match s.locate (x.image % 2 ^ 48) 0x440 with
      | some .reg | none => false
      | _ => true)))) .allocFault
  pure k

/-- The global addresses of the elements of block b of a dense or swizzled tensor, by position; none at pad positions. -/
def blockAddrs (d : Desc) (b : Idx) : List (Option Nat) :=
  (List.range 512).map fun i =>
    if etchValid d b.d0 b.d1 i then some (d.base + d.elemOff ⟨128 * b.d0 + i % 128, 4 * b.d1 + i / 128, b.d2, b.d3⟩) else none

/-- The blocks of a tensor. -/
def etchBlocks (d : Desc) : List Idx := indices (ceilDiv (d.x 0) 128) (ceilDiv (d.x 1) 4) (d.x 2) (d.x 3)

/-- The values of a block, its bytes read by `rd`; beyond LIMIT, ALLOC_FAULT (R77). -/
def blockVals (rd : Nat → Nat → Eng (List Byte)) (d : Desc) (b : Idx) : Eng (List (Option Fp)) :=
  (blockAddrs d b).mapM fun a => match a with
    | none => pure none
    | some a => do
      need (decide (a + d.e ≤ d.base + d.bytes)) .allocFault
      let bs ← rd a d.e
      pure (some (((scalarFmt d.fmt).getD fp32).decode (leNat bs)))

/-- A histogram entry for a value (R340). -/
def histBin (e : Int) (x : Fp) : Nat :=
  let y := x.scale (-e)
  let y := if Fp.gt y (.fin 1 0) then .fin 1 0 else if Fp.lt y (.fin (-1) 0) then .fin (-1) 0 else y
  min (((y.add (.fin 1 0)).scale 10).floor.toNat) 2047

/-- HIST (R340), the source read by `rd`. -/
def runHist (c : CoreId) (x : BuildBlk) (rd : Nat → Nat → Eng (List Byte)) (d : Desc) : Eng Unit := do
  let r : Requester := .engine c.val
  let o := x.hist % 2 ^ 48
  if x.init then memWrite r o (zeros 8192)
  (etchBlocks d).forM fun b => do
    let xs ← blockVals rd d b
    let esc := escapes x.escK xs
    let e := blockExpOf xs esc
    (enumFrom 0 xs).forM fun p => match p.2 with
      | some v =>
        if esc.contains p.1 || v.isZero || v.isNan then pure ()
        else do
          let a := o + 4 * histBin e v
          let bs ← memRead r a 4
          memWrite r a (le 4 (if leNat bs = 0x7FFFFFFF then 0x7FFFFFFF else (leNat bs + 1) % 2 ^ 32))
      | none => pure ()

/-- The codebook of a histogram (R341). A histogram whose counts are not all non-negative may have no bin above q; the
manual gives no bin then (notes/assumptions/27.md). -/
def codebook (h : List Int) (b : Nat) : List F32 :=
  let t := h.foldl (· + ·) 0
  let n := codeTop b
  let sums := (h.foldl (fun (a : Int × List Int) v => (a.1 + v, (a.1 + v) :: a.2)) (0, [])).2.reverse
  (List.range 256).map fun k =>
    if k = 0 ∨ k > n ∨ t = 0 then 0
    else
      let q : Int := (2 * ((k : Int) - 1) + 1) * t / (2 * (n : Int))
      let i := (sums.findIdx? fun s => decide (s > q)).getD ((Config.freeWord (2 ^ 64 + k)).toNat % 2048)
      toF32 ((Fp.fin (2 * i + 1) (-11)).add (.fin (-1) 0))

/-- The rules of the table "Etch table slot" for an image's codebook (R342). -/
def codeOk (t : Table) : Bool :=
  let n := codeTop t.bits
  let v (i : Nat) : Fp := ofF32 (t.code.getD i 0)
  t.code.getD 0 0 == 0 && (List.range n).all (fun i => Fp.le (.fin (-1) 0) (v (i + 1)) && Fp.le (v (i + 1)) (.fin 1 0))
    && (List.range (n - 1)).all (fun i => Fp.le (v (i + 1)) (v (i + 2))) && (t.code.drop (n + 1)).all (· == 0)

/-- Writes a slot, its GEN advanced (R337, R341, R342). -/
def writeSlot (c : CoreId) (i escK rate : Nat) (code : List F32) : Eng Unit := modify fun s =>
  s.poke (slotOff c.val i) (tableBytes (nextGen (s.table c.val i).gen) escK rate code)

def countBuild (c : CoreId) : Eng Unit :=
  modify fun s => s.modCore c fun x => { x with etchBuilds := satAdd 16 x.etchBuilds 1 }

/-- ETCH.BUILD runs, its source tensor read by `rd`. -/
def runEtchBuild (c : CoreId) (k : QCmd) (rd : Nat → Nat → Eng (List Byte)) : Eng Unit := do
  let x := buildBlk k.block
  let r : Requester := .engine c.val
  if x.mode = 0 then
    let d ← k.descOk 0
    runHist c x rd d
  else if x.mode = 1 then
    let bs ← memRead r (x.hist % 2 ^ 48) 8192
    let code := codebook ((List.range 2048).map fun i => (w32At bs (4 * i)).toInt) (rateBits x.rate)
    writeSlot c x.slot x.escK x.rate code
    let s ← get
    if x.image ≠ 0 then memWrite r (x.image % 2 ^ 48) (s.peek (slotOff c.val x.slot) 0x440)
    countBuild c
  else
    let bs ← memRead r (x.image % 2 ^ 48) 0x440
    let t := readTable bs
    let h := pairVal (w64At bs 0)
    need (pairOk (w64At bs 0) && t.check == crc32c (slice bs 0x40 1024)) .integrity
    need (decide (h / 2 ^ 28 = 0) && decide (h / 2 ^ 12 % 16 = 0) && decide (h / 2 ^ 6 % 4 = 0) && decide (h % 16 = 0)
      && allZero (slice bs 0xC 52) && decide (t.rate < 3) && decide (t.escK ≤ 14) && codeOk t) .decode
    writeSlot c x.slot t.escK t.rate t.code
    countBuild c

end Sys2Proof.Machine
end

