-- ==== Sys2Proof/Machine/Hbm.lean ====
section
/-! DEFINITION. The commands of the HBM system: reads and writes as they meet the code (R286 to R289), patrol scrub
(R290, R291), training (R292, R293), temperature (R294, R295), maintenance and the repair mailbox (R297 to R300). -/
namespace Sys2Proof.Machine

/-! ## Reads, writes and scrub -/

def patternOf (err : List SymbolError) : Pattern := err.map fun e => (e.degree.val, e.value)

/-- Symbol errors that a codeword shows are added to what is stored with it. -/
def State.addDamage (s : State) (line : Nat) (err : List SymbolError) : State :=
  if err.isEmpty then s else s.setDamage line (patternAdd (s.damageOf line) (patternOf err))

/-- A request of HBM that is made for its own sake ends with its status (R288, R289, R479). -/
def hbmRequest (m : Eng Unit) (off len : Nat) (s : State) : State :=
  let m : Eng Unit := do
    need (decide (off + len ≤ hbmEnd)) .allocFault
    m
  let (st, t) := m.outcome s
  t.endRequest st

/-- HBM_READ (R287, R288): `err` is what the codeword of the first byte shows in error. -/
def execHbmRead (off len : Nat) (err : List SymbolError) (s : State) : Host.Outcome State Fault Refusal :=
  .next (hbmRequest (do let _ ← memRead .window off len) off len (s.addDamage (off / 64 * 64) err))

/-- HBM_WRITE (R289). -/
def execHbmWrite (off : Nat) (data : List Byte) (err : List SymbolError) (s : State) : Host.Outcome State Fault Refusal :=
  .next (hbmRequest (memWrite .window off data) off data.length (s.addDamage (off / 64 * 64) err))

/-- Bytes of a pseudo-channel: 25,165,824 codewords (R290). -/
def pcSize : Nat := 25165824 * 64

/-- PATROL_SCRUB (R290, R291): the next codeword of a pseudo-channel is read, and written back corrected. -/
def execPatrolScrub (st : StackId) (pc : Fin 32) (err : List SymbolError) (s : State) :
    Host.Outcome State Fault Refusal :=
  let x := s.stack st
  if ¬ x.scrubEn ∨ ¬ x.ready then .next s
  else
    let p := x.scrubAt[pc]
    let line := hbmUnmap st.val pc.val p
    let s := (s.setStack st { x with scrubAt := x.scrubAt.set pc.val ((p + 64) % pcSize) pc.isLt }).addDamage line err
    let e := s.damageOf line
    .next (if e.isEmpty then s
      else match rsDecode 72 8 4 e with
      | none => s.modStack st fun x => { x with scrubUncorrected := satAdd 16 x.scrubUncorrected 1 }
      | some f =>
        let t := (s.poke line (residual (s.peek line 64) e f)).setDamage line []
        if f.isEmpty then t else t.modStack st fun x => x.correct line pc.val p f.length)

/-! ## Training -/

/-- A half's outcome: the lane its spare replaces, and how many failing lanes have none (R292; notes/assumptions/25.md for
a spare that a fused repair uses and for which of two lanes is spared). -/
def halfOutcome (fused failing : List (Fin 18)) : Option (Fin 18) × Nat :=
  let left := failing.filter fun l => !fused.contains l
  match fused with
  | l :: _ => (some l, left.length)
  | [] => (left.head?, left.length - 1)

def laneEntry (lower upper : Option (Fin 18)) (degraded : Bool) : Half :=
  let used (o : Option (Fin 18)) (bit lane : Nat) : Nat := match o with
    | some l => place 1 bit + place l.val lane
    | none => 0
  BitVec.ofNat 16 (used upper 15 10 + place (b2n degraded) 9 + used lower 7 2)

/-- Lanes of one half of a pseudo-channel, ascending. -/
def halfLanes (ls : List LaneRef) (pc : Fin 32) (upper : Bool) : List (Fin 18) :=
  (List.finRange 18).filter fun l => ls.any fun r => decide (r.pc = pc) && decide (r.upper = upper) && decide (r.lane = l)

/-- The outcome of a pseudo-channel: its lane map entry and the failing lanes that no spare replaces. -/
def pcOutcome (fused failing : List LaneRef) (pc : Fin 32) : Half × Nat :=
  let lo := halfOutcome (halfLanes fused pc false) (halfLanes failing pc false)
  let hi := halfOutcome (halfLanes fused pc true) (halfLanes failing pc true)
  let n := lo.2 + hi.2
  (laneEntry lo.1 hi.1 (decide (n = 1)), n)

/-- The stack is being brought back by its domain's reset (R483 step 6). -/
def State.stackResetting (s : State) (st : StackId) : Bool :=
  match s.recov.current with
  | some r => decide (r.phase = .resetting) && s.domContains r.kind r.index .stack st.val
  | none => false

/-- An incomplete fuse repair is tested again (R300): a lane by the training's own test, a row with an outcome that the
manual leaves to the hardware. -/
def State.retest (s : State) (st : StackId) (failing : List LaneRef) : State :=
  let x := s.stack st
  let x := match x.retestLane with
    | some l => { x with retestLane := none,
                         fusedLanes := if failing.contains l then x.fusedLanes else x.fusedLanes ++ [l] }
    | none => x
  match x.retestRow with
  | none => s.setStack st x
  | some r =>
    let (w, t) := s.draw
    let x := { x with retestRow := none }
    t.setStack st (if w.getLsbD 0 then { x with hardRows := x.hardRows ++ [r] } else x.listRow r)

/-- HBM_TRAINING (R292, R293): a stack that is not ready, or is being reset, trains; `failing` are the lanes that the test
finds failing. -/
def execHbmTraining (st : StackId) (failing : List LaneRef) (s : State) : Host.Outcome State Fault Refusal :=
  if ((s.stack st).ready && !s.stackResetting st) || !s.phyOn st then .next s
  else
    let s := s.retest st failing
    let x := s.stack st
    let out (pc : Fin 32) : Half × Nat := pcOutcome x.fusedLanes failing pc
    let fails := (List.finRange 32).any fun pc => decide ((out pc).2 ≥ 2)
    let y := { x with
      laneMap := Vector.ofFn fun (pc : Fin 32) => (out pc).1
      degraded := ((List.finRange 32).filter fun pc => decide ((out pc).2 = 1)).length
      retrained := s.stackResetting st
      ready := !fails && !s.stackResetting st
      fenced := x.fenced || fails
      cause := if fails then .training else x.cause }
    .next (s.setStack st y)

/-! ## Temperature -/

/-- The band after a sample (R294). -/
def nextBand (b : Fin 4) (t : Nat) : Fin 4 :=
  if b = 3 ∨ t > 105 then 3
  else if t > 95 ∨ (b = 2 ∧ t > 92) then 2
  else if t > 85 ∨ (b ≠ 0 ∧ t > 82) then 1
  else 0

/-- STACK_TEMP_SAMPLE (R294, R295). -/
def execStackTempSample (st : StackId) (celsius : Byte) (s : State) : Host.Outcome State Fault Refusal :=
  let x := s.stack st
  let t := celsius.toNat
  let b := nextBand x.band t
  let s := s.setStack st { x with
    band := b, last := t, peak := max x.peak t, sampleTick := BitVec.ofNat 32 s.tick.number
    fenced := x.fenced || decide (b = 3), cause := if b = 3 then .thermal else x.cause }
  let s := if t > 95 then { s with tick := { s.tick with hotSince := true } } else s
  if b = 3 ∧ x.band ≠ 3 then
    let s := s.deviceRecord .thermal 1 st.val t
    .next (if s.tick.run then { s with power := { s.power with thermAbort := true } } else s)
  else .next s

/-! ## Maintenance and mailbox -/

/-- A write of HBM_CTRL.MAINT (R297). -/
def State.setMaint (s : State) (st : StackId) (on : Bool) : State :=
  let x := s.stack st
  if on then
    if x.maintReq then s
    else if s.tick.run then s.badWrite
    else s.setStack st { x with maintReq := true, maint := true }
  else s.setStack st { x with maintReq := false, maint := x.maint && x.busy.isSome }

/-- MAINT (R297). -/
def execMaint (st : StackId) (on : Bool) (s : State) : Host.Outcome State Fault Refusal := .next (s.setMaint st on)

/-- ARG0 in row form names a row (SID 0 to 2), with Rsv zero (R285, R298). -/
def rowArg (a : Nat) : Bool := decide (a % 64 = 0) && decide (a / 2 ^ 25 % 4 < 3)
def laneArg (a : Nat) : Bool := decide (a % 2 ^ 21 = 0) && decide (a / 2 ^ 21 % 32 < 18)

/-- The arguments suit the command (R298). -/
def mboxArgs (code a0 a1 : Nat) : Bool :=
  match code with
  | 1 => rowArg a0 && decide (a0 / 64 % 2 ^ 15 = 0) && a1 == 0
  | 2 | 3 => rowArg a0 && a1 == 0
  | 4 | 5 => laneArg a0 && a1 == 0
  | 6 => (decide (a0 % 2 ^ 27 = 0) || decide (a0 % 2 ^ 27 = 2 ^ 21 - 1)) && decide (a1 < 4)
  | 7 => a0 == 0 && decide (a1 < 256)
  | _ => false

/-- HARD_PPR, HARD_LANE and TEST_MODE need debug unlock (R298). -/
def mboxGuarded (code : Nat) : Bool := code == 3 || code == 5 || code == 7

/-- A write to HBM_MBOX_CMD.CODE (R298); a refused command ends at once (notes/assumptions/25.md). -/
def State.mbox (s : State) (st : StackId) (code : Nat) : State :=
  let x := s.stack st
  let refuse (r : Nat) : State := s.setStack st { x with result := r, data := 0 }
  if x.busy.isSome then s
  else if ¬ x.maint ∨ (mboxGuarded code ∧ s.sec.perms % 2 = 0) then refuse 2
  else if ¬ (pairOk x.arg0 ∧ pairOk x.arg1 ∧ mboxArgs code (pairVal x.arg0) (pairVal x.arg1)) then refuse 3
  else s.setStack st { x with busy := some ⟨code, pairVal x.arg0, pairVal x.arg1⟩ }

/-- RESOURCES (R298). -/
def execResources (st : StackId) (s : State) : Host.Outcome State Fault Refusal := .next (s.mbox st 1)
/-- SOFT_PPR (R298). -/
def execSoftPpr (st : StackId) (s : State) : Host.Outcome State Fault Refusal := .next (s.mbox st 2)
/-- HARD_PPR (R298). -/
def execHardPpr (st : StackId) (s : State) : Host.Outcome State Fault Refusal := .next (s.mbox st 3)
/-- SOFT_LANE (R298). -/
def execSoftLane (st : StackId) (s : State) : Host.Outcome State Fault Refusal := .next (s.mbox st 4)
/-- HARD_LANE (R298). -/
def execHardLane (st : StackId) (s : State) : Host.Outcome State Fault Refusal := .next (s.mbox st 5)
/-- MBIST (R298, R299). -/
def execMbist (st : StackId) (s : State) : Host.Outcome State Fault Refusal := .next (s.mbox st 6)
/-- TEST_MODE (R298). -/
def execTestMode (st : StackId) (s : State) : Host.Outcome State Fault Refusal := .next (s.mbox st 7)

def rowOfArg (a : Nat) : RowRef :=
  { pc := ⟨a / 2 ^ 27 % 32, Nat.mod_lt _ (by decide)⟩, sid := BitVec.ofNat 2 (a / 2 ^ 25), bankGroup := BitVec.ofNat 2 (a / 2 ^ 23),
    bank := BitVec.ofNat 2 (a / 2 ^ 21), row := BitVec.ofNat 15 (a / 2 ^ 6) }

def laneOfArg (a : Nat) : LaneRef :=
  { pc := ⟨a / 2 ^ 27 % 32, Nat.mod_lt _ (by decide)⟩, upper := decide (a / 2 ^ 26 % 2 = 1),
    lane := ⟨a / 2 ^ 21 % 32 % 18, Nat.mod_lt _ (by decide)⟩ }

/-- A row's candidate entry is cleared (R299). -/
def Stack.dropCand (x : Stack) (r : RowRef) : Stack :=
  { x with cands := x.cands.map fun o => if (o.map (·.row)) = some r then none else o }

/-- The spare of a half is in use (R292, R298). -/
def Stack.spareUsed (x : Stack) (l : LaneRef) : Bool := flag x.laneMap[l.pc] (if l.upper then 15 else 7)

/-- The spare of a half replaces a lane. -/
def Stack.useSpare (x : Stack) (l : LaneRef) : Stack :=
  let e := x.laneMap[l.pc].toNat
  let e := if l.upper then e % 2 ^ 10 + place 1 15 + place l.lane.val 10
    else e / 2 ^ 8 * 2 ^ 8 + place 1 7 + place l.lane.val 2
  { x with laneMap := x.laneMap.set l.pc.val (BitVec.ofNat 16 e) l.pc.isLt }

/-- What a mailbox command leaves in its stack (R298, R299): RESULT, DATA and the repair. -/
def Stack.mboxEnd (x : Stack) (b : MboxCmd) (r : MailboxReport) : Stack :=
  let fail (n : Nat) : Stack := { x with result := n, data := 0 }
  let done (y : Stack) (d : Half) : Stack := { y with result := 0, data := d }
  match b.code with
  | 1 => if r.succeeded then done x r.data else fail 4
  | 2 | 3 =>
    if ¬ r.spareLeft then fail 1
    else if ¬ r.succeeded then fail 4
    else
      let row := rowOfArg b.arg0
      let y := x.dropCand row
      done (if b.code = 2 then { y with softRows := y.softRows ++ [row] } else { y with hardRows := y.hardRows ++ [row] }) 0
  | 4 | 5 =>
    let l := laneOfArg b.arg0
    if x.spareUsed l then fail 1
    else if ¬ r.succeeded then fail 4
    else
      let y := x.useSpare l
      done (if b.code = 4 then { y with softLanes := y.softLanes ++ [l] } else { y with fusedLanes := y.fusedLanes ++ [l] }) 0
  | 6 =>
    let y := r.failing.foldl Stack.listRow x
    if r.succeeded then done y (BitVec.ofNat 16 r.failing.length) else { y with result := 4, data := 0 }
  | _ => if r.succeeded then done x (Config.testModeData (BitVec.ofNat 32 b.arg1)) else fail 4

/-- MBIST overwrites every row it tests (R299): one pseudo-channel, or the whole stack. -/
def State.mbistWipe (s : State) (st : StackId) (a : Nat) : State :=
  let pc : Option Nat := if a % 2 ^ 21 = 0 then some (a / 2 ^ 27 % 32) else none
  { s with
    mem := s.mem.forgetStack hbmEnd st.val pc s.free
    free := s.free + 1
    damage := s.damage.filter fun d =>
      let m := hbmMap d.1
      !(m.1 == st.val && (match pc with
        | none => true
        | some p => m.2.1 == p)) }

/-- MAILBOX_COMMAND_END (R297 to R300). -/
def execMailboxCommandEnd (st : StackId) (rep : MailboxReport) (s : State) : Host.Outcome State Fault Refusal :=
  let x := s.stack st
  match x.busy with
  | none => .next s
  | some b =>
    let y := x.mboxEnd b rep
    let s := s.setStack st { y with busy := none, maint := y.maint && y.maintReq }
    let s := if b.code = 6 then s.mbistWipe st b.arg0 else s
    .next (match s.recov.current with
      | some r => if r.phase = .fuseWait then s.deviceRecover r.trigger else s
      | none => s)

end Sys2Proof.Machine
end

