-- ==== Sys2Proof/Machine/Link.lean ====
section
/-! DEFINITION. Strokes and packets on Crosshatch links (R353 to R356, R358 to R364): decoding of headers and bodies,
forwarding by retiming or regeneration, idle strokes, and the packets that this chip sends. -/
namespace Sys2Proof.Machine

/-! ## The stroke (R353, R354) -/

/-- A word with an error pattern removed; the first symbol has the highest degree. -/
def applyPattern (word : List Byte) (f : Pattern) : List Byte :=
  f.foldl (fun w x => w.set (word.length - 1 - x.1) (w.getD (word.length - 1 - x.1) 0 ^^^ x.2)) word

/-- The first eight bytes through the header code: the header and whether it was corrected; none where it cannot be, or
where a field holds a reserved code or Rsv is not zero (R353, R354). -/
def readHeader (b : List Byte) : Option (Hdr × Bool) :=
  let w := slice b 0 8
  match rsDecode 8 2 1 (wordPattern w) with
  | none => none
  | some f =>
    let v := leNat (slice (applyPattern w f) 0 6)
    let h : Hdr := { dest := v / 2 ^ 32, kind := v / 2 ^ 29 % 8, vc := v / 2 ^ 28 % 2, run := v / 2 ^ 26 % 4,
                     bad := decide (v / 2 ^ 25 % 2 = 1), spread := v / 2 ^ 21 % 16, cred := v / 2 ^ 13 % 256,
                     cpool := v / 2 ^ 11 % 4 }
    if h.dest ≥ 4096 ∨ h.kind = 7 ∨ h.spread ≥ 12 ∨ h.cpool = 3 ∨ v % 2 ^ 11 ≠ 0 then none else some (h, !f.isEmpty)

/-- A body through its code: the corrected bytes, or none when a codeword is uncorrectable (R353). -/
def readBody (stroke : List Byte) : Option (List Byte) :=
  let body := slice stroke 8 512
  let fix (w : Nat) : Option (List Byte) :=
    let word := bodyWord body w ++ slice stroke (520 + 6 * w) 6
    (rsDecode 134 6 3 (wordPattern word)).map fun f => (applyPattern word f).take 128
  match fix 0, fix 1, fix 2, fix 3 with
  | some a, some b, some c, some d =>
    some ((List.range 512).map fun n =>
      let i := n / 16 * 4 + n % 4
      byteAt (if n / 4 % 4 = 0 then a else if n / 4 % 4 = 1 then b else if n / 4 % 4 = 2 then c else d) i)
  | _, _, _, _ => none

/-! ## Receiving (R362 to R364) -/

def poolOf (h : Hdr) : Nat := if h.kind = 5 then 2 else h.vc

/-- A port takes strokes: one up in data mode takes every KIND, a management-only one management strokes alone
(R373). -/
def Port.carries (x : Port) (h : Hdr) : Bool :=
  decide (x.state = .upData) || (decide (x.state = .upMgmt) && decide (h.kind = 5))

/-- What every received stroke does at its port: the header's counts and the credits it returns; none when it is
dropped. -/
def State.takeHeader (s : State) (p : PortId) (stroke : List Byte) : State × Option Hdr :=
  match readHeader stroke with
  | none => (s.modPort p fun x => { x with hdrLost := satAdd 8 x.hdrLost 1 }, none)
  | some (h, fixed) =>
    let s := s.modPort p fun x =>
      let x := if fixed then { x with hdrCorrected := satAdd 16 x.hdrCorrected 1 } else x
      x.addCredits h.cpool h.cred
    (s.pump p, some h)

/-- CLASS of the logical port that a physical port serves. -/
def State.classOf (s : State) (p : PortId) : Nat := (s.ports.toList.getD (s.port p).logical {}).cls

/-- STROKE_FORWARD (R358, R361 to R363): a stroke for another chip is routed, and retimed or regenerated. -/
def execStrokeForward (p : PortId) (stroke : List Byte) (s : State) : Host.Outcome State Fault Refusal :=
  if stroke.length ≠ 544 then .fault (.illFormed "STROKE_FORWARD")
  else if (s.port p).state ≠ .upData ∧ (s.port p).state ≠ .upMgmt then .next s
  else
    match s.takeHeader p stroke with
    | (s, none) => .next s
    | (s, some h) =>
      if h.kind = 0 ∨ h.kind = 6 ∨ ¬ (s.port p).carries h then .next s
      else
        let drop (s : State) : State := (s.modPort p fun x => x.owe (poolOf h) 1).pump p
        match routePort s.chip (s.fabric.rowRacks + 1) h.dest h.spread with
        | none => .next (drop s)
        | some (l, leaves) =>
          match s.outPort l h.spread with
          | none => .next (drop s)
          | some q =>
            let h' := if leaves then { h with vc := 1 } else h
            let src : OutStroke := { pool := poolOf h', src := some p, srcPool := poolOf h, kind := h.kind, bytes := [] }
            if s.classOf p ≠ s.classOf q ∨ h.run = 3 then
              match readBody stroke with
              | some body => .next (s.queueStroke q { src with bytes := encodeStroke { h' with run := 0, cred := 0, cpool := 0 } body })
              | none =>
                let s := s.modPort p fun x => { x with uncorrected := satAdd 8 x.uncorrected 1 }
                .next (s.queueStroke q { src with
                  bytes := encodeStroke { h' with run := 0, bad := true, cred := 0, cpool := 0 } (slice stroke 8 512) })
            else .next (s.queueStroke q { src with bytes := reheader { h' with run := h.run + 1, cred := 0, cpool := 0 } stroke })

/-- IDLE_STROKE (R364, R366): differing body bytes are counted, in windows of 2^32 idle body bytes. -/
def execIdleStroke (p : PortId) (stroke : List Byte) (s : State) : Host.Outcome State Fault Refusal :=
  if stroke.length ≠ 544 then .fault (.illFormed "IDLE_STROKE")
  else if (s.port p).state ≠ .upData ∧ (s.port p).state ≠ .upMgmt then .next s
  else
    match s.takeHeader p stroke with
    | (s, none) => .next s
    | (s, some h) =>
      if h.kind ≠ 0 then .next s
      else
        let n := ((slice stroke 8 512).filter (· != 0)).length
        .next (s.modPort p fun x =>
          let fresh := decide (x.windowBytes ≥ 2 ^ 32)
          let bytes := (if fresh then 0 else x.windowBytes) + 512
          let errs := (if fresh then 0 else x.windowErrors) + n
          { x with idleErrors := satAdd 32 x.idleErrors n, windowBytes := bytes, windowErrors := errs,
                   degraded := x.degraded || decide (errs > 429) })

/-! ## Packets of this chip (R355) -/

/-- The strokes' bodies of a packet: header and data, padded to whole strokes. -/
def chunks (n : Nat) : Nat → List Byte → List (List Byte)
  | 0, _ => []
  | k + 1, bs => if bs.isEmpty then [] else slice bs 0 n :: chunks n k (bs.drop n)

/-- Sends a packet of this chip toward its destination; false where no port is up (R358, R361). -/
def State.sendPacket (s : State) (t : Trans) (data : List Byte) (spread : Nat) : State × Bool :=
  let spread := spread % 12
  match routePort s.chip (s.fabric.rowRacks + 1) t.dest spread with
  | none => (s, false)
  | some (l, leaves) =>
    match s.outPort l spread with
    | none => (s, false)
    | some q =>
      let vc := s.vcTo t.dest leaves
      let bodies := chunks 512 8 (t.bytes ++ data)
      let n := bodies.length
      ((enumFrom 0 bodies).foldl (fun s b =>
        let kind := if n = 1 then 4 else if b.1 = 0 then 1 else if b.1 + 1 = n then 3 else 2
        s.queueStroke q { pool := vc, src := none, srcPool := 0, kind := kind,
                          bytes := encodeStroke { dest := t.dest, kind := kind, vc := vc, spread := spread } b.2 }) s, true)

/-- The response to a request (R357): status, and the data of a read. -/
def State.respond (s : State) (t : Trans) (st : Status) (data : List Byte) : State :=
  (s.sendPacket { src := s.chip, dest := t.src, op := if t.op = 2 then 3 else 4, units := data.length / 64,
                  epoch := s.epoch.toNat, tag := t.tag, code := statusCode st } data 0).1

/-- A request of a command goes out (R357, R358, R360): ALLOC_FAULT for a rack outside the row, before it enters the
fabric; a packet that cannot leave ends with FENCED at its deadline (R361). -/
def sendRequest (c : CoreId) (q : QueueId) (seq item : Nat) (dest addr op units code : Nat) (data : List Byte)
    (spread : Nat) : Eng Unit := do
  let s ← get
  need (s.inRow dest) .allocFault
  let tag := s.fabric.nextTag
  let (s, sent) := s.sendPacket { src := s.chip, dest := dest, addr := addr, op := op, units := units,
                                  epoch := s.epoch.toNat, tag := tag, code := code } data spread
  let o : Outstanding := ⟨tag, c, seq, item, s.epoch, op == 2, !sent, q, place dest 48 + addr⟩
  set { s with fabric := { s.fabric with
    nextTag := (tag + 1) % 2 ^ 24
    outstanding := s.fabric.outstanding ++ [o] } }

end Sys2Proof.Machine
end

