-- ==== Sys2Proof/Machine/Flash.lean ====
section
/-! DEFINITION. The flash translation layer (R324 to R326): the map by checkpoint and journal, reads with read disturb,
writes with retirement and read-only, commits, wear levelling, and the layer's start. A NAND block holds one 64 KiB
unit; `notes/assumptions/26.md` names what the manual leaves to the layer. -/
namespace Sys2Proof.Machine

/-- The map of the checkpoint and the committed records, latest last. -/
def Ftl.committed (f : Ftl) : List (Nat × Nat) := f.checkpoint ++ f.journal.map fun r => (r.logical, r.block)
/-- With the records that no commit has made safe yet. -/
def Ftl.current (f : Ftl) : List (Nat × Nat) := f.committed ++ f.pendingRecs.map fun r => (r.logical, r.block)

/-- The block of a logical unit in a map: the latest entry. -/
def mapFind (m : List (Nat × Nat)) (l : Nat) : Option Nat := (m.reverse.find? fun e => e.1 == l).map (·.2)

/-- The entries in force of a map, one for each unit. -/
def mapLive (m : List (Nat × Nat)) : List (Nat × Nat) := m.filter fun e => mapFind m e.1 == some e.2

def Ftl.block (f : Ftl) (b : Nat) : Block := ((f.blocks.find? fun e => e.1 == b).map (·.2)).getD {}
def Ftl.setBlock (f : Ftl) (b : Nat) (x : Block) : Ftl :=
  let rest := f.blocks.filter fun e => e.1 != b
  { f with blocks := if x = {} then rest else insertBy (fun a c => decide (a.1 ≤ c.1)) (b, x) rest }

/-- Blocks that hold data now or would after a loss of what is not committed. -/
def Ftl.inUse (f : Ftl) (b : Nat) : Bool :=
  (mapLive f.committed).any (fun e => e.2 == b) || (mapLive f.current).any (fun e => e.2 == b)

/-- The new block: the free block with the lowest erase count, then the lowest number (R324). -/
def Ftl.newBlock (f : Ftl) : Option Nat :=
  let never := (List.range (f.checkpoint.length + f.journal.length + f.pendingRecs.length + f.blocks.length + 1)).find?
    fun b => decide (b < f.good) && decide ((f.block b).erases = 0) && !(f.block b).retired && !f.inUse b
  match never with
  | some b => some b
  | none =>
    let cs := f.blocks.filter fun e => decide (e.1 < f.good) && !e.2.retired && !f.inUse e.1
    (cs.foldl (fun (a : Option (Nat × Block)) e => match a with
      | none => some e
      | some x => if e.2.erases < x.2.erases then some e else some x) none).map (·.1)

/-- Below 2 % of the good blocks (R324). -/
def Ftl.starved (f : Ftl) : Bool := decide (100 * f.spare < 2 * f.good)

/-- A block fails to program or erase: it is retired (R324). -/
def Ftl.retire (f : Ftl) (b : Nat) : Ftl :=
  let f := f.setBlock b { f.block b with retired := true }
  let f := { f with retired := satAdd 16 f.retired 1, spare := f.spare - 1 }
  if f.starved then { f with readOnly := true } else f

/-- The map's entry of a unit in HBM (R324), written as any agent writes there; a write that is refused leaves the map that
the layer itself holds (notes/assumptions/26.md). -/
def State.mirror (s : State) (l b : Nat) : State :=
  let o := s.ftl.mapBase.toNat * 65536 + 4 * l
  if o + 4 ≤ hbmEnd then s.tryWrite o (le 4 b) else s

/-- A unit's new contents go to a new block, with a journal record; `programmed` false: the first block fails. -/
def ftlPut (l : Nat) (data : List Byte) (programmed : Bool) : Eng Unit := do
  let s ← get
  if ¬ programmed then
    match s.ftl.newBlock with
    | none => throw .lowerTier
    | some b =>
      if s.ftl.spare = 0 then throw .lowerTier
      set { s with ftl := s.ftl.retire b }
  let s ← get
  match s.ftl.newBlock with
  | none => throw .lowerTier
  | some b =>
    let f := s.ftl
    let f := { f with nextSeq := f.nextSeq + 1, pendingRecs := f.pendingRecs ++ [⟨f.nextSeq, l, b⟩] }
    set (({ s with nand := s.nand.setBytes (65536 * b) data, ftl := f }).mirror l b)

/-- The 64 KiB of a logical unit as they stand; a unit never written reads as free values. -/
def State.unitBytes (s : State) (l : Nat) : List Byte :=
  match mapFind s.ftl.current l with
  | some b => s.nand.bytes (65536 * b) 65536
  | none => (List.range 65536).map fun i => Config.freeByte (2 ^ 64 + l) i

/-- Bytes of flash logical space, without the layer's checks. -/
def State.flashBytes (s : State) (o n : Nat) : List Byte :=
  (List.range n).map fun i =>
    let a := o + i
    match mapFind s.ftl.current (a / 65536) with
    | some b => s.nand.byte (65536 * b + a % 65536)
    | none => Config.freeByte (2 ^ 64 + a / 65536) (a % 65536)

/-- Moves a unit's data to a new block (R324). -/
def State.relocate (s : State) (l : Nat) : State :=
  match (ftlPut l (s.unitBytes l) true).exec s with
  | (.ok _, t) => { t with ftl := { t.ftl with relocations := satAdd 32 t.ftl.relocations 1 } }
  | (.error _, _) => s

/-- One read of a unit's block; at the limit its data is refresh-relocated (R324). -/
def State.disturb (s : State) (l : Nat) : State :=
  match mapFind s.ftl.current l with
  | none => s
  | some b =>
    let x := s.ftl.block b
    let s := { s with ftl := s.ftl.setBlock b { x with reads := x.reads + 1 } }
    if x.reads + 1 = s.ftl.rdLimit * 1000 then s.relocate l else s

/-- Units of [o, o + n). -/
def unitsOf (o n : Nat) : List Nat := if n = 0 then [] else (List.range ((o + n - 1) / 65536 - o / 65536 + 1)).map (· + o / 65536)

/-- A flash request at a local offset reaches the layer: the flash offset, ALLOC_FAULT outside (R23), LOWER_TIER while it
is not ready (R325). -/
def flashAt (off n : Nat) : Eng Nat := do
  let s ← get
  match s.locate off n with
  | some (.flash o) =>
    need s.ftl.ready .lowerTier
    pure o
  | _ => throw .allocFault

/-- A read of flash logical space (R320, R324, R325). -/
def flashRead (off n : Nat) (readable : Bool) : Eng (List Byte) := do
  if n = 0 then return []
  let o ← flashAt off n
  modify fun s => (unitsOf o n).foldl State.disturb s
  need readable .lowerTier
  let s ← get
  pure (s.flashBytes o n)

/-- A write of flash logical space, made safe by the next commit (R320, R324, R325). -/
def flashWrite (off : Nat) (data : List Byte) (programmed : Bool) : Eng Unit := do
  if data.isEmpty then return ()
  let o ← flashAt off data.length
  (unitsOf o data.length).forM fun l => do
    let s ← get
    need (!s.ftl.readOnly) .lowerTier
    let lo := max o (65536 * l)
    let hi := min (o + data.length) (65536 * l + 65536)
    ftlPut l (overlay (s.unitBytes l) (lo - 65536 * l) (slice data (lo - o) (hi - lo))) programmed

/-- Units of the spill area that are taken, from its base (R318, R326). -/
def Folio.areaUsed (f : Folio) : List Nat :=
  (f.units.filter fun u => decide (f.spillBase ≤ u) && decide (u < f.spillBase + f.spillUnits)).map (· - f.spillBase)

/-- A write to flash offset o reaches the spill area while that is full (R320; notes/assumptions/30.md). -/
def Folio.areaFull (f : Folio) (o n : Nat) : Bool :=
  f.run && decide (f.areaUsed.length ≥ f.spillUnits)
    && (unitsOf o n).any fun u => decide (f.spillBase ≤ u) && decide (u < f.spillBase + f.spillUnits)

/-- A block is erased, or its erase fails and retires it (R324): which, is free. -/
def State.eraseBlock (s : State) (b : Nat) : State :=
  let (w, s) := s.draw
  let x := s.ftl.block b
  if w.toNat % 2 = 1 then { s with ftl := s.ftl.retire b }
  else { s with nand := s.nand.zero (65536 * b) 65536, ftl := s.ftl.setBlock b { x with erases := x.erases + 1, reads := 0 } }

/-- The blocks that a commit frees are erased (R324). -/
def State.eraseOld (s : State) (before : List (Nat × Nat)) : State :=
  (mapLive before).foldl (fun t e => if t.ftl.inUse e.2 then t else t.eraseBlock e.2) s

/-- Static wear levelling (R324). -/
def State.levelWear (s : State) : State :=
  let f := s.ftl
  let live := mapLive f.current
  let high := f.blocks.foldl (fun m e => max m e.2.erases) 0
  match live.foldl (fun (a : Option (Nat × Nat)) e => match a with
      | none => some e
      | some x => if (f.block e.2).erases < (f.block x.2).erases then some e else some x) none with
  | none => s
  | some e => if high > (f.block e.2).erases + f.wearGap then s.relocate e.1 else s

/-- The flash writes whose records are committed end with OK (R325). -/
def State.answerFlash (s : State) : State :=
  let safe (w : FlashWait) : Bool := !s.ftl.pendingRecs.any fun r => decide (r.seq < w.seq)
  let t := { s with ftl := { s.ftl with waiting := s.ftl.waiting.filter fun w => !safe w } }
  (s.ftl.waiting.filter safe).foldl (fun t w => match w.back with
    | none => t.emit (.access .ok [])
    | some b => t.respond { src := b.1, dest := t.chip, op := 1, epoch := t.epoch.toNat, tag := b.2 } .ok []) t

/-- A flash write that has been made awaits its commit (R325). -/
def State.awaitCommit (s : State) (back : Option (Nat × Nat)) : State :=
  ({ s with ftl := { s.ftl with waiting := s.ftl.waiting ++ [{ seq := s.ftl.nextSeq, back := back }] } } : State).answerFlash

/-- A commit of the journal (R325); a checkpoint after every 2^20 records (R324). -/
def State.commit (s : State) : State :=
  let f := s.ftl
  if ¬ f.ready then s
  else
    let before := f.committed
    let jl := f.journal ++ f.pendingRecs
    let g := { f with journal := jl, pendingRecs := [], commits := satAdd 32 f.commits 1 }
    let g := if jl.length ≥ 2 ^ 20 then { g with checkpoint := mapLive g.committed, journal := [] } else g
    ((({ s with ftl := g }).answerFlash).eraseOld before).levelWear

/-- The journal's records that a replay takes: in sequence, up to the first bad CRC or gap (R325). -/
def replay (bad : Option Nat) : Option Nat → List JournalRec → List JournalRec
  | _, [] => []
  | want, r :: rs =>
    if bad == some r.seq || (match want with
      | some n => r.seq != n
      | none => false) then []
    else r :: replay bad (some (r.seq + 1)) rs

/-- The number after those of the records that a replay kept. -/
def nextAfter (n : Nat) (kept : List JournalRec) : Nat := match kept.getLast? with
  | some r => r.seq + 1
  | none => n

/-- FTL_START (R325, R514): unless the configuration leaves the layer stopped, FTL_MAP_BASE is written, FTL_POLICY.LOCK
set, map and journal are loaded and the layer is ready. NAND that was never formatted is formatted now:
its number of good blocks is free, the reserve is withheld and the capacity rounded down to 64 GiB (R324). -/
def execFtlStart (badCrc : Option Nat) (s : State) : Host.Outcome State Fault Refusal :=
  if s.ftl.ready ∨ s.cfg.ftl = 0 then .next s
  else
    let s := { s with ftl := { s.ftl with mapBase := BitVec.ofNat 32 s.cfg.ftl, lock := true } }
    let (w, t) := if s.ftl.good = 0 then s.draw else (0, s)
    let f := t.ftl
    let good := if f.good = 0 then w.toNat % 2 ^ 31 else f.good
    let cap := if f.capacity = 0 then min (2 ^ 30) (good * (100 - f.reservePct) / 100 / 2 ^ 20 * 2 ^ 20) else f.capacity
    let kept := replay badCrc none f.journal
    let g := { f with
      ready := true, replayed := true, good := good, capacity := cap
      spare := if f.good = 0 then good - cap else f.spare
      journal := kept, pendingRecs := [], waiting := []
      nextSeq := nextAfter f.nextSeq kept }
    let t := { t with ftl := { g with readOnly := g.starved } }
    .next ((mapLive t.ftl.committed).foldl (fun u e => u.mirror e.1 e.2) t)

/-- FLASH_WRITE (R325): its own request, which ends with OK when its record is committed. -/
def execFlashWrite (off : Nat) (data : List Byte) (programmed : Bool) (s : State) : Host.Outcome State Fault Refusal :=
  let (st, t) := (flashWrite off data programmed).outcome s
  .next (if st = .ok then t.awaitCommit none else (t.endRequest st).emit (.access st []))

/-- JOURNAL_COMMIT (R325). -/
def execJournalCommit (s : State) : Host.Outcome State Fault Refusal := .next s.commit

end Sys2Proof.Machine
end

