-- ==== Sys2Proof/Machine/Scalar.lean ====
section
/-! DEFINITION. The scalar, memory and control-flow instructions (R258 to R263), one meaning each. -/
namespace Sys2Proof.Machine

/-- A three-register operation on s registers (R258). -/
def aluR (c : CoreId) (f : FmtR) (op : Word → Word → Word) (s : State) : State :=
  scalar c f.pre (formR asS asS asS f) (regsStep c fun x =>
    x.setS f.rd.toNat (op (x.sreg f.ra.toNat) (x.sreg f.rb.toNat))) s

/-- An operation on an s register and an immediate (R258). -/
def aluI (c : CoreId) (f : FmtI) (ok : Bool) (op : Word → Word → Word) (s : State) : State :=
  scalar c f.pre (formI asS asS f && ok) (regsStep c fun x =>
    x.setS f.rd.toNat (op (x.sreg f.ra.toNat) (sext f.imm))) s

/-- An operation on predicate registers (R258). -/
def predR (c : CoreId) (f : FmtR) (op : Bool → Bool → Bool) (s : State) : State :=
  scalar c f.pre (formR asP asP asP f) (regsStep c fun x =>
    x.setPred f.rd.toNat (op (x.pred f.ra.toNat) (x.pred f.rb.toNat))) s

/-- Bits [127:64] of a product (R258). -/
def mulHigh (a b : Word) : Word := BitVec.ofNat 64 (a.toNat * b.toNat / 2 ^ 64)
def mulHighS (a b : Word) : Word := BitVec.ofInt 64 (a.toInt * b.toInt / 2 ^ 64)
/-- Quotients and remainders; a divisor of zero gives all ones (R259). -/
def divU (a b : Word) : Word := if b = 0 then BitVec.allOnes 64 else BitVec.ofNat 64 (a.toNat / b.toNat)
def divS (a b : Word) : Word := if b = 0 then BitVec.allOnes 64 else BitVec.ofInt 64 (Int.tdiv a.toInt b.toInt)
def remU (a b : Word) : Word := if b = 0 then BitVec.allOnes 64 else BitVec.ofNat 64 (a.toNat % b.toNat)
def remS (a b : Word) : Word := if b = 0 then BitVec.allOnes 64 else BitVec.ofInt 64 (Int.tmod a.toInt b.toInt)
/-- A shift count: bits [5:0] (R258). -/
def count6 (b : Word) : Nat := b.toNat % 64

abbrev Out := Host.Outcome State Fault Refusal

/-- NOP. -/
def execNop (c : CoreId) (f : FmtR) (s : State) : Out :=
  .next (scalar c f.pre (formR unused unused unused f) (pure .step) s)
/-- ADD: RD := RA + RB. -/
def execAdd (c : CoreId) (f : FmtR) (s : State) : Out := .next (aluR c f (fun a b => a + b) s)
/-- SUB: RD := RA − RB. -/
def execSub (c : CoreId) (f : FmtR) (s : State) : Out := .next (aluR c f (fun a b => a - b) s)
/-- MUL: RD := bits [63:0] of RA × RB. -/
def execMul (c : CoreId) (f : FmtR) (s : State) : Out := .next (aluR c f (fun a b => a * b) s)
/-- MULHU: RD := bits [127:64] of the unsigned product. -/
def execMulhu (c : CoreId) (f : FmtR) (s : State) : Out := .next (aluR c f (mulHigh) s)
/-- MULH: RD := bits [127:64] of the signed product. -/
def execMulh (c : CoreId) (f : FmtR) (s : State) : Out := .next (aluR c f (mulHighS) s)
/-- DIVU: RD := RA / RB unsigned (R259). -/
def execDivu (c : CoreId) (f : FmtR) (s : State) : Out := .next (aluR c f (divU) s)
/-- DIV: RD := RA / RB signed (R259). -/
def execDiv (c : CoreId) (f : FmtR) (s : State) : Out := .next (aluR c f (divS) s)
/-- REMU: RD := unsigned remainder (R259). -/
def execRemu (c : CoreId) (f : FmtR) (s : State) : Out := .next (aluR c f (remU) s)
/-- REM: RD := remainder with the sign of RA (R259). -/
def execRem (c : CoreId) (f : FmtR) (s : State) : Out := .next (aluR c f (remS) s)
/-- AND: bitwise AND. -/
def execAnd (c : CoreId) (f : FmtR) (s : State) : Out := .next (aluR c f (fun a b => a &&& b) s)
/-- OR: bitwise OR. -/
def execOr (c : CoreId) (f : FmtR) (s : State) : Out := .next (aluR c f (fun a b => a ||| b) s)
/-- XOR: bitwise XOR. -/
def execXor (c : CoreId) (f : FmtR) (s : State) : Out := .next (aluR c f (fun a b => a ^^^ b) s)
/-- SHL: shift left by RB[5:0]. -/
def execShl (c : CoreId) (f : FmtR) (s : State) : Out := .next (aluR c f (fun a b => a <<< count6 b) s)
/-- SHR: logical shift right by RB[5:0]. -/
def execShr (c : CoreId) (f : FmtR) (s : State) : Out := .next (aluR c f (fun a b => a >>> count6 b) s)
/-- SRA: arithmetic shift right by RB[5:0]. -/
def execSra (c : CoreId) (f : FmtR) (s : State) : Out := .next (aluR c f (fun a b => a.sshiftRight (count6 b)) s)
/-- MIN: signed minimum. -/
def execMin (c : CoreId) (f : FmtR) (s : State) : Out := .next (aluR c f (fun a b => if a.slt b then a else b) s)
/-- MAX: signed maximum. -/
def execMax (c : CoreId) (f : FmtR) (s : State) : Out := .next (aluR c f (fun a b => if a.slt b then b else a) s)
/-- MINU: unsigned minimum. -/
def execMinu (c : CoreId) (f : FmtR) (s : State) : Out := .next (aluR c f (fun a b => if a.ult b then a else b) s)
/-- MAXU: unsigned maximum. -/
def execMaxu (c : CoreId) (f : FmtR) (s : State) : Out := .next (aluR c f (fun a b => if a.ult b then b else a) s)
/-- ADDI: RD := RA + IMM. -/
def execAddi (c : CoreId) (f : FmtI) (s : State) : Out := .next (aluI c f true (fun a b => a + b) s)
/-- ANDI: RD := RA AND IMM. -/
def execAndi (c : CoreId) (f : FmtI) (s : State) : Out := .next (aluI c f true (fun a b => a &&& b) s)
/-- ORI: RD := RA OR IMM. -/
def execOri (c : CoreId) (f : FmtI) (s : State) : Out := .next (aluI c f true (fun a b => a ||| b) s)
/-- XORI: RD := RA XOR IMM. -/
def execXori (c : CoreId) (f : FmtI) (s : State) : Out := .next (aluI c f true (fun a b => a ^^^ b) s)
/-- SHLI: shift left by IMM[5:0]. -/
def execShli (c : CoreId) (f : FmtI) (s : State) : Out := .next (aluI c f (shiftImm f) (fun a b => a <<< count6 b) s)
/-- SHRI: logical shift right by IMM[5:0]. -/
def execShri (c : CoreId) (f : FmtI) (s : State) : Out := .next (aluI c f (shiftImm f) (fun a b => a >>> count6 b) s)
/-- SRAI: arithmetic shift right by IMM[5:0]. -/
def execSrai (c : CoreId) (f : FmtI) (s : State) : Out := .next (aluI c f (shiftImm f) (fun a b => a.sshiftRight (count6 b)) s)
/-- MOVI: RD := IMM. -/
def execMovi (c : CoreId) (f : FmtI) (s : State) : Out :=
  .next (scalar c f.pre (formI asS unused f) (regsStep c fun x => x.setS f.rd.toNat (sext f.imm)) s)
/-- MOVHI: RD[63:32] := IMM, RD[31:0] unchanged. -/
def execMovhi (c : CoreId) (f : FmtI) (s : State) : Out :=
  .next (scalar c f.pre (formI asS unused f) (regsStep c fun x =>
    x.setS f.rd.toNat (f.imm ++ (x.sreg f.rd.toNat).setWidth 32)) s)
/-- MOV.A: RD (a) := RA. -/
def execMovA (c : CoreId) (f : FmtR) (s : State) : Out :=
  .next (scalar c f.pre (formR asA asS unused f) (regsStep c fun x => x.setA f.rd.toNat (x.sreg f.ra.toNat)) s)
/-- MOV.S: RD := RA (a). -/
def execMovS (c : CoreId) (f : FmtR) (s : State) : Out :=
  .next (scalar c f.pre (formR asS asA unused f) (regsStep c fun x => x.setS f.rd.toNat (x.areg f.ra.toNat)) s)
/-- ADD.A: RD (a) := RA (a) + RB. -/
def execAddA (c : CoreId) (f : FmtR) (s : State) : Out :=
  .next (scalar c f.pre (formR asA asA asS f) (regsStep c fun x =>
    x.setA f.rd.toNat (x.areg f.ra.toNat + x.sreg f.rb.toNat)) s)
/-- ADDI.A: RD (a) := RA (a) + IMM. -/
def execAddiA (c : CoreId) (f : FmtI) (s : State) : Out :=
  .next (scalar c f.pre (formI asA asA f) (regsStep c fun x =>
    x.setA f.rd.toNat (x.areg f.ra.toNat + sext f.imm)) s)

/-- The word check of CMP and CMPI: a defined comparison code (R256, R260). -/
def ccOk (cc : BitVec 4) : Bool := decide (cc.toNat < 6)

/-- CMP: RD (p) := RA CC RB (R260). -/
def execCmp (c : CoreId) (f : FmtR) (s : State) : Out :=
  .next (scalar c f.pre (plainPre f.pre && asP f.rd && unused f.rsv && ccOk f.cc) (regsStep c fun x =>
    x.setPred f.rd.toNat ((condition f.cc (x.sreg f.ra.toNat) (x.sreg f.rb.toNat)).getD false)) s)
/-- CMPI: RD (p) := RA CC IMM (R260). -/
def execCmpi (c : CoreId) (f : FmtI) (s : State) : Out :=
  .next (scalar c f.pre (plainPre f.pre && asP f.rd && unused f.rsv && ccOk f.cc) (regsStep c fun x =>
    x.setPred f.rd.toNat ((condition f.cc (x.sreg f.ra.toNat) (sext f.imm)).getD false)) s)

/-- P.AND. -/
def execPAnd (c : CoreId) (f : FmtR) (s : State) : Out := .next (predR c f (fun a b => a && b) s)
/-- P.OR. -/
def execPOr (c : CoreId) (f : FmtR) (s : State) : Out := .next (predR c f (fun a b => a || b) s)
/-- P.XOR. -/
def execPXor (c : CoreId) (f : FmtR) (s : State) : Out := .next (predR c f (fun a b => a != b) s)
/-- P.NOT: RD (p) := NOT RA (p). -/
def execPNot (c : CoreId) (f : FmtR) (s : State) : Out :=
  .next (scalar c f.pre (formR asP asP unused f) (regsStep c fun x => x.setPred f.rd.toNat !(x.pred f.ra.toNat)) s)

/-! ## Memory (R261, R262) -/

/-- AB + OFF. -/
def Core.addrM (x : Core) (f : FmtM) : Word := x.areg f.ab.toNat + sext f.off

/-- Loads SIZE bytes and writes RD through an extension (R258, R261). -/
def loadM (c : CoreId) (f : FmtM) (ext : Nat → List Byte → Word) (s : State) : State :=
  scalar c f.pre (formM asS f) (do
    let t ← get
    let n := sizeBytes f.size
    let bs ← scalarLoad ((t.core c).addrM f) n n true
    regsStep c fun x => x.setS f.rd.toNat (ext n bs)) s

/-- LD: zero-extended. -/
def execLd (c : CoreId) (f : FmtM) (s : State) : Out := .next (loadM c f (fun _ bs => BitVec.ofNat 64 (leNat bs)) s)
/-- LDS: sign-extended. -/
def execLds (c : CoreId) (f : FmtM) (s : State) : Out :=
  .next (loadM c f (fun n bs => BitVec.ofInt 64 (signed (8 * n) (leNat bs))) s)
/-- ST: bytes [SIZE − 1:0] of RD. -/
def execSt (c : CoreId) (f : FmtM) (s : State) : Out :=
  .next (scalar c f.pre (formM asS f) (do
    let t ← get
    let x := t.core c
    let n := sizeBytes f.size
    scalarStore (x.addrM f) n (le n (x.sreg f.rd.toNat).toNat)
    pure .step) s)
/-- LD.P: a paired word checked under R10, its value zero-extended. -/
def execLdP (c : CoreId) (f : FmtM) (s : State) : Out :=
  .next (scalar c f.pre (formM asS f && f.size == 3) (do
    let t ← get
    let bs ← scalarLoad ((t.core c).addrM f) 8 8 true
    let v ← getPair (w64At bs 0)
    regsStep c fun x => x.setS f.rd.toNat (BitVec.ofNat 64 v)) s)
/-- ST.P: RD[31:0] and its complement. -/
def execStP (c : CoreId) (f : FmtM) (s : State) : Out :=
  .next (scalar c f.pre (formM asS f && f.size == 3) (do
    let t ← get
    let x := t.core c
    scalarStore (x.addrM f) 8 (pairBytes ((x.sreg f.rd.toNat).toNat % 2 ^ 32))
    pure .step) s)
/-- TD.LD: 128 bytes into a td register, unchecked (R262). -/
def execTdLd (c : CoreId) (f : FmtM) (s : State) : Out :=
  .next (scalar c f.pre (formM asA f && f.size == 3) (do
    let t ← get
    let bs ← scalarLoad ((t.core c).addrM f) 128 64 false
    regsStep c fun x => x.setTd f.rd.toNat (tdOfBytes bs)) s)
/-- TD.ST: 128 bytes of a td register. -/
def execTdSt (c : CoreId) (f : FmtM) (s : State) : Out :=
  .next (scalar c f.pre (formM asA f && f.size == 3) (do
    let t ← get
    let x := t.core c
    scalarStore (x.addrM f) 64 (x.tdBytes f.rd.toNat)
    pure .step) s)
/-- TD.WR: word IMM[3:0] of RD (td) := RA. -/
def execTdWr (c : CoreId) (f : FmtI) (s : State) : Out :=
  .next (scalar c f.pre (formI asA asS f && wordImm f) (regsStep c fun x =>
    x.setTdWord f.rd.toNat f.imm.toNat (x.sreg f.ra.toNat)) s)
/-- TD.WRP: word IMM[3:0] of RD (td) := RA[31:0] as a paired word. -/
def execTdWrp (c : CoreId) (f : FmtI) (s : State) : Out :=
  .next (scalar c f.pre (formI asA asS f && wordImm f) (regsStep c fun x =>
    x.setTdWord f.rd.toNat f.imm.toNat (pair ((x.sreg f.ra.toNat).toNat % 2 ^ 32))) s)

/-! ## Control flow (R263) -/

/-- The target of BR: its own address + 8 × OFF. -/
def branchTarget (x : Core) (off : Word32) : Int := (x.pc : Int) + 8 * off.toInt

/-- BR. -/
def execBr (c : CoreId) (f : FmtB) (s : State) : Out :=
  .next (scalar c f.pre (formB unused f) (do
    let t ← get
    pure (.jump (branchTarget (t.core c) f.off))) s)
/-- LOOP: s[RA] := s[RA] − 1; branch when the result is not zero; s0 is refused. -/
def execLoop (c : CoreId) (f : FmtB) (s : State) : Out :=
  .next (scalar c f.pre (formB asS f && f.ra != 0) (do
    let t ← get
    let x := t.core c
    let v := x.sreg f.ra.toNat - 1
    set (t.setCore c (x.setS f.ra.toNat v))
    pure (if v = 0 then .step else .jump (branchTarget x f.off))) s)
/-- JR: branch to code segment start + s[RA]. -/
def execJr (c : CoreId) (f : FmtB) (s : State) : Out :=
  .next (scalar c f.pre (formB asS f && unused f.off) (do
    let t ← get
    pure (.jump ((t.core c).sreg f.ra.toNat).toNat)) s)

/-- RESERVED.OPCODE: a word whose opcode no table lists is a Stylus fault with DECODE, whatever its guard (R253, R256). A
word of a defined opcode is another row's command; here it changes nothing. -/
def definedOpcode (op : Nat) : Bool :=
  (decide (1 ≤ op) && decide (op ≤ 0x14)) || (decide (0x18 ≤ op) && decide (op ≤ 0x24)) || (decide (0x28 ≤ op) && decide (op ≤ 0x2D))
  || (decide (0x30 ≤ op) && decide (op ≤ 0x38)) || (decide (0x3C ≤ op) && decide (op ≤ 0x3E))
  || [0x40, 0x41, 0x44, 0x45, 0x48, 0x4C, 0x4D, 0x4E, 0x4F, 0x50, 0x51, 0x52, 0x54, 0x58, 0x59, 0x5A, 0x5B, 0x5E].contains op
  || [0x60, 0x61, 0x62, 0x63, 0x64, 0x68, 0x69, 0x6A, 0x6C, 0x6E].contains op
def execReservedOpcode (c : CoreId) (w : Word) (s : State) : Out :=
  .next (if definedOpcode (w.toNat / 2 ^ 56) then s else stylus c {} false (pure .step) (pure .step) s)

end Sys2Proof.Machine
end

