-- ==== Sys2Proof/Machine/Stream.lean ====
section
/-! DEFINITION. The stream engine (R247, R248, R268 to R276): STRM.COPY, STRM.FLASH, STRM.FADD and KV.PAGE. A command is a
list of items in LOOP.H order, cut into pieces; what lies on another chip moves in 64-byte units by packets, and flash
data is brought by FLASH_READ (notes/assumptions/28.md). -/
namespace Sys2Proof.Machine

structure StreamBlk where
  zrun : Nat
  tokEn : Bool
  piece : Nat
  zmask : Nat
  loopH : Nat
  deriving DecidableEq, Repr

def streamBlk (b : List Byte) : StreamBlk :=
  let c := pairVal (w64At b 0)
  { zrun := c / 2 ^ 14 % 4, tokEn := decide (c / 2 ^ 13 % 2 = 1), piece := pairVal (w64At b 8),
    zmask := (w64At b 0x10).toNat, loopH := field (w64At b 0x18) 23 0 }

def streamRsv (b : List Byte) (x : StreamBlk) : Bool :=
  let c := pairVal (w64At b 0)
  decide (c / 2 ^ 16 = 0) && decide (c % 2 ^ 8 = 0) && decide (x.piece < 2 ^ 24) && decide (x.zrun < 3)
    && decide (field (w64At b 0x18) 63 24 = 0) && allZero (slice b 0x20 32) && (loopOrder x.loopH 3).isSome

/-- Bytes of the zero mask of a tensor of LIMIT bursts (R247). -/
def maskBytes (limit : Nat) : Nat := roundUp (ceilDiv limit 8) 64

/-! ## Checks at issue (R274) -/

def inFlash (addr n : Nat) : Bool := overlaps (addr % 2 ^ 48) n flashBase (flashEnd - flashBase)

/-- No byte of a range lies in register space or at an unlisted offset; on this chip, none at a reserved one. -/
def State.reachOk (s : State) (addr n : Nat) : Bool :=
  let o := addr % 2 ^ 48
  let own := decide (addr / 2 ^ 48 = s.chip)
  let cores := if own then s.logicalCores else 128
  let top := if own && s.ftl.ready then min flashEnd (flashBase + s.ftl.capacity * 65536) else flashEnd
  let within (a b : Nat) : Bool := decide (a ≤ o) && decide (o + n ≤ b)
  decide (addr / 2 ^ 48 < 4096)
    && (within 0 hbmEnd || within spmBase (spmBase + cores * spmSize) || within accBase (accBase + cores * accSize)
      || within flashBase top)

/-- The pair of layouts and formats of the table "Stream layout pairs". -/
def streamPair (a d : Desc) : Bool :=
  let plain (l : Nat) : Bool := l == 0 || l == 1
  decide (a.fmt = d.fmt) && (
    (plain a.layout && plain d.layout && !isCell a.fmt && a.fmt != 9)
    || (a.layout == 2 && plain d.layout && (a.fmt == 1 || a.fmt == 2))
    || (plain a.layout && d.layout == 2 && (a.fmt == 1 || a.fmt == 2))
    || (a.layout == 3 && d.layout == 3))

def streamLimits (op : EngOp) (x : StreamBlk) (a d : Desc) : Bool :=
  match op with
  | .strmFlash => a.layout == 0 && d.layout == 0 && x.zrun == 0
  | .strmFadd => a.layout == 0 && d.layout == 0 && x.zrun == 0 && (a.fmt == 1 || a.fmt == 2)
  | _ => true

def aligned4K (d : Desc) : Bool := d.base % 4096 == 0 && d.bytes % 4096 == 0

/-- Row 7 of R274: STRM.COPY and STRM.FADD reach no flash, with their mask neither (R272). -/
def flashRule (op : EngOp) (x : StreamBlk) (a d : Desc) : Bool :=
  let fa := inFlash a.base a.bytes
  let fd := inFlash d.base d.bytes
  let fm := x.zrun != 0 && inFlash x.zmask (maskBytes (if x.zrun = 1 then d.limit else a.limit))
  if op = .strmFlash then (fa != fd) && (if fa then aligned4K a else aligned4K d) else !fa && !fd && !fm

def checkStream (c : CoreId) (k : QCmd) : Eng QCmd := do
  let _ := c
  let s ← get
  let x := streamBlk k.block
  let da ← liftE (k.desc 0)
  let dd ← liftE (k.desc 1)
  need (pairOk (w64At k.block 0) && pairOk (w64At k.block 8)) .integrity
  need (streamRsv k.block x && da.isSome && dd.isSome) .decode
  match da, dd with
  | some a, some d =>
    need ((List.range 4).all (fun i => a.x i == d.x i) && streamPair a d && streamLimits k.op x a d) .decode
    need (if x.zrun = 0 then x.zmask == 0
      else a.layout == 0 && d.layout == 0 && decide (k.op = .strmCopy) && x.zmask != 0 && x.zmask % 64 == 0) .decode
    need (x.tokEn || x.piece == 0) .decode
    need (flashRule k.op x a d) .decode
    let mask := if x.zrun = 1 then maskBytes d.limit else maskBytes a.limit
    need (s.reachOk a.base a.bytes && s.reachOk d.base d.bytes
      && (x.zrun == 0 || s.reachOk x.zmask mask)) .allocFault
    pure k
  | _, _ => throw .decode

/-! ## Items -/

/-- One access pair: n bytes from src to dst, both global addresses; `inside`: within both LIMITs (R77). -/
structure Move where
  src : Nat
  dst : Nat
  n : Nat
  inside : Bool
  deriving DecidableEq, Repr

/-- What a command does, in order: a copy; row d1 of an Etch block decoded; an Etch block encoded. -/
inductive Item where
  | copy (m : Move)
  | decode (cb : Nat) (i : Idx)
  | encode (cb rg d2 d3 : Nat)
  deriving DecidableEq, Repr

/-- The copies of a row of dimension 0 in chunks of n elements. -/
def rowMoves (n : Nat) (a d : Desc) (i : Idx) : List Item :=
  (List.range (ceilDiv (a.x 0) n)).map fun j =>
    let ix := { i with d0 := n * j }
    let len := (min n (a.x 0 - n * j)) * a.e
    let so := a.elemOff ix
    let o := d.elemOff ix
    .copy ⟨a.base + so, d.base + o, len, decide (so + len ≤ a.bytes) && decide (o + len ≤ d.bytes)⟩

/-- The items of one iteration of LOOP.H's nest: values of dimensions 1 to 3 (R269, R270). -/
def stepItems (x : StreamBlk) (a d : Desc) (t : List Nat) : List Item :=
  let i : Idx := ⟨0, t.getD 0 0, t.getD 1 0, t.getD 2 0⟩
  if isCell a.fmt then
    (List.range (ceilDiv (a.x 0) a.per)).map fun j =>
      let ix := { i with d0 := a.per * j, d1 := 4 * i.d1 }
      let so := a.cellOff ix
      let o := d.cellOff ix
      .copy ⟨a.base + so, d.base + o, 64, decide (so + 64 ≤ a.bytes) && decide (o + 64 ≤ d.bytes)⟩
  else if a.layout = 2 then (List.range (ceilDiv (a.x 0) 128)).map fun cb => .decode cb i
  else if d.layout = 2 then
    if i.d1 % 4 = 3 ∨ i.d1 + 1 = d.x 1 then
      (List.range (ceilDiv (a.x 0) 128)).map fun cb => .encode cb (i.d1 / 4) i.d2 i.d3
    else []
  else rowMoves (if x.zrun = 2 then 1 else 64 / a.e) a d i

/-- The halves a KV.PAGE copies, and its first slot and frame (R218). -/
def kvHalves (b : List Byte) : List Nat :=
  let h := (byteAt b 8).toNat
  (if h % 2 = 1 then [0] else []) ++ (if h / 2 % 2 = 1 then [1] else [])
def kvSlot (b : List Byte) : Nat := leNat (slice b 16 4)
def kvFrame (b : List Byte) : Nat := (w64At b 0).toNat

/-- The rows of half h into slot j of a staging tensor, from offset o of the frame. -/
def kvMoves (frame o h j : Nat) (d : Desc) : List Item :=
  (List.range 128).map fun t =>
    let len := d.x 0 * d.e
    let dst := d.elemOff ⟨0, t, j, 0⟩
    .copy ⟨frame + o + (128 * h + t) * len, d.base + dst, len, decide (dst + len ≤ d.bytes)⟩

/-- A dense row is contiguous; a swizzled one in chunks of 64 bytes (R307). -/
def splitMoves (d : Desc) (l : List Item) : List Item :=
  if d.layout = 0 then l
  else l.flatMap fun it => match it with
    | .copy m =>
      (List.range (ceilDiv m.n 64)).map fun q =>
        let n := min 64 (m.n - 64 * q)
        let dst := m.dst + 8192 * (q % 8) + 65536 * (q / 8)
        .copy ⟨m.src + 64 * q, dst, n, decide (dst + n ≤ d.base + d.bytes)⟩
    | y => [y]

/-- Iterations of the outermost index. -/
def streamOuter (x : StreamBlk) (d : Desc) : Nat × List Nat × List Nat :=
  let order := (loopOrder x.loopH 3).getD [0, 1, 2]
  let radix := [if isCell d.fmt then ceilDiv (d.x 1) 4 else d.x 1, d.x 2, d.x 3]
  (radix.getD (order.headD 0) 0, order, radix)

def noDesc : Desc := ⟨0, 0, 0, 0, 0, 0, 0, [], [], []⟩
def QCmd.d (k : QCmd) (i : Nat) : Desc := match k.desc i with
  | .ok (some d) => d
  | _ => noDesc

/-- The number of pieces (R271, R218). -/
def streamPieces (k : QCmd) : Nat :=
  if k.op = .kvPage then (kvHalves k.block).length
  else
    let x := streamBlk k.block
    if x.piece = 0 then 1 else ceilDiv (streamOuter x (k.d 1)).1 x.piece

/-- The items of piece p. A zero-run write tests whole bursts, so its first piece makes every write. -/
def pieceItems (k : QCmd) (p : Nat) : List Item :=
  if k.op = .kvPage then
    match (kvHalves k.block)[p]? with
    | none => []
    | some h =>
      let tk := k.d 0
      let tv := k.d 1
      let j := (kvSlot k.block + p) % max 1 (tk.x 2)
      splitMoves tk (kvMoves (kvFrame k.block) 0 h j tk)
        ++ splitMoves tv (kvMoves (kvFrame k.block) (256 * tk.x 0 * tk.e) h j tv)
  else
    let x := streamBlk k.block
    let (_, order, radix) := streamOuter x (k.d 1)
    let all := nest radix order
    let mine := if x.zrun = 1 then (if p = 0 then all else [])
      else if x.piece = 0 then all
      else all.filter fun t => t.getD (order.headD 0) 0 / x.piece == p
    mine.flatMap (stepItems x (k.d 0) (k.d 1))

/-! ## Units of other chips and of flash -/

/-- A location that the engine reaches itself: this chip, outside flash. -/
def State.direct (s : State) (addr : Nat) : Bool := decide (addr / 2 ^ 48 = s.chip) && !inFlash addr 1

def unitsCover (addr n : Nat) : List Nat :=
  if n = 0 then [] else (List.range ((addr + n - 1) / 64 - addr / 64 + 1)).map fun i => (addr / 64 + i) * 64

def QCmd.unit (k : QCmd) (u : Nat) : Option (List Byte) := (k.reads.find? fun e => e.1 == u).map (·.2)

def State.missing (s : State) (k : QCmd) (addr n : Nat) : List Nat :=
  if s.direct addr then [] else (unitsCover addr n).filter fun u => (k.unit u).isNone

def fetch (c : CoreId) (k : QCmd) (addr n : Nat) : Eng (List Byte) := do
  let s ← get
  if s.direct addr then memRead (.engine c.val) (addr % 2 ^ 48) n
  else pure (slice ((unitsCover addr n).flatMap fun u => (k.unit u).getD (zeros 64)) (addr % 64) n)

/-- The bit of the mask for the burst that holds a source address (R248). -/
def maskBit (mask : List Byte) (a : Desc) (src : Nat) : Bool :=
  let b := (src - a.base) / 64
  (byteAt mask (b / 8)).getLsbD (b % 8)

/-- A zero-run read, and a zero-run write (R247, R248). -/
def QCmd.zrunReads (k : QCmd) : Bool := k.op == .strmCopy && (streamBlk k.block).zrun == 2
def QCmd.zrunWrites (k : QCmd) : Bool := k.op == .strmCopy && (streamBlk k.block).zrun == 1

/-- The mask of a zero-run read, which it reads first and once, into `snap` (R248): units of it that still have to come. -/
def State.maskMissing (s : State) (k : QCmd) : List Nat :=
  if k.zrunReads && k.snap.isEmpty then s.missing k (streamBlk k.block).zmask (maskBytes (k.d 0).limit) else []

/-- A zero-run read takes its mask as soon as it has come. -/
def keepMask (c : CoreId) (k : QCmd) : Eng QCmd := do
  let s ← get
  if k.zrunReads && k.snap.isEmpty && (s.maskMissing k).isEmpty then
    pure { k with snap := ← fetch c k (streamBlk k.block).zmask (maskBytes (k.d 0).limit) }
  else pure k

/-- The source ranges of an item. -/
def State.itemReads (s : State) (c : CoreId) (k : QCmd) (it : Item) : List (Nat × Nat) :=
  match it with
  | .copy m =>
    let skip := k.zrunReads && !maskBit k.snap (k.d 0) m.src
    if skip || !m.inside then [] else [(m.src, m.n)]
  | .decode cb i =>
    let a := k.d 0
    let t := s.table c.val a.slot
    [(a.base + etchOff a t cb (i.d1 / 4) i.d2 i.d3, blockBytes t.bits)]
  | .encode cb rg d2 d3 =>
    let a := k.d 0
    (List.range 4).flatMap fun r =>
      if 4 * rg + r < a.x 1 then
        (List.range (min 128 (a.x 0 - 128 * cb))).map fun j => (a.base + a.elemOff ⟨128 * cb + j, 4 * rg + r, d2, d3⟩, a.e)
      else []

/-- The elements of a block row that an item decodes, in chunks of 64 bytes: first index and count. -/
def decodeChunks (d : Desc) (cb : Nat) : List (Nat × Nat) :=
  let n := 64 / d.e
  let last := min (d.x 0) (128 * cb + 128)
  (List.range (ceilDiv (last - 128 * cb) n)).map fun j => (128 * cb + n * j, min n (last - (128 * cb + n * j)))

/-- The destination ranges of an item. -/
def State.itemWrites (s : State) (c : CoreId) (k : QCmd) (it : Item) : List (Nat × Nat) :=
  match it with
  | .copy m => [(m.dst, m.n)]
  | .decode cb i =>
    let d := k.d 1
    (decodeChunks d cb).map fun q => (d.base + d.elemOff { i with d0 := q.1 }, q.2 * d.e)
  | .encode cb rg d2 d3 =>
    let d := k.d 1
    let t := s.table c.val d.slot
    [(d.base + etchOff d t cb rg d2 d3, blockBytes t.bits)]

/-- Bytes of each unit that writes cover, as masks. -/
def coverOne (m : List (Nat × Nat)) (w : Nat × Nat) : List (Nat × Nat) :=
  (unitsCover w.1 w.2).foldl (fun m u =>
    let lo := max u w.1 - u
    let hi := min (u + 64) (w.1 + w.2) - u
    let bits := (2 ^ (hi - lo) - 1) * 2 ^ lo
    match m.find? fun e => e.1 == u with
    | some e => m.map fun f => if f.1 = u then (u, e.2 ||| bits) else f
    | none => m ++ [(u, bits)]) m

/-- Units of another chip that a piece writes in part; what the rest holds must be known (notes/assumptions/28.md). -/
def State.partialUnits (s : State) (c : CoreId) (k : QCmd) (its : List Item) : List Nat :=
  if k.op = .strmFadd then []
  else
    let ws := (its.flatMap (s.itemWrites c k)).filter fun w => !s.direct w.1 && !inFlash w.1 1
    ((ws.foldl coverOne []).filter fun e => e.2 != 2 ^ 64 - 1).map (·.1)

/-- Units that piece p still awaits. -/
def State.pieceNeeds (s : State) (c : CoreId) (k : QCmd) (p : Nat) : List Nat :=
  match s.maskMissing k with
  | [] =>
    let its := pieceItems k p
    its.flatMap (fun it => (s.itemReads c k it).flatMap fun r => s.missing k r.1 r.2)
      ++ (s.partialUnits c k its).filter fun u => (k.unit u).isNone
  | l => l

/-- Runs of consecutive units, at most 63 each: first unit and count. -/
def unitRuns (l : List Nat) : List (Nat × Nat) :=
  (l.foldl (fun (a : List (Nat × Nat)) u => match a with
    | (b, n) :: r => if u = b + 64 * n ∧ n < 63 then (b, n + 1) :: r
                     else if b ≤ u ∧ u < b + 64 * n then a else (u, 1) :: a
    | [] => [(u, 1)]) []).reverse

/-- Asks other chips for units (R357); this chip's flash brings its own (notes/assumptions/28.md). -/
def askUnits (c : CoreId) (q : QueueId) (us : List Nat) (k : QCmd) : Eng QCmd := do
  let s ← get
  (unitRuns (us.filter fun u => !inFlash u 1 || decide (u / 2 ^ 48 ≠ s.chip))).foldlM (fun (k : QCmd) r => do
    sendRequest c q k.seq 0 (r.1 / 2 ^ 48) (r.1 % 2 ^ 48) 2 r.2 0 [] k.sent
    pure { k with sent := k.sent + 1, await := k.await + 1 }) k

/-- Asks other chips for the units that the command still needs (R357). -/
def requestNeeds (c : CoreId) (k : QCmd) : Eng QCmd := do
  if k.await ≠ 0 then return k
  let k ← keepMask c k
  let s ← get
  let todo := (List.range (streamPieces k - k.pieces)).flatMap fun i => s.pieceNeeds c k (k.pieces + i)
  let us := todo.foldl (fun l u => insertNat u l) []
  askUnits c k.op.queue us k

/-- A stream command starts: LOWER_TIER for this chip's flash while the layer is not ready (R325), R338, R330, then its
requests. -/
def startStream (c : CoreId) (k : QCmd) : Eng QCmd := do
  let s ← get
  need (k.op != .strmFlash || s.ftl.ready
    || !([k.d 0, k.d 1].any fun d => inFlash d.base 1 && decide (d.base / 2 ^ 48 = s.chip))) .lowerTier
  if k.op ≠ .kvPage then
    if (k.d 0).layout = 2 then let _ ← startEtch c (k.d 0)
    if (k.d 1).layout = 2 then let _ ← startEtch c (k.d 1)
  requestNeeds c k

/-! ## Performing a piece -/

/-- d + s of R273 for a chunk of elements. -/
def faddBytes (fmt : Nat) (d s : List Byte) : List Byte :=
  let f := (scalarFmt fmt).getD fp32
  let e := fmtSize fmt
  (List.range (s.length / e)).flatMap fun i =>
    le e (f.encode .near ((f.decode (leNat (slice d (e * i) e))).add (f.decode (leNat (slice s (e * i) e))))).code

/-- The data that an item writes, by address, up to an access beyond LIMIT, and that access's status. -/
def itemData (c : CoreId) (k : QCmd) (it : Item) : Eng (List (Nat × List Byte) × Option Status) := do
  match it with
  | .copy m => do
    need m.inside .allocFault
    let zero := k.zrunReads && !maskBit k.snap (k.d 0) m.src
    let v ← if zero then pure (zeros m.n) else fetch c k m.src m.n
    let s ← get
    if k.op = .strmFadd && s.direct m.dst then do
      let old ← memRead (.engine c.val) (m.dst % 2 ^ 48) m.n
      pure ([(m.dst, faddBytes (k.d 1).fmt old v)], none)
    else pure ([(m.dst, v)], none)
  | .decode cb i => do
    let a := k.d 0
    let d := k.d 1
    let s ← get
    let t := s.table c.val a.slot
    let o := etchOff a t cb (i.d1 / 4) i.d2 i.d3
    need (decide (o + blockBytes t.bits ≤ a.bytes)) .allocFault
    let bs ← fetch c k (a.base + o) (blockBytes t.bits)
    match blockCheck t a.slot a cb (i.d1 / 4) bs with
    | some st => do
      countBlock c st
      throw st
    | none =>
      let f := (scalarFmt d.fmt).getD fp32
      let off (q : Nat × Nat) : Nat := d.elemOff { i with d0 := q.1 }
      let qs := decodeChunks d cb
      let ins := qs.takeWhile fun q => decide (off q + q.2 * d.e ≤ d.bytes)
      pure (ins.map fun q => (d.base + off q, (List.range q.2).flatMap fun j =>
          le d.e (f.encode .near (blockValue t bs ((i.d1 % 4) * 128 + (q.1 + j) % 128))).code),
        if ins.length < qs.length then some .allocFault else none)
  | .encode cb rg d2 d3 => do
    let a := k.d 0
    let d := k.d 1
    let s ← get
    let t := s.table c.val d.slot
    let f := (scalarFmt a.fmt).getD fp32
    let xs ← (List.range 512).mapM fun i => do
      if etchValid a cb rg i then
        let so := a.elemOff ⟨128 * cb + i % 128, 4 * rg + i / 128, d2, d3⟩
        need (decide (so + a.e ≤ a.bytes)) .allocFault
        let v ← fetch c k (a.base + so) a.e
        pure (some (f.decode (leNat v)))
      else pure none
    let (bs, lost) := encodeBlock t d.slot f xs
    let o := etchOff d t cb rg d2 d3
    need (decide (o + bs.length ≤ d.bytes)) .allocFault
    if lost then modify fun s => s.modCore c fun x => { x with etchLost := satAdd 16 x.etchLost 1 }
    pure ([(d.base + o, bs)], none)

/-- Contiguous writes joined. -/
def joinWrites (l : List (Nat × List Byte)) : List (Nat × List Byte) :=
  (l.foldl (fun (a : List (Nat × List Byte)) w => match a with
    | (b, bs) :: r => if w.1 = b + bs.length then (b, bs ++ w.2) :: r else w :: a
    | [] => [w]) []).reverse

/-- One 64-byte pattern of −0 elements: adding it changes nothing but −0 itself, which it keeps. -/
def negZeros (fmt : Nat) : List Byte :=
  let e := fmtSize fmt
  (List.range (64 / e)).flatMap fun _ => zeros (e - 1) ++ [0x80]

/-- The units of writes to another chip, from what they held (or −0 for STRM.FADD). -/
def unitImages (k : QCmd) (ws : List (Nat × List Byte)) : List (Nat × List Byte) :=
  let blank (u : Nat) : List Byte := if k.op = .strmFadd then negZeros (k.d 1).fmt else (k.unit u).getD (zeros 64)
  let put (m : List (Nat × List Byte)) (u : Nat) (w : Nat × List Byte) : List (Nat × List Byte) :=
    let cur := match m.find? fun e => e.1 == u with
      | some e => e.2
      | none => blank u
    let img := (List.range 64).map fun i =>
      if w.1 ≤ u + i ∧ u + i < w.1 + w.2.length then byteAt w.2 (u + i - w.1) else byteAt cur i
    (m.filter fun e => e.1 != u) ++ [(u, img)]
  let m := ws.foldl (fun m w => (unitsCover w.1 w.2.length).foldl (fun m u => put m u w) m) []
  sortBy (fun a b => decide (a.1 ≤ b.1)) m

/-- Sends a piece's writes to other chips, and makes those to flash. -/
def flushWrites (c : CoreId) (k : QCmd) (ws : List (Nat × List Byte)) : Eng QCmd := do
  let s ← get
  let (near, far) := ws.partition fun w => decide (w.1 / 2 ^ 48 = s.chip)
  (joinWrites near).forM fun w => do
    need (!s.folio.areaFull (w.1 % 2 ^ 48 - flashBase) w.2.length) .lowerTier
    flashWrite (w.1 % 2 ^ 48) w.2 true
  let t ← get
  let k := if near.isEmpty then k else { k with xh := { k.xh with asked := t.ftl.nextSeq } }
  need (k.op != .strmFadd || far.all fun w => w.1 % fmtSize (k.d 1).fmt == 0) .allocFault
  let imgs := unitImages k far
  let k ← (unitRuns (imgs.map (·.1))).foldlM (fun (k : QCmd) r => do
    let data := (List.range r.2).flatMap fun i =>
      ((imgs.find? fun e => e.1 == r.1 + 64 * i).map (·.2)).getD (zeros 64)
    let fadd := decide (k.op = .strmFadd)
    sendRequest c k.op.queue k.seq 0 (r.1 / 2 ^ 48) (r.1 % 2 ^ 48) (if fadd then 5 else 1) r.2
      (if fadd then (k.d 1).fmt else 0) data k.sent
    pure { k with sent := k.sent + 1, await := k.await + 1 }) k
  pure { k with reads := k.reads.map fun e => match imgs.find? fun i => i.1 == e.1 with
    | some i => i
    | none => e }

/-- The bits of a zero-run write: 1 but for bursts all of whose written bytes are zero (R247). -/
def zeroBursts (d : Desc) (ws : List (Nat × List Byte)) : List (Nat × Bool) :=
  ws.foldl (fun m w => (enumFrom 0 w.2).foldl (fun (m : List (Nat × Bool)) (b : Nat × Byte) =>
    let q := (w.1 + b.1 - d.base) / 64
    match m.find? fun e => e.1 == q with
    | some e => if b.2 = 0 ∨ e.2 = false then m else m.map fun f => if f.1 = q then (q, false) else f
    | none => m ++ [(q, b.2 == 0)]) m) []

def zeroMask (d : Desc) (zs : List (Nat × Bool)) : List Byte :=
  (List.range (maskBytes d.limit)).map fun i =>
    BitVec.ofNat 8 ((List.range 8).foldl (fun v j =>
      let b := 8 * i + j
      if b < d.limit ∧ ¬ zs.contains (b, true) then v + 2 ^ j else v) 0)

/-- The bytes of a failed zero-run write are undefined (R249). -/
def forgetWrite (c : CoreId) (addr n : Nat) : Eng Unit := modify fun s =>
  if ¬ s.direct addr then s
  else match (memWrite (.engine c.val) (addr % 2 ^ 48) (s.peek (addr % 2 ^ 48) n)).exec s with
    | (.ok _, t) => { t with mem := t.mem.forget (addr % 2 ^ 48) n t.free, free := t.free + 1 }
    | (.error _, _) => s

/-- Writes in order: those that lie within reach are made, the others are added to `far`. -/
def placeWrites (c : CoreId) (far ws : List (Nat × List Byte)) : Eng (List (Nat × List Byte)) :=
  ws.foldlM (fun (far : List (Nat × List Byte)) w => do
    let s ← get
    if s.direct w.1 then do
      memWrite (.engine c.val) (w.1 % 2 ^ 48) w.2
      pure far
    else pure (far ++ [w])) far

/-- The writes of items, in order, up to the first access that fails: what does not lie within reach, and the status of
that access. The writes before it remain (R77). -/
def writeItems (c : CoreId) (k : QCmd) :
    List Item → List (Nat × List Byte) → Eng (List (Nat × List Byte) × Option Status)
  | [], far => pure (far, none)
  | it :: its, far => do
    let s ← get
    let go : Eng (List (Nat × List Byte) × Option Status) := do
      let (ws, bad) ← itemData c k it
      pure (← placeWrites c far ws, bad)
    match go.exec s with
    | (.ok (far, none), t) => do
      set t
      writeItems c k its far
    | (.ok (far, some st), t) => do
      set t
      pure (far, some st)
    | (.error st, t) => do
      set t
      pure (far, some st)

/-- The data of a zero-run write: each burst written or left out by what it would hold; the mask stays for its end (R247). -/
def zrunData (c : CoreId) (k : QCmd) (its : List Item) : Eng QCmd := do
  let d := k.d 1
  let ws ← its.mapM fun it => do
    let (l, bad) ← itemData c k it
    need bad.isNone (bad.getD .ok)
    pure l
  let zs := zeroBursts d ws.flatten
  let live := ws.flatten.flatMap fun w => (splitLines (w.2.length / 64 + 2) (w.1 - d.base) w.2).filterMap fun q =>
    if zs.contains (q.1 / 64, true) then none else some (d.base + q.1, q.2)
  let far ← placeWrites c [] live
  let k ← flushWrites c k far
  pure { k with snap := zeroMask d zs }

/-- The mask of a zero-run write, whole, after the data. -/
def zrunMask (c : CoreId) (k : QCmd) : Eng QCmd := do
  let far ← placeWrites c [] [((streamBlk k.block).zmask, k.snap)]
  let k ← flushWrites c k far
  pure { k with pieces := k.pieces + 1 }

/-- A zero-run write (R247): its first piece writes the data and, when those are all acknowledged, the mask. -/
def zrunWrite (c : CoreId) (k : QCmd) (its : List Item) : Eng QCmd := do
  if k.pieces ≠ 0 then return { k with pieces := k.pieces + 1 }
  let k ← if k.snap.isEmpty then zrunData c k its else pure k
  if k.await = 0 then zrunMask c k else pure k

/-- A zero-run write that ends early leaves destination and mask undefined (R249). -/
def zrunForget (c : CoreId) (k : QCmd) (s : State) : State :=
  if ¬ k.zrunWrites then s
  else
    let go : Eng Unit := do
      (pieceItems k 0).forM fun it => match it with
        | .copy m => if m.inside then forgetWrite c m.dst m.n else pure ()
        | _ => pure ()
      forgetWrite c (streamBlk k.block).zmask (maskBytes (k.d 1).limit)
    (go.exec s).2

/-- Performs the next piece. A piece that fails while packets of it are under way leaves its status for the end. -/
def performPiece (c : CoreId) (k : QCmd) : Eng QCmd := do
  let its := pieceItems k k.pieces
  if k.zrunWrites then zrunWrite c k its
  else
    let k ← keepMask c k
    let (far, bad) ← writeItems c k its []
    let k ← flushWrites c k far
    match bad with
    | none => pure { k with pieces := k.pieces + 1 }
    | some st => if k.await = 0 then throw st else pure { k with result := some st }

/-- Writes of this command whose journal records no commit has made safe (R325). -/
def State.uncommitted (s : State) (k : QCmd) : Bool :=
  s.ftl.pendingRecs.any fun r => decide (r.seq < k.xh.asked)

/-- Nothing is under way for the command: its writes are made and acknowledged. -/
def State.landed (s : State) (k : QCmd) : Bool := decide (k.await = 0) && !s.uncommitted k

/-- Counts the pieces that are visible and not counted yet, at most n (R87). -/
def countPieces (c : CoreId) (n : Nat) (k : QCmd) : Eng QCmd := do
  let s ← get
  match k.ctr with
  | none => pure { k with xh := { k.xh with tokens := k.pieces } }
  | some t =>
    if ¬ s.landed k then return k
    let m := min n (k.pieces - k.xh.tokens)
    (List.range m).foldlM (fun (k : QCmd) _ => do
      countToken c t
      pure { k with xh := { k.xh with tokens := k.xh.tokens + 1 } }) k

/-- The next piece can be performed. -/
def State.pieceReady (s : State) (c : CoreId) (k : QCmd) : Bool :=
  decide (k.pieces < streamPieces k) && decide (k.await = 0) && k.result.isNone && (s.pieceNeeds c k k.pieces).isEmpty

/-- PIECE_DELIVERY at a running stream command: one more piece visible, when it can be. -/
def deliverStream (c : CoreId) (k : QCmd) : Eng QCmd := do
  let s ← get
  if k.ctr.isNone then return k
  if k.xh.tokens < k.pieces then countPieces c 1 k
  else if s.pieceReady c k then do
    let k ← performPiece c k
    countPieces c 1 k
  else requestNeeds c k

/-- Performs what is left, as far as data is there. -/
def drainPieces (c : CoreId) : Nat → QCmd → Eng QCmd
  | 0, k => pure k
  | n + 1, k => do
    let s ← get
    if s.pieceReady c k then do
      let k ← performPiece c k
      let k ← countPieces c k.pieces k
      drainPieces c n k
    else pure k

/-- COMMAND_END at a stream command: the command after what could be done, and whether it has ended. -/
def finishStream (c : CoreId) (k : QCmd) : Eng (QCmd × Bool) := do
  match k.result with
  | some st => if k.await = 0 then throw st else pure (k, false)
  | none =>
    let n := streamPieces k
    let k ← drainPieces c n k
    let k ← countPieces c n k
    let s ← get
    if k.pieces ≥ n ∧ s.landed k then pure (k, true)
    else do
      let k ← if k.pieces < n then requestNeeds c k else pure k
      pure (k, false)

/-! ## ETCH.BUILD's source tensor (R340) -/

/-- HIST asks for what its source holds on another chip; flash holds no source (R272). -/
def startBuild (c : CoreId) (k : QCmd) : Eng QCmd := do
  let d := k.d 0
  if (buildBlk k.block).mode ≠ 0 then return k
  need (!inFlash d.base d.bytes) .allocFault
  let s ← get
  let as := (etchBlocks d).flatMap fun b => (blockAddrs d b).filterMap id
  let us := (as.filter fun a => decide (a + d.e ≤ d.base + d.bytes)).flatMap fun a => s.missing k a d.e
  askUnits c .sq (us.foldl (fun l u => insertNat u l) []) k

/-- COMMAND_END at an ETCH.BUILD: it ends when its source is there. -/
def finishBuild (c : CoreId) (k : QCmd) : Eng (QCmd × Bool) := do
  if k.await ≠ 0 then return (k, false)
  match k.result with
  | some st => throw st
  | none => do
    runEtchBuild c k (fetch c k)
    pure (k, true)

/-! ## KV.PAGE at issue (R218, R276) -/

/-- The fields of a KV.PAGE word that the word alone decides (R218, R252 to R256). -/
def formK (f : FmtK) : Bool := plainPre f.pre && unused f.rsv && f.halves != 0

/-- The copies and checks of the stream command that a KV.PAGE issues (R274). -/
def checkKv (frame fsize : Nat) (tk tv : Except Status Desc) : Eng Unit := do
  let a ← liftE tk
  let b ← liftE tv
  let ok (d : Desc) : Bool := (d.layout == 0 || d.layout == 1) && !isCell d.fmt && d.fmt != 9
  need (ok a && ok b) .decode
  let s ← get
  need (!inFlash a.base a.bytes && !inFlash b.base b.bytes) .decode
  let o := frame % 2 ^ 48
  need (s.reachOk a.base a.bytes && s.reachOk b.base b.bytes && decide (frame / 2 ^ 48 < 4096)
    && decide (o + fsize ≤ hbmEnd)) .allocFault

/-- KV.PAGE executes: the entry's paired load, the faults of R218 and R276, then one stream command in SQ. -/
def kvIssue (c : CoreId) (f : FmtK) : Eng Flow := do
  let s ← get
  let x := s.core c
  let tkb := x.tdBytes f.tk.toNat
  let tvb := x.tdBytes f.tv.toNat
  let entry := x.areg f.ae.toNat
  let base := (x.areg f.af.toNat).toNat
  let fsize := (x.sreg f.rfs.toNat).toNat
  if ¬ x.hasRoom .kvPage then return .stall (fullStall x .kvPage)
  let e ← scalarLoad entry 8 8 true
  let frame ← getPair (w64At e 0)
  need (decide (frame ≠ 0xFFFFFFFF)) .allocFault
  need (decide (fsize % 64 = 0)) .decode
  let tk := parseDesc tkb
  let tv := parseDesc tvb
  need (!differ (descFmt tkb) (descFmt tvb) && (List.range 4).all (fun i => !differ (descExt tkb i) (descExt tvb i))
    && decide (512 * ((descExt tkb 0).getD 0) * fmtSize ((descFmt tkb).getD 0) ≤ fsize)) .decode
  let addr := (base + frame * fsize) % 2 ^ 64
  let nslot := match tk with
    | .ok a => max 1 (a.x 2)
    | .error _ => 1
  let first := (x.sreg f.rsl.toNat).toNat % nslot
  issueCmd c .kvPage true f.pre.span (fun k => pure { k with
      block := le 8 addr ++ le 8 f.halves.toNat ++ le 8 first
      descs := [some tkb, some tvb]
      ctr := some f.ctr.toNat }) fun k => do
    checkKv addr fsize tk tv
    pure k

/-! ## Issue -/

/-- STRM.COPY (R268 to R271, R274). -/
def execStrmCopy (c : CoreId) (f : FmtC) (s : State) : Host.Outcome State Fault Refusal :=
  .next (engineC c .strmCopy f checkStream s)
/-- STRM.FLASH (R272). -/
def execStrmFlash (c : CoreId) (f : FmtC) (s : State) : Host.Outcome State Fault Refusal :=
  .next (engineC c .strmFlash f checkStream s)
/-- STRM.FADD (R273). -/
def execStrmFadd (c : CoreId) (f : FmtC) (s : State) : Host.Outcome State Fault Refusal :=
  .next (engineC c .strmFadd f checkStream s)
/-- KV.PAGE (R218, R276); with a failing guard it takes its number and reads no entry (R253). -/
def execKvPage (c : CoreId) (f : FmtK) (s : State) : Host.Outcome State Fault Refusal :=
  .next (stylus c f.pre (formK f) (issueCmd c .kvPage false f.pre.span pure pure) (kvIssue c f) s)
/-- ETCH.BUILD (R339, R343). -/
def execEtchBuild (c : CoreId) (f : FmtC) (s : State) : Host.Outcome State Fault Refusal :=
  .next (engineC c .etchBuild f checkEtchBuild s)

/-! ## FLASH_READ -/

/-- A running command of a core that awaits [off, off + n) of this chip's flash: a STRM.FLASH its source, an ATTN in
score-store mode its PROB (R203). -/
def State.flashWaiter (s : State) (c : CoreId) (off n : Nat) : Option QCmd :=
  let waits (i : Nat) (k : QCmd) : Bool :=
    let a := k.d i
    k.started && !k.shadow && k.result.isNone && inFlash a.base a.bytes
      && decide (a.base / 2 ^ 48 = s.chip) && overlaps (a.base % 2 ^ 48) a.bytes off n
  let x := s.core c
  firstSome (x.sq.cmds.head?.filter fun k => decide (k.op = .strmFlash) && waits 0 k)
    (x.bq.cmds.head?.filter fun k => decide (k.op = .attn) && waits 7 k)

/-- FLASH_READ (R320, R324, R325): its own request; the first core whose STRM.FLASH awaits the data receives it, or ends
with the failure. -/
def execFlashRead (off len : Nat) (readable : Bool) (s : State) : Host.Outcome State Fault Refusal :=
  let r := (flashRead off len readable).exec s
  let st := match r.1 with
    | .ok _ => Status.ok
    | .error e => e
  let t := r.2.endRequest st
  match State.coreIds.find? fun c => (t.flashWaiter c off len).isSome with
  | none => .next t
  | some c =>
    match t.flashWaiter c off len with
    | none => .next t
    | some k =>
      match r.1 with
      | .error e => .next (t.putCmd c { k with result := some e })
      | .ok bs =>
        let us := (unitsCover off len).filter fun u => decide (off ≤ u) && decide (u + 64 ≤ off + len)
        let new := us.map fun u => (s.chip * 2 ^ 48 + u, slice bs (u - off) 64)
        .next (t.putCmd c { k with reads := (k.reads.filter fun e => !new.any fun n => n.1 == e.1) ++ new })

end Sys2Proof.Machine
end

