-- ==== Sys2Proof/Machine/Attn.lean ====
section
/-! DEFINITION. ATTN (R200 to R227): its checks, scores and online softmax, masks, rotary positions, gating by blocks,
backward by recomputation, and score-store mode. Row statistics and output tiles are kept in the command's own
accumulator banks (R204; notes/assumptions/29.md). -/
namespace Sys2Proof.Machine

structure AttnBlk where
  back : Bool
  mask : Nat
  blockmap : Bool
  rope : Bool
  ropeK : Bool
  init : Bool
  final : Bool
  sstore : Bool
  v8c : Bool
  d : Nat
  qh : Nat
  qblk : Nat
  accBase : Nat
  seqLen : Nat
  qpos : Nat
  latH : Nat
  latW : Nat
  scale : F32
  texpP : Int
  texpV : Int
  texpK : Int
  texpQ : Int
  pt : Nat
  ph : Nat
  wb : Nat
  hb : Nat
  nkb : Nat
  klist : Nat
  qshift : Nat
  kshift : Nat
  rlog : Nat
  clog : Nat
  baseB : Nat
  relEn : Bool
  relCtr : Nat
  nslot : Nat
  gateEn : Bool
  gateCtr : Nat
  ids : Word
  gscale : F32
  deriving DecidableEq, Repr

def attnBlk (b : List Byte) : AttnBlk :=
  let v (o : Nat) : Nat := pairVal (w64At b o)
  let c := v 0
  let t := v 0x28
  let m := w64At b 0x50
  let g := w64At b 0x58
  let bit (n : Nat) : Bool := decide (c / 2 ^ n % 2 = 1)
  { back := decide (c / 2 ^ 30 % 4 = 1), mask := c / 2 ^ 28 % 4, blockmap := bit 27, rope := bit 26, ropeK := bit 25,
    init := bit 24, final := bit 23, sstore := bit 22, v8c := bit 21, d := 64 * (c / 2 ^ 18 % 8 + 1),
    qh := c / 2 ^ 14 % 16 + 1, qblk := c / 2 ^ 10 % 16 + 1, accBase := c / 2 ^ 4 % 64, seqLen := v 8 % 2 ^ 24 + 1,
    qpos := v 0x10 % 2 ^ 24, latH := v 0x18 / 2 ^ 12 % 4096, latW := v 0x18 % 4096, scale := BitVec.ofNat 32 (v 0x20),
    texpP := signed 7 (t / 2 ^ 21 % 128), texpV := signed 7 (t / 2 ^ 14 % 128), texpK := signed 7 (t / 2 ^ 7 % 128),
    texpQ := signed 7 (t % 128), pt := v 0x30 / 2 ^ 7 % 128, ph := v 0x30 % 128, wb := v 0x38 / 2 ^ 16, hb := v 0x38 % 2 ^ 16,
    nkb := v 0x40 % 2 ^ 16, klist := (w64At b 0x48).toNat, qshift := field m 19 15, kshift := field m 14 10,
    rlog := field m 9 5, clog := field m 4 0, baseB := field g 47 32, relEn := flag g 17, relCtr := field g 16 12,
    nslot := field g 11 6 + 1, gateEn := flag g 5, gateCtr := field g 4 0, ids := w64At b 0x70,
    gscale := BitVec.ofNat 32 (v 0x78) }

/-- Rsv fields zero and defined codes (R205). -/
def attnRsv (b : List Byte) (x : AttnBlk) : Bool :=
  let v (o : Nat) : Nat := pairVal (w64At b o)
  let c := v 0
  decide (c / 2 ^ 30 < 2) && decide (x.mask < 3) && decide (c / 2 ^ 18 % 8 < 4) && decide (c % 16 = 0)
    && decide (v 8 < 2 ^ 24) && decide (v 0x10 < 2 ^ 24) && decide (v 0x18 < 2 ^ 24) && decide (v 0x28 < 2 ^ 28)
    && decide (v 0x30 < 2 ^ 14) && decide (v 0x40 < 2 ^ 16) && decide (1 ≤ x.nkb) && decide (field (w64At b 0x50) 63 20 = 0)
    && decide (field (w64At b 0x58) 63 48 = 0) && decide (field (w64At b 0x58) 31 18 = 0)
    && (slice b 0x60 16).all (fun r => decide (r.toNat / 16 % 8 = 0)) && idsOk x.ids && (x.back || x.gscale == 0)

/-- QB (R201). -/
def AttnBlk.qb (x : AttnBlk) : Nat := x.qh * x.qblk
/-- Sweeps of the list (R224). -/
def AttnBlk.sweeps (x : AttnBlk) : Nat := if x.sstore && !x.back then 2 else 1

/-- Role r: its td register when PRESENT. -/
def attnRole (b : List Byte) (r : Nat) : Option Nat :=
  let v := byteAt b (0x60 + r)
  if v.getLsbD 7 then some (v.toNat % 16) else none

/-- Required roles, and roles that may not be PRESENT (R202; notes/assumptions/29.md for a role whose condition does not
hold). -/
def rolesOk (x : AttnBlk) (p : Nat → Bool) : Bool :=
  let req (r : Nat) (b : Bool) : Bool := !b || p r
  let not_ (r : Nat) : Bool := !p r
  [0, 1, 2].all p && (List.range 4).all (fun i => not_ (12 + i)) && req 6 x.rope && req 7 x.sstore
    && (if x.back then [3, 4, 8, 9, 10, 11].all p && not_ 5
        else req 3 x.final && req 4 x.final && req 5 (x.init || !x.final) && [8, 9, 10, 11].all not_)

/-- The format rules of R202. -/
def attnFormats (x : AttnBlk) (f : Nat → Option Nat) : Bool :=
  let isIn (r : Nat) (l : List Nat) : Bool := match f r with
    | none => true
    | some v => l.contains v
  let q := (f 0).getD 0
  isIn 0 [2, 3, 4] && (if q = 2 then isIn 1 [2] else isIn 1 [3, 4]) && isIn 2 [2, 3, 4] && isIn 3 [1, 2] && isIn 4 [1]
    && isIn 5 [1] && isIn 6 [1] && isIn 7 [2] && isIn 8 [2] && isIn 9 [1] && isIn 10 [1] && isIn 11 [1]
    && (!x.back || (isIn 0 [2] && isIn 1 [2] && isIn 2 [2]))

/-- The shape rules of R202 and R205. -/
def attnShapes (x : AttnBlk) (ds : List (Option Desc)) : Bool :=
  let q := (ds.getD 0 none).getD noDesc
  let rows := q.x 1
  let is3 (r a b c : Nat) : Bool := match ds.getD r none with
    | none => true
    | some d => d.x 0 == a && d.x 1 == b && d.x 2 == c && d.x 3 == 1
  let kv (r : Nat) : Bool := is3 r x.d 128 x.nslot
  is3 0 x.d rows x.qh && decide (rows ≤ 128 * x.qblk) && kv 1 && kv 2 && is3 3 x.d rows x.qh && is3 4 2 rows x.qh
    && is3 5 (x.d + 2) rows x.qh && is3 7 x.seqLen rows x.qh && is3 8 x.d rows x.qh && is3 9 x.d rows x.qh && kv 10 && kv 11
    && (match ds.getD 6 none with
      | none => true
      | some d => d.x 0 == x.d && d.x 2 == 1 && d.x 3 == 1)
    && ds.all fun d => match d with
      | none => true
      | some d => d.layout == 0 || d.layout == 1

def checkAttn (c : CoreId) (k : QCmd) : Eng QCmd := do
  let s ← get
  let co := s.core c
  let x := attnBlk k.block
  let raw := (List.range 16).map fun r => (attnRole k.block r).map co.tdBytes
  let ds ← raw.mapM fun o => match o with
    | none => pure none
    | some b => do
      let d ← liftE (parseDesc b)
      pure (some d)
  need ([0, 8, 0x10, 0x18, 0x20, 0x28, 0x30, 0x38, 0x40, 0x78].all fun o => pairOk (w64At k.block o)) .integrity
  need (attnRsv k.block x && rolesOk x fun r => (ds.getD r none).isSome) .decode
  need (attnFormats x (fun r => (ds.getD r none).map (·.fmt)) && attnShapes x ds) .decode
  let q := (ds.getD 0 none).getD noDesc
  need (decide (x.qpos + q.x 1 ≤ x.seqLen) && (!(x.mask == 2 || x.rope) || (x.latH != 0 && x.latW != 0))
    && (!x.rope || decide (x.pt + x.ph ≤ x.d / 2)) && (!x.blockmap || decide (x.rlog + x.clog ≤ 17))
    && decide (2 ≤ x.nslot)) .decode
  need ((!x.sstore || decide (x.seqLen ≤ 131072)) && (!(x.sstore && !x.back) || (!x.init && x.final))
    && (!x.back || !x.final)) .decode
  need (x.gateEn && x.relEn) .decode
  need (s.inSpm c x.klist (8 * x.nkb) && (enumFrom 0 ds).all fun e => match e.2 with
    | none => true
    | some d => e.1 == 7 || s.inOwn c d.base d.bytes) .allocFault
  need (decide (x.qb ≤ 16) && decide (x.accBase + 10 + x.qb * (x.d / 32) ≤ 64)) .allocFault
  let own := (List.range (10 + x.qb * (x.d / 32))).foldl (fun (w : Word) i => w ||| (1#64 <<< (x.accBase + i))) 0
  let held := (enumFrom 0 ds).foldl (fun (w : Word) e => match e.2 with
    | none => w
    | some d => w ||| s.banksOf c d) own
  pure { k with
    descs := raw
    banks := held
    gate := some (x.gateCtr, x.baseB, x.nkb * x.sweeps)
    uses := if x.blockmap then [1] else [] }

/-! ## What a running command needs -/

/-- A running ATTN: its block, descriptors by role, and where its row statistics and tiles lie. -/
structure AttnRun where
  c : CoreId
  k : QCmd
  x : AttnBlk

def AttnRun.req (a : AttnRun) : Requester := .engine a.c.val
def AttnRun.d (a : AttnRun) (r : Nat) : Desc := a.k.d r
def AttnRun.statOff (a : AttnRun) (q i : Nat) : Nat := accOf a.c.val + a.x.accBase * 16384 + 16 * (128 * q + i)
def AttnRun.tileOff (a : AttnRun) (q i n : Nat) : Nat :=
  accOf a.c.val + (a.x.accBase + 10 + q * (a.x.d / 32)) * 16384 + 4 * (a.x.d * i + n)
def AttnRun.getF (_ : AttnRun) (s : State) (o : Nat) : F32 := w32At (s.peek o 4) 0
def AttnRun.getRow (a : AttnRun) (s : State) (q i : Nat) : List F32 :=
  let bs := s.peek (a.tileOff q i 0) (4 * a.x.d)
  (List.range a.x.d).map fun n => w32At bs (4 * n)
def AttnRun.putRow (a : AttnRun) (s : State) (q i : Nat) (v : List F32) : State :=
  s.poke (a.tileOff q i 0) (v.flatMap fun f => le 4 f.toNat)
def AttnRun.putStat (a : AttnRun) (s : State) (q i : Nat) (v : List F32) : State :=
  s.poke (a.statOff q i) (v.flatMap fun f => le 4 f.toNat)

/-- Head and row of row i of query block q. -/
def AttnRun.rowIdx (a : AttnRun) (q i : Nat) : Nat × Nat := (q / a.x.qblk, 128 * (q % a.x.qblk) + i)
/-- Rows of query block q that are valid (R216). -/
def AttnRun.rows (a : AttnRun) (q : Nat) : List Nat :=
  (List.range 128).filter fun i => decide ((a.rowIdx q i).2 < (a.d 0).x 1)
def AttnRun.pos (a : AttnRun) (q i : Nat) : Nat := a.x.qpos + (a.rowIdx q i).2

/-! ## Masks (R209 to R211) -/

def AttnBlk.frame (x : AttnBlk) (p : Nat) : Nat := p / (x.latH * x.latW)
def AttnBlk.admits (x : AttnBlk) (r k : Nat) : Bool :=
  match x.mask with
  | 0 => true
  | 1 => decide (k ≤ r)
  | _ => decide (x.frame k ≤ x.frame r)

/-- The pair's bit in the mask table (R211). -/
def AttnRun.mapBit (a : AttnRun) (s : State) (q kpos : Nat) : Bool :=
  let x := a.x
  let qb := (x.qpos + 128 * (q % x.qblk)) / 128
  let i := qb / 2 ^ x.qshift % 2 ^ x.rlog * 2 ^ x.clog + kpos / 128 / 2 ^ x.kshift % 2 ^ x.clog
  (s.mem.byte (spmOf a.c.val + bankOff 1 (bitOf a.k.tables 1) + i / 8)).getLsbD (i % 8)

/-- R210. -/
def AttnRun.skips (a : AttnRun) (s : State) (q kpos : Nat) : Bool :=
  !(a.rows q).any (fun i => a.x.admits (a.pos q i) kpos) || (a.x.blockmap && !a.mapBit s q kpos)

/-! ## Rotary positions (R212) -/

def pairsOf (l : List F32) : List (F32 × F32) :=
  (List.range (l.length / 2)).map fun i => (l.getD (2 * i) 0, l.getD (2 * i + 1) 0)

/-- A row rotated for position p and converted to its format: the codes. -/
def AttnRun.rotate (a : AttnRun) (fmt : Nat) (texp : Int) (p : Nat) (codes : List Nat) : Eng (List Nat) := do
  let x := a.x
  let f := (scalarFmt fmt).getD bf16
  let rot := a.d 6
  let val (v : Nat) : Fp := if fmt = 2 then f.decode v else (f.decode v).scale texp
  let t := x.frame p
  let h := p / x.latW % x.latH
  let w := p % x.latW
  let out ← (List.range (x.d / 2)).mapM fun i => do
    let row := if i < x.pt then t else if i < x.pt + x.ph then x.hb + h else x.wb + w
    need (decide (row < rot.x 1)) .allocFault
    let cs ← readF32 a.req rot ⟨2 * i, row, 0, 0⟩ 0
    let sn ← readF32 a.req rot ⟨2 * i + 1, row, 0, 0⟩ 0
    let u := val (codes.getD (2 * i) 0)
    let v := val (codes.getD (2 * i + 1) 0)
    let y0 := toF32 ((u.mul (ofF32 cs)).sub (v.mul (ofF32 sn)))
    let y1 := toF32 ((u.mul (ofF32 sn)).add (v.mul (ofF32 cs)))
    pure [(encodeScalar fmt .near texp (ofF32 y0)).1, (encodeScalar fmt .near texp (ofF32 y1)).1]
  pure out.flatten

def readCodes (r : Requester) (d : Desc) (n i j : Nat) : Eng (List Nat) :=
  (List.range n).mapM fun e => readCode r d ⟨e, i, j, 0⟩

/-- The values of row i of query block q, rotated when ROPE is 1, without TEXP. -/
def AttnRun.qRow (a : AttnRun) (q i : Nat) : Eng (List Fp) := do
  let d := a.d 0
  let (h, r) := a.rowIdx q i
  let cs ← readCodes a.req d a.x.d r h
  let cs ← if a.x.rope then a.rotate d.fmt a.x.texpQ (a.pos q i) cs else pure cs
  pure (cs.map ((scalarFmt d.fmt).getD bf16).decode)

/-- The rows of K or V of a slot, for n valid keys. -/
def AttnRun.kRows (a : AttnRun) (slot kpos n : Nat) : Eng (List (List Fp)) := do
  let d := a.d 1
  (List.range n).mapM fun t => do
    let cs ← readCodes a.req d a.x.d t slot
    let cs ← if a.x.rope && a.x.ropeK then a.rotate d.fmt a.x.texpK (kpos + t) cs else pure cs
    pure (cs.map ((scalarFmt d.fmt).getD bf16).decode)

def AttnRun.vRows (a : AttnRun) (slot n : Nat) : Eng (List (List Fp)) := do
  let d := a.d 2
  (List.range n).mapM fun t => do
    let cs ← readCodes a.req d a.x.d t slot
    pure (cs.map ((scalarFmt d.fmt).getD bf16).decode)

/-! ## Products (R136 with FP32) -/

/-- Adds the products of two lists to a running FP32 value in groups of 32, scaled by 2^texp. -/
def groupDot : Nat → F32 → Int → List Fp → List Fp → F32
  | 0, run, _, _, _ => run
  | n + 1, run, texp, us, vs =>
    match (us.take 32).zip (vs.take 32) with
    | [] => run
    | (u, v) :: ps =>
      let g := ps.foldl (fun (t : Fp) p => t.add (p.1.mul p.2)) (u.mul v)
      let e := Elem.addGroup fp32 .near ⟨run.toNat, false, false, false⟩ (g.scale texp)
      groupDot n (BitVec.ofNat 32 e.code) texp (us.drop 32) (vs.drop 32)

def dot (run : F32) (texp : Int) (us vs : List Fp) : F32 := groupDot (us.length / 32 + 1) run texp us vs

/-- Column n of rows. -/
def column (m : List (List Fp)) (n : Nat) : List Fp := m.map fun r => r.getD n (.zero false)

/-- The scaled, masked scores of a row against a block (R206): 128 values, −∞ where masked or absent. -/
def AttnRun.scores (a : AttnRun) (q i kpos : Nat) (qr : List Fp) (ks : List (List Fp)) : List F32 :=
  (List.range 128).map fun t => match ks[t]? with
    | none => f32NegInf
    | some kr =>
      if a.x.admits (a.pos q i) (kpos + t) then f32Mul (dot 0 (a.x.texpQ + a.x.texpK) qr kr) a.x.scale else f32NegInf

/-- p in V's format, divided by 2^TEXP_P: value and counts. -/
def AttnRun.encodeP (a : AttnRun) (e : F32) : Fp × Counts :=
  let fmt := (a.d 2).fmt
  let v := ofF32 e
  let (code, n) := if fmt = 2 then encodeScalar fmt .near 0 (v.scale (-a.x.texpP)) else encodeScalar fmt .near a.x.texpP v
  (((scalarFmt fmt).getD bf16).decode code, n)

/-- O_q + p · V_j for one row. -/
def AttnRun.addPv (a : AttnRun) (row : List F32) (ps : List Fp) (vs : List (List Fp)) : List F32 :=
  (enumFrom 0 row).map fun e => dot e.2 (a.x.texpP + a.x.texpV) (ps.take vs.length) (column vs e.1)

def bfVal (x : F32) : Fp := bf16.decode (toBf16 (ofF32 x)).toNat

/-! ## One pair -/

/-- Forward: row i of query block q against block j, with the online softmax. -/
def AttnRun.pairRow (a : AttnRun) (q kpos : Nat) (ks vs : List (List Fp)) (first : Bool) (i : Nat) : Eng Unit := do
  let qr ← a.qRow q i
  let s ← get
  let m := a.getF s (a.statOff q i)
  let l := a.getF s (a.statOff q i + 4)
  let st := rowStat a.x.v8c (a.scores q i kpos qr ks) m l
  modify fun s => a.putStat s q i [st.m, st.l, st.c, 0]
  if ¬ first then
    let ps := st.e.map a.encodeP
    let row := (a.getRow s q i).map fun o => f32Mul o st.c
    modify fun s => a.putRow s q i (a.addPv row (ps.map (·.1)) vs)
    let n := (ps.take vs.length).foldl (fun (n : Counts) p => n.add p.2) {}
    modify fun s => s.watchAdd a.c (watchName a.x.ids) n

/-- lse2 of R207. -/
def AttnRun.lse2 (a : AttnRun) (m l : F32) : F32 := f32Add m (f32Log2 a.x.v8c l)

/-- The address in PROB of row i of query block q at a key position (R202). -/
def AttnRun.probAddr (a : AttnRun) (q i key : Nat) : Nat :=
  let (h, r) := a.rowIdx q i
  (a.d 7).base + (a.d 7).elemOff ⟨key, r, h, 0⟩

/-- The writes of a row of PROB at keys kpos to kpos + n − 1 (R224). -/
def AttnRun.probWrite (a : AttnRun) (q i kpos : Nat) (ps : List Nat) : List (Nat × List Byte) :=
  (enumFrom 0 ps).map fun e => (a.probAddr q i (kpos + e.1), le 2 e.2)

/-- Second sweep of score-store mode (R224). -/
def AttnRun.probRow (a : AttnRun) (q kpos : Nat) (ks vs : List (List Fp)) (skip : Bool) (i : Nat) :
    Eng (List (Nat × List Byte)) := do
  let s ← get
  if skip then pure (a.probWrite q i kpos (vs.map fun _ => 0))
  else do
    let qr ← a.qRow q i
    let m := a.getF s (a.statOff q i)
    let l := a.getF s (a.statOff q i + 4)
    let z := a.lse2 m l
    let p : List F32 := (enumFrom 0 (a.scores q i kpos qr ks)).map fun e =>
      if a.x.admits (a.pos q i) (kpos + e.1) && decide (e.1 < ks.length) then f32Exp2 a.x.v8c (f32Sub e.2 z) else 0
    let en := p.map a.encodeP
    modify fun s => a.putRow s q i (a.addPv (a.getRow s q i) (en.map (·.1)) vs)
    let n := (en.take vs.length).foldl (fun (n : Counts) p => n.add p.2) {}
    modify fun s => s.watchAdd a.c (watchName a.x.ids) n
    pure (a.probWrite q i kpos ((p.take ks.length).map fun v => (toBf16 (ofF32 v)).toNat))

/-- Writes to PROB, which may lie anywhere (R203): here at once, elsewhere by packets. What a unit of another chip holds
beside them is known by now. -/
def AttnRun.sendProb (a : AttnRun) (ws : List (Nat × List Byte)) : Eng AttnRun := do
  let ws := joinWrites ws
  let far ← ws.foldlM (fun (far : List (Nat × List Byte)) w => do
    let d := a.d 7
    need (decide (w.1 + w.2.length ≤ d.base + d.bytes)) .allocFault
    let s ← get
    if s.direct w.1 then do
      memWrite a.req (w.1 % 2 ^ 48) w.2
      pure far
    else pure (far ++ [w])) []
  if far.isEmpty then return a
  let k ← flushWrites a.c a.k far
  pure { a with k := k }

/-- Δ of R222: products added by fma in the order of R172. -/
def dotRow (us vs : List F32) : F32 :=
  treeFold f32Add 8 ((List.range 256).map fun j =>
    ((enumFrom 0 (us.zip vs)).filter fun e => e.1 % 256 == j).foldl (fun p e => f32Fma e.2.1 e.2.2 p) 0)

/-- Backward: what one row of query block q contributes: p, ds, and the row's Q and dO (R222). -/
structure BackRow where
  i : Nat
  p : List F32
  ds : List F32
  q : List Fp
  dO : List Fp

def AttnRun.doRow (a : AttnRun) (q i : Nat) : Eng (List Fp) := do
  let (h, r) := a.rowIdx q i
  let cs ← readCodes a.req (a.d 8) a.x.d r h
  pure (cs.map bf16.decode)

def AttnRun.readProb (a : AttnRun) (q i kpos n : Nat) : Eng (List F32) := do
  let d := a.d 7
  (List.range n).mapM fun t => do
    let o := a.probAddr q i (kpos + t)
    need (decide (o + 2 ≤ d.base + d.bytes)) .allocFault
    let bs ← fetch a.c a.k o 2
    pure (BitVec.ofNat 32 (leNat bs * 65536))

def AttnRun.backRow (a : AttnRun) (q kpos : Nat) (ks vs : List (List Fp)) (i : Nat) : Eng BackRow := do
  let x := a.x
  let qr ← a.qRow q i
  let dO ← a.doRow q i
  let s ← get
  let z := a.getF s (a.statOff q i)
  let delta := a.getF s (a.statOff q i + 4)
  let p : List F32 ← if x.sstore then a.readProb q i kpos ks.length
    else pure (((a.scores q i kpos qr ks).take ks.length).map fun v => f32Exp2 x.v8c (f32Sub v z))
  let ds := (p.zip vs).map fun e => f32Mul (f32Mul e.1 (f32Sub (dot 0 0 dO e.2) delta)) x.gscale
  modify fun s => a.putRow s q i ((enumFrom 0 (a.getRow s q i)).map fun e => dot e.2 0 (ds.map bfVal) (column ks e.1))
  pure ⟨i, p, ds, qr, dO⟩

/-- One query block's contribution to dK and dV. -/
def addTransposed (tile : List (List F32)) (w : List (List F32)) (rows : List (List Fp)) : List (List F32) :=
  (enumFrom 0 tile).map fun r =>
    let ps := w.map fun l => bfVal (l.getD r.1 0)
    (enumFrom 0 r.2).map fun e => dot e.2 0 ps (column rows e.1)

/-! ## Blocks -/

/-- KPOS of list entry j (R213). -/
def AttnRun.kposOf (a : AttnRun) (j : Nat) : Eng Nat := do
  let bs ← memRead a.req (a.x.klist % 2 ^ 48 + 8 * j) 8
  let v ← getPair (w64At bs 0)
  need (decide (v < 2 ^ 24) && v % 128 == 0 && decide (v < a.x.seqLen)) .decode
  pure v

def AttnRun.countPair (a : AttnRun) (skip : Bool) : Eng Unit := modify fun s => s.modCore a.c fun y =>
  if skip then { y with pairsSkipped := satAdd 24 y.pairsSkipped 1 } else { y with pairs := satAdd 32 y.pairs 1 }

/-- Piece n of the list is processed and released (R206, R215, R222, R224). -/
def AttnRun.block (a : AttnRun) (n : Nat) : Eng AttnRun := do
  let x := a.x
  let second := decide (n ≥ x.nkb)
  let kpos ← a.kposOf (n % x.nkb)
  let slot := n % x.nslot
  let keys := min 128 (x.seqLen - kpos)
  let ks ← a.kRows slot kpos keys
  let vs ← a.vRows slot keys
  let zero : List (List F32) := List.replicate 128 (List.replicate x.d 0)
  let r ← (List.range x.qb).foldlM (fun (acc : AttnRun × List (List F32) × List (List F32)) q => do
    let s ← get
    let skip := a.skips s q kpos
    a.countPair skip
    if x.back then
      if skip then pure acc
      else do
        let rows ← (a.rows q).mapM (a.backRow q kpos ks vs)
        pure (acc.1, addTransposed acc.2.1 (rows.map (·.ds)) (rows.map (·.q)),
          addTransposed acc.2.2 (rows.map (·.p)) (rows.map (·.dO)))
    else if second then do
      let ws ← (a.rows q).mapM (a.probRow q kpos ks vs skip)
      let b ← acc.1.sendProb ws.flatten
      pure (b, acc.2)
    else if skip then pure acc
    else do
      (a.rows q).forM (a.pairRow q kpos ks vs (decide (x.sweeps = 2)))
      pure acc) (a, zero, zero)
  if x.back then
    [(10, r.2.1), (11, r.2.2)].forM fun e => (enumFrom 0 e.2).forM fun row => (enumFrom 0 row.2).forM fun v =>
      writeCode a.req (a.d e.1) ⟨v.1, row.1, slot, 0⟩ v.2.toNat
  countToken a.c x.relCtr
  pure { r.1 with k := { r.1.k with pieces := n + 1 } }

/-- The row state at the start (R206, R222). -/
def AttnRun.start (a : AttnRun) : Eng Unit := do
  let x := a.x
  modify fun s => s.watchAdd a.c (watchName x.ids) {}
  (List.range x.qb).forM fun q => (a.rows q).forM fun i => do
    let (h, r) := a.rowIdx q i
    let zero : List F32 := List.replicate x.d 0
    if x.back then
      let o ← (List.range x.d).mapM fun n => readF32 a.req (a.d 3) ⟨n, r, h, 0⟩ 0
      let g ← (List.range x.d).mapM fun n => readF32 a.req (a.d 8) ⟨n, r, h, 0⟩ 0
      let z ← readF32 a.req (a.d 4) ⟨1, r, h, 0⟩ 0
      let dq ← if x.init then (List.range x.d).mapM fun n => readF32 a.req (a.d 9) ⟨n, r, h, 0⟩ 0 else pure zero
      modify fun s => (a.putStat s q i [z, dotRow g o, 0, 0]).poke (a.tileOff q i 0) (dq.flatMap fun f => le 4 f.toNat)
    else if x.init then
      let v ← (List.range (x.d + 2)).mapM fun n => readF32 a.req (a.d 5) ⟨n, r, h, 0⟩ 0
      modify fun s => a.putRow (a.putStat s q i [v.getD x.d 0, v.getD (x.d + 1) 0, 0, 0]) q i (v.take x.d)
    else modify fun s => a.putRow (a.putStat s q i [f32NegInf, 0, 0, 0]) q i zero

/-- What is written after the last pair (R207, R222, R224, R225). -/
def AttnRun.finish (a : AttnRun) : Eng Unit := do
  let x := a.x
  (List.range x.qb).forM fun q => (a.rows q).forM fun i => do
    let s ← get
    let (h, r) := a.rowIdx q i
    let row := a.getRow s q i
    let m := a.getF s (a.statOff q i)
    let l := a.getF s (a.statOff q i + 4)
    if x.back then (enumFrom 0 row).forM fun e => writeCode a.req (a.d 9) ⟨e.1, r, h, 0⟩ e.2.toNat
    else if x.final then do
      let empty := l == 0
      let m := if empty then f32NegInf else m
      (enumFrom 0 row).forM fun e => do
        let v := if empty then 0 else if x.sstore then e.2 else f32Div e.2 l
        let (code, n) := encodeScalar (a.d 3).fmt .near 0 (ofF32 v)
        writeCode a.req (a.d 3) ⟨e.1, r, h, 0⟩ code
        modify fun s => s.watchAdd a.c (watchName x.ids) n
      writeCode a.req (a.d 4) ⟨0, r, h, 0⟩ m.toNat
      writeCode a.req (a.d 4) ⟨1, r, h, 0⟩ (if empty then f32NegInf else a.lse2 m l).toNat
    else (enumFrom 0 (row ++ [m, l])).forM fun e => writeCode a.req (a.d 5) ⟨e.1, r, h, 0⟩ e.2.toNat

/-! ## Progress -/

def attnOf (c : CoreId) (k : QCmd) : AttnRun := ⟨c, k, attnBlk k.block⟩

/-- What piece n needs of a PROB that the engine does not reach itself and has not been brought yet (R224): backward, the
units of the values it reads; in the second sweep, the units of another chip that it writes in part. -/
def AttnRun.probNeeds (a : AttnRun) (s : State) (kpos : Nat) (second : Bool) : List Nat :=
  let x := a.x
  if !x.sstore || !(x.back || second) || s.direct (a.d 7).base then []
  else
    let keys := min 128 (x.seqLen - kpos)
    let spans := (List.range x.qb).flatMap fun q =>
      if x.back && a.skips s q kpos then [] else (a.rows q).flatMap fun i =>
        ((List.range keys).map fun t => (a.probAddr q i (kpos + t), 2)).filter fun w =>
          decide (w.1 + w.2 ≤ (a.d 7).base + (a.d 7).bytes)
    let us := if x.back then (spans.flatMap fun w => unitsCover w.1 w.2).foldl (fun l u => insertNat u l) []
      else (((spans.filter fun w => !inFlash w.1 1).foldl coverOne []).filter fun e => e.2 != 2 ^ 64 - 1).map (·.1)
    us.filter fun u => (a.k.unit u).isNone

/-- ATTN starts: the row state. -/
def startAttn (c : CoreId) (k : QCmd) : Eng QCmd := do
  (attnOf c k).start
  pure k

/-- Processes every block that the gate admits (R214) and whose part of PROB has come. -/
def attnBlocks (c : CoreId) : Nat → QCmd → Eng QCmd
  | 0, k => pure k
  | n + 1, k => do
    let s ← get
    match (s.core c).gateFailed k with
    | some st => throw st
    | none =>
      if k.pieces < (s.core c).released k then do
        let a := attnOf c k
        let needs ← if a.x.sstore then do
            let kpos ← a.kposOf (k.pieces % a.x.nkb)
            pure (a.probNeeds s kpos (decide (k.pieces ≥ a.x.nkb)))
          else pure []
        if needs.isEmpty then do
          let a ← a.block k.pieces
          attnBlocks c n a.k
        else if k.await = 0 then askUnits c .bq needs k
        else pure k
      else pure k

def advanceAttn (c : CoreId) (k : QCmd) : Eng QCmd := do
  match k.result with
  | some st => throw st
  | none => attnBlocks c ((attnBlk k.block).nkb * (attnBlk k.block).sweeps + 1) k

/-- The results of an ATTN, or none of them (R225). -/
def AttnRun.finishAll (a : AttnRun) : Eng Unit := do
  let s ← get
  match a.finish.exec s with
  | (.ok _, t) => set t
  | (.error st, t) => do
    set { t with mem := s.mem }
    throw st

/-- COMMAND_END at ATTN. -/
def finishAttn (c : CoreId) (k : QCmd) : Eng (QCmd × Bool) := do
  let k ← advanceAttn c k
  let x := attnBlk k.block
  let s ← get
  if k.pieces < x.nkb * x.sweeps ∨ ¬ s.landed k then pure (k, false)
  else do
    (attnOf c k).finishAll
    pure (k, true)

/-- ATTN (R200 to R205): one number in BQ and one in HQ. -/
def execAttn (c : CoreId) (f : FmtC) (s : State) : Host.Outcome State Fault Refusal :=
  .next (engineC c .attn f checkAttn s)

end Sys2Proof.Machine
end

