-- ==== Sys2Proof/Machine/Power.lean ====
section
/-! DEFINITION. Power domains (R494 to R496), the power cap (R499, R500), droop (R501), die temperatures (R503, R504),
THERMTRIP_N (R505), and the resets that reach the whole device (R498, R548, R549). -/
namespace Sys2Proof.Machine

/-! ## Domains -/

/-- Domains that domain i requires to be on (R494); the control-die core is always on. -/
def domainNeeds (i : Nat) : List Nat :=
  if i < 16 then [16 + i / 4] else if i < 20 then [] else if i < 24 then [16 + (i - 20)]
  else if i = 24 then [16, 17] else if i = 25 then [18, 19] else if i = 26 then [16] else if i = 27 then [19] else []

/-- The order in which Easel raises domains, one at a time (R497). -/
def raiseOrder : List (Fin 30) := [16, 17, 18, 19, 20, 21, 22, 23, 0, 1, 2, 3, 4, 5, 6, 7, 8, 9, 10, 11, 12, 13, 14, 15, 24, 25, 26, 27]
/-- The domains of a mask in that order. -/
def raiseList (mask : Nat) : List (Fin 30) := raiseOrder.filter fun i => mask / 2 ^ i.val % 2 == 1

/-- Every domain that is on has what it requires (R495). -/
def domainsOk (on : Nat) : Bool :=
  (List.range 28).all fun i => on / 2 ^ i % 2 == 0 || (domainNeeds i).all fun j => on / 2 ^ j % 2 == 1

/-- Cluster domain i holds a core of an enabled partition. -/
def State.domainUsed (s : State) (i : Nat) : Bool :=
  (List.range s.logicalCores).any fun n =>
    let (d, k) := s.physical n
    4 * d + k == i && (s.partOf ⟨n % 128, Nat.mod_lt _ (by decide)⟩).isSome

/-- What a domain that is off leaves: scratchpads and accumulator files of a cluster, and the stacks of a PHY group, hold
undefined values, and the stacks must train again; the ports of a link die are down and train when it is on; the jobs of a
media die end with FENCED and its sessions are lost (R496; notes/assumptions/34.md). -/
def State.domainOff (s : State) (i : Nat) : State :=
  if i < 16 then
    ((List.range s.logicalCores).filter fun n =>
      let (d, k) := s.physical n
      4 * d + k == i).foldl State.forgetCore s
  else if 20 ≤ i ∧ i < 24 then
    (List.range 3).foldl (fun t j =>
      let k := 3 * (i - 20) + j
      let t := t.stackAt k fun x => { x with ready := false }
      { t with mem := t.mem.forgetStack hbmEnd k none t.free, free := t.free + 1,
               damage := t.damage.filter fun d => (hbmMap d.1).1 != k }) s
  else if 24 ≤ i ∧ i < 26 then
    overFin 36 (fun p s =>
      if dieOfPort p.val = i - 24 then
        (s.flushPort p).modPort p fun x => { x with state := .idle, waiting := s.fabric.run && x.trains }
      else s) s
  else if 26 ≤ i ∧ i < 28 then
    overFin 8 (fun e s =>
      if e.val / 4 = i - 26 then (s.endJobs e .fenced).modEngine e Engine.resetEngine else s) s
  else s

/-- A write of PWR_DOMAIN (R495): domains turned off go at once; domains turned on are raised one at a time. -/
def State.writeDomains (s : State) (v : Word) : State :=
  let want := field v 27 0
  let on := s.power.on.toNat
  let ups := want &&& ((2 ^ 28 - 1) ^^^ on)
  let downs := on &&& ((2 ^ 28 - 1) ^^^ want)
  if field v 29 28 ≠ 3 then s.badWrite
  else if s.tick.run then (if want = on then s else s.badWrite)
  else if ¬ domainsOk want then s.badWrite
  else if (List.range 16).any fun i => downs / 2 ^ i % 2 == 1 && s.domainUsed i then s.badWrite
  else
    let s := ((List.range 28).reverse.filter fun i => downs / 2 ^ i % 2 == 1).foldl State.domainOff s
    { s with power := { s.power with on := BitVec.ofNat 28 (on &&& want), raising := raiseList ups } }

/-- PWR_DOMAIN (R495). -/
def execPwrDomain (v : Word) (s : State) : Host.Outcome State Fault Refusal := .next (s.writeDomains v)

/-- POWER_DOMAIN_RAISED (R495, R497, R508): Easel has raised and checked the domain that ramps; after the last one of a
start-up it goes on to HBM training. -/
def execPowerDomainRaised (i : Fin 30) (s : State) : Host.Outcome State Fault Refusal :=
  .next (match s.power.raising with
    | j :: rest =>
      if i = j then
        { s with
          power := { s.power with raising := rest, on := s.power.on ||| BitVec.ofNat 28 (2 ^ i.val) }
          qcp := if rest.isEmpty ∧ s.qcp.stage = 2 then { s.qcp with stage := 3 } else s.qcp }
      else s
    | [] => s)

/-! ## Power cap and droop -/

/-- CAP as it acts (R500). -/
def State.capWatts (s : State) : Nat := max 600 (min (if s.fuses.gradeB then 2100 else 2400) s.power.cap)
def Power.windowTicks (p : Power) : Nat := max 1 p.window

/-- The tick at whose edge a step of the tick period takes effect with this check: the edge just past, or the edge to come
(R499; notes/assumptions/34.md). -/
def Tick.stepsAt (t : Tick) : Option Nat :=
  if ¬ t.tickStarted then none
  else match t.pending with
    | some (n, _) => if n ≤ t.number + 1 then some (t.number + 1) else none
    | none => if t.number ≠ 0 ∧ t.lastChange = t.number then some t.number else none

/-- POWER_CAP_CHECK (R499) at a tick edge, before or after its TICK_EDGE, with the average power of the tick that ended;
after a step has taken effect no request is made until WINDOW whole ticks have elapsed. Averages are rounded down
(notes/assumptions/34.md). -/
def execPowerCapCheck (lastTick : Half) (s : State) : Host.Outcome State Fault Refusal :=
  let p := s.power
  let w := lastTick.toNat
  let all := p.samples ++ [w]
  let samples := all.drop (all.length - p.windowTicks)
  let avg := samples.foldl (· + ·) 0 / samples.length
  let fresh := s.tick.stepsAt.isSome && decide (s.tick.stepsAt ≠ p.quietFor)
  let quiet := if fresh then p.windowTicks else p.quiet - 1
  let ask := s.tick.run && quiet == 0 && decide (avg > s.capWatts)
  .next { s with power := { p with
    samples := samples, last := w, peak := max p.peak w, average := avg, quiet := quiet
    quietFor := if fresh then s.tick.stepsAt else p.quietFor
    stretchAsk := p.stretchAsk || ask, capRequests := if ask then satAdd 32 p.capRequests 1 else p.capRequests } }

/-- DROOP_RESPONSE (R501): cycle counts and bits are unchanged; the event is counted. -/
def execDroopResponse (s : State) : Host.Outcome State Fault Refusal :=
  .next { s with tick := { s.tick with droops := satAdd 16 s.tick.droops 1 } }

/-! ## Die temperatures -/

/-- A die's band after a sample (R503). -/
def nextDieBand (b : DieBand) (t : Nat) : DieBand :=
  if t > 110 ∨ (b = .stop ∧ t > 100) then .stop
  else if t > 95 ∨ (b ≠ .normal ∧ t > 92) then .stretch
  else .normal

/-- DIE_TEMP_SAMPLE (R503, R504): a sample above 95 °C requests a step; a rise to band stop stops the group and is
recorded. -/
def execDieTempSample (die : Fin 13) (celsius : Byte) (s : State) : Host.Outcome State Fault Refusal :=
  let p := s.power
  let t := celsius.toNat
  let b := nextDieBand p.dieBand[die] t
  let ask := decide (t > 95)
  let q := { p with
    dieTemp := p.dieTemp.set die.val t die.isLt, dieBand := p.dieBand.set die.val b die.isLt
    stretchAsk := p.stretchAsk || ask, thermRequests := if ask then satAdd 32 p.thermRequests 1 else p.thermRequests }
  let s' := { s with power := q }
  if b = .stop ∧ p.dieBand[die] ≠ .stop then
    let u := s'.deviceRecord .thermal 5 die.val t
    .next (if u.tick.run then { u with power := { u.power with thermAbort := true } } else u)
  else .next s'

/-- THERMTRIP_N (R505). -/
def execThermtripN (src : ThermSource) (celsius : Byte) (s : State) : Host.Outcome State Fault Refusal :=
  let above := match src with
    | .die _ => decide (celsius.toNat > 125)
    | .stack _ => decide (celsius.toNat > 115)
  .next (if above && !s.power.tripped then { s with power := { s.power with tripped := true } }.emit .thermtrip else s)

/-! ## Resets of the whole device -/

/-- A stack through a cold reset: fuses stay; a fuse repair whose record is incomplete is tested again (R300). -/
def Stack.atColdReset (x : Stack) : Stack :=
  { fusedLanes := x.fusedLanes, hardRows := x.hardRows
    retestRow := match x.busy with
      | some b => if b.code = 3 then some (rowOfArg b.arg0) else x.retestRow
      | none => x.retestRow
    retestLane := match x.busy with
      | some b => if b.code = 5 then some (laneOfArg b.arg0) else x.retestLane
      | none => x.retestLane }

/-- COLD_RESET_N (R498, R546, R549): everything returns to its reset value but fuses, flash and what the model itself
keeps; HBM contents are undefined, and the test port stays as it is. -/
def State.coldReset (s : State) : State :=
  let r : State := State.reset
  { r with
    mem := r.mem.forget 0 hbmEnd s.free
    nand := s.nand
    bootFlash := s.bootFlash
    fuses := s.svnLoss (s.free + 1)
    hbmStacks := s.hbmStacks.map Stack.atColdReset
    ftl := { r.ftl with capacity := s.ftl.capacity, nextSeq := s.ftl.nextSeq, checkpoint := s.ftl.checkpoint,
                        journal := s.ftl.journal, blocks := s.ftl.blocks, good := s.ftl.good, spare := s.ftl.spare,
                        retired := s.ftl.retired }
    parts := resetParts s.logicalCores
    sec := { r.sec with nonce := Config.freeWord (s.free + 2) }
    tap := s.tap
    drive := s.drive
    free := s.free + 3
    out := s.out
    pending := s.pending }

/-- COLD_RESET_N (R549): an assertion of at least 1 ms. -/
def execColdResetN (ns : Nat) (s : State) : Host.Outcome State Fault Refusal :=
  .next (if ns ≥ 1000000 then s.coldReset else s)
/-- POWER_GOOD_LOSS (R498, R546): a deassertion of 2 µs or longer. -/
def execPowerGoodLoss (ns : Nat) (s : State) : Host.Outcome State Fault Refusal :=
  .next (if ns ≥ 2000 then s.coldReset else s)
/-- REFCLK_LOSS (R548): a stop of 1 µs or longer. -/
def execRefclkLoss (ns : Nat) (s : State) : Host.Outcome State Fault Refusal :=
  .next (if ns ≥ 1000 then s.coldReset else s)
/-- WARM_RESET_N (R549): an assertion of at least 10 µs. -/
def execWarmResetN (ns : Nat) (s : State) : Host.Outcome State Fault Refusal :=
  .next (if ns ≥ 10000 then s.deviceRecover 0 else s)

end Sys2Proof.Machine
end

