-- ==== Sys2Proof/Machine/Boot.lean ====
section
/-! DEFINITION. Start-up (R508 to R517): the configuration copies and their validity, the boot slots, the measurements,
and how boot firmware applies the configuration. notes/assumptions/35.md names what the manual leaves open here. -/
namespace Sys2Proof.Machine

/-! ## Configuration copies (R511, R512) -/

def State.bootBytes (s : State) (o n : Nat) : List Byte := s.bootFlash.bytes o n
/-- Copy k of the configuration block. -/
def State.cfgCopy (s : State) (k : Nat) : List Byte := s.bootBytes (0x1000 * k) 0x1000

def cfgMagic : List Byte := [0x4F, 0x5A, 0x44, 0x58, 0x43, 0x4F, 0x4E, 0x46]
/-- Value of the paired word at offset o. -/
def pw (b : List Byte) (o : Nat) : Nat := pairVal (w64At b o)

/-- Offsets of the paired words of a copy but SEQ. -/
def cfgPairs : List Nat :=
  [0x08, 0x18, 0x20, 0x28, 0x30, 0x38, 0x40, 0x48] ++ (List.range 36).map fun n => 0x108 + 16 * n

/-- Rsv fields of a copy are zero. -/
def cfgRsv (b : List Byte) : Bool :=
  decide (pw b 0x18 < 65536) && decide (pw b 0x20 < 65536) && decide (pw b 0x28 < 2 ^ 24) && decide (pw b 0x30 < 64)
    && decide (pw b 0x40 < 2 ^ 13)
    && (List.range 2).all (fun p => allZero (slice b (0x85 + 64 * p) 3) && allZero (slice b (0x99 + 64 * p) 39))
    && (List.range 36).all (fun n =>
      let m := (w64At b (0x100 + 16 * n)).toNat
      decide (m < 2 ^ 24) && m % 32 == 0 && decide (pw b (0x108 + 16 * n) < 65536))
    && allZero (slice b 0x340 3260)

/-- Values lie in their ranges. -/
def cfgRange (b : List Byte) : Bool :=
  decide (pw b 0x18 < 4096)
    && (List.range 2).all (fun p => decide ((byteAt b (0x84 + 64 * p)).toNat ≤ 32) && decide ((byteAt b (0x98 + 64 * p)).toNat ≤ 128))
    && (List.range 36).all fun n =>
      let m := w64At b (0x100 + 16 * n)
      decide (field m 23 18 < 36) && decide (field m 15 14 < 3) && decide (field m 13 12 < 3) && decide (field m 11 6 < 36)

/-- Why a copy is not valid, coded as CFG_STATUS.REASON; 0 for a valid one. -/
def cfgReason (b : List Byte) : Nat :=
  if b.take 8 ≠ cfgMagic ∨ w64At b 8 ≠ pair 1 then 1
  else if w32At b 0xFFC ≠ crc32c (b.take 0xFFC) then 2
  else if ¬ (cfgPairs.all (fun o => pairOk (w64At b o)) && pairOk (w64At b 0x10) && cfgRsv b) then 3
  else if ¬ cfgRange b then 4
  else 0

/-- M := SHA-384(M ‖ SHA-384(d)) (R517). -/
def extendMeas (m d : List Byte) : List Byte := Config.sha384 (m ++ Config.sha384 d)
def Boot.extend (b : Boot) (k : Nat) (d : List Byte) : Boot :=
  { b with meas := Vector.ofFn fun (i : Fin 4) => if i.val = k then extendMeas b.meas[i] d else b.meas[i] }

/-! ## Boot slots (R515, R516) -/

def fwMagic : List Byte := [0x4F, 0x5A, 0x44, 0x58, 0x46, 0x57, 0x49, 0x4D]
def slotBase (k : Nat) : Nat := 0x100000 + k * 0x1000000

/-- A firmware header's MAGIC and Rsv fields. -/
def fwForm (h : List Byte) : Bool :=
  h.take 8 == fwMagic && allZero (slice h 0x38 8) && allZero (slice h 0x70 144) && allZero (slice h 0x2B0 80)
    && allZero (slice h 0x43E0 3104)
def fwPairs (h : List Byte) : Bool := [0x08, 0x10, 0x18, 0x20, 0x28, 0x30].all fun o => pairOk (w64At h o)
def fwRange (h : List Byte) : Bool :=
  decide (pw h 0x08 < 65536) && decide (pw h 0x10 ≤ 64) && decide (1 ≤ pw h 0x20) && decide (pw h 0x20 ≤ 16756736)
    && decide (pw h 0x28 < 65536) && decide (pw h 0x30 < 4)

/-- The header's keys are those that the fused entry KEY holds. -/
def State.keyMatches (s : State) (key : Nat) (rsa slh : List Byte) : Bool :=
  s.fuses.rootKeys.toList.getD key [] == Config.sha384 (rsa ++ slh)
def State.keyRevoked (s : State) (key : Nat) : Bool := flag s.fuses.revoked key
/-- Both signatures verify over the signed bytes (R515). -/
def sigsOk (rsaPub slhPub msg rsaSig slhSig : List Byte) : Bool :=
  Config.rsaVerify rsaPub msg rsaSig && Config.slhVerify slhPub msg slhSig
def fwSigned (h : List Byte) : Bool :=
  sigsOk (slice h 0x100 384) (slice h 0x280 48) (h.take 0x300) (slice h 0x300 384) (slice h 0x480 16224)

/-- A boot slot passes (R516). -/
def State.slotPasses (s : State) (k : Nat) : Bool :=
  let h := s.bootBytes (slotBase k) 0x5000
  fwForm h && fwPairs h && fwRange h && !s.keyRevoked (pw h 0x30) && s.keyMatches (pw h 0x30) (slice h 0x100 384) (slice h 0x280 48)
    && fwSigned h && decide (s.fuses.svn ≤ pw h 0x10)
    && Config.sha384 (s.bootBytes (slotBase k + 0x5000) (pw h 0x20)) == slice h 0x40 48

/-- The slot that is tried first: the larger GEN field, slot 0 of equals. -/
def State.firstSlot (s : State) : Nat :=
  let gen (k : Nat) : Nat := pw (s.bootBytes (slotBase k) 0x30) 0x28 % 65536
  if gen 1 > gen 0 then 1 else 0

/-! ## The commands -/

/-- A fresh estimate E of the time to readiness (R510). -/
def State.newEstimate (s : State) : State :=
  let (w, t) := s.draw
  { t with qcp := { t.qcp with estimate := max 1 (w.toNat % 1001) } }

/-- POWER_ON (R508): power good and reset release start the boot ROM. -/
def execPowerOn (s : State) : Host.Outcome State Fault Refusal :=
  .next (if s.boot.powered then s
    else ({ s with boot := { s.boot with powered := true }, qcp := { s.qcp with stage := 0 } }).newEstimate)

/-- The configuration copy that the boot ROM uses (R512, R513), measured in M1 (R517). -/
def State.selectCfg (s : State) : State :=
  let a := s.cfgCopy 0
  let b := s.cfgCopy 1
  let r0 := cfgReason a
  let r1 := cfgReason b
  let defaulted := decide (r0 ≠ 0) && decide (r1 ≠ 0)
  let one := r1 == 0 && (r0 != 0 || decide (pw a 0x10 < pw b 0x10))
  let use := if one then b else a
  { s with
    cfg := { s.cfg with
      defaulted := defaulted, copy := if one then 1 else 0, seq := if defaulted then 0 else pw use 0x10
      reason0 := r0, reason1 := r1 }
    boot := s.boot.extend 1 (if defaulted then zeros 4096 else use) }

/-- Boots slot k: what its header says of the running firmware (R516, R525), measured in M0. -/
def State.bootSlot (s : State) (k first failed : Nat) : State :=
  let h := s.bootBytes (slotBase k) 0x5000
  { s with
    boot := ({ s.boot with
      booted := true, version := pw h 0x08, imageSvn := pw h 0x10, abi := pw h 0x18, gen := pw h 0x28, key := pw h 0x30
      slot := k, failed := failed, fallback := decide (k ≠ first), rsaPub := slice h 0x100 384
      slhPub := slice h 0x280 48 }).extend 0 (h.take 0x300)
    qcp := { s.qcp with stage := 1 } }

/-- BOOT_ROM (R508, R512, R516): with no slot that passes, the device raises nothing. -/
def execBootRom (s : State) : Host.Outcome State Fault Refusal :=
  if ¬ s.boot.powered ∨ s.boot.booted ∨ s.boot.failed ≠ 0 then .next s
  else
    let s := s.selectCfg
    let a := s.firstSlot
    let b := 1 - a
    .next (if s.slotPasses a then (s.bootSlot a a 0).newEstimate
      else if s.slotPasses b then (s.bootSlot b a (2 ^ a)).newEstimate
      else { s with boot := { s.boot with failed := 3 } })

/-- A port's XH_PORT_MAP fields written from a register word (R377). SPARE is kept on every port and has its effect on the
flex ports alone (DEDUCED: "flex ports only" beside the access RW; notes/assumptions/52.md). -/
def Port.setMap (x : Port) (p : Nat) (v : Word) : Port :=
  { x with
    peerPort := field v 23 18, cls := field v 15 14, mode := field v 13 12, spareFor := field v 11 6
    level := if p < 32 then x.level else field v 17 16
    spare := flag v 5 }

/-- The membership key of a configuration copy (R524): its key, if it unwraps, and its generation. -/
def State.memberKey (s : State) (b : List Byte) : Option (List Byte) × Nat :=
  let gen := pw b 0x48
  (if gen = 0 then none else Config.unwrapKey s.fuses.uid (BitVec.ofNat 32 gen) (slice b 0x50 48), gen)

/-- The port addresses of a copy (R512, R433). The fields' form is "bytes": they are read in the order in which an address
stands in a packet, first byte first (DESIGN CHOICE, notes/assumptions/52.md). -/
def EthPort.setAddr (x : EthPort) (b : List Byte) (p : Nat) : EthPort :=
  let o := 0x80 + 64 * p
  { x with
    ipv4 := BitVec.ofNat 32 (beNat (slice b o 4)), prefix4 := (byteAt b (o + 4)).toNat
    ipv6 := BitVec.ofNat 128 (beNat (slice b (o + 8) 16)), prefix6 := (byteAt b (o + 24)).toNat }

/-- The settings of R514 steps 1 and 2 from a copy. -/
def State.applyCopy (s : State) (b : List Byte) : State :=
  let off := pw b 0x20
  let (k, gen) := s.memberKey b
  let s := { s with
    chipId := pair (pw b 0x18)
    fabric := { s.fabric with rowRacks := pw b 0x30 }
    power := { s.power with cap := pw b 0x28 % 65536, window := pw b 0x28 / 65536, raising := raiseList ((2 ^ 28 - 1) ^^^ off) }
    cfg := { s.cfg with
      chip := BitVec.ofNat 16 (pw b 0x18), clustersOff := off, ftl := pw b 0x38, tagged := decide (pw b 0x40 / 4096 % 2 = 1)
      vlan := pw b 0x40 % 4096, key := k, keyGen := gen, memberNone := k.isNone } }
  let s := overFin 36 (fun p s => s.modPort p fun x =>
    { x.setMap p.val (w64At b (0x100 + 16 * p.val)) with expect := w64At b (0x108 + 16 * p.val) }) s
  let s := overFin 2 (fun p s => s.modEth p fun x => x.setAddr b p.val) s
  if off = 0 then s else s.modPart 0 fun x => { x with enable := false }

/-- The table "Factory defaults" (R513). -/
def State.applyDefaults (s : State) : State :=
  let s := { s with
    fabric := { s.fabric with rowRacks := 0 }
    power := { s.power with cap := 600, window := 16, raising := raiseOrder }
    cfg := { s.cfg with ftl := 0, key := none, keyGen := 0, memberNone := true, tagged := false, vlan := 0 } }
  overFin 36 (fun p s => s.modPort p fun x =>
    { x with mode := 1, cls := 0, peerPort := 0, spareFor := 0, spare := false, expect := pair 0 }) s

/-- CONFIG_APPLY (R497, R508, R514): boot firmware applies the copy in use, or the defaults, and begins to raise the
domains, but for the clusters that the copy leaves off. -/
def execConfigApply (s : State) : Host.Outcome State Fault Refusal :=
  if ¬ s.boot.booted ∨ s.cfg.applied then .next s
  else
    let s := if s.cfg.defaulted then s.applyDefaults else s.applyCopy (s.cfgCopy s.cfg.copy)
    .next ({ s with cfg := { s.cfg with applied := true }, qcp := { s.qcp with stage := 2 } }).newEstimate

end Sys2Proof.Machine
end

