-- ==== Sys2Proof/Machine/Coll.lean ====
section
/-! DEFINITION. Collectives (R379 to R400): checks of an XH command, header steps, grants, data steps by pieces, aborts
and the wait limit (notes/assumptions/31.md). -/
namespace Sys2Proof.Machine

structure XhBlk where
  red : Nat
  dir : Nat
  hdr : Bool
  last : Bool
  tokEn : Bool
  group : Nat
  step : Nat
  opw : Nat
  count : Nat
  piece : Nat
  deriving DecidableEq, Repr

def xhBlk (b : List Byte) : XhBlk :=
  let v (i : Nat) : Nat := pairVal (w64At b (8 * i))
  let c := v 0
  { red := c / 2 ^ 28, dir := c / 2 ^ 26 % 4, hdr := decide (c / 2 ^ 25 % 2 = 1), last := decide (c / 2 ^ 24 % 2 = 1),
    tokEn := decide (c / 2 ^ 21 % 2 = 1), group := c % 256, step := v 1, opw := v 2, count := v 3,
    piece := v 4 }

def EngOp.isTree : EngOp → Bool
  | .xhTree | .xhTreeArr => true
  | _ => false
def EngOp.arrival : EngOp → Bool
  | .xhStepArr | .xhTreeArr => true
  | _ => false

/-! ## Checks at issue (R384) -/

/-- Named descriptors and RED follow the table "XH step kinds". -/
def xhKind (op : EngOp) (x : XhBlk) (t0 t1 : Bool) : Bool :=
  if x.hdr then !t0 && !t1
  else if op.isTree then !t0 && t1 && (if x.dir = 0 then x.red != 0 else x.red == 0)
  else t0 && t1 && (x.dir != 2 || x.red != 0)

def xhRsv (b : List Byte) (op : EngOp) (x : XhBlk) : Bool :=
  let c := pairVal (w64At b 0)
  c / 2 ^ 22 % 4 == 0 && c / 2 ^ 8 % 2 ^ 8 == 0 && decide (x.step < 2 ^ 16) && decide (x.piece < 2 ^ 24)
    && allZero (slice b 0x28 24) && decide (x.red ≤ 8) && decide (x.dir < if op.isTree then 2 else 3)
    && (if x.hdr then x.step == 0 && x.red == 0 && !x.last && !x.tokEn && x.count != 0 && decide (x.opw < 2 ^ 24)
          && x.opw % 16 == 0 && decide (1 ≤ x.opw / 2 ^ 8 % 256) && decide (x.opw / 2 ^ 8 % 256 ≤ 9)
        else x.step != 0 && x.opw == 0 && x.count == 0)

/-- Elements in linear order: dimension 0 fastest; in LAYOUT 0b11, bursts (R384). -/
def Desc.cellsIn (d : Desc) : Nat := ceilDiv (d.x 0) d.per
def Desc.elems (d : Desc) : Nat :=
  if isCell d.fmt then d.cellsIn * ceilDiv (d.x 1) 4 * d.x 2 * d.x 3 else d.x 0 * d.x 1 * d.x 2 * d.x 3
def Desc.valid (d : Desc) : Nat := d.x 0 * d.x 1 * d.x 2 * d.x 3
def Desc.elemBytes (d : Desc) : Nat := if isCell d.fmt then 64 else d.e
/-- Offset of element j. -/
def Desc.linOff (d : Desc) (j : Nat) : Nat :=
  if isCell d.fmt then
    let n0 := max 1 d.cellsIn
    let n1 := max 1 (ceilDiv (d.x 1) 4)
    d.cellOff ⟨j % n0 * d.per, 4 * (j / n0 % n1), j / n0 / n1 % max 1 (d.x 2), j / n0 / n1 / max 1 (d.x 2)⟩
  else
    let n0 := max 1 (d.x 0)
    let n1 := max 1 (d.x 1)
    d.elemOff ⟨j % n0, j / n0 % n1, j / n0 / n1 % max 1 (d.x 2), j / n0 / n1 / max 1 (d.x 2)⟩

def xhFormats (x : XhBlk) (d : Desc) : Bool :=
  d.layout != 2 && (x.red == 0 || (d.layout != 3
    && (if x.red ≤ 3 then d.fmt == 1 || d.fmt == 2 || d.fmt == 8 else d.fmt == 8)))

def State.onChip (s : State) (d : Desc) : Bool :=
  decide (d.base / 2 ^ 48 = s.chip) && s.reachOk d.base d.bytes && !inFlash d.base d.bytes

def checkXh (_ : CoreId) (k : QCmd) : Eng QCmd := do
  let s ← get
  let x := xhBlk k.block
  let d0 ← liftE (k.desc 0)
  let d1 ← liftE (k.desc 1)
  need ((List.range 5).all fun i => pairOk (w64At k.block (8 * i))) .integrity
  need (xhRsv k.block k.op x && xhKind k.op x d0.isSome d1.isSome) .decode
  let ds := [d0, d1].filterMap id
  need (ds.all (xhFormats x) && (match d0, d1 with
    | some a, some b => a.fmt == b.fmt && a.layout == b.layout && a.valid == b.valid
    | _, _ => true)) .decode
  need (s.coll.run && !s.coll.stopping) .allocFault
  let bs ← hbmRead (s.coll.tableOff + 128 * x.group) 128
  let e : GroupEntry := ⟨words bs 16⟩
  need e.paired .integrity
  need (e.valid && decide (e.rank < e.size) && e.inRange) .allocFault
  need (ds.all s.onChip) .allocFault
  pure { k with xh := { k.xh with entry := e.words } }

/-! ## Peers (R383, R389) -/

/-- Contributors in order, as the SRC code of R389 (PREV 0, NEXT 1, parent 2, child 3) and chip. -/
def xhSources (op : EngOp) (x : XhBlk) (e : GroupEntry) : List (Nat × Nat) :=
  if op.isTree then (if x.dir = 0 then e.children.map fun c => (3, c) else if e.root then [] else [(2, e.parent)])
  else match x.dir with
    | 0 => [(0, e.prev)]
    | 1 => [(1, e.next)]
    | _ => [(0, e.prev), (1, e.next)]

/-- Sinks: what this member is to the receiver, and its chip. -/
def xhSinks (op : EngOp) (x : XhBlk) (e : GroupEntry) : List (Nat × Nat) :=
  if op.isTree then (if x.dir = 0 then (if e.root then [] else [(3, e.parent)]) else e.children.map fun c => (2, c))
  else match x.dir with
    | 0 => [(0, e.next)]
    | 1 => [(1, e.prev)]
    | _ => [(0, e.next), (1, e.prev)]

/-- Pieces of n elements. -/
def pieceSpan (piece n p : Nat) : Nat × Nat :=
  let len := if piece = 0 then n else piece
  (p * len, min len (n - p * len))
def pieceCount (piece n : Nat) : Nat := if n = 0 then 0 else if piece = 0 then 1 else ceilDiv n piece

/-- What a data step works on: block, group entry, receive and send descriptors. -/
structure XhStep where
  x : XhBlk
  e : GroupEntry
  src : List (Nat × Nat)
  snk : List (Nat × Nat)
  recv : Desc
  send : Desc
  n : Nat
  pieces : Nat

def QCmd.xhStep (k : QCmd) : XhStep :=
  let x := xhBlk k.block
  let e := k.entry
  let t1 := k.d 1
  { x := x, e := e, src := xhSources k.op x e, snk := xhSinks k.op x e, recv := t1,
    send := if k.op.isTree then t1 else k.d 0, n := t1.elems, pieces := pieceCount x.piece t1.elems }

def XhStep.span (t : XhStep) (p : Nat) : Nat × Nat := pieceSpan t.x.piece t.n p

/-- Elements of a piece that contributor i has brought. -/
def XhRun.got (r : XhRun) (i p : Nat) : Nat := ((r.parts.find? fun e => e.1 == i && e.2.1 == p).map (·.2.2)).getD 0
def XhRun.take (r : XhRun) (i p n : Nat) : XhRun :=
  { r with parts := (r.parts.filter fun e => !(e.1 == i && e.2.1 == p)) ++ [(i, p, r.got i p + n)] }

/-- Contributor i's piece p has been combined. -/
def XhStep.from_ (t : XhStep) (r : XhRun) (i p : Nat) : Bool := decide (r.got i p ≥ (t.span p).2)
/-- Every contribution to piece p has been combined; for a step that receives nothing, the piece has been sent. -/
def XhStep.complete (t : XhStep) (r : XhRun) (p : Nat) : Bool :=
  if t.src.isEmpty then (List.range t.snk.length).all fun j => r.sentOut.contains (j, p)
  else (List.range t.src.length).all fun i => t.from_ r i p
def XhStep.done (t : XhStep) (r : XhRun) : Nat := ((List.range t.pieces).filter (t.complete r)).length

/-! ## Grants (R387) -/

def State.sendGrant (s : State) (c : CoreId) (k : QCmd) (dst : Nat × Nat) (p : Nat) : State :=
  let x := xhBlk k.block
  let g : GrantMsg :=
    { chip := half s.chip, core := c, group := ⟨x.group % 256, Nat.mod_lt _ (by decide)⟩,
      gid := BitVec.ofNat 32 k.entry.gid, seq := BitVec.ofNat 32 k.xh.seq, step := half x.step, piece := half p,
      epoch := s.epoch, src := dst.1 }
  if dst.2 = s.chip then { s with coll := { s.coll with grants := s.coll.grants ++ [g] } } else s.tell (.grant g) (half dst.2)

/-- Sink j has granted piece p to this step. -/
def State.granted (s : State) (c : CoreId) (k : QCmd) (snk : Nat × Nat) (p : Nat) : Bool :=
  let x := xhBlk k.block
  s.coll.grants.any fun g => decide (g.chip.toNat = snk.2) && decide (g.src = snk.1) && decide (g.core = c)
    && decide (g.group.val = x.group) && decide (g.gid.toNat = k.entry.gid) && decide (g.seq.toNat = k.xh.seq)
    && decide (g.step.toNat = x.step) && decide (g.piece.toNat = p) && decide (g.epoch = s.epoch)

/-! ## Packets (R389) -/

/-- The body of an XH packet after its transaction header. -/
def xhHeader (c group gid seq step piece first src idx n : Nat) : List Byte :=
  pairBytes (place c 16 + group) ++ pairBytes gid ++ pairBytes seq ++ pairBytes (place piece 16 + step) ++ pairBytes first
    ++ pairBytes (place src 20 + place idx 16 + n) ++ zeros 16

/-- An XH packet as its receiver reads it. -/
structure XhPkt where
  chip : Nat
  core : Nat
  group : Nat
  gid : Nat
  seq : Nat
  step : Nat
  piece : Nat
  first : Nat
  src : Nat
  n : Nat
  data : List Byte
  deriving DecidableEq, Repr

def parseXh (chip : Nat) (b : List Byte) : Option XhPkt :=
  let v (i : Nat) : Nat := pairVal (w64At b (8 * i))
  if (List.range 6).all fun i => pairOk (w64At b (8 * i)) then
    some { chip := chip, core := v 0 / 2 ^ 16 % 256, group := v 0 % 256, gid := v 1, seq := v 2, step := v 3 % 2 ^ 16,
           piece := v 3 / 2 ^ 16, first := v 4, src := v 5 / 2 ^ 20 % 16, n := v 5 % 2 ^ 16, data := b.drop 64 }
  else none

/-- The minima and maxima of a header step's packet: ten paired words. -/
def headerWords (vals : List (Nat × Nat)) : List Byte := vals.flatMap fun v => pairBytes v.1 ++ pairBytes v.2
def readHeaderWords (b : List Byte) : Option (List (Nat × Nat)) :=
  if (List.range 10).all fun i => pairOk (w64At b (8 * i)) then
    some ((List.range 5).map fun i => (pairVal (w64At b (16 * i)), pairVal (w64At b (16 * i + 8))))
  else none

/-! ## Combining (R388) -/

/-- ⊕ of one element, as codes. -/
def combine (red fmt : Nat) (a b : Nat) : Nat :=
  if fmt = 8 then
    let x : Word32 := BitVec.ofNat 32 a
    let y : Word32 := BitVec.ofNat 32 b
    (match red with
      | 1 => satI32 (x.toInt + y.toInt)
      | 2 => if x.slt y then y else x
      | 3 => if y.slt x then y else x
      | 4 => if x != 0 && y != 0 then 1 else 0
      | 5 => if x != 0 || y != 0 then 1 else 0
      | 6 => x &&& y
      | 7 => x ||| y
      | _ => x ^^^ y).toNat
  else
    let f := (scalarFmt fmt).getD fp32
    let x := f.decode a
    let y := f.decode b
    (f.encode .near (match red with
      | 1 => x.add y
      | 2 => x.max y
      | _ => x.min y)).code

/-- Incoming elements go into T1. -/
def putElems (c : CoreId) (t : XhStep) (first : Nat) (n : Nat) (data : List Byte) : Eng Unit := do
  let d := t.recv
  let e := d.elemBytes
  let r : Requester := .engine c.val
  (List.range n).forM fun i => do
    let o := d.linOff (first + i)
    let v := slice data (e * i) e
    if t.x.red = 0 then tWrite r d o v
    else do
      let old ← tRead r d o e
      tWrite r d o (le e (combine t.x.red d.fmt (leNat old) (leNat v)))

/-! ## Running -/

/-- An XH packet that a running data step takes: elements combined, the next contributor granted. -/
def takeData (c : CoreId) (k : QCmd) (m : XhPkt) : Eng QCmd := do
  let t := k.xhStep
  match t.src.findIdx? fun x => x.1 == m.src && x.2 == m.chip with
  | none => throw .collMismatch
  | some i =>
    let (lo, len) := t.span m.piece
    need (decide (m.piece < t.pieces) && decide (lo ≤ m.first) && decide (m.first + m.n ≤ lo + len)
      && decide (m.n * t.recv.elemBytes ≤ m.data.length)) .collMismatch
    putElems c t m.first m.n m.data
    let k := { k with xh := k.xh.take i m.piece m.n, waits := 0 }
    if !k.op.arrival && t.from_ k.xh i m.piece then
      match t.src[i + 1]? with
      | some nxt => modify fun s => s.sendGrant c k nxt m.piece
      | none => pure ()
    pure k

/-- An XH packet that a running header step takes. -/
def takeXhHeader (k : QCmd) (m : XhPkt) : Eng QCmd := do
  match readHeaderWords m.data with
  | none => throw .integrity
  | some vals =>
    if m.src = 2 then pure { k with xh := { k.xh with down := some vals }, waits := 0 }
    else match k.entry.children.findIdx? fun c => c == m.chip with
      | none => throw .collMismatch
      | some i => pure { k with xh := { k.xh with header := (k.xh.header.filter fun h => h.1 != i) ++ [(i, vals)] }, waits := 0 }

/-- The step that a packet must belong to (R390). -/
def QCmd.xhFits (k : QCmd) (m : XhPkt) : Bool :=
  let x := xhBlk k.block
  decide (m.group = x.group) && decide (m.gid = k.entry.gid) && decide (m.seq = k.xh.seq) && decide (m.step = x.step)

/-- Elements of a piece from the send tensor, from element `first`. -/
def readElems (c : CoreId) (d : Desc) (first n : Nat) : Eng (List Byte) := do
  let bs ← (List.range n).mapM fun i => tRead (.engine c.val) d (d.linOff (first + i)) d.elemBytes
  pure bs.flatten

/-- Packets of a piece: first element and count of each. -/
def packetSpans (per lo len : Nat) : List (Nat × Nat) :=
  (List.range (ceilDiv len per)).map fun i => (lo + i * per, min per (len - i * per))

/-- Sends one packet to a peer: a child does not know its index at the parent, which the packet carries as a free
value. -/
def sendXh (c : CoreId) (k : QCmd) (dst : Nat × Nat) (piece first n : Nat) (data : List Byte) (spread : Nat) : Eng QCmd := do
  let s ← get
  let x := xhBlk k.block
  let idx ← if dst.1 = 3 then do
      let (w, t) := s.draw
      set t
      pure (w.toNat % 8)
    else pure 0
  let body := xhHeader c.val x.group k.entry.gid k.xh.seq x.step piece first dst.1 idx n ++ slice data 0 (roundUp data.length 64)
  if dst.2 = s.chip then
    match parseXh s.chip body with
    | none => throw .collMismatch
    | some m => if x.hdr then takeXhHeader k m else takeData c k m
  else do
    sendRequest c .sq k.seq 0 dst.2 0 6 (body.length / 64) 0 body spread
    pure { k with await := k.await + 1 }

/-- Piece p may go to a sink now (R383, R387). -/
def State.maySend (s : State) (c : CoreId) (k : QCmd) (t : XhStep) (j : Nat) (snk : Nat × Nat) (p : Nat) : Bool :=
  !k.xh.sentOut.contains (j, p) && s.granted c k snk p
    && (!k.op.isTree || (List.range t.src.length).all fun i => t.from_ k.xh i p)

/-- Sends every piece that may go. -/
def sendPieces (c : CoreId) : Nat → QCmd → Eng QCmd
  | 0, k => pure k
  | fuel + 1, k => do
    let s ← get
    let t := k.xhStep
    let todo := (enumFrom 0 t.snk).findSome? fun e =>
      ((List.range t.pieces).find? fun p => s.maySend c k t e.1 e.2 p).map fun p => (e.1, e.2, p)
    match todo with
    | none => pure k
    | some (j, snk, p) =>
      let (lo, len) := t.span p
      let per := max 1 (3968 / max 1 t.send.elemBytes)
      let base := p * ceilDiv (if t.x.piece = 0 then t.n else t.x.piece) per
      let k ← (enumFrom 0 (packetSpans per lo len)).foldlM (fun (k : QCmd) e => do
        let data ← readElems c t.send e.2.1 e.2.2
        sendXh c k snk p e.2.1 e.2.2 data (base + e.1)) { k with xh := { k.xh with sentOut := k.xh.sentOut ++ [(j, p)] } }
      sendPieces c fuel k

/-- The five values of a header step (R385). -/
def QCmd.headerVals (k : QCmd) : List Nat :=
  let x := xhBlk k.block
  let v := [x.opw, x.count, k.entry.gid, k.xh.seq]
  v ++ [(crc32c (v.flatMap (le 4))).toNat]

def joinVals (a b : List (Nat × Nat)) : List (Nat × Nat) := (a.zip b).map fun p => (min p.1.1 p.2.1, max p.1.2 p.2.2)

/-- A header step goes as far as it can: up when every child has spoken, down when the group's values are known. It sends
each member one packet, whose index, and so its SPREAD, is 0 (R389). -/
def pumpHeader (c : CoreId) (k : QCmd) : Eng QCmd := do
  let e := k.entry
  if k.xh.header.length < e.children.length then return k
  let mine := k.headerVals.map fun v => (v, v)
  let all := k.xh.header.foldl (fun a h => joinVals a h.2) mine
  let k ← if k.xh.sentUp then pure k
    else if e.root then pure { k with xh := { k.xh with sentUp := true, down := some all } }
    else do
      let k ← sendXh c k (3, e.parent) 0 0 0 (headerWords all) 0
      pure { k with xh := { k.xh with sentUp := true } }
  match k.xh.down with
  | none => pure k
  | some vals =>
    if k.xh.sentOut.isEmpty then
      let k := { k with xh := { k.xh with sentOut := [(0, 0)] } }
      e.children.foldlM (fun (k : QCmd) ch => sendXh c k (2, ch) 0 0 0 (headerWords vals) 0) k
    else pure k

/-- A running XH command goes as far as it can. -/
def pumpXh (c : CoreId) (k : QCmd) : Eng QCmd := do
  if (xhBlk k.block).hdr then pumpHeader c k
  else
    let t := k.xhStep
    sendPieces c (t.pieces * t.snk.length + 1) k

/-- A peer whose first hop, for some SPREAD, is a miswired port without an alternative (R395). -/
def State.miswired (s : State) (chip : Nat) : Bool :=
  (List.range 12).any fun sp =>
    match routePort s.chip (s.fabric.rowRacks + 1) chip sp with
    | none => false
    | some (l, _) =>
      (s.outPort l sp).isNone && (match (s.ports.toList.getD l {}).cause with
        | .peer | .level | .cls => true
        | _ => false)

/-- An XH command starts (R385 to R387, R393, R395). -/
def startXh (c : CoreId) (k : QCmd) : Eng QCmd := do
  let s ← get
  let x := xhBlk k.block
  let region := (s.core c).regions.find? fun r => r.group == x.group
  let seq := if x.hdr then s.seqWord c.val x.group else region.map (·.seq)
  let k := { k with xh := { k.xh with seq := seq.getD 0, seqOk := seq.isSome } }
  set (s.putCmd c k)
  need (!x.hdr || seq.isSome) .integrity
  match seq.bind (s.coll.abortOf c x.group) with
  | some a => throw a.status
  | none => pure ()
  let t := k.xhStep
  if x.hdr then need region.isNone .decode
  else match region with
    | none => throw .decode
    | some r => need (x.red == 0 || (x.red == r.red && t.recv.fmt == r.fmt)) .decode
  let peers := if x.hdr then (if t.e.root then [] else [t.e.parent]) ++ t.e.children else (t.src ++ t.snk).map (·.2)
  need (peers.all fun p => !s.miswired p) .miswired
  if x.hdr then
    let mine (e : EarlyHdr) : Bool := e.core == c.val && e.group == x.group
    let early := s.coll.early.filter mine
    modify fun s => { s with coll := { s.coll with early := s.coll.early.filter fun e => !mine e } }
    let k := early.foldl (fun (k : QCmd) e =>
      if e.down then { k with xh := { k.xh with down := some e.vals } }
      else match t.e.children.findIdx? fun n => n == e.chip with
        | some i => { k with xh := { k.xh with header := (k.xh.header.filter fun h => h.1 != i) ++ [(i, e.vals)] } }
        | none => k) k
    pumpXh c k
  else
    (enumFrom 0 t.src).forM fun e =>
      if e.1 = 0 ∨ k.op.arrival then
        (List.range t.pieces).forM fun p => modify fun s => s.sendGrant c k e.2 p
      else pure ()
    pumpXh c k

/-- Counts completed pieces of T1, at most n (R391). -/
def countXh (c : CoreId) (n : Nat) (k : QCmd) : Eng QCmd := do
  let t := k.xhStep
  match k.ctr with
  | none => pure k
  | some ctr =>
    (List.range (min n (t.done k.xh - k.xh.tokens))).foldlM (fun (k : QCmd) _ => do
      countToken c ctr
      pure { k with xh := { k.xh with tokens := k.xh.tokens + 1 } }) k

/-- PIECE_DELIVERY at an XH data step. -/
def deliverXh (c : CoreId) (k : QCmd) : Eng QCmd := do
  if (xhBlk k.block).hdr then return k
  let k ← pumpXh c k
  countXh c 1 k

def dropGrants (c : CoreId) (k : QCmd) : Eng Unit := modify fun s =>
  let x := xhBlk k.block
  { s with coll := { s.coll with steps := satAdd 32 s.coll.steps 1, grants := s.coll.grants.filter fun g =>
      !(decide (g.core = c) && decide (g.group.val = x.group) && decide (g.seq.toNat = k.xh.seq) && decide (g.step.toNat = x.step)) } }

/-- COMMAND_END at an XH command: its end, when it has one. -/
def finishXh (c : CoreId) (k : QCmd) : Eng (QCmd × Bool) := do
  match k.result with
  | some st => throw st
  | none =>
    let k ← pumpXh c k
    let x := xhBlk k.block
    if x.hdr then
      match k.xh.down with
      | none => pure (k, false)
      | some vals =>
        if k.await ≠ 0 ∨ k.xh.sentOut.isEmpty then pure (k, false)
        else do
          need (vals.all fun v => v.1 == v.2) .collMismatch
          modify fun s => s.bumpSeq c x.group k.xh.seq
          let r : Region := ⟨x.group, k.xh.entry, k.xh.seq, x.opw / 2 ^ 4 % 16, x.opw / 2 ^ 8 % 256⟩
          modify fun s => s.modCore c fun y => { y with regions := y.regions ++ [r] }
          dropGrants c k
          pure (k, true)
    else
      let t := k.xhStep
      let k ← countXh c t.pieces k
      if k.await ≠ 0 ∨ t.done k.xh < t.pieces ∨ k.xh.sentOut.length < t.snk.length * t.pieces then pure (k, false)
      else do
        if x.last then modify fun s => s.modCore c fun y => { y with regions := y.regions.filter fun r => r.group != x.group }
        dropGrants c k
        pure (k, true)

/-- The running XH command of a core. -/
def State.runningXh (s : State) (c : CoreId) : Option QCmd :=
  match (s.core c).sq.cmds.head? with
  | some k => if k.op.isXh && k.started then some k else none
  | none => none

/-- Puts a command back, or ends it with the status of its failure. -/
def State.settleCmd (s : State) (c : CoreId) (k : QCmd) (m : Eng QCmd) : State :=
  match m.exec s with
  | (.ok j, t) => if (t.findCmd c j.op.queue j.seq).isSome then t.putCmd c j else t
  | (.error st, t) =>
    match t.findCmd c k.op.queue k.seq with
    | some j => t.endCmd c j st
    | none => t

/-- A header packet that meets a core which runs no step is kept for the step: headers need no grant, so a member may send
one before its parent or child starts the step (notes/assumptions/31.md). -/
def State.keepHeader (s : State) (m : XhPkt) : State × Status :=
  match readHeaderWords m.data with
  | some vals =>
    ({ s with coll := { s.coll with early := s.coll.early ++ [⟨m.core, m.group, m.chip, decide (m.src = 2), vals⟩] } }, .ok)
  | none => (s, .integrity)

/-- An XH packet arrives (R385, R390): its answer, and its effect. -/
def State.receiveXh (s : State) (m : XhPkt) : State × Status :=
  if m.core ≥ s.logicalCores then (s, .collMismatch)
  else
    let c := coreIdOf m.core
    match s.runningXh c with
    | some k =>
      if ¬ k.xhFits m then (s.endCmd c k .collMismatch, .collMismatch)
      else
        let go : Eng QCmd := if (xhBlk k.block).hdr then takeXhHeader k m else takeData c k m
        match go.exec s with
        | (.ok j, t) => ((t.putCmd c j).settleCmd c j (pumpXh c j), .ok)
        | (.error st, t) => (t.endCmd c k st, st)
    | none => if m.step = 0 then s.keepHeader m else (s, .collMismatch)

/-! ## Issue and events -/

/-- XH.STEP (R383, R384). -/
def execXhStep (c : CoreId) (f : FmtC) (s : State) : Host.Outcome State Fault Refusal := .next (engineC c .xhStep f checkXh s)
/-- XH.TREE (R383, R384). -/
def execXhTree (c : CoreId) (f : FmtC) (s : State) : Host.Outcome State Fault Refusal := .next (engineC c .xhTree f checkXh s)
/-- XH.STEP.ARR (R383, R388). -/
def execXhStepArr (c : CoreId) (f : FmtC) (s : State) : Host.Outcome State Fault Refusal :=
  .next (engineC c .xhStepArr f checkXh s)
/-- XH.TREE.ARR (R383, R388). -/
def execXhTreeArr (c : CoreId) (f : FmtC) (s : State) : Host.Outcome State Fault Refusal :=
  .next (engineC c .xhTreeArr f checkXh s)

/-- GRANT (R387, R559): kept until the step that it is for has used it; one of another epoch has no effect. -/
def execGrant (g : GrantMsg) (s : State) : Host.Outcome State Fault Refusal :=
  if g.epoch ≠ s.epoch then .next s
  else
    let s := { s with coll := { s.coll with grants := s.coll.grants ++ [g] } }
    match s.runningXh g.core with
    | some k =>
      let k := { k with waits := 0 }
      .next (((s.putCmd g.core k).settleCmd g.core k (pumpXh g.core k)).tryReport)
    | none => .next s

/-- ABORT (R393, R559): every XH command of that group and SEQ in progress ends with its status, and later ones at their
start; it goes on over the tree once. -/
def execAbort (a : AbortMsg) (s : State) : Host.Outcome State Fault Refusal :=
  if a.epoch ≠ s.epoch then .next s
  else if s.coll.abortSeen a.group.val a.seq.toNat then .next s
  else
    let (e, s) := s.groupEntry a.group.val
    let s := s.sendAbort (e.getD ⟨[]⟩) a.group.val a.seq.toNat a.origin.toNat a.status
    .next ((State.coreIds.foldl (fun t c => match t.runningXh c with
      | some k =>
        if (xhBlk k.block).group = a.group.val ∧ k.xh.seq = a.seq.toNat then t.endCmd c k a.status else t
      | none => t) s).tryReport)

/-- COLLECTIVE_WAIT_LIMIT (R394): a step that has waited for WAIT_LIMIT nominal periods. -/
def execCollectiveWaitLimit (c : CoreId) (s : State) : Host.Outcome State Fault Refusal :=
  match s.runningXh c with
  | some k => if k.waits ≥ max 1 s.coll.waitLimit then .next ((s.endCmd c k .timeout).tryReport) else .next s
  | none => .next s

/-- START of XH_COLL_CTRL (R400). -/
def State.collStart (s : State) : State :=
  if s.coll.run then s
  else { s with coll := { s.coll with run := true, stopping := false, steps := 0, aborts := 0, mismatches := 0,
                                      aborted := [], grants := [], early := [] } }
def State.collStop (s : State) : State := if s.coll.run then { s with coll := { s.coll with stopping := true } } else s

/-- XH_COLL_START (R400). -/
def execXhCollStart (s : State) : Host.Outcome State Fault Refusal := .next s.collStart
/-- XH_COLL_STOP (R400). -/
def execXhCollStop (s : State) : Host.Outcome State Fault Refusal := .next s.collStop
/-- XH_COLL_STOP_DRAINED (R400). -/
def execXhCollStopDrained (s : State) : Host.Outcome State Fault Refusal :=
  .next (if s.coll.stopping && s.cores.toList.all (fun x => x.sq.cmds.all fun k => !k.op.isXh) then
    { s with coll := { s.coll with run := false, stopping := false } }
  else s)

end Sys2Proof.Machine
end

