-- ==== Sys2Proof/Machine/Folio.lean ====
section
/-! DEFINITION. The Folio engine (R303 to R322): FOLIO commands against the local table, the directory at the home with
promotions, write-backs and spills, the pool's start and stop, and the lower-tier outcomes
(notes/assumptions/30.md). -/
namespace Sys2Proof.Machine

/-! ## Local entries (R311) -/

/-- A local entry whose words are valid. -/
structure LocalEntry where
  state : Nat
  dirty : Bool
  cancel : Bool
  slot : Nat
  chip : Nat
  format : Nat
  size : Nat
  deriving DecidableEq, Repr

def LocalEntry.bytes (e : LocalEntry) : List Byte :=
  pairBytes (place e.state 29 + place (b2n e.dirty) 28 + place (b2n e.cancel) 27) ++ pairBytes e.slot ++ pairBytes e.chip
    ++ pairBytes e.format ++ pairBytes e.size ++ zeros 24

/-- An entry as its 64 bytes read; INTEGRITY for an invalid word, a reserved state or a non-zero Rsv field (R320). -/
def parseLocal (bs : List Byte) : Except Status LocalEntry :=
  let w (i : Nat) : Word := w64At bs (8 * i)
  let v (i : Nat) : Nat := pairVal (w i)
  if !(List.range 5).all (fun i => pairOk (w i)) then .error .integrity
  else if decide (v 0 / 2 ^ 29 ≥ 5) || v 0 % 2 ^ 27 != 0 || decide (v 1 ≥ 2 ^ 24) || decide (v 2 ≥ 2 ^ 16) then .error .integrity
  else .ok { state := v 0 / 2 ^ 29, dirty := decide (v 0 / 2 ^ 28 % 2 = 1), cancel := decide (v 0 / 2 ^ 27 % 2 = 1),
             slot := v 1, chip := v 2, format := v 3, size := v 4 }

def readLocal (h : Nat) : Eng LocalEntry := do
  let s ← get
  let bs ← hbmRead (s.folio.tableOff + 64 * h) 64
  liftE (match parseLocal bs with
    | .ok e => .ok e
    | .error st => .error st)
where
  liftE {α : Type} (m : Except Status α) : Eng α := match m with
    | .ok a => pure a
    | .error e => throw e

def writeLocal (h : Nat) (e : LocalEntry) : Eng Unit := do
  let s ← get
  hbmWrite (s.folio.tableOff + 64 * h) e.bytes

/-! ## The command (R312, R313) -/

structure FolioBlk where
  new : Bool
  keep : Bool
  h : Nat
  slot : Nat
  chip : Nat
  format : Nat
  size : Nat
  deriving DecidableEq, Repr

def folioBlk (b : List Byte) : FolioBlk :=
  let v (i : Nat) : Nat := pairVal (w64At b (8 * i))
  { new := decide (v 0 / 2 ^ 22 % 2 = 1), keep := decide (v 0 / 2 ^ 21 % 2 = 1), h := v 0 % 2 ^ 20, slot := v 1 % 2 ^ 24,
    chip := v 2 % 2 ^ 16, format := v 3, size := v 4 }

/-- FORMAT and SIZE follow R309. -/
def payloadOk (keep : Bool) (format size : Nat) : Bool :=
  let fmt := format % 256
  let layout := format / 2 ^ 12 % 4
  decide (64 ≤ size) && decide (size ≤ 65536) && size % 64 == 0 && decide (format / 2 ^ 30 = 0) && format / 2 ^ 11 % 2 == 0
    && (match layout with
      | 0 => keep && (fmt == 1 || fmt == 2)
      | 1 => fmt == 3 || fmt == 4 || fmt == 8
      | 2 => fmt == 1 || fmt == 2
      | _ => decide (5 ≤ fmt) && decide (fmt ≤ 7))

def checkFolio (_ : CoreId) (k : QCmd) : Eng QCmd := do
  let s ← get
  let b := k.block
  let x := folioBlk b
  let v (i : Nat) : Nat := pairVal (w64At b (8 * i))
  need ((List.range 5).all fun i => pairOk (w64At b (8 * i))) .integrity
  let promote := decide (k.op = .folioPromote)
  need (decide (v 0 < 2 ^ 23) && v 0 / 2 ^ 20 % 2 == 0 && decide (v 1 < 2 ^ 24) && decide (v 2 < 2 ^ 16)
    && decide (field (w64At b 0x28) 63 6 = 0) && allZero (slice b 0x30 16) && (promote || !x.new) && (x.new || !x.keep)
    && (if x.new then payloadOk x.keep x.format x.size else x.format == 0 && x.size == 0)) .decode
  need (s.folio.run && !s.folio.stopping && decide (x.h < s.folio.t1Count) && decide (x.chip < 4096)) .allocFault
  pure k

/-! ## The requester (R314, R315) -/

/-- What a started FOLIO command waits for: 1 its own transfer, 2 the fill it shares, 3 the end of a write-back or flush,
4 the same and then to meet the entry again. 0: `result` holds its status. -/
def QCmd.folioEnds (k : QCmd) (st : Status) : QCmd := { k with await := 0, result := some st }

def addTransfer (h : Nat) (x : FolioKind) : Eng Unit := modify fun s =>
  { s with folio := { s.folio with transfers := s.folio.transfers ++ [(h, x)], touched := s.folio.touched.filter (· != h) } }

/-- The payload of a local frame goes to its home (R316). -/
def sendWriteBack (h : Nat) (e : LocalEntry) (x : FolioKind) : Eng Unit := do
  let s ← get
  let data ← hbmRead (s.folio.localOff h) (min e.size 65536)
  writeLocal h { e with state := if x = .evict then 3 else 4, cancel := false }
  addTransfer h x
  modify fun s => s.emit (.folioWriteBack (BitVec.ofNat 16 e.chip) e.slot (s.folio.keeps.contains h)
    (BitVec.ofNat 32 e.format) data)

/-- The home of this chip has a slot (R314). -/
def State.hasSlot (s : State) (n : Nat) : Bool := s.folio.run && decide (n < s.folio.dirSlots)

/-- A PROMOTE with NEW binds its frame (R314). -/
def bindNew (h chip slot format size : Nat) (keep : Bool) : Eng Unit := do
  writeLocal h ⟨2, true, false, slot, chip, format, size⟩
  modify fun s => { s with folio := { s.folio with
    keeps := if keep then insertNat h s.folio.keeps else s.folio.keeps.filter (· != h) } }

/-- A FOLIO command meets its local entry (R314); it waits while a PROMOTE with NEW asks the home about it. -/
def meetEntry (k : QCmd) : Eng QCmd := do
  let s ← get
  let x := folioBlk k.block
  let e ← readLocal x.h
  if e.state = 0 ∧ s.folio.transfers.any fun t => t.1 == x.h then return { k with await := 4 }
  if e.state ≠ 0 ∧ (e.slot ≠ x.slot ∨ e.chip ≠ x.chip) then throw .allocFault
  if x.new ∧ e.state ≠ 0 then throw .allocFault
  if x.chip ≠ s.chip ∧ x.chip / 64 ≥ s.fabric.rowRacks + 1 then throw .allocFault
  match k.op with
  | .folioPromote =>
    match e.state with
    | 0 =>
      if x.new then
        if x.chip = s.chip then
          need (s.hasSlot x.slot) .allocFault
          bindNew x.h x.chip x.slot x.format x.size x.keep
          pure (k.folioEnds .ok)
        else
          addTransfer x.h (.new x.chip x.slot x.format x.size x.keep)
          modify fun s => s.emit (.folioProbe (BitVec.ofNat 16 x.chip) x.slot)
          pure { k with await := 1 }
      else
        writeLocal x.h ⟨1, false, false, x.slot, x.chip, 0, 0⟩
        addTransfer x.h .promote
        modify fun s => { s with folio := { s.folio with keeps := s.folio.keeps.filter (· != x.h) } }
        modify fun s => s.emit (.folioPromote (BitVec.ofNat 16 x.chip) x.slot)
        pure { k with await := 1 }
    | 1 => pure { k with await := 2 }
    | 2 =>
      modify fun s => s.emit (.folioRefresh (BitVec.ofNat 16 x.chip) x.slot)
      pure (k.folioEnds .ok)
    | 3 =>
      writeLocal x.h { e with cancel := true }
      pure { k with await := 3 }
    | _ => pure { k with await := 3 }
  | op =>
    match e.state with
    | 0 => pure (k.folioEnds .ok)
    | 1 =>
      modify fun s => { s with folio := { s.folio with pinSkips := satAdd 16 s.folio.pinSkips 1 } }
      pure (k.folioEnds .ok)
    | 2 =>
      if e.dirty then
        sendWriteBack x.h e (if op = .folioEvict then .evict else .flush)
        pure { k with await := 1 }
      else if op = .folioEvict then
        writeLocal x.h ⟨0, false, false, 0, 0, 0, 0⟩
        pure (k.folioEnds .ok)
      else pure (k.folioEnds .ok)
    | _ => pure { k with await := 4 }

/-- A started FOLIO command that meets its entry now or once more. -/
def State.meet (s : State) (c : CoreId) (k : QCmd) : State :=
  match (meetEntry k).exec s with
  | (.ok j, t) => t.putCmd c j
  | (.error st, t) => t.putCmd c (k.folioEnds st)

/-- Started FOLIO commands on local frame h with a given wait. -/
def State.folioWaiters (s : State) (h : Nat) (w : Nat) : List (CoreId × QCmd) :=
  State.coreIds.filterMap fun c => match (s.core c).sq.cmds.head? with
    | some k =>
      if k.started && [EngOp.folioPromote, .folioEvict, .folioFlush].contains k.op && decide ((folioBlk k.block).h = h)
          && decide (k.await = w) && k.result.isNone then some (c, k) else none
    | none => none

/-- The entry after a transfer, with the status the transfer ends with. -/
def endEntry (h : Nat) (x : FolioKind) (a : FolioAnswer) : Eng Status := do
  let s ← get
  let e ← readLocal h
  match x with
  | .new chip slot format size keep =>
    match a with
    | .failed st => pure st
    | .payload _ _ _ => pure .integrity
    | .done => do
      bindNew h chip slot format size keep
      pure .ok
  | .promote =>
    modify fun s => s.emit (.folioEnd (BitVec.ofNat 16 e.chip) e.slot)
    let s ← get
    let fill : Eng Unit := match a with
      | .payload format size data => do
        need (decide (size ≤ 65536) && decide (data.length = size)) .integrity
        hbmWrite (s.folio.localOff h) data
        writeLocal h ⟨2, false, false, e.slot, e.chip, format.toNat, size⟩
      | .done => throw .integrity
      | .failed st => throw st
    match fill.exec s with
    | (.ok _, t) => do
      set t
      pure .ok
    | (.error st, t) => do
      set t
      writeLocal h ⟨0, false, false, 0, 0, 0, 0⟩
      pure st
  | _ =>
    let touched := s.folio.touched.contains h
    if x = .evict ∧ e.cancel then
      modify fun s => { s with folio := { s.folio with cancelled := satAdd 16 s.folio.cancelled 1 } }
    match a with
    | .failed st => do
      writeLocal h { e with state := 2, dirty := true, cancel := false }
      pure st
    | _ => do
      modify fun s => { s with folio := { s.folio with keeps := s.folio.keeps.filter (· != h) } }
      if touched then writeLocal h { e with state := 2, dirty := true, cancel := false }
      else if x = .flush ∨ e.cancel then writeLocal h { e with state := 2, dirty := false, cancel := false }
      else writeLocal h ⟨0, false, false, 0, 0, 0, 0⟩
      pure .ok

/-- A transfer of local frame h ends: entry, owner and waiters (R314, R315, R320). -/
def State.endTransfer (s : State) (h : Nat) (x : FolioKind) (a : FolioAnswer) : State :=
  let (st, s) := match (endEntry h x a).exec s with
    | (.ok st, t) => (st, t)
    | (.error st, t) => (st, t)
  let s := { s with folio := { s.folio with transfers := s.folio.transfers.filter fun t => t.1 != h,
                                            touched := s.folio.touched.filter (· != h) } }
  let finish (w : Nat) (st : Status) (s : State) : State :=
    (s.folioWaiters h w).foldl (fun t e => t.putCmd e.1 (e.2.folioEnds st)) s
  let s := finish 3 .ok (finish 2 st (finish 1 st s))
  (s.folioWaiters h 4).foldl (fun t e => t.meet e.1 { e.2 with await := 0 }) s

/-- FOLIO_TRANSFER_END (R314). -/
def execFolioTransferEnd (h : Nat) (answer : FolioAnswer) (s : State) : Host.Outcome State Fault Refusal :=
  match s.folio.transfers.find? fun t => t.1 == h with
  | none => .next s
  | some (_, x) => .next (s.endTransfer h x answer)

/-- FOLIO_TIMEOUT (R320): the command at the head of a core's SQ has had its count. -/
def execFolioTimeout (c : CoreId) (s : State) : Host.Outcome State Fault Refusal :=
  match (s.core c).sq.cmds.head? with
  | none => .next s
  | some k =>
    let folio := [EngOp.folioPromote, .folioEvict, .folioFlush].contains k.op
    if !k.started || !(folio || decide (k.op = .strmFlash)) || decide (k.waits < s.folio.timeout) || k.result.isSome then .next s
    else
      let s := { s with folio := { s.folio with timeouts := satAdd 16 s.folio.timeouts 1 } }
      let h := (folioBlk k.block).h
      let s := if folio && k.await == 1 then
          match s.folio.transfers.find? fun t => t.1 == h with
          | some (_, x) => s.endTransfer h x (.failed .timeout)
          | none => s
        else s
      match s.findCmd c .sq k.seq with
      | some j => .next ((s.endCmd c j .timeout).tryReport)
      | none => .next s

/-! ## The directory (R310) -/

structure DirEntry where
  state : Nat
  keep : Bool
  loc : Nat
  format : Nat
  size : Nat
  age : Nat
  pins : Nat
  check : Nat
  deriving DecidableEq, Repr

def DirEntry.bytes (e : DirEntry) : List Byte :=
  pairBytes (place e.state 29 + place (b2n e.keep) 28) ++ pairBytes e.loc ++ pairBytes e.format ++ pairBytes e.size
    ++ pw2Bytes e.age ++ pairBytes e.pins ++ le 8 e.check

def absentEntry : DirEntry := ⟨0, false, 0, 0, 0, 0, 0, 0⟩

/-- A folio header whose words are valid (R310, R320). -/
def parseDir (bs : List Byte) : Option DirEntry :=
  let w (i : Nat) : Word := w64At bs (8 * i)
  let v (i : Nat) : Nat := pairVal (w i)
  if (List.range 7).all (fun i => pairOk (w i)) then
    some { state := v 0 / 2 ^ 29, keep := decide (v 0 / 2 ^ 28 % 2 = 1), loc := v 1 % 2 ^ 30, format := v 2, size := v 3 % 2 ^ 17,
           age := v 4 + 2 ^ 32 * (v 5 % 2 ^ 16), pins := v 6 % 2 ^ 16, check := (w 7).toNat % 2 ^ 32 }
  else none

/-- Rsv fields of a valid header are zero, and its state is defined. -/
def dirRsv (bs : List Byte) : Bool :=
  let v (i : Nat) : Nat := pairVal (w64At bs (8 * i))
  decide (v 0 / 2 ^ 29 < 5) && v 0 % 2 ^ 28 == 0 && decide (v 1 < 2 ^ 30) && decide (v 3 < 2 ^ 17) && decide (v 5 < 2 ^ 16)
    && decide (v 6 < 2 ^ 16) && decide (field (w64At bs 56) 63 32 = 0)

def State.slotOff (s : State) (n : Nat) : Nat := s.folio.poolBase + 64 * n

/-- A home's entry for a request: ALLOC_FAULT beyond the directory or with the pool stopped, INTEGRITY for an invalid
header (R314, R320). -/
def readDir (n : Nat) : Eng DirEntry := do
  let s ← get
  need (s.folio.run && decide (n < s.folio.dirSlots)) .allocFault
  let bs ← hbmRead (s.slotOff n) 64
  match parseDir bs with
  | some e => do
    need (dirRsv bs) .integrity
    pure e
  | none => throw .integrity

def writeDir (n : Nat) (e : DirEntry) : Eng Unit := do
  let s ← get
  hbmWrite (s.slotOff n) e.bytes

/-- The k-th number from 0 that is not in an ascending list. -/
def nthFree : Nat → Nat → List Nat → Nat
  | at_, k, [] => at_ + k
  | at_, k, u :: us => if u ≤ at_ + k ∧ at_ ≤ u then (if u - at_ ≤ k then nthFree (u + 1) (k - (u - at_)) us else at_ + k)
    else if u < at_ then nthFree at_ k us else at_ + k

/-- A free one of n things, of which `used` are taken: which one, the manual leaves open (notes/assumptions/30.md). -/
def takeFree (n : Nat) (used : List Nat) : Eng (Option Nat) := do
  let free := n - used.length
  if free = 0 then return none
  let s ← get
  let (w, t) := s.draw
  set t
  pure (some (nthFree 0 (w.toNat % free) used))

def Folio.freeFrames (f : Folio) : Nat := f.frameCount - f.frames.length

/-- A spill ends without effect: the entry is RESIDENT again and its unit free (R317, R318). -/
def cancelSpill (n : Nat) : Eng Unit := do
  let s ← get
  match s.folio.spilling.find? fun e => e.1 == n with
  | none => pure ()
  | some (_, u) =>
    set { s with folio := { s.folio with spilling := s.folio.spilling.filter fun e => e.1 != n, units := s.folio.units.filter (· != u) } }

/-! ## Serving at the home -/

/-- A promotion reads its payload (R317); none while its entry is WRITING (R316). One that fails leaves the entry as it was,
but for a spill that it cancels (R320). -/
def servePromotion (n : Nat) (readable : Bool) : Eng (Option (Word32 × List Byte)) := do
  let s ← get
  let e ← readDir n
  if e.state = 4 then return none
  need (decide (e.state ≠ 0)) .allocFault
  need (decide (e.size ≤ 65536) && (e.state == 2 || decide (e.loc < s.folio.frameCount))) .integrity
  if e.state = 3 then cancelSpill n
  let e := if e.state = 3 then { e with state := 1 } else e
  writeDir n { e with pins := min 65535 (e.pins + 1), age := s.tick.number % 2 ^ 48 }
  let go : Eng (List Byte) := do
    let data ← if e.state = 2 then flashRead (flashBase + 65536 * e.loc) e.size readable
      else hbmRead (s.folio.frameOff e.loc) e.size
    need (decide ((crc32c data).toNat = e.check)) .integrity
    pure data
  let t ← get
  match go.exec t with
  | (.ok data, u) => do
    set u
    pure (some (BitVec.ofNat 32 e.format, data))
  | (.error st, u) => do
    set u
    writeDir n e
    throw st

/-- PROMOTION (R314, R317): its start, its end, a refresh of AGE, or the question of a PROMOTE with NEW. -/
def execPromotion (m : PromoteMsg) (s : State) : Host.Outcome State Fault Refusal :=
  match m.kind with
  | .start =>
    match (servePromotion m.slot m.readable).exec s with
    | (.ok none, t) => .next t
    | (.ok (some (f, data)), t) =>
      let t := { t with folio := { t.folio with serving := t.folio.serving ++ [(m.chip, m.slot)] } }
      .next (t.emit (.folioAnswer m.chip m.slot .ok f data))
    | (.error st, t) => .next (t.emit (.folioAnswer m.chip m.slot st 0 []))
  | .ending =>
    if s.folio.serving.contains (m.chip, m.slot) then
      let s := { s with folio := { s.folio with serving := s.folio.serving.erase (m.chip, m.slot) } }
      let go : Eng Unit := do
        let e ← readDir m.slot
        writeDir m.slot { e with pins := e.pins - 1 }
      .next (go.exec s).2
    else .next s
  | .refresh =>
    let go : Eng Unit := do
      let e ← readDir m.slot
      need (decide (e.state ≠ 0)) .allocFault
      let s ← get
      writeDir m.slot { e with age := s.tick.number % 2 ^ 48 }
    .next (go.exec s).2
  | .probe => .next (s.emit (.folioAnswer m.chip m.slot (if s.hasSlot m.slot then .ok else .allocFault) 0 []))

/-- The first steps of a write-back (R316): none while it waits for pins or for another write; then the entry is WRITING. -/
def beginWrite (m : WriteBackMsg) : Eng (Option HomeWrite) := do
  let e ← readDir m.slot
  let s ← get
  match s.folio.writing.find? fun w => w.slot == m.slot with
  | some w => pure (if w.chip = m.chip then some w else none)
  | none =>
    if e.pins ≠ 0 ∨ e.state = 4 then return none
    if e.state = 3 then cancelSpill m.slot
    let w : HomeWrite := ⟨m.slot, if e.state = 3 then 1 else e.state, m.chip⟩
    writeDir m.slot { e with state := 4 }
    modify fun s => { s with folio := { s.folio with writing := s.folio.writing ++ [w] } }
    pure (some w)

def dropWrite (n : Nat) : Eng Unit := modify fun s =>
  { s with folio := { s.folio with writing := s.folio.writing.filter fun w => w.slot != n } }

/-- The other steps: the frame, the payload, the entry; false while it waits for a frame. A KEEP folio that has a frame
keeps it (R321; notes/assumptions/30.md). -/
def finishWrite (m : WriteBackMsg) (w : HomeWrite) : Eng Bool := do
  need m.failAt.isNone (m.failAt.getD .ok)
  let s ← get
  let f := s.folio
  let e ← readDir m.slot
  let keep := m.keep || (e.keep && decide (w.oldState ≠ 0))
  let fixed := keep && decide (w.oldState = 1)
  match ← if fixed then pure (some e.loc) else takeFree f.frameCount f.frames with
  | none =>
    let full := decide (f.areaUsed.length ≥ f.spillUnits)
    modify fun s => { s with folio := { s.folio with poolFull := true, spillFull := s.folio.spillFull || full } }
    need (!(full && f.spilling.isEmpty)) .allocFault
    pure false
  | some i =>
    need (decide (i < f.frameCount)) .integrity
    hbmWrite (f.frameOff i) m.data
    writeDir m.slot { state := 1, keep := keep, loc := i, format := m.format.toNat, size := m.data.length
                      age := s.tick.number % 2 ^ 48, pins := 0, check := (crc32c m.data).toNat }
    modify fun s =>
      let g := s.folio
      let frames := if w.oldState = 1 then g.frames.filter (· != e.loc) else g.frames
      let units := if w.oldState = 2 then g.units.filter (· != e.loc) else g.units
      { s with folio := { g with frames := insertNat i frames, units := units } }
    dropWrite m.slot
    pure true

/-- A write-back that fails returns the entry to its previous state (R316). -/
def failWrite (w : HomeWrite) (s : State) : State :=
  let go : Eng Unit := do
    dropWrite w.slot
    let e ← readDir w.slot
    writeDir w.slot { e with state := w.oldState }
  (go.exec s).2

/-- The steps of a write-back (R316): false while it waits. -/
def serveWriteBack (m : WriteBackMsg) : Eng Bool := do
  match ← beginWrite m with
  | none => pure false
  | some w =>
    match (finishWrite m w).exec (← get) with
    | (.ok b, t) => do
      set t
      pure b
    | (.error st, t) => do
      set (failWrite w t)
      throw st

/-- WRITE_BACK (R316): it waits for pins, a running write or a frame, and is served again; or it is answered. -/
def execWriteBack (m : WriteBackMsg) (s : State) : Host.Outcome State Fault Refusal :=
  match (serveWriteBack m).exec s with
  | (.ok true, t) => .next (t.emit (.folioAnswer m.chip m.slot .ok m.format []))
  | (.ok false, t) => .next t
  | (.error st, t) => .next (t.emit (.folioAnswer m.chip m.slot st 0 []))

/-! ## Spills (R318) -/

/-- The entry of a slot as the Folio engine reads it; none where it cannot be read or its words are invalid. -/
def State.dirAt (s : State) (n : Nat) : Option DirEntry × State :=
  match (hbmRead (s.slotOff n) 64).exec s with
  | (.ok bs, t) => (parseDir bs, t)
  | (.error _, t) => (none, t)

/-- The folio to spill: RESIDENT, not pinned, not KEEP, oldest, then lowest slot; not one whose spill has failed. -/
def State.spillVictim (s : State) : Option (Nat × DirEntry) × State :=
  (List.range s.folio.dirSlots).foldl (fun (a : Option (Nat × DirEntry) × State) n =>
    let (best, s) := a
    match s.dirAt n with
    | (none, s) => (best, s)
    | (some e, s) =>
      if e.state = 1 ∧ e.pins = 0 ∧ e.keep = false ∧ ¬ s.folio.passed.contains n then
        match best with
        | none => (some (n, e), s)
        | some b => (if e.age < b.2.age then some (n, e) else best, s)
      else (best, s)) (none, s)

/-- A home short of frames begins one spill (R318). -/
def State.beginSpill (s : State) : State :=
  let f := s.folio
  if ¬ f.run ∨ ¬ (f.freeFrames = 0 ∨ f.freeFrames < f.lowater) then s
  else
    let (v, s) := s.spillVictim
    match v with
    | none => { s with folio := { s.folio with passed := [] } }
    | some (n, e) =>
      let go : Eng Unit := do
        match ← takeFree f.spillUnits f.areaUsed with
        | none => modify fun s => { s with folio := { s.folio with spillFull := true } }
        | some i =>
          let u := f.spillBase + i
          writeDir n { e with state := 3 }
          modify fun s => { s with folio := { s.folio with units := insertNat u s.folio.units,
                                                           spilling := s.folio.spilling ++ [(n, u)] } }
      (go.exec s).2

/-- SPILL (R318). -/
def execSpill (s : State) : Host.Outcome State Fault Refusal := .next s.beginSpill

/-- SPILL_END (R318): the flash write's end, its record committed; after a failure the next candidate is tried. -/
def execSpillEnd (slot : Nat) (programmed : Bool) (s : State) : Host.Outcome State Fault Refusal :=
  match s.folio.spilling.find? fun e => e.1 == slot with
  | none => .next s
  | some (_, u) =>
    let go : Eng DirEntry := do
      let e ← readDir slot
      let data ← hbmRead (s.folio.frameOff e.loc) e.size
      need programmed .lowerTier
      flashWrite (flashBase + 65536 * u) data true
      pure e
    let drop (t : State) : Folio := { t.folio with spilling := t.folio.spilling.filter fun e => e.1 != slot }
    match go.exec s with
    | (.ok e, t) =>
      let t := t.commit
      let f := drop t
      let t := { t with folio := { f with frames := f.frames.filter (· != e.loc), spills := satAdd 16 f.spills 1, passed := [] } }
      .next ((writeDir slot { e with state := 2, loc := u }).exec t).2
    | (.error _, t) =>
      let f := drop t
      let t := { t with folio := { f with units := f.units.filter (· != u), passed := insertNat slot f.passed } }
      let back : Eng Unit := do
        let e ← readDir slot
        writeDir slot { e with state := 1 }
      .next (back.exec t).2.beginSpill

/-! ## Start and stop (R306, R319) -/

/-- A write of START to POOL_CTRL: the directory check begins. -/
def State.poolStart (s : State) (clear : Bool) : State :=
  let f := s.folio
  if f.run ∨ f.starting.isSome then s
  else { s with folio := { f with starting := some clear, cancelled := 0, pinSkips := 0, spills := 0, timeouts := 0 } }

/-- POOL_START (R306). -/
def execPoolStart (s : State) : Host.Outcome State Fault Refusal := .next (s.poolStart false)
/-- POOL_CLEAR (R319). -/
def execPoolClear (s : State) : Host.Outcome State Fault Refusal := .next (s.poolStart true)

/-- One slot of the directory check (R319): frames and units claimed so far, bad entries, the state. -/
def checkSlot (clear : Bool) (acc : List Nat × List Nat × Nat × State) (n : Nat) : List Nat × List Nat × Nat × State :=
  let (frames, units, bad, s) := acc
  let put (t : State) (e : DirEntry) : State := ((hbmWrite (s.slotOff n) e.bytes).exec t).2
  if clear then (frames, units, bad, put s absentEntry)
  else
    match s.dirAt n with
    | (none, s) => (frames, units, bad + 1, put s absentEntry)
    | (some e, s) =>
      if e.state = 3 ∨ e.state = 4 ∨ (e.state = 1 ∧ frames.contains e.loc) ∨ (e.state = 2 ∧ units.contains e.loc) then
        (frames, units, bad + 1, put s absentEntry)
      else
        let frames := if e.state = 1 then insertNat e.loc frames else frames
        let units := if e.state = 2 then insertNat e.loc units else units
        (frames, units, bad, if e.pins = 0 then s else put s { e with pins := 0 })

/-- DIRECTORY_CHECK_END (R319): the check is made and RUN set. -/
def execDirectoryCheckEnd (s : State) : Host.Outcome State Fault Refusal :=
  match s.folio.starting with
  | none => .next s
  | some clear =>
    let (frames, units, bad, t) := (List.range s.folio.dirSlots).foldl (checkSlot clear) ([], [], 0, s)
    .next { t with folio := { t.folio with
      starting := none, run := true, stopping := false, badEntries := min 65535 bad, frames := frames, units := units
      spilling := [], transfers := [], touched := [], serving := [], writing := [], passed := [] } }

/-- A write of STOP to POOL_CTRL (R306). -/
def State.poolStop (s : State) : State := if s.folio.run then { s with folio := { s.folio with stopping := true } } else s
/-- POOL_STOP (R306). -/
def execPoolStop (s : State) : Host.Outcome State Fault Refusal := .next s.poolStop

/-- POOL_STOP_DRAINED (R306): every transfer has ended. -/
def execPoolStopDrained (s : State) : Host.Outcome State Fault Refusal :=
  let f := s.folio
  .next (if f.stopping && f.transfers.isEmpty && f.serving.isEmpty && f.spilling.isEmpty && f.writing.isEmpty then
    { s with folio := { f with run := false, stopping := false } }
  else s)

end Sys2Proof.Machine
end

