-- ==== Sys2Proof/Machine/Stencil.lean ====
section
/-! DEFINITION. STENCIL.RUN (R234 to R245): its checks at issue, depth-wise convolution, pooling, resampling, crop and
resize, box decoding and non-maximum suppression. -/
namespace Sys2Proof.Machine

structure StencilBlk where
  op : Nat
  rmode : Nat
  cntPad : Bool
  cpg : Nat
  keep : Nat
  kernel : Nat
  pad : Nat
  param : F32
  param2 : Nat
  ids : Word
  aux : Nat
  loopP : Nat
  deriving DecidableEq, Repr

def stencilBlk (b : List Byte) : StencilBlk :=
  let c := pairVal (w64At b 0)
  { op := c / 2 ^ 24, rmode := c / 2 ^ 22 % 4, cntPad := decide (c / 2 ^ 21 % 2 = 1), cpg := c / 2 ^ 17 % 16 + 1,
    keep := c % 4096 + 1, kernel := pairVal (w64At b 8), pad := pairVal (w64At b 0x10),
    param := BitVec.ofNat 32 (pairVal (w64At b 0x18)), param2 := pairVal (w64At b 0x20), ids := w64At b 0x28,
    aux := (w64At b 0x30).toNat, loopP := field (w64At b 0x38) 23 0 }

def StencilBlk.axes (x : StencilBlk) : Axis × Axis × Axis := windowAxes x.kernel x.pad
def StencilBlk.taps (x : StencilBlk) : Nat := let a := x.axes; a.1.k * a.2.1.k * a.2.2.k
/-- Output rows and columns of CROPRESIZE. -/
def StencilBlk.oh (x : StencilBlk) : Nat := x.param2 / 2 ^ 8 % 64 + 1
def StencilBlk.ow (x : StencilBlk) : Nat := x.param2 % 64 + 1

/-- Rsv fields zero and defined codes (R236 row 3). -/
def stencilRsv (b : List Byte) (x : StencilBlk) : Bool :=
  let c := pairVal (w64At b 0)
  [0x40, 0x41, 0x42, 0x48, 0x49, 0x4A, 0x50, 0x58, 0x60].contains x.op && decide (x.rmode < 2)
    && decide (c / 2 ^ 12 % 32 = 0) && (x.op == 0x60 || c % 4096 == 0) && windowOk x.kernel x.pad
    && ([0x50, 0x58, 0x60].contains x.op || (x.param == 0 && x.param2 == 0))
    && (x.op != 0x50 || (decide (x.param2 / 2 ^ 14 = 0) && decide (x.param2 / 2 ^ 6 % 4 = 0)))
    && idsOk x.ids && (x.op == 0x60 || x.aux == 0) && decide (field (w64At b 0x38) 63 24 = 0)
    && (if x.op ≤ 0x50 then (loopOrder x.loopP 3).isSome else x.loopP == 0)

/-- Descriptors named: X and D always; Y, Z by operation (R235). -/
def stencilNames (op : Nat) (y z : Bool) : Bool :=
  match op with
  | 0x40 => y
  | 0x50 => y && z
  | 0x60 => y && !z
  | _ => !y && !z

def fw (f : Nat) : Bool := f == 1 || f == 2

def stencilFormats (op fx : Nat) (fy fz : Option Nat) (fd : Nat) : Bool :=
  let all (o : Option Nat) (p : Nat → Bool) : Bool := match o with
    | none => true
    | some f => p f
  match op with
  | 0x58 => fx == 1 && fd == 1
  | 0x60 => fw fx && all fy fw && fd == 8
  | 0x50 => decide (1 ≤ fx) && decide (fx ≤ 4) && all fy fw && all fz (· == 8) && isFloat fd
  | _ => decide (1 ≤ fx) && decide (fx ≤ 4) && all fy fw && all fz fw && isFloat fd

/-- A descriptor whose dimensions from n on have extent 1: the shape has n dimensions. -/
def Desc.dims (d : Desc) (n : Nat) : Bool := (List.range 4).all fun i => decide (i < n) || d.x i == 1

/-- Shapes of R235; a shape of n dimensions leaves the others at extent 1. Of NMS's D the table fixes EXTENT0 alone. -/
def StencilBlk.shapes (q : StencilBlk) (x : Desc) (y z : Option Desc) (d : Desc) : Bool :=
  let y1 := y.getD x
  match q.op with
  | 0x40 =>
    let groups := x.x 0 / q.cpg
    x.x 0 % q.cpg == 0 && y1.x 0 == q.cpg && y1.x 1 == q.taps && y1.x 2 == d.x 0 && y1.dims 3
      && (if groups = 0 then d.x 0 == 0 else d.x 0 % groups == 0) && (match z with
        | none => true
        | some z => z.x 0 == d.x 0 && z.dims 1)
  | 0x49 => d.x 0 == x.x 0 && d.x 3 == x.x 3
  | 0x50 =>
    y1.dims 2 && (z.getD x).dims 2 && y1.x 0 == 4 && (z.getD x).x 0 == 1 && (z.getD x).x 1 == y1.x 1 && d.x 0 == x.x 0 && d.x 1 == q.ow && d.x 2 == q.oh
      && d.x 3 == y1.x 1 && decide (1 ≤ d.x 3) && decide (d.x 3 ≤ 4096)
  | 0x58 => x.x 0 == 4 && d.x 0 == 4 && d.x 1 == x.x 1 && x.dims 2 && d.dims 2
  | 0x60 => x.dims 2 && y1.dims 1 && x.x 0 == 4 && x.x 1 == y1.x 0 && decide (1 ≤ x.x 1) && decide (x.x 1 ≤ 65536) && decide (q.keep ≤ d.x 0)
  | _ => d.x 0 == x.x 0

/-- Row 5 of R236. -/
def StencilBlk.ranges (q : StencilBlk) (x d : Desc) : Bool :=
  let p := ofF32 q.param
  match q.op with
  | 0x50 => decide (7 ≤ q.oh) && decide (7 ≤ q.ow)
  | 0x58 => p.isFinite && (fp32.decode q.param2).isFinite
  | 0x60 => Fp.le (.zero false) p && Fp.le p (.fin 1 0)
  | 0x48 | 0x49 | 0x4A => true
  | _ =>
    let (w, h, t) := convOut q.axes (x.x 1) (x.x 2) (x.x 3)
    w != 0 && h != 0 && t != 0 && d.x 1 == w && d.x 2 == h && d.x 3 == t

def checkStencil (c : CoreId) (k : QCmd) : Eng QCmd := do
  let s ← get
  let q := stencilBlk k.block
  let dx ← liftE (k.desc 0)
  let dy ← liftE (k.desc 1)
  let dz ← liftE (k.desc 2)
  let dd ← liftE (k.desc 3)
  need ([0, 8, 0x10, 0x18, 0x20].all fun o => pairOk (w64At k.block o)) .integrity
  need (stencilRsv k.block q) .decode
  match dx, dd with
  | some x, some d =>
    need (stencilNames q.op dy.isSome dz.isSome && stencilFormats q.op x.fmt (dy.map (·.fmt)) (dz.map (·.fmt)) d.fmt
      && [dx, dy, dz, dd].all noEtch && q.shapes x dy dz d
      && (decide (q.op < 0x48) || (q.kernel == 0 && q.pad == 0))) .decode
    need (q.ranges x d) .decode
    let all := [dx, dy, dz, dd].filterMap id
    need (all.all (fun d => s.inOwn c d.base d.bytes) && (q.op != 0x60 || s.inOwn c q.aux 8)) .allocFault
    pure { k with banks := all.foldl (fun w d => w ||| s.banksOf c d) 0, uses := if q.op = 0x58 then [2] else [] }
  | _, _ => throw .decode

/-! ## Convolution and pooling (R238, R239) -/

/-- The taps of an output position that are read: tap index and input position (R229). -/
def StencilBlk.reads (q : StencilBlk) (x : Desc) (o : Idx) : List (Nat × Idx) :=
  let a := q.axes
  (List.range a.1.k).flatMap fun kt => (List.range a.2.1.k).flatMap fun kh => (List.range a.2.2.k).filterMap fun kw =>
    match a.1.tap (x.x 3) o.d3 kt, a.2.1.tap (x.x 2) o.d2 kh, a.2.2.tap (x.x 1) o.d1 kw with
    | some t, some h, some w => some ((kt * a.2.1.k + kh) * a.2.2.k + kw, ⟨0, w, h, t⟩)
    | _, _, _ => none

def dwconv (r : Requester) (q : StencilBlk) (x : Desc) (y z : Option Desc) (outs : Nat) (o : Idx) : Eng F32 := do
  let groups := x.x 0 / q.cpg
  let g := o.d0 / (outs / groups)
  let acc ← match z with
    | none => pure f32Zero
    | some z => readF32 r z ⟨o.d0, 0, 0, 0⟩ 0
  (q.reads x o).foldlM (fun (acc : F32) t => (List.range q.cpg).foldlM (fun (acc : F32) c => do
    let a ← readF32 r x { t.2 with d0 := g * q.cpg + c } 0
    let b ← readF32 r (y.getD x) ⟨c, t.1, o.d0, 0⟩ 0
    pure (f32Fma a b acc)) acc) acc

def pool (r : Requester) (q : StencilBlk) (x : Desc) (o : Idx) : Eng F32 := do
  let ts := q.reads x o
  let vs ← ts.mapM fun t => readF32 r x { t.2 with d0 := o.d0 } 0
  if q.op = 0x41 then pure (vs.foldl f32Max f32NegInf)
  else
    let n := if q.cntPad then q.taps else vs.length
    pure (if n = 0 then 0 else f32Div (vs.foldl f32Add 0) (f32OfNat n))

/-! ## Resampling (R240) -/

/-- A clamp of u to 0 through I − 1. -/
def clampTo (i : Nat) (u : F32) : F32 :=
  let top := f32OfInt ((i : Int) - 1)
  if f32Gt 0 u then 0 else if f32Gt u top then top else u

/-- u for output index o of an axis with I inputs and O outputs. -/
def sampleAt (i o n : Nat) : F32 :=
  let r := f32Div (f32OfNat i) (f32OfNat n)
  clampTo i (f32Fma (f32Add (f32OfNat o) f32Half) r f32NegHalf)

def nearestAt (i o n : Nat) : Nat :=
  let r := f32Div (f32OfNat i) (f32OfNat n)
  min (ofF32 (f32Fma (f32Add (f32OfNat o) f32Half) r 0)).floor.toNat (i - 1)

/-- Interpolation between two values (R240). -/
def lerp (f x0 x1 : F32) : F32 := f32Fma f (f32Sub x1 x0) x0

/-- i0, i1 and f of a coordinate. -/
def splitAt (i : Nat) (u : F32) : Nat × Nat × F32 :=
  let i0 := (ofF32 u).floor.toNat
  (i0, min (i0 + 1) (i - 1), f32Sub u (f32OfNat i0))

/-- Bilinear sample of channel c of frame t at (y, x) in H, W: along W, then H. -/
def bilinear (r : Requester) (x : Desc) (c t : Nat) (uy ux : F32) : Eng F32 := do
  let (w0, w1, fx) := splitAt (x.x 1) ux
  let (h0, h1, fy) := splitAt (x.x 2) uy
  let at_ (w h : Nat) : Eng F32 := readF32 r x ⟨c, w, h, t⟩ 0
  let a ← at_ w0 h0
  let b ← at_ w1 h0
  let p ← at_ w0 h1
  let q ← at_ w1 h1
  pure (lerp fy (lerp fx a b) (lerp fx p q))

def resize (r : Requester) (op : Nat) (x d : Desc) (o : Idx) : Eng F32 := do
  if op = 0x48 then
    readF32 r x ⟨o.d0, nearestAt (x.x 1) o.d1 (d.x 1), nearestAt (x.x 2) o.d2 (d.x 2), nearestAt (x.x 3) o.d3 (d.x 3)⟩ 0
  else
    let ux := sampleAt (x.x 1) o.d1 (d.x 1)
    let uy := sampleAt (x.x 2) o.d2 (d.x 2)
    if op = 0x49 then bilinear r x o.d0 o.d3 uy ux
    else
      let (t0, t1, ft) := splitAt (x.x 3) (sampleAt (x.x 3) o.d3 (d.x 3))
      let a ← bilinear r x o.d0 t0 uy ux
      let b ← bilinear r x o.d0 t1 uy ux
      pure (lerp ft a b)

/-! ## Crop and resize (R241) -/

def cropResize (r : Requester) (q : StencilBlk) (x : Desc) (y z : Option Desc) (o : Idx) : Eng F32 := do
  let box (n : Nat) : Eng F32 := readF32 r (y.getD x) ⟨n, o.d3, 0, 0⟩ 0
  let fr ← readCode r (z.getD x) ⟨0, o.d3, 0, 0⟩
  let frame := signed 32 fr
  need (decide (0 ≤ frame) && decide (frame < x.x 3)) .allocFault
  let y0 ← box 0
  let x0 ← box 1
  let y1 ← box 2
  let x1 ← box 3
  let pos (n size : Nat) (a b : F32) : F32 :=
    f32Fma (f32Add (f32OfNat n) f32Half) (f32Div (f32Sub b a) (f32OfNat size)) a
  let yy := pos o.d2 q.oh y0 y1
  let xx := pos o.d1 q.ow x0 x1
  let inside (v : F32) (n : Nat) : Bool := Fp.le (.zero false) (ofF32 v) && Fp.le (ofF32 v) (ofF32 (f32OfInt ((n : Int) - 1)))
  if (ofF32 yy).isNan || (ofF32 xx).isNan then pure f32Nan
  else if inside yy (x.x 2) && inside xx (x.x 1) then bilinear r x o.d0 frame.toNat yy xx
  else pure q.param

/-! ## Boxes (R242 to R245) -/

/-- Anchors of the bank at a local offset, or the status of R242; its Rsv bytes 0x08 to 0x3F must be zero (R257). -/
def anchorCount (s : State) (off : Nat) : Except Status Nat :=
  let w := s.peek64 off
  if ¬ pairOk w then .error .integrity
  else if ¬ allZero (s.peek (off + 8) 56) then .error .decode
  else if pairVal w < 1 ∨ pairVal w > 2044 then .error .decode else .ok (pairVal w)

def boxDec (e limit : F32) (an dl : List F32) : List F32 :=
  let a (i : Nat) : F32 := an.getD i 0
  let d (i : Nat) : F32 := dl.getD i 0
  let cy := f32Fma (d 0) (a 2) (a 0)
  let cx := f32Fma (d 1) (a 3) (a 1)
  let h := f32Mul (a 2) (f32Exp2 false (f32Min (f32Mul e (d 2)) limit))
  let w := f32Mul (a 3) (f32Exp2 false (f32Min (f32Mul e (d 3)) limit))
  [f32Fma f32NegHalf h cy, f32Fma f32NegHalf w cx, f32Fma f32Half h cy, f32Fma f32Half w cx]

def boxArea (z : List F32) : F32 :=
  let v (i : Nat) : F32 := z.getD i 0
  f32Mul (f32Max (f32Sub (v 2) (v 0)) 0) (f32Max (f32Sub (v 3) (v 1)) 0)

/-- a suppresses b (R244). -/
def suppresses (thresh : F32) (a b : List F32) : Bool :=
  let p (i : Nat) : F32 := a.getD i 0
  let q (i : Nat) : F32 := b.getD i 0
  let inter := f32Mul (f32Max (f32Sub (f32Min (p 2) (q 2)) (f32Max (p 0) (q 0))) 0)
    (f32Max (f32Sub (f32Min (p 3) (q 3)) (f32Max (p 1) (q 1))) 0)
  f32Gt inter (f32Mul thresh (f32Sub (f32Add (boxArea a) (boxArea b)) inter))

/-- Candidates kept, in order (R244): score, index, box of each. -/
def nmsKeep (thresh floor : F32) (keep : Nat) (cs : List (F32 × Nat × List F32)) : List Nat :=
  let live := cs.filter fun x => !(ofF32 x.1).isNan && !f32Gt floor x.1
  let order := sortBy (fun a b => !f32Gt b.1 a.1) live
  ((order.foldl (fun (kept : List (Nat × List F32)) x =>
    if kept.length ≥ keep || kept.any (fun y => suppresses thresh y.2 x.2.2) then kept
    else kept ++ [(x.2.1, x.2.2)]) []).map (·.1))

/-- STENCIL.RUN runs. -/
def runStencil (c : CoreId) (k : QCmd) : Eng Unit := do
  let s ← get
  let q := stencilBlk k.block
  let r : Requester := .engine c.val
  let x ← k.descOk 0
  let y ← liftE (k.desc 1)
  let z ← liftE (k.desc 2)
  let d ← k.descOk 3
  let bank := spmOf c.val + bankOff 2 (bitOf k.tables 2)
  let n ← if q.op = 0x58 then liftE (anchorCount s bank) else pure 0
  let w := watchName q.ids
  modify fun s => s.watchAdd c w {}
  let sink : Sink := { c := c, d := d, texp := 0, stoch := q.rmode == 1, fixed := none, seed := s.seedOf c,
                       stream := streamId q.ids, segs := [], w := w }
  let order := (loopOrder q.loopP 3).getD [0, 1, 2]
  let fill (f : Idx → Eng F32) : Eng Unit := sink.fill order f
  if q.op = 0x40 then fill (dwconv r q x y z (d.x 0))
  else if q.op = 0x41 ∨ q.op = 0x42 then fill (pool r q x)
  else if q.op < 0x50 then (if x.empty ∧ ¬ d.empty then forgetElems d else fill (resize r q.op x d))
  else if q.op = 0x50 then fill (cropResize r q x y z)
  else if q.op = 0x58 then
    (List.range (x.x 1)).forM fun i => do
      let dl ← (List.range 4).mapM fun j => readF32 r x ⟨j, i, 0, 0⟩ 0
      let s ← get
      let an := (List.range 4).map fun j => w32At (s.peek (bank + 0x40 + 16 * (i % n) + 4 * j) 4) 0
      (enumFrom 0 (boxDec q.param (BitVec.ofNat 32 q.param2) an dl)).forM fun e =>
        writeCode r d ⟨e.1, i, 0, 0⟩ e.2.toNat
  else
    let cs ← (List.range (x.x 1)).mapM fun i => do
      let sc ← readF32 r (y.getD x) ⟨i, 0, 0, 0⟩ 0
      let bx ← (List.range 4).mapM fun j => readF32 r x ⟨j, i, 0, 0⟩ 0
      pure (sc, i, bx)
    let kept := nmsKeep q.param (BitVec.ofNat 32 q.param2) q.keep cs
    (enumFrom 0 kept).forM fun e => writeCode r d ⟨e.1, 0, 0, 0⟩ e.2
    memWrite r (q.aux % 2 ^ 48) (pairBytes kept.length)

end Sys2Proof.Machine
end

