-- ==== Sys2Proof/Machine/Engines.lean ====
section
/-! DEFINITION. The engine commands from issue to end: issue of the Burin, Hatch, Stencil, FOLIO and HOST.POST commands
(R135, R169, R230, R235, R314, R456); the start of a queue's head (R66, R70, R147); piece deliveries (R87, R88); command
ends (R68); window accesses (R24, R25). -/
namespace Sys2Proof.Machine

/-! ## Issue -/

/-- BURIN.MM (R135, R136). -/
def execBurinMm (c : CoreId) (f : FmtC) (s : State) : Host.Outcome State Fault Refusal :=
  .next (engineC c .burinMm f checkBurinMm s)
/-- CONV3 (R230). -/
def execConv3 (c : CoreId) (f : FmtC) (s : State) : Host.Outcome State Fault Refusal :=
  .next (engineC c .conv3 f checkConv3 s)
/-- HATCH.RUN (R166, R169). -/
def execHatchRun (c : CoreId) (f : FmtC) (s : State) : Host.Outcome State Fault Refusal :=
  .next (engineC c .hatchRun f checkHatch s)
/-- STENCIL.RUN (R235). -/
def execStencilRun (c : CoreId) (f : FmtC) (s : State) : Host.Outcome State Fault Refusal :=
  .next (engineC c .stencilRun f checkStencil s)
/-- FOLIO.PROMOTE (R313, R314). -/
def execFolioPromote (c : CoreId) (f : FmtC) (s : State) : Host.Outcome State Fault Refusal :=
  .next (engineC c .folioPromote f checkFolio s)
/-- FOLIO.EVICT (R313, R314). -/
def execFolioEvict (c : CoreId) (f : FmtC) (s : State) : Host.Outcome State Fault Refusal :=
  .next (engineC c .folioEvict f checkFolio s)
/-- FOLIO.FLUSH (R313, R314). -/
def execFolioFlush (c : CoreId) (f : FmtC) (s : State) : Host.Outcome State Fault Refusal :=
  .next (engineC c .folioFlush f checkFolio s)

/-- The checks of HOST.POST at issue (R456). -/
def checkPost (_ : CoreId) (k : QCmd) : Eng QCmd := do
  let w := w64At k.block 0
  let v := pairVal w
  need (pairOk w) .integrity
  need (decide (v / 2 ^ 24 = 0) && decide (v / 2 ^ 4 % 2 ^ 12 = 0) && allZero (slice k.block 8 24)) .decode
  pure k

/-- HOST.POST (R456). -/
def execHostPost (c : CoreId) (f : FmtC) (s : State) : Host.Outcome State Fault Refusal :=
  .next (engineC c .hostPost f checkPost s)

/-- A HOST.POST starts: its record enters the ring's backlog, or FENCED (R455, R456). -/
def startPost (c : CoreId) (k : QCmd) : Eng QCmd := do
  let s ← get
  let v := pairVal (w64At k.block 0)
  let r := State.ringOf v
  let g := s.ring r
  need (g.set && decide ((s.qp g.port g.qp).state = .ready)) .fenced
  let body := slice k.block 0x20 32 ++ le 4 (c.val + place (v / 2 ^ 16 % 256) 16)
  let x : Rec := ⟨5, 0, s.tick.number, body, some (c, k.seq)⟩
  set (s.setRing r { g with backlog := g.backlog ++ [x] })
  pure { k with post := some (r, k.seq) }

/-! ## Start -/

/-- The command at the head of a queue; an entry of ATTN in HQ stands for the one in BQ (R66). -/
def Core.headOf (x : Core) (q : QueueId) : Option QCmd :=
  match (x.queue q).cmds.head? with
  | some k => if k.shadow then (match x.bq.cmds.head? with
      | some b => if b.op = .attn ∧ b.seqHq = k.seq then some b else none
      | none => none) else some k
  | none => none

/-- ATTN stands at the head of both its queues (R66). -/
def Core.attnReady (x : Core) (k : QCmd) : Bool :=
  k.op != .attn || (match x.hq.cmds.head? with
    | some h => h.shadow && h.seq == k.seqHq
    | none => false)

/-- Banks of the commands of the other queues (R147). -/
def Core.otherBanks (x : Core) (q : QueueId) : Word :=
  ([QueueId.bq, .hq, .sq].filter fun p => p != q).foldl (fun w p =>
    (x.queue p).cmds.foldl (fun w k => if k.started then w ||| k.banks else w) w) 0

/-- Runs a Burin, Hatch or Stencil command as far as its gate lets it; a failed delivery ends it (R88, R89). -/
def runGated (c : CoreId) (k : QCmd) : Eng (QCmd × Bool) := do
  let s ← get
  match (s.core c).gateFailed k with
  | some st => throw st
  | none =>
    match k.op with
    | .burinMm => runBurinMm c k
    | .conv3 => runConv3 c k
    | .hatchRun => runHatch c k
    | _ => do
      runStencil c k
      pure (k, true)

/-- A running command with a gate works through what is released. -/
def advanceGated (c : CoreId) (k : QCmd) : Eng QCmd :=
  if k.gate.isSome then (·.1) <$> runGated c k else pure k

/-- What a command does when it starts. -/
def startCmd (c : CoreId) (k : QCmd) : Eng QCmd :=
  match k.op with
  | .attn => do
    let k ← startAttn c k
    advanceAttn c k
  | .burinMm | .conv3 => do
    let k ← startBurin c k
    advanceGated c k
  | .hatchRun => do
    let k ← startHatch c k
    advanceGated c k
  | .strmCopy | .strmFlash | .strmFadd | .kvPage => startStream c k
  | .xhStep | .xhTree | .xhStepArr | .xhTreeArr => startXh c k
  | .etchBuild => startBuild c k
  | .hostPost => startPost c k
  | _ => pure k

/-- ATTN's two score tiles (R204), which hold whatever scores it formed last (notes/assumptions/29.md); its row statistics
and output tiles remain (R147). -/
def scoreBanks (k : QCmd) : Word :=
  (List.range 8).foldl (fun (w : Word) i => w ||| (1#64 <<< ((attnBlk k.block).accBase + 2 + i))) 0

/-- The accumulator banks whose contents a command's end leaves undefined (R159, R204): slots whose tile was not
completed. -/
def QCmd.lostBanks (k : QCmd) : Word :=
  match k.op with
  | .burinMm | .conv3 => openBanks k
  | .attn => scoreBanks k
  | _ => 0

/-- A started command ends. -/
def State.endRun (s : State) (c : CoreId) (k : QCmd) (st : Status) : State :=
  let s := forgetBanks c k.lostBanks s
  (if k.op = .hatchRun then hatchForget k s else if st = .ok then s else zrunForget c k s).endCmd c k st

/-- COMMAND_START (R66, R70, R89, R147): the head of a queue starts unless it waits for banks; a wait is counted once. -/
def State.commandStart (s : State) (c : CoreId) (q : QueueId) : State :=
  let x := s.core c
  match x.headOf q with
  | none => s
  | some k =>
    if k.started || x.endsAtOnce k || !x.attnReady k then s
    else match x.gateFailed k with
    | some st => s.endCmd c k st
    | none =>
      if k.banks &&& x.otherBanks k.op.queue != 0 then
        if k.waits = 0 then
          (s.modCore c fun y => { y with bankWaits := satAdd 16 y.bankWaits 1 }).putCmd c { k with waits := 1 }
        else s
      else
        let k := { k with started := true, waits := 0 }
        let s := s.putCmd c k
        if [EngOp.folioPromote, .folioEvict, .folioFlush].contains k.op then s.meet c k
        else match (startCmd c k).exec s with
          | (.ok j, t) => t.putCmd c j
          | (.error st, t) => t.endRun c ((t.findCmd c k.op.queue k.seq).getD k) st

/-- COMMAND_START (R147). -/
def execCommandStart (c : CoreId) (q : QueueId) (s : State) : Host.Outcome State Fault Refusal :=
  .next ((s.commandStart c q).tryReport)

/-! ## Deliveries -/

/-- A FOLIO.PROMOTE that has succeeded delivers one piece (R314). -/
def deliverFolio (c : CoreId) (k : QCmd) : Eng QCmd := do
  match k.result, k.ctr with
  | some .ok, some t =>
    if k.xh.tokens = 0 then do
      countToken c t
      pure { k with xh := { k.xh with tokens := 1 } }
    else pure k
  | _, _ => pure k

/-- What a delivering command does at a delivery. -/
def deliverCmd (c : CoreId) (k : QCmd) : Eng QCmd :=
  match k.op with
  | .strmCopy | .strmFlash | .strmFadd | .kvPage => deliverStream c k
  | .xhStep | .xhTree | .xhStepArr | .xhTreeArr => deliverXh c k
  | .folioPromote => deliverFolio c k
  | _ => pure k

/-- A running gated command at the head of a queue reads the pieces that are released (R88, R155, R171, R214). -/
def State.advanceHead (s : State) (c : CoreId) (q : QueueId) : State :=
  match ((s.core c).queue q).cmds.head? with
  | some k =>
    if k.started ∧ ¬ k.shadow then
      match (if k.op = .attn then advanceAttn c k else advanceGated c k).exec s with
      | (.ok j, t) => t.putCmd c j
      | (.error st, t) => t.endRun c ((t.findCmd c q k.seq).getD k) st
    else s
  | none => s

/-- PIECE_DELIVERY (R87): the running command of SQ makes one more piece visible, if it can. -/
def execPieceDelivery (c : CoreId) (s : State) : Host.Outcome State Fault Refusal :=
  match (s.core c).sq.cmds.head? with
  | some k =>
    if k.started then .next ((((s.settleCmd c k (deliverCmd c k)).advanceHead c .bq).advanceHead c .hq).tryReport) else .next s
  | none => .next s

/-! ## Ends -/

/-- A command at its end: the command after what it could do, and whether it has ended; an error is the status it ends
with. -/
def finishCmd (c : CoreId) (k : QCmd) : Eng (QCmd × Bool) :=
  match k.op with
  | .burinMm | .conv3 | .hatchRun | .stencilRun => runGated c k
  | .attn => finishAttn c k
  | .strmCopy | .strmFlash | .strmFadd | .kvPage => finishStream c k
  | .etchBuild => finishBuild c k
  | .folioPromote | .folioEvict | .folioFlush => do
    match k.result with
    | none => pure (k, false)
    | some .ok =>
      let k ← deliverFolio c k
      pure (k, true)
    | some st => throw st
  | .xhStep | .xhTree | .xhStepArr | .xhTreeArr => finishXh c k
  | .hostPost => pure (k, false)

/-- COMMAND_END (R68): the running command at the head of a queue does what is left of its work and, when nothing is under
way for it, ends. -/
def State.commandEnd (s : State) (c : CoreId) (q : QueueId) : State :=
  match (s.core c).headOf q with
  | none => s
  | some k =>
    if ¬ k.started then s
    else match (finishCmd c k).exec s with
      | (.ok (j, true), t) => (t.putCmd c j).endRun c j .ok
      | (.ok (j, false), t) => if (t.findCmd c j.op.queue j.seq).isSome then t.putCmd c j else t
      | (.error st, t) => t.endRun c ((t.findCmd c k.op.queue k.seq).getD k) st

/-- COMMAND_END (R68). -/
def execCommandEnd (c : CoreId) (q : QueueId) (now : Nat) (s : State) : Host.Outcome State Fault Refusal :=
  .next (((s.atTime now).commandEnd c q).tryReportNow)

/-! ## Window accesses -/

/-- An answer that leaves for the agent of an access. -/
def State.answerAccess (s : State) (st : Status) (d : List Byte) : State := (s.endRequest st).emit (.access st d)

/-- A request of another agent to a scratchpad or accumulator window (R24, R25): its answer leaves as an output. Bits
[63:60] that are not zero and an offset that is reserved end it with ALLOC_FAULT (R18, R23); one that names another chip
does not come here (R19), and one that reaches HBM, a register or flash is no window access. -/
def State.windowAccess (s : State) (a : Access) : State :=
  let off := a.addr % 2 ^ 48
  if a.addr / 2 ^ 60 % 16 ≠ 0 then s.answerAccess .allocFault []
  else if a.addr / 2 ^ 48 ≠ s.chip then s
  else
    let go : Eng (List Byte) := match a.data with
      | none => memRead .window off a.len
      | some d => do
        memWrite .window off d
        pure []
    match s.locate off (max 1 a.len) with
    | some .hbm | some .reg | some (.flash _) => s
    | _ =>
      match go.exec s with
      | (.ok d, t) => t.emit (.access .ok d)
      | (.error st, t) => t.answerAccess st []

/-- WINDOW_ACCESS (R24, R25). -/
def execWindowAccess (a : Access) (s : State) : Host.Outcome State Fault Refusal := .next (s.windowAccess a)

end Sys2Proof.Machine
end

