-- ==== Sys2Proof/Machine/Image.lean ====
section
/-! DEFINITION. Program images (R59 to R61, R461): the checks at load, in table order, and the loaded image.
notes/assumptions/17.md gives the layout of core-table entries and frame-table entries. -/
namespace Sys2Proof.Machine

/-- ASCII "OZDXPIMG". -/
def imageMagic : List Byte := [0x4F, 0x5A, 0x44, 0x58, 0x50, 0x49, 0x4D, 0x47]

/-- An entry of a frame table as its 16 bytes read. -/
def parseFrame (b : List Byte) : FrameEntry :=
  { offsets := [leNat (slice b 0 4), leNat (slice b 4 4), leNat (slice b 8 4)], repeat_ := leNat (slice b 12 2),
    stepStart := (byteAt b 14).getLsbD 0 }

/-- The core table of an image. -/
def coreTable (img : List Byte) (off n : Nat) : List CoreImage :=
  (List.range n).map fun i =>
    let w (k : Nat) : Nat := (w64At img (off + 32 * i + 8 * k)).toNat
    { code := w 0, frames := w 1, codeSize := w 2, data := w 3 }

/-- The bytes of entry i of a frame table. -/
def frameBytes (img : List Byte) (ci : CoreImage) (i : Nat) : List Byte := slice img (ci.frames + 16 * i) 16

/-- A variant code offset of a frame entry; none where the entry names no such variant. -/
def frameCode (b : List Byte) (v : Nat) : Option Nat :=
  let o := leNat (slice b (4 * v) 4)
  if v ≠ 0 ∧ o = 0xFFFFFFFF then none else some o

/-- Every frame entry of every core satisfies a test. -/
def allFrames (img : List Byte) (t : List CoreImage) (entries : Nat) (f : CoreImage → List Byte → Bool) : Bool :=
  t.all fun ci => (List.range entries).all fun i => f ci (frameBytes img ci i)

/-- Reads an image and makes the checks of R60. -/
def readImage (off : Nat) : Eng (Image × List Byte) := do
  let h ← memRead .window off 256
  need (h.take 8 == imageMagic && pairOk (w64At h 0x60)) .integrity
  let size := pw h 0x60
  need (decide (256 ≤ size) && size % 64 == 0 && decide (off + size ≤ hbmEnd)) .integrity
  let img ← memRead .window off size
  need (w32At h 0x68 == crc32c (zeroed img 0x68 4)) .integrity
  need ((List.range 12).all fun i => pairOk (w64At h (8 * (i + 1)))) .integrity
  need (pw h 0x08 == 2) .decode
  let cores := pw h 0x18
  let entries := pw h 0x28
  let variants := pw h 0x50
  let inside := decide (pw h 0x58 + 32 * cores ≤ size)
  let tab := if inside then coreTable img (pw h 0x58) cores else []
  let whole := tab.filter fun ci => decide (ci.frames + 16 * entries ≤ size)
  let s ← get
  need (allZero (slice h 0x6C 148) && decide (variants < 4) && decide (1 ≤ entries) && decide (entries ≤ 65536)
    && allFrames img whole entries fun _ b => leNat (slice b 12 2) != 0 && (leNat (slice b 14 2)) < 2) .decode
  need (pw h 0x10 == s.boot.abi) .decode
  need (decide (1 ≤ cores) && decide (cores ≤ s.logicalCores) && decide (1 ≤ pw h 0x20)) .allocFault
  need (inside
    && tab.all (fun ci => decide (ci.code + ci.codeSize ≤ size) && decide (ci.frames + 16 * entries ≤ size) && decide (ci.data ≤ size))
    && allFrames img tab entries fun ci b => (List.range 3).all fun v =>
      match frameCode b v with
      | some o => decide (o < ci.codeSize)
      | none => true) .allocFault
  need (allFrames img tab entries fun _ b => (List.range 2).all fun v =>
    variants / 2 ^ v % 2 == 1 || (frameCode b (v + 1)).isNone) .decode
  pure ({ base := off, size := size, check := w32At h 0x68, cores := cores, groupSize := pw h 0x20, entries := entries,
          seed := BitVec.ofNat 64 (pw h 0x30 + 2 ^ 32 * pw h 0x38), variants := variants
          table := tab.map fun ci => { ci with table := (List.range entries).map fun i => parseFrame (frameBytes img ci i) } }, img)

/-- A load's outcome for a partition (R60, R448, R461, R517): a refused image leaves no program loaded; an image with too
many cores, or a partition with a context running, changes nothing. -/
def State.loadImage (s : State) (p : PartId) (off : Nat) : Status × State :=
  let x := s.part p
  if x.active ∨ ¬ x.enable then (.allocFault, s)
  else
    let (r, t) := (readImage off).exec s
    match r with
    | .error st => (st, t.modPart p fun y => { y with image := none })
    | .ok (im, img) =>
      if im.cores > 8 * (x.count + 1) then (.allocFault, t)
      else (.ok, { t.modPart p fun y => { y with image := some im } with boot := t.boot.extend 3 img })

end Sys2Proof.Machine
end

