-- ==== Sys2Proof/Machine/Picture.lean ====
section
/-! DEFINITION. Intaglio's pictures: the session configuration (R403, R413), surfaces (R415), sample conversion (R416),
frame-pool sizes (R421), the base QP (R419), motion search (R418) and statistics surfaces (R425 to R427). A picture's samples are two bytes each, planes Y, Cb, Cr
one after another, row by row. -/
namespace Sys2Proof.Machine

/-! ## Session configuration (R403, R413) -/

/-- A session's configuration block. -/
structure SessCfg where
  bytes : List Byte
  deriving DecidableEq, Repr

def SessCfg.w (g : SessCfg) (o : Nat) : Nat := pairVal (w64At g.bytes o)
def SessCfg.dir (g : SessCfg) : Nat := g.w 0 / 2 ^ 28
def SessCfg.profile (g : SessCfg) : Nat := g.w 0 / 2 ^ 24 % 16
def SessCfg.bits10 (g : SessCfg) : Bool := g.w 0 / 2 ^ 23 % 2 == 1
def SessCfg.c422 (g : SessCfg) : Bool := g.w 0 / 2 ^ 22 % 2 == 1
def SessCfg.iofmt (g : SessCfg) : Nat := g.w 0 / 2 ^ 20 % 4
def SessCfg.live (g : SessCfg) : Bool := g.w 0 / 2 ^ 19 % 2 == 1
def SessCfg.width (g : SessCfg) : Nat := g.w 8 % 65536
def SessCfg.height (g : SessCfg) : Nat := g.w 8 / 65536
def SessCfg.frames (g : SessCfg) : Nat := g.w 0x10 + 1
def SessCfg.frameBase (g : SessCfg) : Nat := pairs64 g.bytes 0x18
def SessCfg.stateBase (g : SessCfg) : Nat := pairs64 g.bytes 0x28
/-- CQ, QP_MAX, REFS and the mini-GOP's pictures. -/
def SessCfg.cq (g : SessCfg) : Nat := g.w 0x38 / 2 ^ 24
def SessCfg.qpMax (g : SessCfg) : Nat := g.w 0x38 / 2 ^ 16 % 256
def SessCfg.refs (g : SessCfg) : Nat := g.w 0x38 / 2 ^ 12 % 16
def SessCfg.miniGop (g : SessCfg) : Nat := 2 ^ (g.w 0x38 / 2 ^ 10 % 4)
def SessCfg.maxRate (g : SessCfg) : Nat := g.w 0x40
def SessCfg.bufBits (g : SessCfg) : Nat := 1000 * g.w 0x48
def SessCfg.fpsNum (g : SessCfg) : Nat := g.w 0x58
def SessCfg.fpsDen (g : SessCfg) : Nat := g.w 0x50 / 65536
def SessCfg.keyInterval (g : SessCfg) : Nat := g.w 0x50 % 65536
/-- AV1 1, HEVC 2, AVC 3. -/
def SessCfg.codec (g : SessCfg) : Nat := if g.profile ≤ 2 then 1 else if g.profile ≤ 4 then 2 else 3
def SessCfg.depth (g : SessCfg) : Nat := if g.bits10 then 10 else 8

/-- The table "Intaglio codec support": profile, depth, chroma and direction suit one another. -/
def SessCfg.supported (g : SessCfg) : Bool :=
  let enc := g.dir == 2
  match g.profile with
  | 1 | 3 => !g.c422
  | 2 => g.bits10 && g.c422 && !enc
  | 4 => g.bits10 && g.c422
  | 5 => !g.bits10 && !g.c422 && !enc
  | _ => false

/-- Picture sizes (R403). -/
def SessCfg.sizeOk (g : SessCfg) : Bool :=
  let m := if g.dir = 1 then 2 else 8
  decide (64 ≤ g.width) && decide (g.width ≤ 8192) && decide (64 ≤ g.height) && decide (g.height ≤ 4352)
    && g.width % m == 0 && g.height % m == 0

/-- The encoder's fields (R413). -/
def SessCfg.encodeOk (g : SessCfg) : Bool :=
  decide (1 ≤ g.refs) && decide (g.refs ≤ 4) && g.w 0x38 % 2 ^ 10 == 0 && decide (g.cq ≤ g.qpMax)
    && (g.codec == 1 || decide (g.qpMax ≤ 51)) && (g.maxRate == 0 || g.w 0x48 != 0) && decide (1 ≤ g.keyInterval)

def SessCfg.pairsOk (g : SessCfg) : Bool := (List.range 12).all fun i => pairOk (w64At g.bytes (8 * i))

/-- Every field is in range and what the engine supports, up to the highest level (R403, R413). -/
def SessCfg.formed (g : SessCfg) : Bool :=
  (g.dir == 1 || g.dir == 2) && g.supported && Config.levelOk g.bytes && decide (g.iofmt < 2) && g.w 0 % 2 ^ 19 == 0 && g.sizeOk
    && decide (g.w 0x10 < 32) && allZero (slice g.bytes 0x60 32)
    && (if g.dir = 1 then g.w 0x38 == 0 else g.encodeOk)

/-- A step of QP by which the base QP of a layer differs from the next (R419): 1 for HEVC, 4 for AV1. -/
def SessCfg.qpStep (g : SessCfg) : Nat := if g.codec = 1 then 4 else 1
/-- The base QP of a key picture, or of a picture at temporal layer t of its mini-GOP (R419). -/
def SessCfg.baseQp (g : SessCfg) (key : Bool) (t : Nat) : Nat :=
  min g.qpMax (if key then g.cq - 2 * g.qpStep else g.cq + t * g.qpStep)
/-- The temporal layer of the i-th picture, from 1, of a whole mini-GOP of m (R403, R419): the last picture is layer 0, the
middle one layer 1, and so on. -/
def miniGopLayer (m i : Nat) : Nat := ((List.range 4).find? fun t => i % (m / 2 ^ t) == 0).getD 0

/-! ## Sizes (R415, R421, R425) -/

/-- Width and height of plane i. -/
def SessCfg.plane (g : SessCfg) (i : Nat) : Nat × Nat :=
  if i = 0 then (g.width, g.height) else (g.width / 2, if g.c422 then g.height else g.height / 2)
def SessCfg.samples (g : SessCfg) : Nat := ((List.range 3).map fun i => (g.plane i).1 * (g.plane i).2).foldl (· + ·) 0
def SessCfg.sampleBytes (g : SessCfg) : Nat := if g.bits10 then 2 else 1
/-- Stride of a plane's rows in the native layout. -/
def SessCfg.stride (g : SessCfg) (i : Nat) : Nat := roundUp ((g.plane i).1 * g.sampleBytes) 64
/-- Stride of a row of the BF16 layout. -/
def SessCfg.bfStride (g : SessCfg) : Nat := roundUp (6 * g.width) 64
/-- Bytes of an output surface or an encode input. -/
def SessCfg.surfaceSize (g : SessCfg) : Nat :=
  if g.iofmt = 1 then g.bfStride * g.height
  else ((List.range 3).map fun i => g.stride i * (g.plane i).2).foldl (· + ·) 0
/-- Size of one frame buffer (R421). -/
def SessCfg.bufSize (g : SessCfg) : Nat :=
  let s := roundUp (g.samples * g.sampleBytes) 4096
  s + roundUp (s / 256 * 4) 4096
def SessCfg.blocksW (g : SessCfg) : Nat := ceilDiv g.width 16
def SessCfg.blocksH (g : SessCfg) : Nat := ceilDiv g.height 16
/-- Offset of the frame record, and bytes of a statistics surface (R425). -/
def SessCfg.frameRec (g : SessCfg) : Nat := roundUp (8 * g.blocksW * g.blocksH) 64
def SessCfg.statSize (g : SessCfg) : Nat := g.frameRec + 64

/-! ## Samples -/

/-- Position of plane i in a picture, in samples. -/
def SessCfg.planeAt (g : SessCfg) (i : Nat) : Nat :=
  ((List.range i).map fun k => (g.plane k).1 * (g.plane k).2).foldl (· + ·) 0
def SessCfg.sample (g : SessCfg) (pic : List Byte) (i x y : Nat) : Nat :=
  (w16At pic (2 * (g.planeAt i + y * (g.plane i).1 + x))).toNat

/-- The rows of a surface that holds a picture: offset and bytes (R415). -/
def SessCfg.rows (g : SessCfg) (pic : List Byte) : List (Nat × List Byte) :=
  if g.iofmt = 1 then
    (List.range g.height).map fun y => (y * g.bfStride, (List.range g.width).flatMap fun x =>
      (List.range 3).flatMap fun c =>
        let v := if c = 0 then g.sample pic 0 x y else g.sample pic c (x / 2) (if g.c422 then y else y / 2)
        le 2 (toBf16 (Fp.div (Fp.mk false v 0) (Fp.mk false (2 ^ g.depth - 1) 0))).toNat)
  else
    let base (i : Nat) : Nat := ((List.range i).map fun k => g.stride k * (g.plane k).2).foldl (· + ·) 0
    (List.range 3).flatMap fun i => (List.range (g.plane i).2).map fun y =>
      (base i + y * g.stride i, (List.range (g.plane i).1).flatMap fun x => le g.sampleBytes (g.sample pic i x y))

/-- The sample of a BF16 input value (R416). -/
def bfSample (depth : Nat) (code : Nat) : Nat :=
  let top := 2 ^ depth - 1
  match bf16.decode code with
  | .nan => 0
  | .inf neg => if neg then 0 else top
  | .zero _ => 0
  | .fin n e => if n < 0 then 0 else min top (roundNat .near (n.natAbs * top) e)

/-- The picture that an encode input holds (R415, R416). -/
def SessCfg.unpack (g : SessCfg) (bs : List Byte) : List Byte :=
  if g.iofmt = 1 then
    let v (c x y : Nat) : Nat := bfSample g.depth (w16At bs (2 * (c + 3 * x) + y * g.bfStride)).toNat
    (List.range 3).flatMap fun i => (List.range (g.plane i).2).flatMap fun y => (List.range (g.plane i).1).flatMap fun x =>
      le 2 (if i = 0 then v 0 x y
        else if g.c422 then (v i (2 * x) y + v i (2 * x + 1) y + 1) / 2
        else (v i (2 * x) (2 * y) + v i (2 * x + 1) (2 * y) + v i (2 * x) (2 * y + 1) + v i (2 * x + 1) (2 * y + 1) + 2) / 4)
  else
    let base (i : Nat) : Nat := ((List.range i).map fun k => g.stride k * (g.plane k).2).foldl (· + ·) 0
    (List.range 3).flatMap fun i => (List.range (g.plane i).2).flatMap fun y => (List.range (g.plane i).1).flatMap fun x =>
      let o := base i + y * g.stride i + x * g.sampleBytes
      le 2 (if g.bits10 then (w16At bs o).toNat % 1024 else (byteAt bs o).toNat)

/-! ## Luma and COMPLEXITY (R426) -/

/-- Luma at 8-bit scale; samples beyond the picture repeat its edge. -/
def SessCfg.luma (g : SessCfg) (pic : List Byte) (x y : Nat) : Int :=
  let v := g.sample pic 0 (min x (g.width - 1)) (min y (g.height - 1))
  ((if g.bits10 then v / 4 else v : Nat) : Int)

/-- One pass of the 8-point Hadamard transform. -/
def hadamard8 (v : List Int) : List Int :=
  (List.range 8).map fun u => (List.range 8).foldl (fun a x =>
    let ones := (u &&& x) % 2 + (u &&& x) / 2 % 2 + (u &&& x) / 4 % 2
    if ones % 2 = 0 then a + v.getD x 0 else a - v.getD x 0) 0

/-- Sum of the magnitudes of an 8×8 sub-block's coefficients other than DC. -/
def SessCfg.hadamardSum (g : SessCfg) (pic : List Byte) (x0 y0 : Nat) : Nat :=
  let rows := (List.range 8).map fun y => hadamard8 ((List.range 8).map fun x => g.luma pic (x0 + x) (y0 + y))
  let cols := (List.range 8).map fun u => hadamard8 (rows.map fun r => r.getD u 0)
  let all := cols.flatten
  (all.drop 1).foldl (fun a c => a + c.natAbs) 0

/-- COMPLEXITY of a block. -/
def SessCfg.complexity (g : SessCfg) (pic : List Byte) (bx by' : Nat) : Nat :=
  let sum := ((List.range 4).map fun k => g.hadamardSum pic (16 * bx + 8 * (k % 2)) (16 * by' + 8 * (k / 2))).foldl (· + ·) 0
  min 65535 (sum / 16)

/-! ## Motion search (R418) -/

/-- A vector and its cost. -/
structure Vec where
  x : Int
  y : Int
  cost : Nat
  deriving DecidableEq, Repr

/-- The smaller cost, and of equal costs the smaller |x| + |y|. -/
def Vec.better (a b : Vec) : Bool :=
  decide (a.cost < b.cost) || (a.cost == b.cost && decide (a.x.natAbs + a.y.natAbs < b.x.natAbs + b.y.natAbs))

/-- The vectors within rx and ry of (x, y), in raster order. -/
def candidates (x y : Int) (rx ry : Nat) : List (Int × Int) :=
  (List.range (2 * ry + 1)).flatMap fun (j : Nat) => (List.range (2 * rx + 1)).map fun (i : Nat) =>
    (x + (i : Int) - (rx : Int), y + (j : Int) - (ry : Int))

/-- The best of the vectors around (x, y): the cost is the SAD plus λ times the vector's bit cost; of vectors that tie, the
earlier in raster order stays. -/
def searchLevel (lambda : Nat) (sad : Int → Int → Nat) (x y : Int) (rx ry : Nat) : Vec :=
  let cost (u v : Int) : Vec := ⟨u, v, sad u v + lambda * Config.vectorBits u v⟩
  (candidates x y rx ry).foldl (fun b c => let v := cost c.1 c.2; if v.better b then v else b)
    (cost (x - (rx : Int)) (y - (ry : Int)))

/-- SAD of an n × n block at (x0, y0). -/
def blockSad (n : Nat) (x0 y0 : Int) (cur ref : Int → Int → Nat) : Nat :=
  (List.range n).foldl (fun a (j : Nat) => (List.range n).foldl (fun a (i : Nat) =>
    a + ((cur (x0 + (i : Int)) (y0 + (j : Int)) : Int) - (ref (x0 + (i : Int)) (y0 + (j : Int)) : Int)).natAbs) a) 0

/-- Luma at 8-bit scale at a place inside or beyond the picture. -/
def SessCfg.lumaAt (g : SessCfg) (pic : List Byte) (x y : Int) : Nat := (g.luma pic x.toNat y.toNat).toNat
/-- Luma at a quarter-sample place: the sample itself where there is one. -/
def SessCfg.lumaQ (g : SessCfg) (pic : List Byte) (x y : Int) : Nat :=
  if x % 4 = 0 ∧ y % 4 = 0 then g.lumaAt pic (x / 4) (y / 4) else Config.lumaQuarter g.bytes pic x y % 256
/-- Luma reduced by k in each direction. -/
def SessCfg.lumaD (g : SessCfg) (pic : List Byte) (k : Nat) (x y : Int) : Nat := Config.lumaDown g.bytes pic k x y % 256

/-- SAD of the 16 × 16 block (bx, by) at a vector in quarter samples. -/
def SessCfg.quarterSad (g : SessCfg) (pic : List Byte) (h : SessCfg) (ref : List Byte) (bx by' : Nat) (u v : Int) : Nat :=
  blockSad 16 (16 * (bx : Int)) (16 * (by' : Int)) (g.lumaAt pic) fun x y => h.lumaQ ref (4 * x + u) (4 * y + v)

/-- The search for block (bx, by) of a picture in a reference: each level starts from the vector of the level before, scaled
up. Vector in quarter samples, and SAD there. -/
def SessCfg.motion (g : SessCfg) (pic : List Byte) (lambda : Nat) (h : SessCfg) (ref : List Byte) (bx by' : Nat) :
    Int × Int × Nat :=
  let down (k n : Nat) (u v : Int) : Nat :=
    blockSad n ((n : Int) * (bx : Int)) ((n : Int) * (by' : Int)) (g.lumaD pic k) fun x y => h.lumaD ref k (x + u) (y + v)
  let full (u v : Int) : Nat :=
    blockSad 16 (16 * (bx : Int)) (16 * (by' : Int)) (g.lumaAt pic) fun x y => h.lumaAt ref (x + u) (y + v)
  let a := searchLevel lambda (down 4 4) 0 0 64 32
  let b := searchLevel lambda (down 2 8) (2 * a.x) (2 * a.y) 8 8
  let c := searchLevel lambda full (2 * b.x) (2 * b.y) 4 4
  let d := searchLevel lambda (g.quarterSad pic h ref bx by') (4 * c.x) (4 * c.y) 3 3
  (d.x, d.y, g.quarterSad pic h ref bx by' d.x d.y)

/-! ## Statistics surfaces (R425 to R427) -/

/-- The block records: MVX, MVY, COST and COMPLEXITY, against the previous picture, with λ zero; the first picture of a
session has no motion. -/
def SessCfg.blocks (g : SessCfg) (pic : List Byte) (prev : Option (SessCfg × List Byte)) : List (Nat × Nat × Nat × Nat) :=
  (List.range g.blocksH).flatMap fun y => (List.range g.blocksW).map fun x =>
    let c := g.complexity pic x y
    match prev with
    | none => (0, 0, 65535, c)
    | some p =>
      let m := g.motion pic 0 p.1 p.2 x y
      ((BitVec.ofInt 16 m.1).toNat, (BitVec.ofInt 16 m.2.1).toNat, m.2.2, c)

/-- A statistics surface's bytes from its start, and whether it flags a scene change: block records, then the frame
record; the bytes between them keep what they hold. -/
def SessCfg.stats (g : SessCfg) (thresh idx auBytes : Nat) (pic : List Byte) (prev : Option (SessCfg × List Byte)) :
    List Byte × List Byte × Bool :=
  let bs := g.blocks pic prev
  let n := (bs.filter fun b => decide (b.2.2.1 > b.2.2.2)).length
  let score := 255 * n / (g.blocksW * g.blocksH)
  let scene := decide (score ≥ thresh)
  let sum (f : Nat × Nat × Nat × Nat → Nat) : Nat := min (2 ^ 32 - 1) (bs.foldl (fun a b => a + f b) 0)
  (bs.flatMap fun b => le 2 b.1 ++ le 2 b.2.1 ++ le 2 b.2.2.1 ++ le 2 b.2.2.2,
   le 4 idx ++ le 4 (sum fun b => b.2.2.2) ++ le 4 (sum fun b => b.2.2.1) ++ le 4 (score + place (b2n scene) 8)
     ++ le 4 auBytes ++ zeros 44, scene)

end Sys2Proof.Machine
end

