-- ==== Sys2Proof/Machine/Media.lean ====
section
/-! DEFINITION. The Intaglio commands (R402 to R431): ring polls and acceptance, decode, encode, flush, open, reconfigure
and close jobs, job ends, start and stop. What the manual leaves open is in notes/assumptions/33.md. -/
namespace Sys2Proof.Machine

def State.modJob (s : State) (e : EngineId) (n : Nat) (f : Job → Job) : State :=
  s.modEngine e fun x => { x with jobs := x.jobs.map fun j => if j.n = n then f j else j }

def Engine.session (x : Engine) (i : Nat) : Option Session := x.sessions.toList.getD i none
def State.setSession (s : State) (e : EngineId) (i : Nat) (o : Option Session) : State :=
  s.modEngine e fun x => { x with sessions := Vector.ofFn fun (k : Fin 16) => if k.val = i then o else x.sessions[k] }

def Session.conf (x : Session) : SessCfg := ⟨x.cfg⟩

/-! ## Checks of a job (R411) -/

/-- Word i of an entry's paired fields. -/
def Job.w (j : Job) (o : Nat) : Nat := pairVal (w64At j.entry o)
def Job.inAddr (j : Job) : Nat := pairs64 j.entry 0x18
def Job.inSize (j : Job) : Nat := j.w 0x28
def Job.outAddr (j : Job) : Nat := pairs64 j.entry 0x30
def Job.outSize (j : Job) : Nat := j.w 0x40
def Job.stAddr (j : Job) : Nat := pairs64 j.entry 0x48

/-- The flags suit KIND and the session's direction; `dir` is unknown while an open or close job of the session is in flight. -/
def Job.flagsOk (j : Job) (dir : Option Nat) : Bool :=
  let w := jobWord j.entry
  let only (bits : List Nat) : Bool := ((List.range 8).filter fun i => i ≥ 2 && !bits.contains i).all fun i => w / 2 ^ i % 2 == 0
  let is (d : Nat) : Bool := (dir.getD d) == d
  match j.kind with
  | 1 => only [6, 3, 2] && is 1
  | 2 => only [7, 6, 5, 4] && is 2
  | 3 => only (if dir = some 2 then [6] else [6, 3, 2])
  | 4 | 5 | 6 => only [6]
  | _ => false

/-- Sizes are in range, and what a KIND does not use is zero (R410). -/
def Job.sizesOk (j : Job) (dir : Option Nat) : Bool :=
  let outUsed := j.kind == 1 || j.kind == 2 || j.kind == 3
  let sizeUsed := j.kind == 2 || (j.kind == 3 && dir != some 1)
  (if j.kind = 1 then decide (1 ≤ j.inSize) && decide (j.inSize ≤ 2 ^ 26) else j.inSize == 0)
    && (outUsed || j.outAddr == 0) && (sizeUsed || j.outSize == 0)

def Job.rsvOk (j : Job) : Bool :=
  let w := jobWord j.entry
  w / 2 ^ 24 % 16 == 0 && w / 2 ^ 8 % 2 ^ 12 == 0 && w % 4 == 0 && decide (j.w 0x10 < 65536)
    && allZero (slice j.entry 0x68 24)

/-- Addresses that a job reaches (R411): those of its session's sizes, or of its own fields alone while the session's
configuration is not settled yet. On decode only a job with ANALYSE writes statistics (R425). -/
def Job.reaches (j : Job) (g : Option SessCfg) : List (Nat × Nat) :=
  let surf := (g.map SessCfg.surfaceSize).getD 1
  let encode := j.kind == 2 || (j.kind == 3 && g.map SessCfg.dir == some 2)
  let st := if j.stAddr = 0 ∨ ¬ (encode ∨ j.bit 2) then [] else [(j.stAddr, (g.map SessCfg.statSize).getD 1)]
  match j.kind with
  | 1 => (j.inAddr, j.inSize) :: (j.outAddr, surf) :: st
  | 2 => (j.inAddr, surf) :: (j.outAddr, j.outSize) :: st
  | 3 => (match g.map SessCfg.dir with
    | some 2 => (j.outAddr, j.outSize) :: st
    | some _ => (j.outAddr, surf) :: st
    | none => (j.outAddr, max 1 j.outSize) :: st)
  | 4 | 5 => [(j.inAddr, 128)]
  | _ => []

/-- [a, a + n) lies in HBM of this chip outside the pool region (R402). -/
def State.mediaAddr (s : State) (a n : Nat) : Bool := a / 2 ^ 48 == s.chip && s.plainHbm (a % 2 ^ 48) n

/-- Whether the session is open for a job that follows those in flight. -/
def Engine.openFor (x : Engine) (i : Nat) : Bool :=
  (x.jobs.filter fun j => j.session == i).foldl (fun o j =>
    if j.kind = 4 then true else if j.kind = 6 then false else o) (x.session i).isSome

/-- The direction and the configuration that a job of session i will find, where no job in flight can change them. -/
def Engine.dirFor (x : Engine) (i : Nat) : Option Nat :=
  if x.jobs.any fun j => j.session == i && (j.kind == 4 || j.kind == 6) then none else (x.session i).map (·.conf.dir)
def Engine.confFor (x : Engine) (i : Nat) : Option SessCfg :=
  if x.jobs.any fun j => j.session == i && (j.kind == 4 || j.kind == 5 || j.kind == 6) then none else (x.session i).map Session.conf

/-- The checks of the table "Job checks" at acceptance (R411). -/
def jobChecks (e : EngineId) (j : Job) : Eng Unit := do
  let s ← get
  let x := s.engine e
  let offs := [0, 8, 0x10, 0x18, 0x20, 0x28, 0x30, 0x38, 0x40, 0x48, 0x50]
  need (offs.all (fun o => pairOk (w64At j.entry o)) && j.w 8 == j.n % 2 ^ 32) .integrity
  need (j.w 0x10 % 65536 == s.epoch.toNat) .epoch
  let g := x.confFor j.session
  let dir := x.dirFor j.session
  need (j.rsvOk && j.flagsOk dir && j.sizesOk dir) .decode
  need ((j.kind == 4) != x.openFor j.session) .allocFault
  need ((j.reaches g).all fun r => s.mediaAddr r.1 r.2) .allocFault

/-! ## Parameter sets (R423) -/

def Session.freeSets (x : Session) : Session := { x with sets := x.sets.filter fun e => e.ident.isSome || decide (e.refs > 0) }

/-- An incoming set takes a free entry, and its identifier then maps to it. -/
def Session.newSet (x : Session) (ident : Nat) : Session :=
  let sets := x.sets.map fun (e : SetEntry) => if e.ident = some ident then { e with ident := none } else e
  match (List.range 512).find? fun i => !(sets.any fun e => e.idx == i) with
  | some i => Session.freeSets { x with sets := sets ++ [(⟨i, some ident, 0⟩ : SetEntry)] }
  | none => Session.freeSets { x with sets := sets }

/-- The picture of job n activates entries, at most three. -/
def Session.activate (x : Session) (n : Nat) (idents : List Nat) : Session :=
  let es := ((x.sets.filter fun e => e.ident.any idents.contains).map (·.idx)).take 3
  { x with
    sets := x.sets.map fun (e : SetEntry) => if es.contains e.idx then { e with refs := e.refs + 1 } else e
    activated := x.activated ++ [(n, es)] }

/-- The picture of job n is done with its sets. -/
def Session.retire (x : Session) (n : Nat) : Session :=
  let es := ((x.activated.find? fun a => a.1 == n).map (·.2)).getD []
  { x with
    sets := x.sets.map fun (e : SetEntry) => if es.contains e.idx then { e with refs := e.refs - 1 } else e
    activated := x.activated.filter fun a => a.1 != n }.freeSets

/-- The engine takes up the access unit of an accepted decode job whose session is open: its parameter sets take effect, and
its picture, not decoded yet, holds the entries that it activates. -/
def State.admitJob (e : EngineId) (s : State) (j : Job) : State :=
  match (s.engine e).session j.session with
  | none => s
  | some x =>
    if j.kind ≠ 1 ∨ j.unit.isSome ∨ x.conf.dir ≠ 1 then s
    else
      let (r, s) := (memRead .window (j.inAddr % 2 ^ 48) j.inSize).exec s
      let p : Pic := match r with
        | .ok b => { data := b, lost := true }
        | .error st => { data := [], failed := some st, lost := true }
      let y := (Config.codecSets p.data).foldl Session.newSet { x with pics := x.pics ++ [p] }
      let y := y.activate j.n (Config.codecActivates (y.pics.map (·.data)))
      (s.setSession e j.session (some y)).modJob e j.n fun k => { k with unit := some x.pics.length }

/-- The decode jobs of session i that wait, up to one that closes or opens it, but for those in `skip`. -/
def Engine.waiting (x : Engine) (i : Nat) (skip : List Nat) : List Job :=
  (x.jobs.filter fun j => j.session == i && !j.served && !skip.contains j.n).takeWhile fun j => j.kind != 4 && j.kind != 6
def State.takeUp (s : State) (e : EngineId) (i : Nat) (skip : List Nat) : State :=
  ((s.engine e).waiting i skip).foldl (State.admitJob e) s

/-! ## The ring (R407 to R409) -/

/-- The engine's domain is fenced by a recovery, or its media die is off (R483, R496). -/
def State.engineFenced (s : State) (e : EngineId) : Bool :=
  s.domFenced .engine e.val || (s.boot.booted && !flag s.power.on (26 + e.val / 4))

/-- Accepts job n: its entry is copied and checked; a failing job ends at once. -/
def State.acceptJob (s : State) (e : EngineId) (n : Nat) : State :=
  let x := s.engine e
  match (ringRead (x.entryOff n) 128).exec s with
  | (.error st, t) => t.endJob e { n := n, entry := zeros 128 } st
  | (.ok b, t) =>
    let j : Job := { n := n, entry := b }
    let checks : Eng Unit := do
      jobChecks e j
      let u ← get
      if u.engineFenced e then throw .fenced
    match checks.exec t with
    | (.ok _, u) => (u.modEngine e fun y => { y with jobs := y.jobs ++ [j] }).takeUp e j.session []
    | (.error st, u) => u.endJob e j st

/-- Accepts jobs from CONS onward. -/
def State.acceptJobs (e : EngineId) : Nat → State → State
  | 0, s => s
  | k + 1, s =>
    let x := s.engine e
    if x.cons = x.prod ∨ x.jobs.length ≥ 64 then s
    else
      let t := s.acceptJob e x.cons
      State.acceptJobs e k (t.modEngine e fun y => { y with cons := (y.cons + 1) % 2 ^ 32 })

def State.ringFault (s : State) (e : EngineId) : State :=
  s.modEngine e fun x => { x with ringFaults := satAdd 8 x.ringFaults 1 }

/-- JOB_RING_POLL (R408, R409). -/
def State.pollRing (s : State) (e : EngineId) : State :=
  let x := s.engine e
  if ¬ x.run ∨ x.stopping then s
  else
    let (r, s) := (ringRead x.base 8).exec s
    let s := match r with
      | .ok b => if pairOk (w64At b 0) then s.modEngine e fun y => { y with prod := pairVal (w64At b 0) } else s.ringFault e
      | .error _ => s.ringFault e
    let x := s.engine e
    if (x.prod + 2 ^ 32 - x.cons) % 2 ^ 32 > x.entries then s.ringFault e
    else
      let t := State.acceptJobs e x.entries s
      if (t.engine e).cons = x.cons then t
      else ((ringWrite (x.base + 8) (pairBytes (t.engine e).cons)).exec t).2

def execJobRingPoll (e : EngineId) (s : State) : Host.Outcome State Fault Refusal := .next (s.pollRing e)

/-! ## Which job is served (R412, R428) -/

/-- The next job of a session. -/
def Engine.headJob (x : Engine) (i : Nat) : Option Job := x.jobs.find? fun j => j.session == i

/-- The job that the engine serves next: none while a picture runs. -/
def Engine.chosen (x : Engine) : Option Job :=
  if x.jobs.any (·.served) then none
  else
    let order := (List.range 16).map fun k => (x.lastServed + 1 + k) % 16
    let live := order.filter fun i => match x.session i with
      | some y => y.conf.live
      | none => false
    let order := if x.mode then live ++ order else order
    order.findSome? x.headJob

/-! ## Frame pool (R421, R422) -/

def bufFree (b : Buf) : Bool := !b.shortRef && !b.longRef && !b.outMark

/-- Reference marks as directed, then the lowest free buffer for the new picture; none when there is none. -/
def Session.takeBuf (x : Session) (pic : Nat) (short long : List Nat) (out : Bool) : Option (Nat × Session) :=
  let kept := (x.bufs.map fun (b : Nat × Buf) =>
    (b.1, { b.2 with shortRef := short.contains b.2.pic, longRef := long.contains b.2.pic })).filter fun b => !bufFree b.2
  match (List.range x.conf.frames).find? fun k => !(kept.any fun b => b.1 == k) with
  | none => none
  | some k => some (k, { x with bufs := kept ++ [(k, ⟨pic, short.contains pic, long.contains pic, out⟩)] })

/-- A picture that leaves for an output surface loses its output mark. -/
def Session.dropOut (x : Session) (pic : Nat) : Session :=
  let bs := x.bufs.map fun (b : Nat × Buf) => if b.2.pic = pic then (b.1, { b.2 with outMark := false }) else b
  { x with bufs := bs.filter fun b => !bufFree b.2 }

def Session.modPic (x : Session) (k : Nat) (f : Pic → Pic) : Session := { x with pics := x.pics.modify k f }
def Session.pic (x : Session) (k : Nat) : Pic := x.pics.getD k { data := [] }
/-- A picture that turns out damaged is never written (R429). -/
def Session.lose (x : Session) (k : Nat) : Session :=
  { (x.modPic k fun p => { p with lost := true }).dropOut k with queue := x.queue.filter fun i => i != k }

/-- The engine uses bytes of its session's areas: a stack that does not serve, or a range that is guarded, refuses. -/
def areaServes (off n : Nat) : Eng Unit := do
  let s ← get
  need (!s.hbmGuarded off n) .allocFault
  match s.hbmRefuses off n with
  | some st => throw st
  | none => pure ()
/-- Bytes that it reads there go through the decoder (R288); what they say only the engine knows. -/
def areaRead (off n : Nat) : Eng Unit := do
  areaServes off n
  let s ← get
  (s.damage.filter fun x => decide (x.1 < off + n) && decide (off < x.1 + 64)).forM fun x => do
    let _ ← readLine x.1
/-- Bytes that it writes there: the manual does not lay them out, so what they hold is undefined from now on. -/
def areaWrite (off n : Nat) : Eng Unit := do
  areaServes off n
  modify fun s => { s with
    mem := s.mem.forget off n s.free, free := s.free + 1
    damage := s.damage.filter fun x => !(decide (off ≤ x.1) && decide (x.1 + 64 ≤ off + n)) }
/-- The session's state area: read and written by every job that decodes or encodes. -/
def stateArea (g : SessCfg) : Eng Unit := do
  areaServes (g.stateBase % 2 ^ 48) (2 ^ 22)
  modify fun s => { s with mem := s.mem.forget (g.stateBase % 2 ^ 48) (2 ^ 22) s.free, free := s.free + 1 }

def SessCfg.bufOff (g : SessCfg) (k : Nat) : Nat := g.frameBase % 2 ^ 48 + k * g.bufSize

/-- Reads a picture of the pool; one that cannot be corrected is damaged (R429). -/
def readPic (e : EngineId) (j : Job) (x : Session) (k : Nat) : Eng Unit := do
  match x.bufs.find? fun b => b.2.pic == k with
  | none => pure ()
  | some b =>
    let s ← get
    match (areaRead (x.conf.bufOff b.1) x.conf.bufSize).exec s with
    | (.ok _, t) => set t
    | (.error st, t) =>
      set (if st = .dataEcc then t.setSession e j.session (some (x.lose k)) else t)
      throw st

/-- The session ends for want of a buffer (R422). -/
def noBuffer {α : Type} (e : EngineId) (j : Job) : Eng α := do
  modify fun s => s.setSession e j.session none
  throw .allocFault

/-- A new picture takes its buffer, and is written there. -/
def placePic (e : EngineId) (j : Job) (x : Session) (k : Nat) (short long : List Nat) (out : Bool) : Eng Session := do
  match x.takeBuf k short long out with
  | none => noBuffer e j
  | some (b, y) => do
    areaWrite (y.conf.bufOff b) y.conf.bufSize
    pure y

/-! ## What the codec standards see -/

def Pic.coded (p : Pic) : Config.Coded := ⟨p.cfg, b2n p.key + place (b2n p.long) 1 + place (b2n p.eos) 2, p.data, p.qp⟩
/-- The session's pictures up to number k. -/
def Session.upTo (x : Session) (k : Nat) : List Config.Coded := (x.pics.take (k + 1)).map Pic.coded
def Pic.conf (p : Pic) : SessCfg := ⟨p.cfg⟩

/-- The samples of decoded picture k, two bytes each. -/
def Session.samples (x : Session) (grain : Bool) (k : Nat) : List Byte :=
  let g := (x.pic k).conf
  let c := x.upTo k
  (List.range g.samples).flatMap fun i => le 2 (Config.codecSample c grain i % 2 ^ g.depth)

/-! ## Writing results -/

/-- Writes rows at a surface's base. -/
def writeRows (base : Nat) (rows : List (Nat × List Byte)) : Eng Unit :=
  rows.forM fun r => memWrite .window (base % 2 ^ 48 + r.1) r.2

/-- Writes a statistics surface; whether it flags a scene change (R425, R427). -/
def writeStats (e : EngineId) (g : SessCfg) (addr idx auBytes : Nat) (pic : List Byte) (prev : Option (SessCfg × List Byte)) :
    Eng Bool := do
  let s ← get
  need (s.mediaAddr addr g.statSize) .allocFault
  let (blocks, frame, scene) := g.stats (s.engine e).thresh idx auBytes pic prev
  memWrite .window (addr % 2 ^ 48) blocks
  memWrite .window (addr % 2 ^ 48 + g.frameRec) frame
  pure scene

/-- The next ready picture of a decode session goes to the job's surface, laid out as the configuration that it was decoded
under says (R413, R414). -/
def writePicture (e : EngineId) (j : Job) (x : Session) : Eng (Job × Session) := do
  match x.queue with
  | [] => pure (j, x)
  | k :: rest =>
    let p := x.pic k
    let g := p.conf
    let grain := !(j.bit 3)
    let s ← get
    need (s.mediaAddr j.outAddr g.surfaceSize) .allocFault
    readPic e j x k
    let pic := x.samples grain k
    writeRows j.outAddr (g.rows pic)
    let scene ← if j.bit 2 && j.stAddr != 0 then
        writeStats e g j.stAddr x.written 0 pic (x.lastOut.map fun l => ((x.pic l.1).conf, x.samples l.2 l.1))
      else pure false
    let f := 8 + (if scene then 16 else 0) + (if p.key then 64 else 0)
    pure ({ j with flags := f, resultIdx := some x.written },
      { x.dropOut k with queue := rest, written := x.written + 1, lastOut := some (k, grain) })

/-- The next ready access unit of an encode session goes to the job's buffer, whole; one that does not fit is held
(R417). -/
def writeUnit (e : EngineId) (j : Job) (x : Session) : Eng (Job × Session) := do
  match x.queue with
  | [] => pure (j, x)
  | k :: rest =>
    let p := x.pic k
    need (decide (p.au.length ≤ j.outSize)) .allocFault
    memWrite .window (j.outAddr % 2 ^ 48) p.au
    let scene ← if j.stAddr != 0 then
        writeStats e p.conf j.stAddr k p.au.length p.data
          (if k = 0 then none else some ((x.pic (k - 1)).conf, (x.pic (k - 1)).data))
      else pure false
    let f := 8 + (if scene then 16 else 0) + (if p.cap then 32 else 0) + (if p.key then 64 else 0)
    pure ({ j with flags := f, resultIdx := some k, bytes := p.au.length }, { x with queue := rest, written := x.written + 1 })

/-! ## Decoding (R414, R422 to R424, R429) -/

/-- The pictures that unit k makes ready: those that the standard names and, at the end of the stream, all that await an
output surface. -/
def Session.heard (x : Session) (k : Nat) : Session :=
  let c := x.upTo k
  let waits (i : Nat) : Bool := (x.bufs.any fun b => b.2.pic == i && b.2.outMark) && !x.queue.contains i
  let named := ((Config.codecReady c).filter waits).eraseDups
  let rest := if Config.codecEos c then (List.range (k + 1)).filter fun i => waits i && !named.contains i else []
  { x with queue := x.queue ++ named ++ rest }

/-- Decodes access unit k of a session. A picture that references a damaged one, since the last key picture, is damaged
too. -/
def decodeUnit (e : EngineId) (j : Job) (x : Session) (k : Nat) : Eng Session := do
  match (x.pic k).failed with
  | some st => throw st
  | none => pure ()
  areaServes (j.inAddr % 2 ^ 48) j.inSize
  stateArea x.conf
  let c := x.upTo k
  let key := Config.codecKey c
  need (Config.codecConformant c && (key || !Config.codecChangedSps c)) .decode
  let refs := (Config.codecRefs c).filter fun i => decide (i < k) && decide (x.lastKey ≤ i)
  need (key || !(refs.any fun i => (x.pic i).lost)) .decode
  refs.forM fun i => readPic e j x i
  let y := { x.modPic k fun p => { p with lost := false, key := key } with lastKey := if key then k else x.lastKey }
  placePic e j y k (Config.codecShort c) (Config.codecLong c) (Config.codecShown c)

/-! ## Encoding (R417 to R420, R422) -/

/-- A mini-GOP is whole, or a key picture or the end of the stream ends it: its pictures are encoded
(notes/assumptions/33.md). -/
def Session.gopEnds (x : Session) : Bool :=
  let held := x.pics.drop x.encoded
  decide (held.length ≥ x.conf.miniGop) || held.any fun p => p.key || p.eos

/-- The pictures of the mini-GOP that has ended, in decode order, with their temporal layers. -/
def Session.gop (x : Session) : List (Nat × Nat) :=
  let all := (List.range x.pics.length).drop x.encoded
  let c := x.upTo x.pics.length
  let m := x.conf.miniGop
  let named := ((Config.codecOrder c x.encoded).filter all.contains).eraseDups
  let whole := all.length == m && !(all.any fun i => (x.pic i).key)
  (named ++ all.filter fun i => !named.contains i).map fun i =>
    (i, if whole then miniGopLayer m (i - x.encoded + 1) else Config.codecLayer c i % (Nat.log2 m + 1))

/-- The access unit of picture d at a QP (R418). -/
def Session.unitAt (x : Session) (d qp : Nat) : List Byte :=
  let p := x.pic d
  Config.codecUnit (x.upTo x.pics.length) d qp fun ref bx by' =>
    p.conf.motion p.data (Config.lambdaOf qp) p.conf ref bx by'

/-- A picture begins a stream of its own: the first of the session, after an EOS, or under a new configuration. -/
def Session.newStream (x : Session) (d : Nat) : Bool :=
  decide (d = 0) || (x.pic (d - 1)).eos || (x.pic (d - 1)).cfg != (x.pic d).cfg

/-- Rate control of picture d at base QP q (R420): the QP of its last encoding, whether that one underflows the buffer, and
the fullness then. The buffer, in bits times the frame rate's numerator, starts 90 % full, and fills at MAX_RATE until the
next removal. -/
def Session.rate (x : Session) (d q : Nat) : Nat × Bool × Option Nat :=
  let g := (x.pic d).conf
  let qp (k : Nat) : Nat := min g.qpMax (q + 4 * k * g.qpStep)
  if g.maxRate = 0 then (qp 0, false, none)
  else
    let scale := max 1 g.fpsNum
    let size := g.bufBits * scale
    let now := if x.newStream d then size * 9 / 10 else x.fullness.getD (size * 9 / 10)
    let bits (k : Nat) : Nat := 8 * (x.unitAt d (qp k)).length * scale
    let low (k : Nat) : Bool := decide (10 * now < 10 * bits k + size)
    let k := if !low 0 then 0 else if !low 1 then 1 else 2
    let fill := if g.fpsNum = 0 then size else 1000 * g.maxRate * g.fpsDen
    (qp k, decide (now < bits k), some (min size (now - bits k + fill)))

/-- Encodes picture d at temporal layer t: its QP, its access unit, its buffer and its marks. -/
def encodePic (e : EngineId) (j : Job) (x : Session) (d t : Nat) : Eng Session := do
  let p := x.pic d
  let (qp, cap, full) := x.rate d (p.conf.baseQp p.key t)
  let au := x.unitAt d qp
  let lastKey := if p.key then d else x.lastKey
  let y := { x.modPic d fun p => { p with qp := qp, au := au, cap := cap } with
    fullness := full, lastKey := lastKey, queue := x.queue ++ [d] }
  let short := ((Config.codecMarks (y.upTo y.pics.length) d).filter fun i => decide (lastKey ≤ i)).take p.conf.refs
  let long := (List.range y.pics.length).filter fun i => (y.pic i).long && decide (lastKey ≤ i)
  if cap then modify fun s => s.modEngine e fun y => { y with capExceeded := satAdd 8 y.capExceeded 1 }
  modify fun s => s.modEngine e fun y => { y with pictures := satAdd 32 y.pictures 1 }
  placePic e j y d short long false

/-- Encodes the pictures held, when their mini-GOP has ended. -/
def encodeGop (e : EngineId) (j : Job) (x : Session) : Eng Session := do
  if x.gopEnds then
    let y ← x.gop.foldlM (fun (y : Session) d => encodePic e j y d.1 d.2) x
    pure { y with encoded := x.pics.length }
  else pure x

/-! ## The jobs -/

/-- Replaces the session of a job. -/
def putSession (e : EngineId) (j : Job) (x : Session) : Eng Unit := modify fun s => s.setSession e j.session (some x)

/-- The session of a job, with the checks that its configuration decides (R411). -/
def openSession (e : EngineId) (j : Job) : Eng Session := do
  let s ← get
  if s.engineFenced e then throw .fenced
  match (s.engine e).session j.session with
  | none => throw .allocFault
  | some x =>
    let g := x.conf
    need (j.flagsOk (some g.dir) && j.sizesOk (some g.dir)) .decode
    need ((j.reaches (some g)).all fun r => s.mediaAddr r.1 r.2) .allocFault
    pure x

/-- A decode job (R414, R423, R424, R429). Its access unit was taken up at acceptance (R423). -/
def runDecode (e : EngineId) (j : Job) : Eng Job := do
  let x ← openSession e j
  let k := j.unit.getD 0
  let x := x.modPic k fun p => { p with cfg := x.cfg }
  let s ← get
  match (decodeUnit e j x k).exec (s.setSession e j.session (some x)) with
  | (.error st, t) =>
    let t := if st = .decode then t.modEngine e fun y => { y with decodeErrors := satAdd 16 y.decodeErrors 1 } else t
    set (match (t.engine e).session j.session with
      | some y => t.setSession e j.session (some (y.heard k))
      | none => t)
    throw st
  | (.ok y, t) =>
    set t
    let y := y.heard k
    putSession e j y
    modify fun s => s.modEngine e fun y => { y with pictures := satAdd 32 y.pictures 1 }
    let (j, y) ← writePicture e j y
    putSession e j y
    pure j

/-- An encode job (R416, R417, R420, R422, R424). -/
def runEncode (e : EngineId) (j : Job) : Eng Job := do
  let x ← openSession e j
  let g := x.conf
  let key := x.keyNext || j.bit 4 || decide (x.sinceKey ≥ g.keyInterval)
  let longs := (if key then 0 else x.longRefs) + (if j.bit 5 then 1 else 0)
  need (decide (longs ≤ 2)) .decode
  let raw ← memRead .window (j.inAddr % 2 ^ 48) g.surfaceSize
  stateArea g
  x.bufs.forM fun b => areaRead (g.bufOff b.1) g.bufSize
  let p : Pic := { data := g.unpack raw, cfg := x.cfg, key := key, long := j.bit 5, eos := j.bit 7 }
  let x := { x with
    pics := x.pics ++ [p], longRefs := longs, sinceKey := if key then 1 else x.sinceKey + 1, keyNext := j.bit 7 }
  let x ← encodeGop e j x
  putSession e j x
  let (j, x) ← writeUnit e j x
  putSession e j x
  pure j

/-- A flush job (R414, R417). -/
def runFlush (e : EngineId) (j : Job) : Eng Job := do
  let x ← openSession e j
  stateArea x.conf
  let (j, x) ← if x.conf.dir = 1 then writePicture e j x else writeUnit e j x
  putSession e j x
  pure j

/-- Reads and checks a configuration block (R411, R413). -/
def readConf (j : Job) : Eng SessCfg := do
  let s ← get
  need ((j.reaches none).all fun r => s.mediaAddr r.1 r.2) .allocFault
  let b ← memRead .window (j.inAddr % 2 ^ 48) 128
  let g : SessCfg := ⟨b⟩
  need g.pairsOk .integrity
  need g.formed .decode
  let s ← get
  need (s.mediaAddr g.frameBase (g.frames * g.bufSize) && s.mediaAddr g.stateBase (2 ^ 22)) .allocFault
  pure g

/-- An open job (R403, R413). -/
def runOpen (e : EngineId) (j : Job) : Eng Job := do
  let s ← get
  if s.engineFenced e then throw .fenced
  need ((s.engine e).session j.session).isNone .allocFault
  let g ← readConf j
  stateArea g
  putSession e j { cfg := g.bytes }
  modify fun s => s.takeUp e j.session [j.n]
  pure j

/-- A reconfigure job (R413, R424). -/
def runReconfigure (e : EngineId) (j : Job) : Eng Job := do
  let x ← openSession e j
  let g ← readConf j
  let old := x.conf
  need (g.dir == old.dir && g.codec == old.codec && g.frames == old.frames && g.frameBase == old.frameBase) .decode
  putSession e j { x with cfg := g.bytes, keyNext := true }
  pure j

/-- A close job (R413). -/
def runClose (e : EngineId) (j : Job) : Eng Job := do
  let _ ← openSession e j
  modify fun s => s.setSession e j.session none
  pure j

/-- A job is served when it is the one that the engine serves next and of the KIND that the command names; its outcome
is kept until it ends. -/
def State.serve (s : State) (e : EngineId) (n kind : Nat) (run : Job → Eng Job) : State :=
  match (s.engine e).chosen with
  | none => s
  | some j =>
    if j.n ≠ n ∨ j.kind ≠ kind then s
    else match (run j).exec s with
      | (.ok k, t) => t.modJob e n fun _ => { k with served := true, status := some .ok }
      | (.error st, t) => t.modJob e n fun k => { k with served := true, status := some st }

/-- DECODE_JOB (R414). -/
def execDecodeJob (e : EngineId) (n now : Nat) (s : State) : Host.Outcome State Fault Refusal :=
  .next ((s.atTime now).serve e n 1 (runDecode e))
/-- ENCODE_JOB (R417). -/
def execEncodeJob (e : EngineId) (n now : Nat) (s : State) : Host.Outcome State Fault Refusal :=
  .next ((s.atTime now).serve e n 2 (runEncode e))
/-- FLUSH_JOB (R414, R417). -/
def execFlushJob (e : EngineId) (n : Nat) (s : State) : Host.Outcome State Fault Refusal := .next (s.serve e n 3 (runFlush e))
/-- OPEN_JOB (R413). -/
def execOpenJob (e : EngineId) (n : Nat) (s : State) : Host.Outcome State Fault Refusal := .next (s.serve e n 4 (runOpen e))
/-- RECONFIGURE_JOB (R413). -/
def execReconfigureJob (e : EngineId) (n : Nat) (s : State) : Host.Outcome State Fault Refusal :=
  .next (s.serve e n 5 (runReconfigure e))
/-- CLOSE_JOB (R413). -/
def execCloseJob (e : EngineId) (n : Nat) (s : State) : Host.Outcome State Fault Refusal := .next (s.serve e n 6 (runClose e))

/-- MEDIA_JOB_END (R408, R410, R412, R423). -/
def execMediaJobEnd (e : EngineId) (n : Nat) (s : State) : Host.Outcome State Fault Refusal :=
  match (s.engine e).jobs.find? fun j => j.n == n with
  | none => .next s
  | some j =>
    match j.served, j.status with
    | true, some st =>
      let s := s.modEngine e fun x => { x with lastServed := j.session }
      let s := match (s.engine e).session j.session with
        | some x => s.setSession e j.session (some (x.retire n))
        | none => s
      .next (s.endJob e j st)
    | _, _ => .next s

/-! ## Start and stop (R430) -/

/-- MEDIA_CTRL.START: counts cleared, CONS taken from the ring; a ring that cannot be read gives 0. -/
def State.mediaStart (s : State) (e : EngineId) : State :=
  let x := s.engine e
  if x.run then s
  else
    let (r, s) := (ringRead (x.base + 8) 8).exec s
    let cons := match r with
      | .ok b => if pairOk (w64At b 0) then pairVal (w64At b 0) else 0
      | .error _ => 0
    s.modEngine e fun y => { y with
      run := true, stopping := false, cons := cons, prod := cons, pictures := 0, decodeErrors := 0, capExceeded := 0,
      ringFaults := 0 }
def execMediaStart (e : EngineId) (s : State) : Host.Outcome State Fault Refusal := .next (s.mediaStart e)

/-- MEDIA_CTRL.STOP: acceptance ends. -/
def State.mediaStop (s : State) (e : EngineId) : State :=
  s.modEngine e fun x => if x.run then { x with stopping := true } else x
def execMediaStop (e : EngineId) (s : State) : Host.Outcome State Fault Refusal := .next (s.mediaStop e)

/-- MEDIA_STOP_DRAINED: RUN becomes 0 once no job is in flight. -/
def execMediaStopDrained (e : EngineId) (s : State) : Host.Outcome State Fault Refusal :=
  .next (s.modEngine e fun x => if x.run && x.stopping && x.jobs.isEmpty then { x with run := false, stopping := false } else x)

end Sys2Proof.Machine
end

