-- ==== Sys2Proof/Machine/Security.lean ====
section
/-! DEFINITION. The security mailbox (R518 to R524): what each command checks and does when it starts, and what it leaves
when it ends. notes/assumptions/36.md says which part of each takes place when. -/
namespace Sys2Proof.Machine

/-- Bytes of the area that SEC_ARG names (R518); the firmware image by its header alone. -/
def secArea (code : Nat) : Nat :=
  match code with
  | 1 => 0x5000 | 3 => 0x4160 | 4 => 17408 | 5 => 128 | 6 => 4096 | 7 => 65536 | _ => 0

/-- Reads an area of HBM outside the pool region. -/
def secRead (off n : Nat) : Eng (List Byte) := do
  let s ← get
  need (s.plainHbm off n) .allocFault
  memRead .window off n

/-- The checks of FW_UPDATE (R516, R519, R520): the header and the body. -/
def checkFirmware (off : Nat) : Eng (List Byte × List Byte) := do
  let h ← secRead off 0x5000
  need (fwForm h) .decode
  need (fwPairs h) .integrity
  need (fwRange h) .decode
  let s ← get
  let key := pw h 0x30
  need (!s.keyRevoked key) .revoked
  need (s.keyMatches key (slice h 0x100 384) (slice h 0x280 48) && fwSigned h) .integrity
  need (decide (s.fuses.svn ≤ pw h 0x10)) .rollback
  let body ← secRead (off + 0x5000) (pw h 0x20)
  need (Config.sha384 body == slice h 0x40 48) .integrity
  pure (h, body)

/-- Erased boot flash reads as ones. -/
def State.eraseBoot (s : State) (o n : Nat) : State := { s with bootFlash := s.bootFlash.setBytes o (List.replicate n 0xFF) }
def State.writeBoot (s : State) (o : Nat) (bs : List Byte) : State := { s with bootFlash := s.bootFlash.setBytes o bs }

/-- A CFG_WRITE copy is valid but for its SEQ (R512, R519). -/
def checkCopy (b : List Byte) : Eng Unit := do
  need (b.take 8 == cfgMagic) .decode
  need (w32At b 0xFFC == crc32c (b.take 0xFFC)) .integrity
  need (cfgPairs.all fun o => pairOk (w64At b o)) .integrity
  need (pw b 8 == 1 && cfgRsv b && cfgRange b) .decode

/-- The copy as CFG_WRITE writes it: SEQ one above the copy in use, and its CHECK (R514). -/
def State.sealCopy (s : State) (b : List Byte) : List Byte :=
  let b := overlay b 0x10 (pairBytes ((s.cfg.seq + 1) % 2 ^ 32))
  b.take 0xFFC ++ le 4 (crc32c (b.take 0xFFC)).toNat

/-- What a command does at its start, once its area is known to lie where R518 asks. -/
def secBegin (code off : Nat) : Eng Unit := do
  match code with
  | 1 => do
    let (h, body) ← checkFirmware off
    modify fun s =>
      let k := 1 - s.boot.slot
      let t := (s.eraseBoot (slotBase k) 0x5000).writeBoot (slotBase k + 0x5000) body
      { t with sec := { t.sec with stage := overlay h 0x28 (pairBytes ((s.boot.gen + 1) % 65536)) } }
  | 4 => modify fun s => { s with sec := { s.sec with attestMeas := s.boot.meas.toList.flatten } }
  | 6 => do
    let b ← secRead off 4096
    checkCopy b
    modify fun s =>
      let t := s.eraseBoot (0x1000 * (1 - s.cfg.copy)) 4096
      { t with sec := { t.sec with stage := s.sealCopy b } }
  | 2 | 3 | 5 | 7 => pure ()
  | _ => throw .decode

/-- A write to SEC_CMD.CODE (R518), ignored while BUSY is 1 and while no firmware runs. -/
def State.secStart (s : State) (code : Nat) : State :=
  if s.sec.busy.isSome ∨ ¬ s.boot.booted then s
  else
    let off := s.sec.arg.toNat
    let s := { s with sec := { s.sec with busy := some code, stage := le 6 off, outcome := 0 } }
    let go : Eng Unit := do
      let t ← get
      need (secArea code == 0 || t.plainHbm off (secArea code)) .allocFault
      secBegin code off
    let (st, t) := go.outcome s
    { t with sec := { t.sec with outcome := statusCode st } }

/-- DEBUG_UNLOCK (R522): the permissions that a token grants, and its signed bytes. -/
def checkToken (off : Nat) : Eng (Nat × List Byte) := do
  let b ← secRead off 0x4160
  need (b.take 8 == [0x4F, 0x5A, 0x44, 0x58, 0x44, 0x42, 0x47, 0x54]) .decode
  need ([0x08, 0x10, 0x18, 0x28].all fun o => pairOk (w64At b o)) .integrity
  need (decide (pw b 0x18 < 8) && decide (pw b 0x28 < 4) && allZero (slice b 0x30 80)) .decode
  let s ← get
  need (pw b 0x08 + 2 ^ 32 * pw b 0x10 == s.fuses.uid.toNat && w64At b 0x20 == s.sec.nonce) .integrity
  need (!s.keyRevoked (pw b 0x28)) .revoked
  need (s.keyMatches (pw b 0x28) s.boot.rsaPub s.boot.slhPub
    && sigsOk s.boot.rsaPub s.boot.slhPub (b.take 0x80) (slice b 0x80 384) (slice b 0x200 16224)) .integrity
  pure (pw b 0x18, b.take 0x80)

/-- The signed bytes of an attestation report (R523). -/
def State.report (s : State) (nonce : List Byte) : List Byte :=
  [0x4F, 0x5A, 0x44, 0x58, 0x41, 0x54, 0x54, 0x52] ++ pw2Bytes s.fuses.uid.toNat ++ le 8 s.deviceId.toNat
    ++ pairBytes (s.boot.version % 65536) ++ pairBytes (place s.fuses.svn 8 + s.boot.imageSvn) ++ pairBytes s.sec.perms
    ++ pairBytes (b2n s.cfg.defaulted) ++ nonce ++ slice s.sec.attestMeas 0 192 ++ zeros 208

/-- What a command does at its end. -/
def secFinish (code off : Nat) (stage : List Byte) : Eng Unit := do
  match code with
  | 1 => modify fun s => s.writeBoot (slotBase (1 - s.boot.slot)) stage
  | 2 => modify fun s => { s with fuses := { s.fuses with svn := max s.fuses.svn s.boot.imageSvn } }
  | 3 => do
    let (perms, msg) ← checkToken off
    modify fun s => { s with sec := { s.sec with perms := s.sec.perms ||| perms }, boot := s.boot.extend 2 msg }
  | 4 => do
    let nonce ← secRead (off + 0x40) 48
    let s ← get
    let r := s.report nonce
    memWrite .window off (r ++ slice (Config.attestRsa r) 0 384 ++ slice (Config.attestSlh r) 0 16224)
  | 5 => do
    let b ← secRead off 128
    need (pairOk (w64At b 0)) .integrity
    need (allZero (slice b 8 24)) .decode
    let s ← get
    memWrite .window (off + 0x40) (slice (Config.wrapKey s.fuses.uid (BitVec.ofNat 32 (pw b 0)) (slice b 0x20 32)) 0 48)
    memWrite .window (off + 0x20) (zeros 32)
  | 6 => modify fun s =>
      let t := s.writeBoot (0x1000 * (1 - s.cfg.copy)) stage
      { t with cfg := { t.cfg with nextKey := some (t.memberKey stage) } }
  | 7 => do
    let s ← get
    memWrite .window off (s.bootBytes 0x10000 65536)
  | _ => pure ()

/-- SECURITY_COMMAND_END (R518, R519, R522): BUSY falls and CODE holds the status; a fresh nonce at the end of every
DEBUG_UNLOCK. -/
def State.secEnd (s : State) : State :=
  match s.sec.busy with
  | none => s
  | some code =>
    let stage := s.sec.stage
    let (st, s) := if s.sec.outcome ≠ 0 then (statusOf s.sec.outcome, s)
      else (secFinish code (leNat (stage.take 6)) stage).outcome s
    let s := if code = 3 then
        let (w, t) := s.draw
        { t with sec := { t.sec with nonce := w } }
      else s
    ({ s with sec := { s.sec with busy := none, stage := [], outcome := 0, attestMeas := [], lastCmd := code,
                                  code := statusCode st } }).endRequest st

/-- FW_UPDATE (R520). -/
def execFwUpdate (s : State) : Host.Outcome State Fault Refusal := .next (s.secStart 1)
/-- SVN_COMMIT (R521). -/
def execSvnCommit (s : State) : Host.Outcome State Fault Refusal := .next (s.secStart 2)
/-- DEBUG_UNLOCK (R522). -/
def execDebugUnlock (s : State) : Host.Outcome State Fault Refusal := .next (s.secStart 3)
/-- ATTEST (R523). -/
def execAttest (s : State) : Host.Outcome State Fault Refusal := .next (s.secStart 4)
/-- MEMBER_WRAP (R524). -/
def execMemberWrap (s : State) : Host.Outcome State Fault Refusal := .next (s.secStart 5)
/-- CFG_WRITE (R514, R519). -/
def execCfgWrite (s : State) : Host.Outcome State Fault Refusal := .next (s.secStart 6)
/-- CERT_READ (R518). -/
def execCertRead (s : State) : Host.Outcome State Fault Refusal := .next (s.secStart 7)
/-- SECURITY_COMMAND_END (R518). -/
def execSecurityCommandEnd (s : State) : Host.Outcome State Fault Refusal := .next s.secEnd

end Sys2Proof.Machine
end

