-- ==== Sys2Proof/Machine/Trace.lean ====
section
/-! DEFINITION. Re-arming Proof (R530) and the trace ring: its start and its drain to HBM (R534, R535). -/
namespace Sys2Proof.Machine

/-- A write of 1 to PROOF_CTRL.ARM (R530). -/
def State.arm (s : State) : State := { s with proof := { s.proof with armed := true, missed := 0 } }
/-- ARM (R530). -/
def execArm (s : State) : Host.Outcome State Fault Refusal := .next s.arm

/-- TRACE_CTRL.EN rises (R534): NEXT restarts at 0 and FULL is cleared. -/
def State.traceOn (s : State) : State :=
  if s.proof.traceEn then s
  else { s with proof := { s.proof with traceEn := true, next := 0, accepted := 0, full := false } }
/-- TRACE_ENABLE (R534). -/
def execTraceEnable (s : State) : Host.Outcome State Fault Refusal := .next s.traceOn

/-- Entries of the ring as a power of two; LOG2 outside 11 to 24 acts as the nearer end (notes/assumptions/37.md). -/
def Proof.log2 (p : Proof) : Nat := max 11 (min 24 p.traceLog2)

/-- A trace entry's 32 bytes (R534). -/
def TraceEntry.bytes (e : TraceEntry) : List Byte :=
  le 8 (place e.type 56 + place e.code 48 + place e.core 32 + e.tag % 65536) ++ le 8 e.value.toNat
    ++ le 8 (e.tick % 2 ^ 48) ++ le 8 (e.cc % 2 ^ 32)

/-- One entry leaves the queue for the ring (R535). -/
def State.drainTrace (s : State) : State :=
  let p := s.proof
  match p.queue with
  | [] => s
  | e :: rest =>
    let size := 2 ^ p.log2
    let s := s.tryWrite (p.traceBase.toNat * 65536 + 32 * (p.next % size)) e.bytes
    let full := p.full || (!p.traceWrap && decide (p.accepted + 1 ≥ size))
    { s with proof := { s.proof with
      queue := if full then [] else rest, next := (p.next + 1) % 2 ^ 32, accepted := p.accepted + 1, full := full } }
/-- TRACE_DRAIN (R535). -/
def execTraceDrain (s : State) : Host.Outcome State Fault Refusal := .next s.drainTrace

end Sys2Proof.Machine
end

