-- ==== Sys2Proof/Machine/RegWrite.lean ====
section
/-! DEFINITION. Register writes (R8, R47): each register's fields by their access types and locks. A field that is RO, Rsv
or write-one-to-clear with 0 written keeps its value; an offset that names no register takes nothing. -/
namespace Sys2Proof.Machine

/-- A register locked whole (R47): while locked the write leaves it as it is, and BAD_WRITE is set when the write would
have changed it. -/
def State.whenFree (s : State) (locked same : Bool) (t : State) : State :=
  if locked then (if same then s else s.badWrite) else t

/-- A paired word whose value has n bits, as it is held after a write: its Rsv bits, and their complement, are not taken
from the write (R6). -/
def pairField (n : Nat) (v : Word) : Word :=
  BitVec.ofNat 64 (v.toNat % 2 ^ n + (v.toNat / 2 ^ 32 % 2 ^ n + (2 ^ 32 - 2 ^ n)) * 2 ^ 32)

/-- A flag after a write-one-to-clear. -/
def w1c (f bit : Bool) : Bool := f && !bit

/-! ## Tick unit (R56, R47, R48, R26) -/

def State.writeTickCtrl (s : State) (v : Word) : State :=
  let t := s.tick
  let role := Role.ofCode (field v 2 1)
  let lead := field v 15 8
  let s := s.whenFree t.run (decide (role = t.role) && decide (lead = t.lead))
    { s with tick := { t with role := role, lead := lead } }
  let s := if flag v 5 then s.stretchReq else s
  let s := if flag v 4 ∧ t.run then s.tickStop else s
  if flag v 3 ∧ ¬ t.run then s.tickStart else s

def State.writeTickPeriod (s : State) (v : Word) : State :=
  let p := field v 25 0
  let t := s.tick
  if p = t.period then s
  else if t.run ∨ p < 36000 ∨ p > 36000000 then s.badWrite
  else { s with tick := { t with period := p, effective := p } }

def Tick.clear (t : Tick) (v : Word) : Tick :=
  { t with
    badWrite := w1c t.badWrite (flag v 7), lostFlag := w1c t.lostFlag (flag v 6), alignFault := w1c t.alignFault (flag v 5)
    stretchLimit := w1c t.stretchLimit (flag v 4), voteLate := w1c t.voteLate (flag v 3), held := w1c t.held (flag v 2)
    overrun := w1c t.overrun (flag v 1), slackUsed := w1c t.slackUsed (flag v 0) }

/-! ## Watch and partitions (R126, R129, R460, R474) -/

/-- WATCH_CTRL_p (R126, R129): only on the chip that decides, and only while HOLD is 1. -/
def State.watchCtrl (s : State) (p : PartId) (retry skip : Bool) : State :=
  if ¬ s.tick.decides ∨ ¬ (s.part p).held ∨ retry = skip then s
  else s.modPart p fun x => { x with ctl := some retry }
/-- WATCH_CTRL_RETRY (R126). -/
def execWatchCtrlRetry (p : PartId) (s : State) : Host.Outcome State Fault Refusal := .next (s.watchCtrl p true false)
/-- WATCH_CTRL_SKIP (R126). -/
def execWatchCtrlSkip (p : PartId) (s : State) : Host.Outcome State Fault Refusal := .next (s.watchCtrl p false true)

/-- The clusters of two enabled partitions meet. -/
def Part.meets (x y : Part) : Bool :=
  x.enable && y.enable && decide (x.first < y.first + y.count + 1) && decide (y.first < x.first + x.count + 1)

def State.writePartCfg (s : State) (p : PartId) (v : Word) : State :=
  let x := s.part p
  let y := { x with reserved := flag v 9, enable := flag v 8, count := field v 7 4, first := field v 3 0 }
  if y.cfgWord = x.cfgWord then s
  else if s.tick.run then s.badWrite
  else if y.enable && decide (y.first + y.count + 1 > s.logicalCores / 8) then s.badWrite
  else if (List.finRange 8).any fun q => q != p && (s.part q).meets y then s.badWrite
  else s.setPart p y

def State.writePartResume (s : State) (p : PartId) (v : Word) : State :=
  s.modPart p fun x => { x with
    resumeOff := if x.state = .idle then BitVec.ofNat 32 (field v 47 16) else x.resumeOff, resumeValid := flag v 0 }

/-! ## Fabric and collectives (R376, R400) -/

def State.writeXhCtrl (s : State) (v : Word) : State :=
  let f := s.fabric
  let tmo := field v 31 24
  let rr := field v 13 8
  let s := s.whenFree f.run (decide (tmo = f.reqTimeout) && decide (rr = f.rowRacks))
    { s with fabric := { f with reqTimeout := tmo, rowRacks := rr } }
  let s := if flag v 2 then s.xhStop else s
  let s := if flag v 1 ∧ ¬ f.run then s.xhStart else s
  if flag v 3 ∧ f.run then s.retrainAll else s

def State.writeCollCtrl (s : State) (v : Word) : State :=
  let c := s.coll
  let wl := field v 9 8
  let s := s.whenFree c.run (decide (wl = c.waitLimit)) { s with coll := { c with waitLimit := wl } }
  let s := if flag v 2 then s.collStop else s
  if flag v 1 ∧ ¬ c.run then s.collStart else s

/-! ## The configuration region -/

def State.writeConfig (s : State) (o : Nat) (v : Word) : State :=
  let t := s.tick
  let pid (k : Nat) : PartId := ⟨k % 8, Nat.mod_lt _ (by decide)⟩
  match o with
  | 0x1000 => s.writeTickCtrl v
  | 0x1008 => s.writeTickPeriod v
  | 0x1010 => s.whenFree t.run (decide (field v 6 0 = t.slack)) { s with tick := { t with slack := field v 6 0 } }
  | 0x1030 => { s with tick := t.clear v }
  | 0x1048 => s.whenFree t.run (decide (v = t.master)) { s with tick := { t with master := v } }
  | 0x1058 => s.whenFree t.run (decide (pairField 16 v = t.parent)) { s with tick := { t with parent := pairField 16 v } }
  | 0x1200 => s.writeXhCtrl v
  | 0x1210 => s.whenFree s.coll.run (decide (field v 47 15 = s.coll.base.toNat))
      { s with coll := { s.coll with base := BitVec.ofNat 33 (field v 47 15) } }
  | 0x1218 => s.writeCollCtrl v
  | 0x1220 => { s with coll := { s.coll with valid := w1c s.coll.valid (flag v 8) } }
  | _ =>
    if 0x1060 ≤ o ∧ o < 0x10A0 then
      let k := (o - 0x1060) / 8
      let v := pairField 17 v
      s.whenFree t.run (decide (t.children.toList[k]? = some v))
        { s with tick := { t with children := Vector.ofFn fun (i : Fin 8) => if i.val = k then v else t.children[i] } }
    else if 0x1180 ≤ o ∧ o < 0x11C0 then
      s.modPart (pid ((o - 0x1180) / 8)) fun x => { x with
        escalated := w1c x.escalated (flag v 6), stepFailed := w1c x.stepFailed (flag v 0) }
    else if 0x11C0 ≤ o ∧ o < 0x1200 then s.watchCtrl (pid ((o - 0x11C0) / 8)) (flag v 0) (flag v 1)
    else if 0x1300 ≤ o ∧ o < 0x1340 then s.writePartCfg (pid ((o - 0x1300) / 8)) v
    else if 0x1380 ≤ o ∧ o < 0x13C0 then s.writePartResume (pid ((o - 0x1380) / 8)) v
    else s

/-! ## Stacks and ports (R297, R301, R377) -/

def State.writeStack (s : State) (i : StackId) (o : Nat) (v : Word) : State :=
  let x := s.stack i
  match o with
  | 0x0 => s.setStack i { x with candFull := w1c x.candFull (flag v 7) }
  | 0x8 =>
    let s := s.whenFree s.tick.run (flag v 0 == x.scrubEn) (s.setStack i { x with scrubEn := flag v 0 })
    s.setMaint i (flag v 1)
  | 0x20 => s.setStack i { x with ue := { x.ue with valid := w1c x.ue.valid (flag v 63) } }
  | 0x28 => s.setStack i { x with ce := { x.ce with valid := w1c x.ce.valid (flag v 63) } }
  | 0x100 => s.mbox i (field v 7 0)
  | 0x108 => s.setStack i { x with arg0 := v }
  | 0x110 => s.setStack i { x with arg1 := v }
  | _ => s

def State.writePort (s : State) (p : PortId) (o : Nat) (v : Word) : State :=
  let x := s.port p
  match o with
  | 0x0 =>
    let s := s.setPort p { x with remapped := w1c x.remapped (flag v 13), degraded := w1c x.degraded (flag v 12) }
    if flag v 63 then s.retrain p else s
  | 0x8 =>
    let y := x.setMap p.val v
    s.whenFree s.fabric.run (decide (y.mapWord = x.mapWord)) (s.setPort p y)
  | 0x10 => s.whenFree s.fabric.run (decide (pairField 16 v = x.expect)) (s.setPort p { x with expect := pairField 16 v })
  | _ => s

/-! ## Folio and flash (R306, R326) -/

def State.writePoolCtrl (s : State) (v : Word) : State :=
  let run := s.folio.run
  let s := if flag v 3 then s.poolStop else s
  if flag v 1 ∧ ¬ run then s.poolStart (flag v 2) else s

def State.writePoolShare (s : State) (v : Word) : State :=
  let f := s.folio
  let g := { f with lowater := field v 47 32, dir := field v 24 16, share := field v 8 0 }
  if g.share = f.share ∧ g.dir = f.dir ∧ g.lowater = f.lowater then s
  else if f.run ∨ g.share > 288 then s.badWrite
  else { s with folio := g }

def State.writeFolio (s : State) (o : Nat) (v : Word) : State :=
  let f := s.folio
  let l := s.ftl
  match o with
  | 0x0 => s.writePoolCtrl v
  | 0x8 => s.writePoolShare v
  | 0x10 => s.whenFree f.run (decide (field v 61 32 = f.spillUnits) && decide (field v 29 0 = f.spillBase))
      { s with folio := { f with spillUnits := field v 61 32, spillBase := field v 29 0 } }
  | 0x18 => s.whenFree f.run (decide (field v 51 32 = f.t1Count) && decide (field v 31 0 = f.t1Base))
      { s with folio := { f with t1Count := field v 51 32, t1Base := field v 31 0 } }
  | 0x20 => s.whenFree f.run (decide (field v 15 0 = f.timeout)) { s with folio := { f with timeout := field v 15 0 } }
  | 0x28 => { s with folio := { f with spillFull := w1c f.spillFull (flag v 3), poolFull := w1c f.poolFull (flag v 2) } }
  | 0x400000 => { s with ftl := { l with replayed := w1c l.replayed (flag v 2) } }
  | 0x400010 => if l.lock then s else { s with ftl := { l with
      lock := flag v 63, rdLimit := field v 47 32, wearGap := field v 31 16, bgShare := field v 15 8, reservePct := field v 7 0 } }
  | 0x400020 => if l.lock then s else { s with ftl := { l with mapBase := BitVec.ofNat 32 (field v 47 16) } }
  | _ => s

/-! ## Intaglio (R405, R430) -/

def State.writeMediaCtrl (s : State) (e : EngineId) (v : Word) : State :=
  let x := s.engine e
  let th := field v 15 8
  let s := s.whenFree x.run (decide (th = x.thresh) && flag v 4 == x.mode)
    (s.setEngine e { x with thresh := th, mode := flag v 4 })
  let s := if flag v 2 then s.mediaStop e else s
  if flag v 1 ∧ ¬ x.run then s.mediaStart e else s

def State.writeEngine (s : State) (e : EngineId) (o : Nat) (v : Word) : State :=
  let x := s.engine e
  match o with
  | 0x0 => s.writeMediaCtrl e v
  | 0x10 => s.whenFree x.run (decide (field v 51 48 = x.log2) && decide (field v 47 6 = x.ring.toNat))
      (s.setEngine e { x with log2 := field v 51 48, ring := BitVec.ofNat 42 (field v 47 6) })
  | 0xF000 =>
    if e.val % 4 = 0 then
      let d := e.val / 4
      let busy := (List.finRange 8).any fun k => k.val / 4 == d && (s.engine k).run
      s.whenFree busy (decide (s.mediaBw.toList[d]? = some (field v 5 0)))
        { s with mediaBw := Vector.ofFn fun (i : Fin 2) => if i.val = d then field v 5 0 else s.mediaBw[i] }
    else s
  | _ => s

/-! ## Easel (R492, R500, R495, R518) -/

def State.writeRecovery (s : State) (v : Word) : State :=
  let r := s.recov
  let s := s.whenFree s.tick.run (decide (field v 15 8 = r.drain) && decide (field v 3 0 = r.hbLimit))
    { s with recov := { r with drain := field v 15 8, hbLimit := field v 3 0 } }
  if flag v 16 then s.clearSuspects else s

def State.writeEasel (s : State) (o : Nat) (v : Word) : State :=
  let r := s.recov
  let p := s.power
  match o with
  | 0x0 => s.writeRecovery v
  | 0x18 => s.whenFree s.tick.run (decide (field v 47 25 = r.crashBase.toNat))
      { s with recov := { r with crashBase := BitVec.ofNat 23 (field v 47 25) } }
  | 0x20 => if flag v 0 then { s with recov := { r with crashValid := false, crashMissed := 0 } } else s
  | 0x1000 => s.whenFree s.tick.run (decide (field v 23 16 = p.window) && decide (field v 15 0 = p.cap))
      { s with power := { p with window := field v 23 16, cap := field v 15 0 } }
  | 0x1008 => s.writeDomains v
  | 0x2000 => s.secStart (field v 7 0)
  | 0x2008 => { s with sec := { s.sec with arg := BitVec.ofNat 48 (field v 47 0) } }
  | _ => s

/-! ## Host interface (R458) -/

def State.writeHost (s : State) (o : Nat) (v : Word) : State :=
  if o < 0x20000 then
    let p : Fin 2 := ⟨o / 0x10000 % 2, Nat.mod_lt _ (by decide)⟩
    let x := s.eth[p]
    match o % 0x10000 with
    | 0x0 => s.modEth p fun x => { x with fecDegraded := w1c x.fecDegraded (flag v 2), changed := w1c x.changed (flag v 1) }
    | 0x10 => s.whenFree (decide (x.count .ready > 0)) (decide (field v 2 0 = x.prio))
        (s.modEth p fun x => { x with prio := field v 2 0 })
    | _ => s
  else match o with
    | 0x100008 => { s with qcp := { s.qcp with
        routeMedia := field v 11 8, routeDevice := field v 7 4, routeTick := field v 3 0 } }
    | _ => s

/-! ## Proof and trace (R536, R537) -/

def State.writeTraceCtrl (s : State) (v : Word) : State :=
  let p := s.proof
  let s := s.whenFree p.traceEn (decide (field v 15 11 = p.traceLog2)) { s with proof := { p with traceLog2 := field v 15 11 } }
  let q := s.proof
  let s := { s with proof := { q with
    traceRec := flag v 6, traceFail := flag v 5, traceEdge := flag v 4, traceMark := flag v 3, traceWrap := flag v 1 } }
  if flag v 0 then s.traceOn else { s with proof := { s.proof with traceEn := false } }

def State.writeProof (s : State) (o : Nat) (v : Word) : State :=
  let p := s.proof
  match o with
  | 0x0 =>
    let s := { s with proof := { p with
      errBcast := flag v 5, bcastEn := flag v 4, qcpEn := flag v 3, errEn := flag v 2, tickEn := flag v 1 } }
    if flag v 0 then s.arm else s
  | 0x10 => { s with proof := { p with tickLo := v } }
  | 0x18 => { s with proof := { p with tickHi := v } }
  | 0x20 => { s with proof := { p with errMask := BitVec.ofNat 16 (field v 15 0) &&& 0xFFFE } }
  | 0x100 => s.writeTraceCtrl v
  | 0x108 => s.whenFree p.traceEn (decide (field v 47 16 = p.traceBase.toNat))
      { s with proof := { p with traceBase := BitVec.ofNat 32 (field v 47 16) } }
  | 0x118 => { s with proof := { p with traceCores := BitVec.ofNat 128 (p.traceCores.toNat / 2 ^ 64 * 2 ^ 64 + v.toNat) } }
  | 0x120 => { s with proof := { p with traceCores := BitVec.ofNat 128 (p.traceCores.toNat % 2 ^ 64 + 2 ^ 64 * v.toNat) } }
  | _ => s

/-! ## The whole register space -/

/-- A write to the register at a local offset that `regAt` finds (R8). -/
def State.storeReg (s : State) (off : Nat) (v : Word) : State :=
  let o := off - regBase
  if o < 0x1000000 then s.writeConfig o v
  else if o < 0x2000000 then
    let c := coreIdOf ((o - 0x1000000) / 0x10000)
    if o % 0x10000 = 0 then s.modCore c fun x => { x with err := w1c x.err (flag v 6) } else s
  else if o < 0x3000000 then s.writeStack ⟨(o - 0x2000000) / 0x100000 % 12, Nat.mod_lt _ (by decide)⟩ (o % 0x100000) v
  else if o < 0x4000000 then s.writePort ⟨(o - 0x3000000) / 0x10000 % 36, Nat.mod_lt _ (by decide)⟩ (o % 0x10000) v
  else if o < 0x5000000 then s.writeFolio (o - 0x4000000) v
  else if o < 0x7000000 then
    let e := 4 * ((o - 0x5000000) / 0x1000000) + o % 0x1000000 / 0x10000
    s.writeEngine ⟨e % 8, Nat.mod_lt _ (by decide)⟩ (o % 0x10000) v
  else if o < 0x8000000 then s.writeEasel (o - 0x7000000) v
  else if o < 0x9000000 then s.writeHost (o - 0x8000000) v
  else s.writeProof (o - 0x9000000) v

/-- A write to register space: none where no register space lies (R23); an offset that names no register takes
nothing. -/
def State.writeReg (s : State) (off : Nat) (v : Word) : Option State :=
  match s.regAt off with
  | none => none
  | some none => some s
  | some (some _) => some (s.storeReg off v)

/-- REGISTER_WRITE (R8, R23, R47). -/
def execRegisterWrite (off : Nat) (v : Word) (s : State) : Host.Outcome State Fault Refusal :=
  .next (match s.writeReg off v with
    | some t => t
    | none => s.endRequest .allocFault)

end Sys2Proof.Machine
end

