-- ==== Sys2Proof/Machine/Qcp.lean ====
section
/-! DEFINITION. The QCP endpoint (R441 to R452): arrival, the checks of a request, what each command does, and the
requests that end over time. notes/assumptions/38.md names what the manual leaves open here. -/
namespace Sys2Proof.Machine

/-! ## Checks (R443 to R446) -/

/-- A command that is NOT_READY before readiness (R443, R445). -/
def QcpCmd.waitsReady (c : QcpCmd) : Bool :=
  match c with
  | .hello | .status | .regRead | .reset | .other _ => false
  | _ => true

/-- A command whose EPOCH is checked (R443). -/
def QcpCmd.checksEpoch (c : QcpCmd) : Bool := c.waitsReady

/-- LENGTH suits the command (R444). -/
def QcpCmd.lengthOk (c : QcpCmd) (b : List Byte) : Bool :=
  match c with
  | .hello => b.length == 8
  | .status => b.length == 0
  | .regRead => b.length == 16
  | .regWrite => decide (16 ≤ b.length) && b.length == 16 + 8 * (w32At b 8).toNat
  | .qpConnect => b.length == 40
  | .qpDestroy => b.length == 8
  | .windowSet => b.length == 24
  | .ringSet => b.length == 32
  | .programLoad => b.length == 16
  | .ctxStart => b.length == 32
  | .ctxStop => b.length == 16
  | .proofTrigger => b.length == 24
  | .reset => b.length == 8
  | .other _ => false

/-- The header's own checks, in the order that notes/assumptions/38.md gives. -/
def checkHeader (c : QcpCmd) (r : QcpReq) : Eng Unit := do
  let s ← get
  need (match c with
    | .other _ => false
    | _ => true) .decode
  need (c == .hello || r.version == 1 || r.version == 2) .decode
  need (c.lengthOk r.body && r.flags == 0 && r.status == 0 && r.rsv13 == 0 && r.retryAfter == 0 && r.rsv16 == 0) .decode
  need (!c.waitsReady || s.qcp.ready) .notReady
  need (!c.checksEpoch || r.epoch == s.epoch) .epoch

/-- Byte o of a body as a number. -/
def bt (b : List Byte) (o : Nat) : Nat := (byteAt b o).toNat
/-- A local offset: [63:48] Rsv. -/
def offAt (b : List Byte) (o : Nat) : Nat := (w64At b o).toNat
def offOk (b : List Byte) (o : Nat) : Bool := decide (offAt b o < 2 ^ 48)
def tickAt (b : List Byte) (o : Nat) : PW2 := ⟨w64At b o, w64At b (o + 8)⟩
/-- A tick number: INTEGRITY for an invalid word, DECODE beyond 48 bits. -/
def getTick (b : List Byte) (o : Nat) : Eng Nat := do
  need (PW2.ok (tickAt b o)) .integrity
  need (tickOk (tickAt b o)) .decode
  pure (PW2.val (tickAt b o))
def partAt (b : List Byte) : PartId := ⟨bt b 0 % 8, Nat.mod_lt _ (by decide)⟩
def fin2 (n : Nat) : Fin 2 := ⟨n % 2, Nat.mod_lt _ (by decide)⟩
def fin64 (n : Nat) : Fin 64 := ⟨n % 64, Nat.mod_lt _ (by decide)⟩

/-! ## Commands that are answered at once -/

/-- HELLO's body (R444, R446): it is always carried. -/
def State.helloBody (s : State) (b : List Byte) : Nat × List Byte :=
  let lo := bt b 0
  let hi := bt b 1
  let v := if lo ≤ 2 ∧ 2 ≤ hi then 2 else if lo ≤ 1 ∧ 1 ≤ hi then 1 else 0
  (v, le 1 v ++ [0] ++ le 2 6 ++ le 2 s.boot.version ++ zeros 2 ++ pairBytes s.boot.abi ++ le 8 s.deviceId.toNat
    ++ le 8 s.chipId.toNat)

def runHello (r : QcpReq) : Eng Unit := do
  checkHeader .hello r
  need (allZero (slice r.body 2 6)) .decode
  let s ← get
  need ((s.helloBody r.body).1 != 0) .decode

/-- STATUS's body (R444). -/
def State.statusBody (s : State) : List Byte :=
  le 8 s.qcpStatus.toNat ++ pw2Bytes s.tick.number ++ le 8 s.tick.ctrlWord.toNat
    ++ s.parts.toList.flatMap fun p => le 8 p.statusWord.toNat ++ le 8 ((p.image.map (·.base)).getD 0)

/-- The register offsets of REG_READ and REG_WRITE (R443, R444). -/
def regRange (b : List Byte) : Eng (List Nat) := do
  let n := (w32At b 8).toNat
  need (offOk b 0 && decide (1 ≤ n) && decide (n ≤ 16) && allZero (slice b 12 4)) .decode
  let offs := (List.range n).map fun i => offAt b 0 + 8 * i
  let s ← get
  need (offs.all fun o => (s.regAt o).isSome) .allocFault
  pure offs

/-- REG_READ (R443): before readiness the identity region only. -/
def runRegRead (r : QcpReq) : Eng (List Byte) := do
  checkHeader .regRead r
  let offs ← regRange r.body
  let s ← get
  need (s.qcp.ready || offs.all inIdentity) .notReady
  pure (offs.flatMap fun o => le 8 ((s.readReg o).getD 0).toNat)

/-! ## Commands that execute one at a time -/

/-- REG_WRITE (R443, R459): a write that a lock ignores still ends with OK. -/
def runRegWrite (b : List Byte) : Eng Unit := do
  let offs ← regRange b
  (enumFrom 0 offs).forM fun e => modify fun s => (s.writeReg e.2 (w64At b (16 + 8 * e.1))).getD s

/-- The device's GID of a port: its IPv6 address, or the IPv4 address mapped, or the link-local address. -/
def State.gid (s : State) (p : Fin 2) : BitVec 128 :=
  let x := s.eth[p]
  let m := s.fuses.mac[p].toNat
  if x.ipv6 ≠ 0 then x.ipv6
  else if x.ipv4 ≠ 0 then BitVec.ofNat 128 (0xFFFF * 2 ^ 32 + x.ipv4.toNat)
  else
    let hi := m / 2 ^ 24
    BitVec.ofNat 128 (0xFE80 * 2 ^ 112 + (hi ^^^ 0x020000) * 2 ^ 40 + 0xFFFE * 2 ^ 24 + m % 2 ^ 24)

/-- A 16-byte field as it appears on the wire. -/
def wire16 (v : BitVec 128) : List Byte := (le 16 v.toNat).reverse

/-- QP_CONNECT (R436, R444): QPN and starting PSN of the device are free values. -/
def runQpConnect (b : List Byte) : Eng (List Byte) := do
  need (decide (bt b 0 < 2) && decide (bt b 1 < 64) && decide (bt b 2 < 8) && decide (bt b 3 < 32)
    && decide ((w32At b 4).toNat < 2 ^ 24) && decide ((w32At b 8).toNat < 2 ^ 24) && decide (bt b 12 ≤ 8)
    && allZero (slice b 13 3) && offOk b 0x20 && offAt b 0x20 % 64 == 0) .decode
  let p := fin2 (bt b 0)
  let q := fin64 (bt b 1)
  modify fun s => if (s.qp p q).state = .ready then s.qpDown p q .reset else s
  let s ← get
  let (w, s) := s.draw
  let qpn := w.toNat % 2 ^ 24
  let psn := w.toNat / 2 ^ 32 % 2 ^ 24
  set (s.modQp p q fun _ => {
    state := .ready, hostQpn := BitVec.ofNat 24 (w32At b 4).toNat, hostPsn := BitVec.ofNat 24 (w32At b 8).toNat
    psn := BitVec.ofNat 24 psn, gid := BitVec.ofNat 128 (beNat (slice b 16 16)), retries := bt b 2, ackTimeout := bt b 3
    rxBase := offAt b 0x20, rxK := bt b 12 })
  pure (le 4 qpn ++ le 4 psn ++ wire16 (s.gid p))

/-- QP_DESTROY (R436). -/
def runQpDestroy (b : List Byte) : Eng Unit := do
  need (decide (bt b 0 < 2) && decide (bt b 1 < 64) && allZero (slice b 2 6)) .decode
  modify fun s => s.qpDown (fin2 (bt b 0)) (fin64 (bt b 1)) .reset

/-- WINDOW_SET (R437). -/
def runWindowSet (b : List Byte) : Eng (List Byte) := do
  let base := offAt b 8
  let len := (w64At b 16).toNat
  need (decide (bt b 0 < 16) && decide (bt b 1 < 4) && allZero (slice b 2 6) && offOk b 8 && base % 64 == 0 && len % 64 == 0) .decode
  need (len == 0 || !(overlaps base len regBase (regEnd - regBase) || overlaps base len flashBase (flashEnd - flashBase))) .allocFault
  let s ← get
  let n := (s.qcp.keyCount + 1) % 2 ^ 28
  let w : Window := { open_ := len != 0, base := base, length := len, read := bt b 1 % 2 == 1, write := bt b 1 / 2 == 1, count := n }
  let i := bt b 0
  set { s with
    windows := Vector.ofFn fun (k : Fin 16) => if k.val = i then w else s.windows[k]
    qcp := { s.qcp with keyCount := n } }
  pure (le 4 (place i 28 + n) ++ zeros 4)

/-- RING_SET (R453): the ring begins anew. -/
def runRingSet (b : List Byte) : Eng Unit := do
  need (decide (bt b 0 < 16) && decide (bt b 1 < 2) && decide (bt b 2 < 64) && decide (4 ≤ bt b 3) && decide (bt b 3 ≤ 16)
    && decide (1 ≤ bt b 4) && allZero (slice b 5 3) && allZero (slice b 12 4) && (w64At b 16).toNat % 64 == 0
    && offOk b 24 && offAt b 24 % 8 == 0) .decode
  let r := State.ringOf (bt b 0)
  modify fun s => (s.failPosts r .fenced).setRing r {
    set := true, port := fin2 (bt b 1), qp := fin64 (bt b 2), log2 := bt b 3, postWait := bt b 4, rkey := w32At b 8
    host := (w64At b 16).toNat, consOff := offAt b 24 }

/-- PROGRAM_LOAD (R448): the request waits for the check of its image. -/
def runProgramLoad (b : List Byte) : Eng Unit := do
  need (decide (bt b 0 < 8) && allZero (slice b 1 7) && offOk b 8 && offAt b 8 % 64 == 0) .decode
  let s ← get
  let x := s.part (partAt b)
  need (!x.active && x.enable) .allocFault

/-- CTX_START (R448, R449, R469). -/
def runCtxStart (b : List Byte) : Eng Unit := do
  need (decide (bt b 0 < 8) && decide (bt b 1 < 16) && allZero (slice b 2 6) && allZero (slice b 28 4)) .decode
  let start ← getTick b 8
  let p := partAt b
  let s ← get
  let x := s.part p
  match x.image with
  | none => throw .allocFault
  | some im =>
    need (decide (x.state = .idle) && x.enable) .allocFault
    need (decide (start ≥ (if s.tick.run then s.tick.number else 0) + 2)) .timeout
    let res : Option Resume ← if x.resumeValid then
        do
          let r ← readSave im x.count (x.resumeOff.toNat * 65536)
          pure (some r)
      else pure none
    modify fun s => s.modPart p fun x => { x with
      state := .startPending, nextId := w32At b 24, ring := State.ringOf (bt b 1), startTick := start, resume := res }

/-- CTX_STOP (R446, R450, R459, R466, R472): true when the request ends at once. -/
def runCtxStop (version : Nat) (b : List Byte) : Eng Bool := do
  let save := bt b 1 == 1
  need (decide (bt b 0 < 8) && decide (bt b 1 < 2) && allZero (slice b 2 6) && offOk b 8 && (save || offAt b 8 == 0)
    && (!save || version != 1)) .decode
  let p := partAt b
  let s ← get
  let x := s.part p
  match x.state with
  | .idle => throw .allocFault
  | .startPending => do
    set (s.modPart p fun x => { x with state := .idle, resume := none })
    pure true
  | st =>
    if save then
      let size := (x.image.map State.saveSize).getD 0
      need (!x.reserved && decide (st ≠ .saving) && s.saveAreaOk (offAt b 8) size) .allocFault
      set (s.modPart p fun x => { x with stopReq := some true, saveOff := offAt b 8 })
      pure false
    else
      set (s.modPart p fun x => { x with stopReq := some false })
      pure false

/-- PROOF_TRIGGER (R446, R531, R532). -/
def runProofTrigger (version : Nat) (b : List Byte) : Eng Unit := do
  let atTick := bt b 0 == 1
  let bc := bt b 1 == 1
  need (decide (bt b 0 < 2) && decide (bt b 1 < 2) && allZero (slice b 2 6) && !(bc && (version == 1 || !atTick))) .decode
  let t ← getTick b 8
  need (atTick || t == 0) .decode
  let s ← get
  if bc then
    need (decide (t ≥ s.tick.number + 3)) .timeout
    set { s with proof := { s.proof with bcastAt := some (match s.proof.bcastAt with
      | none => t
      | some x => Nat.min x t) } }
  else if atTick then
    set { s with proof := { s.proof with tickLo := pair (t % 2 ^ 32), tickHi := pair (t / 2 ^ 32), tickEn := true } }
  else if s.proof.qcpEn then set (s.trigger 3 0) else pure ()

/-- A stack that a domain holds is thermally fenced and still above 95 °C (R296). -/
def State.tooHot (s : State) (k : DomKind) (i : Nat) : Bool :=
  (s.domHolds k i .stack).any fun j =>
    let x := s.hbmStacks.toList.getD j {}
    x.fenced && decide (x.cause = .thermal) && decide (x.last > 95)

/-- RESET (R443, R451, R480, R483): the domain it names, whose recovery has begun; the device domain is left to the
caller. -/
def runReset (b : List Byte) : Eng DomKind := do
  match DomKind.ofCode (bt b 0) with
  | none => throw .decode
  | some k =>
    let s ← get
    need (decide (bt b 1 < k.count s) && allZero (slice b 2 6)) .decode
    if k ≠ .device then
      need (!s.tooHot k (bt b 1)) .thermal
      set (s.submitRecovery ⟨k, bt b 1, 2, .draining⟩)
    pure k

/-- How a request goes on after what it does at its start. -/
inductive QcpGo where
  | done (body : List Byte)
  | wait
  | device
  deriving DecidableEq, Repr

/-- A request of the one-at-a-time kind. -/
def runQcp (j : QcpJob) : Eng QcpGo := do
  checkHeader j.cmd j.req
  let b := j.req.body
  match j.cmd with
  | .regWrite => do
    runRegWrite b
    pure (.done [])
  | .qpConnect => do
    let r ← runQpConnect b
    pure (.done r)
  | .qpDestroy => do
    runQpDestroy b
    pure (.done [])
  | .windowSet => do
    let r ← runWindowSet b
    pure (.done r)
  | .ringSet => do
    runRingSet b
    pure (.done [])
  | .programLoad => do
    runProgramLoad b
    pure .wait
  | .ctxStart => do
    runCtxStart b
    pure (.done [])
  | .ctxStop => do
    let now ← runCtxStop j.req.version.toNat b
    pure (if now then .done [] else .wait)
  | .proofTrigger => do
    runProofTrigger j.req.version.toNat b
    pure (.done [])
  | .reset => do
    let k ← runReset b
    pure (if k = .device then .device else .wait)
  | .hello | .status | .regRead | .other _ => throw .decode

/-- A request begins to execute. -/
def State.beginQcp (s : State) (j : QcpJob) : State :=
  let s := { s with qcp := { s.qcp with current := some j } }
  match (runQcp j).exec s with
  | (.ok (.done body), t) => t.finishQcp .ok body
  | (.ok .wait, t) => t
  | (.ok .device, t) => (t.finishQcp .ok []).deviceRecover 2
  | (.error st, t) => (t.finishQcp st []).endRequest st

/-- Waiting requests execute in order of arrival (R447). -/
def State.runWaiting : Nat → State → State
  | 0, s => s
  | n + 1, s =>
    match s.qcp.current, s.qcp.waiting with
    | none, j :: js => State.runWaiting n (({ s with qcp := { s.qcp with waiting := js } }).beginQcp j)
    | _, _ => s
/-- After what may have ended the request in execution. -/
def State.nextQcp (s : State) : State := State.runWaiting 17 s

/-! ## Arrival (R442, R447) -/

def sameReq (r q : QcpReq) : Bool := r.src == q.src && r.tag == q.tag

/-- An abort that ends a deferred save of the same partition does not wait for it (R475). -/
def State.overtakes (s : State) (j : QcpJob) : Bool :=
  decide (j.cmd = .ctxStop) && bt j.req.body 1 == 0 && (match s.qcp.current with
    | some c => decide (c.cmd = .ctxStop) && bt c.req.body 0 == bt j.req.body 0
        && decide ((s.part (partAt c.req.body)).stopReq = some true)
        && decide ((s.part (partAt c.req.body)).state ≠ .saving)
    | none => false)

/-- Such an abort takes effect at the next edge; both requests end there. -/
def State.beginAside (s : State) (j : QcpJob) : State :=
  let go : Eng Unit := do
    checkHeader j.cmd j.req
    let _ ← runCtxStop j.req.version.toNat j.req.body
  match go.exec s with
  | (.ok _, t) => { t with qcp := { t.qcp with aside := t.qcp.aside ++ [j] } }
  | (.error st, t) => (t.answer j.cmd j.req st []).endRequest st

/-- A device RESET ends the check of an image, unanswered (R459). -/
def State.cutsLoad (s : State) (j : QcpJob) : Bool :=
  decide (j.cmd = .reset) && bt j.req.body 0 == 0 && s.qcp.current.any fun c => decide (c.cmd = .programLoad)

/-- A request arrives whose MAGIC, CHECK and LENGTH are right. -/
def State.arrive (s : State) (c : QcpCmd) (r : QcpReq) : State :=
  let j : QcpJob := ⟨c, r⟩
  if ¬ s.boot.booted ∨ r.flags.getLsbD 0 then s
  else match s.qcp.kept.find? fun k => k.1 == r.src && k.2.1 == r.tag with
    | some k => { s with qcp := { s.qcp with duplicates := satAdd 16 s.qcp.duplicates 1 } }.emit (.qcp r.src k.2.2)
    | none =>
      if (s.qcp.current.toList ++ s.qcp.waiting ++ s.qcp.aside).any fun k => sameReq k.req r then s
      else match c with
        | .hello =>
          let (st, t) := (runHello r).outcome s
          t.answer c r st (t.helloBody r.body).2
        | .status =>
          let (st, t) := (checkHeader c r).outcome s
          t.answer c r st (if st = .ok then t.statusBody else [])
        | .regRead => (match (runRegRead r).exec s with
          | (.ok body, t) => t.answer c r .ok body
          | (.error st, t) => (t.answer c r st []).endRequest st)
        | _ =>
          if s.overtakes j then s.beginAside j
          else if s.cutsLoad j then
            (match (checkHeader c r).exec s with
            | (.ok _, t) => t.beginQcp j
            | (.error st, t) => t.answer c r st [])
          else if s.qcp.current.isNone then (s.beginQcp j).nextQcp
          else if s.qcp.waiting.length ≥ 16 then s
          else { s with qcp := { s.qcp with waiting := s.qcp.waiting ++ [j] } }

/-- HELLO (R446). -/
def execHello (r : QcpReq) (s : State) : Host.Outcome State Fault Refusal := .next (s.arrive .hello r)
/-- STATUS (R443). -/
def execStatus (r : QcpReq) (s : State) : Host.Outcome State Fault Refusal := .next (s.arrive .status r)
/-- REG_READ (R443). -/
def execRegRead (r : QcpReq) (s : State) : Host.Outcome State Fault Refusal := .next (s.arrive .regRead r)
/-- REG_WRITE (R443). -/
def execRegWrite (r : QcpReq) (s : State) : Host.Outcome State Fault Refusal := .next (s.arrive .regWrite r)
/-- QP_CONNECT (R436). -/
def execQpConnect (r : QcpReq) (s : State) : Host.Outcome State Fault Refusal := .next (s.arrive .qpConnect r)
/-- QP_DESTROY (R436). -/
def execQpDestroy (r : QcpReq) (s : State) : Host.Outcome State Fault Refusal := .next (s.arrive .qpDestroy r)
/-- WINDOW_SET (R437). -/
def execWindowSet (r : QcpReq) (s : State) : Host.Outcome State Fault Refusal := .next (s.arrive .windowSet r)
/-- RING_SET (R453). -/
def execRingSet (r : QcpReq) (s : State) : Host.Outcome State Fault Refusal := .next (s.arrive .ringSet r)
/-- PROGRAM_LOAD (R448). -/
def execProgramLoad (r : QcpReq) (s : State) : Host.Outcome State Fault Refusal := .next (s.arrive .programLoad r)
/-- CTX_START (R448). -/
def execCtxStart (r : QcpReq) (s : State) : Host.Outcome State Fault Refusal := .next (s.arrive .ctxStart r)
/-- CTX_STOP with MODE abort (R450). -/
def execCtxStopAbort (r : QcpReq) (s : State) : Host.Outcome State Fault Refusal := .next (s.arrive .ctxStop r)
/-- CTX_STOP with MODE save (R450, R465). -/
def execCtxStopSave (r : QcpReq) (s : State) : Host.Outcome State Fault Refusal := .next (s.arrive .ctxStop r)
/-- PROOF_TRIGGER (R531, R532). -/
def execProofTrigger (r : QcpReq) (s : State) : Host.Outcome State Fault Refusal := .next (s.arrive .proofTrigger r)
/-- RESET of a domain other than the device (R451, R483). -/
def execReset (r : QcpReq) (s : State) : Host.Outcome State Fault Refusal := .next (s.arrive .reset r)
/-- RESET of the device domain (R451, R485). -/
def execResetDevice (r : QcpReq) (s : State) : Host.Outcome State Fault Refusal := .next (s.arrive .reset r)

/-- A datagram's request, when its MAGIC, LENGTH and CHECK are right (R441, R442). -/
def parseQcp (src : Word) (d : List Byte) : Option (QcpCmd × QcpReq) :=
  let len := (w32At d 12).toNat
  if d.length < 32 ∨ d.take 4 ≠ qcpMagic ∨ len > 1024 ∨ d.length ≠ 32 + len ∨ w32At d 0x1C ≠ crc32c (zeroed d 0x1C 4) then none
  else some (QcpCmd.ofCode (w16At d 6).toNat, {
    src := src, version := byteAt d 4, flags := byteAt d 5, tag := w32At d 8, epoch := w16At d 0x10, status := byteAt d 0x12
    rsv13 := byteAt d 0x13, retryAfter := w16At d 0x14, rsv16 := BitVec.ofNat 48 (leNat (slice d 0x16 6)), body := d.drop 32 })

/-- MALFORMED_QCP_REQUEST (R442, R443, R446, R447): a datagram as it came. -/
def execMalformedQcpRequest (src : Word) (datagram : List Byte) (s : State) : Host.Outcome State Fault Refusal :=
  .next (if ¬ s.boot.booted then s
    else match parseQcp src datagram with
    | none => { s with qcp := { s.qcp with discarded := satAdd 16 s.qcp.discarded 1 } }
    | some (c, r) => s.arrive c r)

/-! ## Requests that end over time -/

/-- IMAGE_CHECK_END (R448): the check of the image that PROGRAM_LOAD names is done. -/
def execImageCheckEnd (s : State) : Host.Outcome State Fault Refusal :=
  match s.qcp.current with
  | some j =>
    if j.cmd = .programLoad then
      let (st, t) := s.loadImage (partAt j.req.body) (offAt j.req.body 8)
      .next ((t.finishQcp st []).endRequest st).nextQcp
    else .next s
  | none => .next s

/-- CONTEXT_SAVE_END (R467): the save is written, or ends with the status of a write that fails. -/
def execContextSaveEnd (p : PartId) (s : State) : Host.Outcome State Fault Refusal :=
  let x := s.part p
  match x.state, x.image with
  | .saving, some im =>
    let (st, t) := (writeSave p im).outcome s
    .next ((t.stopContext p st 4 st).endRequest st).nextQcp
  | _, _ => .next s

/-- RESET_TIMEOUT (R451). -/
def execResetTimeout (s : State) : Host.Outcome State Fault Refusal :=
  match s.qcp.current with
  | some j => if j.cmd = .reset then .next ((s.finishQcp .timeout []).endRequest .timeout).nextQcp else .next s
  | none => .next s

/-- QCP_READY (R445, R508): boot and configuration done, every stack trained or fenced, fabric training permitted. -/
def execQcpReady (s : State) : Host.Outcome State Fault Refusal :=
  .next (if s.boot.booted && s.cfg.applied && s.fabric.permitted && s.hbmStacks.toList.all (fun x => x.ready || x.fenced) then
    { s with qcp := { s.qcp with ready := true, stage := 4 } }
  else s)

end Sys2Proof.Machine
end

