-- ==== Sys2Proof/Machine/Ether.lean ====
section
/-! DEFINITION. The Ethernet ports and RoCEv2 (R432 to R440): RDMA, SEND, congestion and queue-pair errors; the writing
of completion records (R453 to R457); address resolution, echo, pauses and the link. notes/assumptions/39.md names what the
manual leaves open here. -/
namespace Sys2Proof.Machine

/-! ## As responder (R434, R435, R437 to R439) -/

/-- A notification packet for a packet marked ECN Congestion Experienced, at most one for each queue pair every 50 µs
(R434). -/
def State.ecnMark (s : State) (port : Fin 2) (qp : Fin 64) (ecn : Bool) (now : Nat) : State :=
  let x := s.qp port qp
  let free := match x.cnpAt with
    | none => true
    | some t => decide (now ≥ t + 90000)
  if ecn && free then (s.modQp port qp fun x => { x with cnpAt := some now }).emit (.cnp port qp) else s

/-- The window that an R_Key names now, when [va, va + n) lies inside it with the permission (R437). -/
def State.windowFor (s : State) (rkey : Word32) (va n : Nat) (write : Bool) : Bool :=
  let w := s.windows.toList.getD (rkey.toNat / 2 ^ 28) {}
  w.open_ && w.count == rkey.toNat % 2 ^ 28 && decide (w.base ≤ va) && decide (va + n ≤ w.base + w.length)
    && (if write then w.write else w.read)

/-- A remote-access-error NAK, counted (R437). -/
def State.accessNak (s : State) (port : Fin 2) (qp : Fin 64) : State :=
  { s with qcp := { s.qcp with naks := satAdd 16 s.qcp.naks 1 } }.emit (.rdmaNak port qp "access")

/-- The answer to an access that failed: ALLOC_FAULT is a refusal under R23, R25, R196 or R305; anything else is the memory's
own failure. -/
def State.failRdma (s : State) (port : Fin 2) (qp : Fin 64) (st : Status) : State :=
  let s := s.endRequest st
  if st = .allocFault then s.accessNak port qp else s.emit (.rdmaNak port qp "operational")

/-- A queue pair takes packets: its port's link is up, and it is ready to send and receive. -/
def State.qpTakes (s : State) (port : Fin 2) (qp : Fin 64) : Bool :=
  s.boot.booted && s.eth[port].up && decide ((s.qp port qp).state = .ready)

/-- RDMA_WRITE (R437, R438). -/
def execRdmaWrite (m : RdmaReq) (data : List Byte) (s : State) : Host.Outcome State Fault Refusal :=
  if ¬ s.qpTakes m.port m.qp then .next s
  else
    let s := s.ecnMark m.port m.qp m.ecn m.now
    if ¬ s.windowFor m.rkey m.va.toNat data.length true then .next (s.accessNak m.port m.qp)
    else match (memWrite .window m.va.toNat data).exec s with
      | (.ok _, t) => .next (t.emit (.rdmaAck m.port m.qp))
      | (.error st, t) => .next (t.failRdma m.port m.qp st)

/-- RDMA_READ (R437). -/
def execRdmaRead (m : RdmaReq) (len : Nat) (s : State) : Host.Outcome State Fault Refusal :=
  if ¬ s.qpTakes m.port m.qp then .next s
  else
    let s := s.ecnMark m.port m.qp m.ecn m.now
    if ¬ s.windowFor m.rkey m.va.toNat len false then .next (s.accessNak m.port m.qp)
    else match (memRead .window m.va.toNat len).exec s with
      | (.ok d, t) => .next (t.emit (.rdmaData m.port m.qp d))
      | (.error st, t) => .next (t.failRdma m.port m.qp st)

/-- The slot of message n in a receive area (R439). -/
def rxSlot (x : Qp) (n : Nat) : Nat := x.rxBase + 64 + 4096 * (n % 2 ^ x.rxK)

/-- SEND (R439): receiver-not-ready while the area is full or RX_CONS is no valid paired word. -/
def execSend (port : Fin 2) (qp : Fin 64) (data : List Byte) (ecn : Bool) (now : Nat) (s : State) :
    Host.Outcome State Fault Refusal :=
  let x := s.qp port qp
  if ¬ s.qpTakes port qp then .next s
  else
    let s := s.ecnMark port qp ecn now
    if data.length > 4032 then .next (s.emit (.rdmaNak port qp "invalid"))
    else match (memRead .window x.rxBase 8).exec s with
      | (.error st, t) => .next (t.failRdma port qp st)
      | (.ok c, s) =>
        let n := x.rxCount
        if ¬ pairOk (w64At c 0) ∨ (n + 2 ^ 32 - pairVal (w64At c 0)) % 2 ^ 32 ≥ 2 ^ x.rxK then
          .next (s.emit (.rdmaNak port qp "receiver not ready"))
        else
          let o := rxSlot x n
          let go : Eng Unit := do
            memWrite .window (o + 64) data
            memWrite .window o (pairBytes data.length ++ pairBytes n)
          match go.exec s with
          | (.error st, t) => .next (t.failRdma port qp st)
          | (.ok _, t) => .next ((t.modQp port qp fun y => { y with rxCount := (n + 1) % 2 ^ 32 }).emit (.rdmaAck port qp))

/-- UNSUPPORTED_OPCODE (R435). -/
def execUnsupportedOpcode (port : Fin 2) (qp : Fin 64) (s : State) : Host.Outcome State Fault Refusal :=
  if ¬ s.qpTakes port qp then .next s
  else .next ((s.emit (.rdmaNak port qp "invalid")).qpDown port qp .error)

/-! ## As requester (R434, R436, R453 to R457) -/

/-- CONGESTION_NOTIFICATION (R434): the send rate is halved. -/
def execCongestionNotification (port : Fin 2) (qp : Fin 64) (s : State) : Host.Outcome State Fault Refusal :=
  .next (if ¬ s.qpTakes port qp then s else s.modQp port qp fun x => { x with rate := x.rate / 2 })
/-- RATE_RECOVERY (R434): 100 Gb/s more, up to the port's 800 Gb/s. -/
def execRateRecovery (port : Fin 2) (qp : Fin 64) (s : State) : Host.Outcome State Fault Refusal :=
  .next (s.modQp port qp fun x => { x with rate := min 800000000000 (x.rate + 100000000000) })
/-- QP_RETRY_EXHAUSTED (R436). -/
def execQpRetryExhausted (port : Fin 2) (qp : Fin 64) (s : State) : Host.Outcome State Fault Refusal :=
  .next (if (s.qp port qp).state = .ready then s.qpDown port qp .error else s)

/-- Word HDR of record n (R454). -/
def recHeader (g : Ring) (x : Rec) : Word := fields [(g.seq % 2 ^ 32, 32), (x.type, 16), (x.code, 8), (b2n g.lostFlag, 0)]

/-- The 64 bytes of a record (R454). -/
def recBytes (g : Ring) (x : Rec) : List Byte :=
  let h := le 8 (recHeader g x).toNat ++ pw2Bytes x.tick ++ slice x.body 0 36
  h ++ le 4 (crc32c h).toNat

/-- The ring's queue pair can send now (R434, R453). -/
def State.ringSends (s : State) (r : RingId) : Bool :=
  let g := s.ring r
  g.set && decide ((s.qp g.port g.qp).state = .ready) && s.eth[g.port].up && !s.eth[g.port].paused

/-- RECORD_WRITE (R453, R454, R457): the oldest record that awaits space is written, when there is space. -/
def execRecordWrite (r : RingId) (s : State) : Host.Outcome State Fault Refusal :=
  let g := s.ring r
  match g.backlog with
  | [] => .next s
  | x :: rest =>
    let (full, s) := if s.ringSends r then s.ringFull r else (true, s)
    if full then .next s
    else
      let g := s.ring r
      let s := s.emit (.record r (g.host + 64 * (g.seq % 2 ^ g.log2)) (recBytes g x))
      let s := s.setRing r { g with
        backlog := rest, seq := (g.seq + 1) % 2 ^ 32, lostFlag := false, unacked := g.unacked ++ [(g.seq, x.post)] }
      .next (s.trace (·.traceRec) ⟨4, x.code, 0xFF, x.type, recHeader g x, s.tick.number, s.sinceEdge⟩)

/-- RDMA_WRITE_ACK (R456): the host has acknowledged record n; a HOST.POST that waited for it ends with OK. -/
def execRdmaWriteAck (r : RingId) (seq : Nat) (s : State) : Host.Outcome State Fault Refusal :=
  let g := s.ring r
  match g.unacked.find? fun u => u.1 == seq with
  | none => .next s
  | some u =>
    let s := s.setRing r { g with unacked := g.unacked.filter fun v => v.1 != seq }
    match u.2 with
    | none => .next s
    | some (c, n) => .next (match s.findCmd c .sq n with
      | some k => (s.endCmd c k .ok).tryReport
      | none => s)

/-! ## Frames of other protocols (R433) -/

/-- A port takes frames: its link is up. -/
def State.ethUp (s : State) (port : Fin 2) : Bool := s.boot.booted && s.eth[port].up

def State.ethDiscard (s : State) (port : Fin 2) : State :=
  s.modEth port fun x => { x with discarded := satAdd 16 x.discarded 1 }

/-- The IPv6 link-local address formed from the MAC address by modified EUI-64 (R433). -/
def State.linkLocal (s : State) (port : Fin 2) : BitVec 128 :=
  let m := s.fuses.mac[port].toNat
  BitVec.ofNat 128 (0xFE80 * 2 ^ 112 + (m / 2 ^ 24 ^^^ 0x020000) * 2 ^ 40 + 0xFFFE * 2 ^ 24 + m % 2 ^ 24)

/-- A port answers at an IPv6 address. -/
def State.ownV6 (s : State) (port : Fin 2) (a : BitVec 128) : Bool :=
  if s.cfg.defaulted then a == s.linkLocal port else s.eth[port].ipv6 != 0 && a == s.eth[port].ipv6
/-- A port answers at an IPv4 address. -/
def State.ownV4 (s : State) (port : Fin 2) (a : Word32) : Bool :=
  !s.cfg.defaulted && s.eth[port].ipv4 != 0 && a == s.eth[port].ipv4

/-- ARP (R433). -/
def execArp (port : Fin 2) (target : Word32) (sender : Word) (s : State) : Host.Outcome State Fault Refusal :=
  .next (if ¬ s.ethUp port then s
    else if s.ownV4 port target then s.emit (.arpReply port sender) else s.ethDiscard port)
/-- NEIGHBOUR_DISCOVERY (R433). -/
def execNeighbourDiscovery (port : Fin 2) (target sender : BitVec 128) (s : State) : Host.Outcome State Fault Refusal :=
  .next (if ¬ s.ethUp port then s
    else if s.ownV6 port target then s.emit (.ndReply port sender) else s.ethDiscard port)
/-- ICMP_ECHO (R433). -/
def execIcmpEcho (port : Fin 2) (v6 : Bool) (dest : BitVec 128) (payload : List Byte) (s : State) :
    Host.Outcome State Fault Refusal :=
  let own := if v6 then s.ownV6 port dest else s.ownV4 port (BitVec.ofNat 32 dest.toNat)
  .next (if ¬ s.ethUp port then s else if own then s.emit (.echoReply port v6 payload) else s.ethDiscard port)
/-- ETHERNET_FRAME (R433): any other frame is discarded and counted. -/
def execEthernetFrame (port : Fin 2) (s : State) : Host.Outcome State Fault Refusal :=
  .next (if s.ethUp port then s.ethDiscard port else s)

/-! ## Link and pauses (R434, R458, R459) -/

/-- ETH_LINK_CHANGE (R458, R459): a port that goes down drops its rings' backlogs and fails the posts that wait. -/
def execEthLinkChange (port : Fin 2) (up : Bool) (s : State) : Host.Outcome State Fault Refusal :=
  if ¬ s.boot.booted ∨ s.eth[port].up = up then .next s
  else
    let s := s.modEth port fun x => { x with up := up, changed := true, paused := up && x.paused }
    .next (if up then s
      else overFin 16 (fun r s =>
        let g := s.ring r
        if g.set ∧ g.port = port then (s.failPosts r .fenced).ringDown r else s) s)

/-- PRIORITY_FLOW_CONTROL (R434, R458). -/
def execPriorityFlowControl (port : Fin 2) (prio : BitVec 3) (pause : Bool) (s : State) : Host.Outcome State Fault Refusal :=
  .next (if s.ethUp port && s.eth[port].prio == prio.toNat then
    s.modEth port fun x => { x with paused := pause, pfcPauses := if pause then satAdd 16 x.pfcPauses 1 else x.pfcPauses }
  else s)

end Sys2Proof.Machine
end

