-- ==== Sys2Proof/Machine/Events.lean ====
section
/-! DEFINITION. The tick's commands (R31 to R48), heartbeats and recovery (R481 to R483) as they reach the chip: each does
its effect, and a QCP request that it ends makes room for the next. -/
namespace Sys2Proof.Machine

/-- TICK_EDGE (R28, R32). -/
def execTickEdge (s : State) : Host.Outcome State Fault Refusal := .next s.tickEdge.nextQcp
/-- OVERRUN (R33). -/
def execOverrun (now : Nat) (s : State) : Host.Outcome State Fault Refusal := .next (s.overrun now)
/-- LATE_REPORT (R31). -/
def execLateReport (now : Nat) (s : State) : Host.Outcome State Fault Refusal := .next (s.lateReport now)
/-- TICK_REPORT (R31). -/
def execTickReport (child : Half) (r : Report) (now : Nat) (s : State) : Host.Outcome State Fault Refusal :=
  if r.vf.length ≠ 8 ∨ r.va.length ≠ 8 ∨ r.abort.length ≠ 8 then .fault (.illFormed "TICK_REPORT")
  else .next (s.tickReport child r now)
/-- VERDICT (R32). -/
def execVerdict (v : VerdictMsg) (now : Nat) (s : State) : Host.Outcome State Fault Refusal :=
  if v.vf.length ≠ 8 ∨ v.va.length ≠ 8 ∨ v.decide.length ≠ 8 ∨ v.partStop.length ≠ 8 ∨ v.release.length ≠ 8 then
    .fault (.illFormed "VERDICT")
  else .next (s.takeVerdict v now)
/-- TICK_LOST (R36). -/
def execTickLost (now : Nat) (s : State) : Host.Outcome State Fault Refusal := .next (s.tickLost now).nextQcp
/-- ALIGNMENT_MESSAGE (R43). -/
def execAlignmentMessage (masterTime pathDelay now : Nat) (s : State) : Host.Outcome State Fault Refusal :=
  .next (s.align masterTime pathDelay now)
/-- TICK_START (R48). -/
def execTickStart (s : State) : Host.Outcome State Fault Refusal := .next s.tickStart
/-- TICK_STOP (R48). -/
def execTickStop (s : State) : Host.Outcome State Fault Refusal := .next s.tickStop
/-- STRETCH_REQ (R37). -/
def execStretchReq (s : State) : Host.Outcome State Fault Refusal := .next s.stretchReq

/-- HEARTBEAT_CHECK (R481). -/
def execHeartbeatCheck (alive : LivenessFacts) (s : State) : Host.Outcome State Fault Refusal := .next (s.heartbeat alive)
/-- RECOVERY_DRAIN_END (R483 steps 3 to 5). -/
def execRecoveryDrainEnd (s : State) : Host.Outcome State Fault Refusal := .next s.drainEnd
/-- DOMAIN_RESET_DONE (R483 step 6). -/
def execDomainResetDone (s : State) : Host.Outcome State Fault Refusal := .next s.domainResetDone.nextQcp

end Sys2Proof.Machine
end

