-- ==== Sys2Proof/Machine/Packet.lean ====
section
/-! DEFINITION. Packets that arrive at this chip (R355 to R357, R559): acceptance, the requests performed and answered,
the responses matched with what this chip asked, and the timeout of a request. -/
namespace Sys2Proof.Machine

/-- An arriving packet as its strokes' codes leave it: bodies in order, the KINDs, BAD of any stroke, and the strokes with
an uncorrectable codeword. -/
structure Arrived where
  body : List Byte := []
  kinds : List Nat := []
  bad : Bool := false
  broken : Nat := 0
  deriving DecidableEq, Repr

/-- One stroke of a packet: the header's counts, its buffer's credit, its body; a stroke for another chip and one without
data are no part of the packet (R354), and a management-only port brings management strokes alone (R373). -/
def State.takeStroke (p : PortId) (acc : State × Arrived) (stroke : List Byte) : State × Arrived :=
  match acc.1.takeHeader p stroke with
  | (s, none) => (s, acc.2)
  | (s, some h) =>
    if h.kind = 0 ∨ h.kind > 5 ∨ h.dest ≠ s.chip ∨ ¬ (s.port p).carries h then (s, acc.2)
    else
      let s := (s.modPort p fun x => x.owe (poolOf h) 1).pump p
      let a := acc.2
      match readBody stroke with
      | some b => (s, { a with body := a.body ++ b, kinds := a.kinds ++ [h.kind], bad := a.bad || h.bad })
      | none =>
        (s.modPort p fun x => { x with uncorrected := satAdd 8 x.uncorrected 1 },
         { a with body := a.body ++ slice stroke 8 512, kinds := a.kinds ++ [h.kind], bad := a.bad || h.bad,
                  broken := a.broken + 1 })

/-- The KINDs of a packet of n strokes (R355). -/
def kindsOf (n : Nat) : List Nat := if n = 1 then [4] else 1 :: (List.replicate (n - 2) 2 ++ [3])

/-- The KINDs fit a packet of n strokes: a management packet travels as management strokes (R354, R367). -/
def kindsOk (op n : Nat) (kinds : List Nat) : Bool :=
  if op = 7 then kinds == List.replicate n 5 else kinds == kindsOf n

/-- The transaction header of a packet's body, where its paired words are valid (R355, R10). -/
def readTrans (b : List Byte) : Option Trans :=
  let v (i : Nat) : Nat := pairVal (w64At b (8 * i))
  if (List.range 6).all fun i => pairOk (w64At b (8 * i)) then
    some { src := v 0 % 65536, dest := v 1 % 65536, addr := v 2 + place (v 3 % 65536) 32, op := v 4 / 2 ^ 28,
           units := v 4 / 2 ^ 22 % 64, epoch := v 4 % 65536, tag := v 5 % 2 ^ 24, code := v 5 / 2 ^ 24 }
  else none

/-- Strokes of a packet (R355): a read request is one stroke. -/
def Trans.strokes (t : Trans) : Nat := if t.op = 2 then 1 else ceilDiv (64 + 64 * t.units) 512

/-- The packet is a response (R559). -/
def Trans.isResponse (t : Trans) : Bool := t.op == 3 || t.op == 4

/-- A packet discarded without an answer (R356). -/
def State.discardPacket (s : State) (p : PortId) : State :=
  s.modPort p fun x => { x with uncorrected := satAdd 8 x.uncorrected 1 }

/-- A request performed at this chip: the bytes that a read answers (R23, R24, R273, R320). -/
def performRequest (t : Trans) (data : List Byte) : Eng (List Byte) := do
  let flash := inFlash t.addr 1
  match t.op with
  | 1 => do
    if flash then flashWrite t.addr data true else memWrite .window t.addr data
    pure []
  | 2 => do
    need (decide (t.units ≠ 0)) .decode
    if flash then flashRead t.addr (64 * t.units) true else memRead .window t.addr (64 * t.units)
  | _ => do
    need (!flash && (t.code == 1 || t.code == 2)) .allocFault
    let old ← memRead .window t.addr data.length
    memWrite .window t.addr (faddBytes t.code old data)
    pure []

/-- Requests performed and answered, a flash write when it is committed (R325); a request of another epoch is answered with
EPOCH (R356, R357, R559). -/
def State.serveRequest (s : State) (t : Trans) (data : List Byte) : State :=
  let deny (st : Status) : State := (s.respond t st []).endRequest st
  if t.epoch ≠ s.epoch.toNat then deny .epoch
  else if t.op = 6 then
    match parseXh t.src data with
    | none => deny .integrity
    | some m =>
      let (u, st) := s.receiveXh m
      let u := u.respond t st []
      if st = .ok then u else u.endRequest st
  else
    match (performRequest t data).exec s with
    | (.ok d, u) => if t.op = 1 ∧ inFlash t.addr 1 then u.awaitCommit (some (t.src, t.tag)) else u.respond t .ok d
    | (.error st, u) => (u.respond t st []).endRequest st

/-- The units that a read brought, by address. -/
def unitsAt (addr : Nat) (data : List Byte) : List (Nat × List Byte) :=
  (List.range (data.length / 64)).map fun i => (addr + 64 * i, slice data (64 * i) 64)

/-- What a command does once a response or a timeout has come. -/
def resumeCmd (c : CoreId) (k : QCmd) : Eng QCmd :=
  match k.op with
  | .xhStep | .xhTree | .xhStepArr | .xhTreeArr => if k.result.isSome then pure k else pumpXh c k
  | .attn => advanceAttn c k
  | .strmCopy | .strmFlash | .strmFadd | .kvPage => if k.result.isSome then pure k else requestNeeds c k
  | _ => pure k

/-- A request of this chip ends (R357): the command that issued it goes on, or keeps the status it will end with. -/
def State.endOutstanding (s : State) (o : Outstanding) (st : Status) (data : List Byte) : State :=
  let s := { s with fabric := { s.fabric with outstanding := s.fabric.outstanding.filter fun x => x.tag != o.tag } }
  match s.findCmd o.core o.queue o.seq with
  | none => s
  | some k =>
    let k := { k with await := k.await - 1, result := if st = .ok ∨ k.result.isSome then k.result else some st
                      reads := if st = .ok ∧ o.read then k.reads ++ unitsAt o.addr data else k.reads
                      waits := if k.op.isXh then 0 else k.waits }
    ((s.putCmd o.core k).settleCmd o.core k (resumeCmd o.core k)).advanceHead o.core .bq |>.advanceHead o.core .hq

/-- A response: an unknown tag is ignored; another epoch ends its request with EPOCH (R357, R559). -/
def State.takeResponse (s : State) (t : Trans) (data : List Byte) : State :=
  match s.fabric.outstanding.find? fun o => o.tag == t.tag with
  | none => s
  | some o =>
    if t.epoch ≠ s.epoch.toNat ∨ o.epoch ≠ s.epoch then s.endOutstanding o .epoch []
    else s.endOutstanding o (statusOf t.code) (slice data 0 (64 * t.units))

/-- The packet whole at its destination (R356). -/
def State.takePacket (s : State) (p : PortId) (a : Arrived) : State :=
  let srcOk := pairOk (w64At a.body 0) && pairOk (w64At a.body 0x28)
  let v (i : Nat) : Nat := pairVal (w64At a.body (8 * i))
  let asked : Bool := !(pairOk (w64At a.body 0x20) && (v 4 / 2 ^ 28 == 3 || v 4 / 2 ^ 28 == 4 || v 4 / 2 ^ 28 == 7))
  let back : Trans := { src := v 0 % 65536, dest := s.chip, op := if pairOk (w64At a.body 0x20) then v 4 / 2 ^ 28 else 1,
                        epoch := 0, tag := v 5 % 2 ^ 24 }
  let refuse (st : Status) : State :=
    if srcOk ∧ asked then (s.respond back st []).endRequest st else s.discardPacket p
  if a.bad ∨ a.broken > 0 then refuse .dataEcc
  else
    match readTrans a.body with
    | none => refuse .integrity
    | some t =>
      if t.dest ≠ s.chip ∨ kindsOk t.op t.strokes a.kinds = false then s.discardPacket p
      else
        let data := slice a.body 64 (64 * t.units)
        if t.isResponse then s.takeResponse t data
        else if t.op = 7 then s
        else if t.op = 1 ∨ t.op = 2 ∨ t.op = 5 ∨ t.op = 6 then s.serveRequest t data
        else (s.respond t .decode []).endRequest .decode

/-- PACKET_RECEIVE (R356): an error of the destination's own checks answers; what has no answer is counted. -/
def execPacketReceive (p : PortId) (strokes : List (List Byte)) (s : State) : Host.Outcome State Fault Refusal :=
  if strokes.any fun x => x.length ≠ 544 then .fault (.illFormed "PACKET_RECEIVE")
  else if (s.port p).state ≠ .upData ∧ (s.port p).state ≠ .upMgmt then .next s
  else
    let (s, a) := strokes.foldl (State.takeStroke p) (s, {})
    if a.kinds.isEmpty then .next s else .next ((s.takePacket p a).tryReport)

/-- REQUEST_TIMEOUT (R357, R361): TIMEOUT, or FENCED where its packet was discarded because no port could carry
it, here or at a chip of the path. -/
def execRequestTimeout (tag : BitVec 24) (discarded : Bool) (s : State) : Host.Outcome State Fault Refusal :=
  match s.fabric.outstanding.find? fun o => o.tag == tag.toNat with
  | none => .next s
  | some o => .next ((s.endOutstanding o (if o.lost ∨ discarded then .fenced else .timeout) []).tryReport)

end Sys2Proof.Machine
end

