-- ==== Sys2Proof/Machine/Sync.lean ====
section
/-! DEFINITION. The synchronisation instructions (R277 to R279): waits, fences, tokens, table swaps, PROOF.MARK. -/
namespace Sys2Proof.Machine

def queueOf (q : BitVec 2) : Option QueueId :=
  match q.toNat with
  | 1 => some .bq | 2 => some .hq | 3 => some .sq | _ => none

/-- CMD.WAIT: q := s[RS][31:0]; a number not yet issued ends with ALLOC_FAULT (R69). -/
def execCmdWait (c : CoreId) (f : FmtS) (s : State) : Host.Outcome State Fault Refusal :=
  .next (scalar c f.pre (formS true true true false false false f && (queueOf f.q).isSome) (do
    let t ← get
    let x := t.core c
    let q := (queueOf f.q).getD .bq
    let n := (x.sreg f.rs.toNat).toNat % 2 ^ 32
    need (decide (n < (x.queue q).next)) .allocFault
    pure (.stall (.cmdWait q n f.pd.toNat))) s)

/-- CMD.SEQ: the number of the last command issued to the queue; all ones when none has been (R277). -/
def execCmdSeq (c : CoreId) (f : FmtS) (s : State) : Host.Outcome State Fault Refusal :=
  .next (scalar c f.pre (formS true false true false false false f && (queueOf f.q).isSome) (regsStep c fun x =>
    x.setS f.rs.toNat (x.queue ((queueOf f.q).getD .bq)).lastIssued) s)

/-- s[RS] + IMM, at most 65,535, or ALLOC_FAULT (R277). -/
def tokenCount (c : CoreId) (f : FmtS) : Eng Nat := do
  let t ← get
  let n := ((t.core c).sreg f.rs.toNat + sext f.imm).toNat
  need (decide (n ≤ 65535)) .allocFault
  pure n

/-- TOK.WAIT (R88, R89, R278). -/
def execTokWait (c : CoreId) (f : FmtS) (s : State) : Host.Outcome State Fault Refusal :=
  .next (scalar c f.pre (formS true false false true false true f) (do
    let n ← tokenCount c f
    pure (.stall (.tokWait f.ctr.toNat n))) s)

/-- A command still in flight delivers to the counter (R90, R281). -/
def Core.delivers (x : Core) (t : Nat) : Bool :=
  x.allCmds.any fun k => k.active && k.doomed.isNone && k.ctr == some t

/-- TOK.SET (R88 to R90). -/
def execTokSet (c : CoreId) (f : FmtS) (s : State) : Host.Outcome State Fault Refusal :=
  .next (scalar c f.pre (formS true false false true false true f) (do
    let n ← tokenCount c f
    let t ← get
    need (!(t.core c).delivers f.ctr.toNat) .allocFault
    regsStep c fun x => { x with
      tok := x.tok.set f.ctr.toNat (BitVec.ofNat 16 n) f.ctr.isLt
      tokFailed := x.tokFailed &&& ~~~(1#32 <<< f.ctr.toNat)
      tokStatus := x.tokStatus.filter fun e => e.1 != f.ctr.toNat }) s)

/-- TICK.WAIT, never guarded (R28, R63, R254). -/
def execTickWait (c : CoreId) (f : FmtS) (now : Nat) (s : State) : Host.Outcome State Fault Refusal :=
  .next (stylusAt true c f.pre (formS false false false false false false f && f.pre.guard == 0 && !f.pre.ginv)
    (pure .step) (pure (.stall .tickWait)) (s.atTime now))

/-- A fence (R84): every write of a completed command is made and, on another chip, acknowledged. -/
def fenceInstr (c : CoreId) (f : FmtS) (k : FenceKind) (s : State) : State :=
  scalar c f.pre (formS false false false false false false f) (pure (.stall (.fence k))) s

/-- FENCE.L (R84). -/
def execFenceL (c : CoreId) (f : FmtS) (s : State) : Host.Outcome State Fault Refusal := .next (fenceInstr c f .l s)
/-- FENCE.D (R84). -/
def execFenceD (c : CoreId) (f : FmtS) (s : State) : Host.Outcome State Fault Refusal := .next (fenceInstr c f .d s)
/-- FENCE.G (R84). -/
def execFenceG (c : CoreId) (f : FmtS) (s : State) : Host.Outcome State Fault Refusal := .next (fenceInstr c f .g s)

/-- TBL.SWAP sets the table's PENDING bit; a second one is ignored (R195). -/
def execTblSwap (c : CoreId) (f : FmtS) (s : State) : Host.Outcome State Fault Refusal :=
  .next (scalar c f.pre (formS false false false false true false f && decide (f.tbl.toNat < 3)) (do
    modify fun s =>
      let w := s.control c.val
      let t := f.tbl.toNat
      if bitOf (ctlPending w) t = 1 then s
      else s.setControl c.val (ctlActive w) (ctlPending w + 2 ^ t) (ctlHeld w)
    pure .step) s)

/-- PROOF.MARK: a MARK trace entry when trace is enabled for the core (R279, R534). -/
def execProofMark (c : CoreId) (f : FmtS) (now : Nat) (s : State) : Host.Outcome State Fault Refusal :=
  .next (stylusAt true c f.pre (formS true false false false false true f && decide (f.imm.toNat < 65536)) (pure .step) (do
    modify fun s => s.trace (fun p => p.traceMark && p.traceCores.getLsbD c.val)
      ⟨1, 0, c.val, f.imm.toNat, (s.core c).sreg f.rs.toNat, s.tick.number, s.sinceEdge⟩
    pure .step) (s.atTime now))

end Sys2Proof.Machine
end

