-- ==== Sys2Proof/Machine/TestPort.lean ====
section
/-! DEFINITION. The IEEE 1149.1 test port (R538, R539) and the I3C management sideband (R551, R552). -/
namespace Sys2Proof.Machine

/-! ## Test port -/

/-- An instruction is selected with a data register. -/
def State.tapSelect (s : State) (ir : TapInstr) (dr : BitVec 128) (drive : Bool) : State :=
  { s with tap := { s.tap with ir := ir, dr := dr }, drive := drive }.emit (.tap ir dr)

/-- IDCODE (R538). -/
def execIdcode (s : State) : Host.Outcome State Fault Refusal := .next (s.tapSelect .idcode 0x10C1249D#128 true)

/-- SAMPLE/PRELOAD (R538): what the boundary cells sample is a free value. -/
def execSamplePreload (preload : Option Word) (s : State) : Host.Outcome State Fault Refusal :=
  let (w, t) := s.draw
  .next (({ t with tap := { t.tap with preload := firstSome preload t.tap.preload } }).tapSelect .samplePreload (w.setWidth 128) true)

/-- EXTEST (R538): the pins follow the boundary scan; what it captures is a free value. -/
def execExtest (s : State) : Host.Outcome State Fault Refusal :=
  let (w, t) := s.draw
  .next (t.tapSelect .extest (w.setWidth 128) true)

/-- CLAMP (R538): the pins hold, with bypass selected. -/
def execClamp (s : State) : Host.Outcome State Fault Refusal := .next (s.tapSelect .clamp 0 true)
/-- HIGHZ (R538): the outputs are in high impedance. -/
def execHighz (s : State) : Host.Outcome State Fault Refusal := .next (s.tapSelect .highz 0 false)
/-- BYPASS (R538). -/
def execBypass (s : State) : Host.Outcome State Fault Refusal := .next (s.tapSelect .bypass 0 true)

/-- The data register after a register access (R539). -/
def regaccResult (dr : BitVec 128) (st : Status) (data : Word) : BitVec 128 :=
  BitVec.ofNat 128 (place (b2n (flag dr 127)) 127 + place 1 126 + place (statusCode st) 112 + place (field dr 111 64) 64 + data.toNat)

/-- One register access through the test port (R539). -/
def State.regacc (s : State) (dr : BitVec 128) : State :=
  let off := field dr 111 64
  let data : Word := BitVec.ofNat 64 (field dr 63 0)
  if flag dr 127 then
    match s.writeReg off data with
    | some t => t.tapSelect .regacc (regaccResult dr .ok data) true
    | none => (s.endRequest .allocFault).tapSelect .regacc (regaccResult dr .allocFault data) true
  else match s.readReg off with
    | some w => s.tapSelect .regacc (regaccResult dr .ok w) true
    | none => (s.endRequest .allocFault).tapSelect .regacc (regaccResult dr .allocFault data) true

/-- REGACC (R538, R539): without permission bit 1 it acts as BYPASS. -/
def execRegacc (dr : BitVec 128) (s : State) : Host.Outcome State Fault Refusal :=
  .next (if s.sec.perms / 2 % 2 = 1 then s.regacc dr else s.tapSelect .bypass 0 true)

/-! ## Management sideband (R552) -/

/-- I3C_PRIVATE_WRITE: 6 bytes set the offset; a write of another length sets none. -/
def execI3cPrivateWrite (data : List Byte) (s : State) : Host.Outcome State Fault Refusal :=
  .next (if s.boot.powered ∧ data.length = 6 then { s with i3c := { offset := some (BitVec.ofNat 48 (leNat data)) } } else s)

/-- Offsets that the target serves. -/
def sidebandServes (off : Nat) : Bool :=
  off % 8 == 0 && (inIdentity off || [0x020007001010, 0x020007001018, 0x020007001020].contains off
    || (List.range 12).any fun k => off == 0x020002000010 + 0x100000 * k)

/-- I3C_PRIVATE_READ: 8 bytes at the offset, or a NACK. -/
def execI3cPrivateRead (s : State) : Host.Outcome State Fault Refusal :=
  .next (if ¬ s.boot.powered then s
    else match s.i3c.offset with
      | none => s.emit (.i3c none)
      | some o => s.emit (.i3c (if sidebandServes o.toNat then s.readReg o.toNat else none)))

end Sys2Proof.Machine
end

