-- ==== Sys2Proof/Machine/Dispatch.lean ====
section
/-! DEFINITION. Dispatch: one arm per command, each a direct call of that command's meaning. -/
namespace Sys2Proof.Machine

def exec (i : Instr) (s : State) : Host.Outcome State Fault Refusal :=
  match i with
  | .tickEdge => Sys2Proof.Machine.execTickEdge s
  | .overrun now => Sys2Proof.Machine.execOverrun now s
  | .tickReport child r now => Sys2Proof.Machine.execTickReport child r now s
  | .verdict v now => Sys2Proof.Machine.execVerdict v now s
  | .tickLost now => Sys2Proof.Machine.execTickLost now s
  | .alignmentMessage masterTime pathDelay now => Sys2Proof.Machine.execAlignmentMessage masterTime pathDelay now s
  | .tickStart => Sys2Proof.Machine.execTickStart s
  | .tickStop => Sys2Proof.Machine.execTickStop s
  | .stretchReq => Sys2Proof.Machine.execStretchReq s
  | .registerWrite off v => Sys2Proof.Machine.execRegisterWrite off v s
  | .nop c f => Sys2Proof.Machine.execNop c f s
  | .add c f => Sys2Proof.Machine.execAdd c f s
  | .sub c f => Sys2Proof.Machine.execSub c f s
  | .mul c f => Sys2Proof.Machine.execMul c f s
  | .mulhu c f => Sys2Proof.Machine.execMulhu c f s
  | .mulh c f => Sys2Proof.Machine.execMulh c f s
  | .divu c f => Sys2Proof.Machine.execDivu c f s
  | .div c f => Sys2Proof.Machine.execDiv c f s
  | .remu c f => Sys2Proof.Machine.execRemu c f s
  | .rem c f => Sys2Proof.Machine.execRem c f s
  | .and c f => Sys2Proof.Machine.execAnd c f s
  | .or c f => Sys2Proof.Machine.execOr c f s
  | .xor c f => Sys2Proof.Machine.execXor c f s
  | .shl c f => Sys2Proof.Machine.execShl c f s
  | .shr c f => Sys2Proof.Machine.execShr c f s
  | .sra c f => Sys2Proof.Machine.execSra c f s
  | .min c f => Sys2Proof.Machine.execMin c f s
  | .max c f => Sys2Proof.Machine.execMax c f s
  | .minu c f => Sys2Proof.Machine.execMinu c f s
  | .maxu c f => Sys2Proof.Machine.execMaxu c f s
  | .addi c f => Sys2Proof.Machine.execAddi c f s
  | .andi c f => Sys2Proof.Machine.execAndi c f s
  | .ori c f => Sys2Proof.Machine.execOri c f s
  | .xori c f => Sys2Proof.Machine.execXori c f s
  | .shli c f => Sys2Proof.Machine.execShli c f s
  | .shri c f => Sys2Proof.Machine.execShri c f s
  | .srai c f => Sys2Proof.Machine.execSrai c f s
  | .movi c f => Sys2Proof.Machine.execMovi c f s
  | .movhi c f => Sys2Proof.Machine.execMovhi c f s
  | .movA c f => Sys2Proof.Machine.execMovA c f s
  | .movS c f => Sys2Proof.Machine.execMovS c f s
  | .addA c f => Sys2Proof.Machine.execAddA c f s
  | .addiA c f => Sys2Proof.Machine.execAddiA c f s
  | .cmp c f => Sys2Proof.Machine.execCmp c f s
  | .cmpi c f => Sys2Proof.Machine.execCmpi c f s
  | .pAnd c f => Sys2Proof.Machine.execPAnd c f s
  | .pOr c f => Sys2Proof.Machine.execPOr c f s
  | .pXor c f => Sys2Proof.Machine.execPXor c f s
  | .pNot c f => Sys2Proof.Machine.execPNot c f s
  | .ld c f => Sys2Proof.Machine.execLd c f s
  | .lds c f => Sys2Proof.Machine.execLds c f s
  | .st c f => Sys2Proof.Machine.execSt c f s
  | .ldP c f => Sys2Proof.Machine.execLdP c f s
  | .stP c f => Sys2Proof.Machine.execStP c f s
  | .tdLd c f => Sys2Proof.Machine.execTdLd c f s
  | .tdSt c f => Sys2Proof.Machine.execTdSt c f s
  | .tdWr c f => Sys2Proof.Machine.execTdWr c f s
  | .tdWrp c f => Sys2Proof.Machine.execTdWrp c f s
  | .br c f => Sys2Proof.Machine.execBr c f s
  | .loop c f => Sys2Proof.Machine.execLoop c f s
  | .jr c f => Sys2Proof.Machine.execJr c f s
  | .burinMm c f => Sys2Proof.Machine.execBurinMm c f s
  | .conv3 c f => Sys2Proof.Machine.execConv3 c f s
  | .hatchRun c f => Sys2Proof.Machine.execHatchRun c f s
  | .stencilRun c f => Sys2Proof.Machine.execStencilRun c f s
  | .attn c f => Sys2Proof.Machine.execAttn c f s
  | .strmCopy c f => Sys2Proof.Machine.execStrmCopy c f s
  | .strmFlash c f => Sys2Proof.Machine.execStrmFlash c f s
  | .strmFadd c f => Sys2Proof.Machine.execStrmFadd c f s
  | .kvPage c f => Sys2Proof.Machine.execKvPage c f s
  | .folioPromote c f => Sys2Proof.Machine.execFolioPromote c f s
  | .folioEvict c f => Sys2Proof.Machine.execFolioEvict c f s
  | .folioFlush c f => Sys2Proof.Machine.execFolioFlush c f s
  | .etchBuild c f => Sys2Proof.Machine.execEtchBuild c f s
  | .xhStep c f => Sys2Proof.Machine.execXhStep c f s
  | .xhTree c f => Sys2Proof.Machine.execXhTree c f s
  | .xhStepArr c f => Sys2Proof.Machine.execXhStepArr c f s
  | .xhTreeArr c f => Sys2Proof.Machine.execXhTreeArr c f s
  | .hostPost c f => Sys2Proof.Machine.execHostPost c f s
  | .commandStart c q => Sys2Proof.Machine.execCommandStart c q s
  | .pieceDelivery c => Sys2Proof.Machine.execPieceDelivery c s
  | .commandEnd c q now => Sys2Proof.Machine.execCommandEnd c q now s
  | .cmdWait c f => Sys2Proof.Machine.execCmdWait c f s
  | .cmdSeq c f => Sys2Proof.Machine.execCmdSeq c f s
  | .tokWait c f => Sys2Proof.Machine.execTokWait c f s
  | .tokSet c f => Sys2Proof.Machine.execTokSet c f s
  | .tickWait c f now => Sys2Proof.Machine.execTickWait c f now s
  | .fenceL c f => Sys2Proof.Machine.execFenceL c f s
  | .fenceD c f => Sys2Proof.Machine.execFenceD c f s
  | .fenceG c f => Sys2Proof.Machine.execFenceG c f s
  | .tblSwap c f => Sys2Proof.Machine.execTblSwap c f s
  | .proofMark c f now => Sys2Proof.Machine.execProofMark c f now s
  | .windowAccess a => Sys2Proof.Machine.execWindowAccess a s
  | .watchCtrlRetry p => Sys2Proof.Machine.execWatchCtrlRetry p s
  | .watchCtrlSkip p => Sys2Proof.Machine.execWatchCtrlSkip p s
  | .hbmRead off len err => Sys2Proof.Machine.execHbmRead off len err s
  | .hbmWrite off data err => Sys2Proof.Machine.execHbmWrite off data err s
  | .patrolScrub st pc err => Sys2Proof.Machine.execPatrolScrub st pc err s
  | .hbmTraining st failing => Sys2Proof.Machine.execHbmTraining st failing s
  | .stackTempSample st celsius => Sys2Proof.Machine.execStackTempSample st celsius s
  | .maint st on => Sys2Proof.Machine.execMaint st on s
  | .resources st => Sys2Proof.Machine.execResources st s
  | .softPpr st => Sys2Proof.Machine.execSoftPpr st s
  | .hardPpr st => Sys2Proof.Machine.execHardPpr st s
  | .softLane st => Sys2Proof.Machine.execSoftLane st s
  | .hardLane st => Sys2Proof.Machine.execHardLane st s
  | .mbist st => Sys2Proof.Machine.execMbist st s
  | .testMode st => Sys2Proof.Machine.execTestMode st s
  | .mailboxCommandEnd st rep => Sys2Proof.Machine.execMailboxCommandEnd st rep s
  | .poolStart => Sys2Proof.Machine.execPoolStart s
  | .poolClear => Sys2Proof.Machine.execPoolClear s
  | .poolStop => Sys2Proof.Machine.execPoolStop s
  | .poolStopDrained => Sys2Proof.Machine.execPoolStopDrained s
  | .folioTransferEnd h answer => Sys2Proof.Machine.execFolioTransferEnd h answer s
  | .writeBack m => Sys2Proof.Machine.execWriteBack m s
  | .promotion m => Sys2Proof.Machine.execPromotion m s
  | .spill => Sys2Proof.Machine.execSpill s
  | .spillEnd slot programmed => Sys2Proof.Machine.execSpillEnd slot programmed s
  | .folioTimeout c => Sys2Proof.Machine.execFolioTimeout c s
  | .flashRead off len readable => Sys2Proof.Machine.execFlashRead off len readable s
  | .flashWrite off data programmed => Sys2Proof.Machine.execFlashWrite off data programmed s
  | .journalCommit => Sys2Proof.Machine.execJournalCommit s
  | .ftlStart badCrc => Sys2Proof.Machine.execFtlStart badCrc s
  | .strokeForward p stroke => Sys2Proof.Machine.execStrokeForward p stroke s
  | .packetReceive p strokes => Sys2Proof.Machine.execPacketReceive p strokes s
  | .requestTimeout tag discarded => Sys2Proof.Machine.execRequestTimeout tag discarded s
  | .xhStart => Sys2Proof.Machine.execXhStart s
  | .xhStop => Sys2Proof.Machine.execXhStop s
  | .xhStopDrained => Sys2Proof.Machine.execXhStopDrained s
  | .retrainAll => Sys2Proof.Machine.execRetrainAll s
  | .retrain p => Sys2Proof.Machine.execRetrain p s
  | .trainingSlot p => Sys2Proof.Machine.execTrainingSlot p s
  | .equalise p passed => Sys2Proof.Machine.execEqualise p passed s
  | .errorTest p bitErrors => Sys2Proof.Machine.execErrorTest p bitErrors s
  | .identityStroke p body => Sys2Proof.Machine.execIdentityStroke p body s
  | .delayMeasurement p roundTrips turnaround => Sys2Proof.Machine.execDelayMeasurement p roundTrips turnaround s
  | .backOff p => Sys2Proof.Machine.execBackOff p s
  | .lossOfSignal p => Sys2Proof.Machine.execLossOfSignal p s
  | .grant g => Sys2Proof.Machine.execGrant g s
  | .abort a => Sys2Proof.Machine.execAbort a s
  | .collectiveWaitLimit c => Sys2Proof.Machine.execCollectiveWaitLimit c s
  | .xhCollStart => Sys2Proof.Machine.execXhCollStart s
  | .xhCollStop => Sys2Proof.Machine.execXhCollStop s
  | .xhCollStopDrained => Sys2Proof.Machine.execXhCollStopDrained s
  | .jobRingPoll e => Sys2Proof.Machine.execJobRingPoll e s
  | .decodeJob e n now => Sys2Proof.Machine.execDecodeJob e n now s
  | .encodeJob e n now => Sys2Proof.Machine.execEncodeJob e n now s
  | .flushJob e n => Sys2Proof.Machine.execFlushJob e n s
  | .openJob e n => Sys2Proof.Machine.execOpenJob e n s
  | .reconfigureJob e n => Sys2Proof.Machine.execReconfigureJob e n s
  | .closeJob e n => Sys2Proof.Machine.execCloseJob e n s
  | .mediaJobEnd e n => Sys2Proof.Machine.execMediaJobEnd e n s
  | .mediaStart e => Sys2Proof.Machine.execMediaStart e s
  | .mediaStop e => Sys2Proof.Machine.execMediaStop e s
  | .mediaStopDrained e => Sys2Proof.Machine.execMediaStopDrained e s
  | .hello r => Sys2Proof.Machine.execHello r s
  | .status r => Sys2Proof.Machine.execStatus r s
  | .regRead r => Sys2Proof.Machine.execRegRead r s
  | .regWrite r => Sys2Proof.Machine.execRegWrite r s
  | .qpConnect r => Sys2Proof.Machine.execQpConnect r s
  | .qpDestroy r => Sys2Proof.Machine.execQpDestroy r s
  | .windowSet r => Sys2Proof.Machine.execWindowSet r s
  | .ringSet r => Sys2Proof.Machine.execRingSet r s
  | .programLoad r => Sys2Proof.Machine.execProgramLoad r s
  | .ctxStart r => Sys2Proof.Machine.execCtxStart r s
  | .ctxStopAbort r => Sys2Proof.Machine.execCtxStopAbort r s
  | .ctxStopSave r => Sys2Proof.Machine.execCtxStopSave r s
  | .contextSaveEnd p => Sys2Proof.Machine.execContextSaveEnd p s
  | .proofTrigger r => Sys2Proof.Machine.execProofTrigger r s
  | .reset r => Sys2Proof.Machine.execReset r s
  | .resetDevice r => Sys2Proof.Machine.execResetDevice r s
  | .rdmaWrite m data => Sys2Proof.Machine.execRdmaWrite m data s
  | .rdmaRead m len => Sys2Proof.Machine.execRdmaRead m len s
  | .send port qp data ecn now => Sys2Proof.Machine.execSend port qp data ecn now s
  | .rdmaWriteAck r seq => Sys2Proof.Machine.execRdmaWriteAck r seq s
  | .congestionNotification port qp => Sys2Proof.Machine.execCongestionNotification port qp s
  | .rateRecovery port qp => Sys2Proof.Machine.execRateRecovery port qp s
  | .qpRetryExhausted port qp => Sys2Proof.Machine.execQpRetryExhausted port qp s
  | .recordWrite r => Sys2Proof.Machine.execRecordWrite r s
  | .arp port target sender => Sys2Proof.Machine.execArp port target sender s
  | .neighbourDiscovery port target sender => Sys2Proof.Machine.execNeighbourDiscovery port target sender s
  | .icmpEcho port v6 dest payload => Sys2Proof.Machine.execIcmpEcho port v6 dest payload s
  | .ethernetFrame port => Sys2Proof.Machine.execEthernetFrame port s
  | .ethLinkChange port up => Sys2Proof.Machine.execEthLinkChange port up s
  | .heartbeatCheck alive => Sys2Proof.Machine.execHeartbeatCheck alive s
  | .hbBeat dom firmware => Sys2Proof.Machine.execHbBeat dom firmware s
  | .recoveryDrainEnd => Sys2Proof.Machine.execRecoveryDrainEnd s
  | .domainResetDone => Sys2Proof.Machine.execDomainResetDone s
  | .clearSuspects => Sys2Proof.Machine.execClearSuspects s
  | .pwrDomain v => Sys2Proof.Machine.execPwrDomain v s
  | .powerDomainRaised dom => Sys2Proof.Machine.execPowerDomainRaised dom s
  | .powerCapCheck lastTick => Sys2Proof.Machine.execPowerCapCheck lastTick s
  | .droopResponse => Sys2Proof.Machine.execDroopResponse s
  | .dieTempSample die celsius => Sys2Proof.Machine.execDieTempSample die celsius s
  | .thermtripN src celsius => Sys2Proof.Machine.execThermtripN src celsius s
  | .powerGoodLoss ns => Sys2Proof.Machine.execPowerGoodLoss ns s
  | .coldResetN ns => Sys2Proof.Machine.execColdResetN ns s
  | .warmResetN ns => Sys2Proof.Machine.execWarmResetN ns s
  | .refclkLoss ns => Sys2Proof.Machine.execRefclkLoss ns s
  | .powerOn => Sys2Proof.Machine.execPowerOn s
  | .bootRom => Sys2Proof.Machine.execBootRom s
  | .configApply => Sys2Proof.Machine.execConfigApply s
  | .fabricTrainingPermitted => Sys2Proof.Machine.execFabricTrainingPermitted s
  | .qcpReady => Sys2Proof.Machine.execQcpReady s
  | .fwUpdate => Sys2Proof.Machine.execFwUpdate s
  | .svnCommit => Sys2Proof.Machine.execSvnCommit s
  | .debugUnlock => Sys2Proof.Machine.execDebugUnlock s
  | .attest => Sys2Proof.Machine.execAttest s
  | .memberWrap => Sys2Proof.Machine.execMemberWrap s
  | .cfgWrite => Sys2Proof.Machine.execCfgWrite s
  | .certRead => Sys2Proof.Machine.execCertRead s
  | .securityCommandEnd => Sys2Proof.Machine.execSecurityCommandEnd s
  | .arm => Sys2Proof.Machine.execArm s
  | .traceEnable => Sys2Proof.Machine.execTraceEnable s
  | .traceDrain => Sys2Proof.Machine.execTraceDrain s
  | .idcode => Sys2Proof.Machine.execIdcode s
  | .samplePreload preload => Sys2Proof.Machine.execSamplePreload preload s
  | .extest => Sys2Proof.Machine.execExtest s
  | .clamp => Sys2Proof.Machine.execClamp s
  | .highz => Sys2Proof.Machine.execHighz s
  | .bypass => Sys2Proof.Machine.execBypass s
  | .regacc dr => Sys2Proof.Machine.execRegacc dr s
  | .i3cPrivateWrite data => Sys2Proof.Machine.execI3cPrivateWrite data s
  | .i3cPrivateRead => Sys2Proof.Machine.execI3cPrivateRead s
  | .lateReport now => Sys2Proof.Machine.execLateReport now s
  | .idleStroke p stroke => Sys2Proof.Machine.execIdleStroke p stroke s
  | .imageCheckEnd => Sys2Proof.Machine.execImageCheckEnd s
  | .directoryCheckEnd => Sys2Proof.Machine.execDirectoryCheckEnd s
  | .resetTimeout => Sys2Proof.Machine.execResetTimeout s
  | .priorityFlowControl port prio pause => Sys2Proof.Machine.execPriorityFlowControl port prio pause s
  | .malformedQcpRequest src datagram => Sys2Proof.Machine.execMalformedQcpRequest src datagram s
  | .unsupportedOpcode port qp => Sys2Proof.Machine.execUnsupportedOpcode port qp s
  | .reservedOpcode c w => Sys2Proof.Machine.execReservedOpcode c w s

end Sys2Proof.Machine
end

