-- ==== Sys2Proof/Machine/Step.lean ====
section
/-! DEFINITION. The step: the oldest waiting command takes its effect; with none waiting the block idles
(notes/assumptions/32.md). -/
namespace Sys2Proof.Machine

def step (s : State) : Host.Outcome State Fault Refusal :=
  match s.pending with
  | [] => .next s
  | i :: rest => exec i { s with pending := rest }

/-- The state with a command put in front of those that wait. -/
def State.front (s : State) (i : Instr) : State := { s with pending := i :: s.pending }

/-- The state with the command that a table word spells put in front; unchanged where it spells none. -/
def State.withFetchWord (s : State) (nbits w : Nat) : State :=
  match Sys2Proof.decodeTableWord nbits w with
  | some i => s.front i
  | none => s

end Sys2Proof.Machine
end

