-- ==== Sys2Proof/WellFormed.lean ====
section
/-! DEFINITION. Which commands are well-formed: operands that a sender or the physical world can supply. A reserved or
wrong value that the manual answers (a Rsv field of an instruction, an ill-made request) is well-formed: its meaning is
that answer. Each check below refuses only shapes that no event has. -/
namespace Sys2Proof

/-- A list with one element for each of the eight partitions. -/
def eight {α : Type} (l : List α) : Bool := l.length == 8

/-- A report lists vectors and aborts for eight partitions (R31, R121). -/
def Report.wf (r : Report) : Bool := eight r.vf && eight r.va && eight r.abort

/-- A verdict lists what it decides for eight partitions (R32). -/
def VerdictMsg.wf (v : VerdictMsg) : Bool :=
  eight v.vf && eight v.va && eight v.decide && eight v.partStop && eight v.release

/-- Distinct symbols, each with a non-zero error (R286). -/
def symbolsWf : List SymbolError → Bool
  | [] => true
  | e :: es => e.value != 0 && es.all (fun f => f.degree != e.degree) && symbolsWf es

/-- A stroke is 8 header, 512 body and 24 check bytes (R353). -/
def strokeWf (b : List Byte) : Bool := b.length == 544

/-- A write names as many bytes as it brings. -/
def Access.wf (a : Access) : Bool := match a.data with
  | none => true
  | some d => d.length == a.len

/-- A request with a body of at most 1,024 bytes (R441). -/
def QcpReq.wf (r : QcpReq) : Bool := decide (r.body.length ≤ 1024)

/-- The byte of a request that says which of two rows it is: MODE of CTX_STOP, the domain kind of RESET (R444). -/
def QcpReq.selector (r : QcpReq) (i : Nat) : Byte := r.body.getD i 0

/-- What the home answers brings its payload whole (R314). -/
def FolioAnswer.wf : FolioAnswer → Bool
  | .payload _ size data => data.length == size
  | .done => true
  | .failed st => st != .ok

/-- Well-formed commands. -/
def Instr.wf : Instr → Bool
  | .tickReport _ r _ => Report.wf r
  | .verdict v _ => VerdictMsg.wf v
  | .windowAccess a => Access.wf a
  | .hbmRead _ _ err | .hbmWrite _ _ err | .patrolScrub _ _ err => symbolsWf err
  | .folioTransferEnd _ a => FolioAnswer.wf a
  | .strokeForward _ b | .idleStroke _ b => strokeWf b
  | .packetReceive _ l => l.all strokeWf && decide (1 ≤ l.length) && decide (l.length ≤ 8)
  | .errorTest _ l => l.length == 4
  | .identityStroke _ b => decide (64 ≤ b.length)
  | .hello r | .status r | .regRead r | .regWrite r | .qpConnect r | .qpDestroy r | .windowSet r | .ringSet r
  | .programLoad r | .ctxStart r | .proofTrigger r => QcpReq.wf r
  | .ctxStopAbort r => QcpReq.wf r && r.selector 1 != 1
  | .ctxStopSave r => QcpReq.wf r && r.selector 1 == 1
  | .reset r => QcpReq.wf r && r.selector 0 != 0
  | .resetDevice r => QcpReq.wf r && r.selector 0 == 0
  | .reservedOpcode _ w => !Machine.definedOpcode (w.toNat / 2 ^ 56)
  | _ => true

end Sys2Proof
end

