-- ==== Sys2Proof/Safety.lean ====
section
/-! DEFINITION. What counts as a safe state and a safe run, in the terms that the statements use: memories in canonical
form, a waiting queue of well-formed commands, and a step that neither faults nor refuses. -/
namespace Sys2Proof.Machine

/-- Every memory of the package is in canonical form. -/
def State.memOk (s : State) : Bool := s.mem.wf && s.nand.wf && s.bootFlash.wf

/-- Every waiting command is well-formed. -/
def State.queueOk (s : State) : Bool := s.pending.all Instr.wf

/-- A state that statements about runs start from. -/
def State.safe (s : State) : Bool := s.memOk && s.queueOk

/-- The step answers a next state. -/
def State.stepsOn (s : State) : Prop := ∃ t, step s = .next t

end Sys2Proof.Machine
end

