-- ==== Sys2Proof/Certificates/Slice0/Obligations.lean ====
section
/-! DEFINITION. The statements for the provers, and the vocabulary that they share (namespace `Sys2Proof.Claims`). -/
namespace Sys2Proof.Claims
open Sys2Proof.Machine

/-! ## Vocabulary: the Stylus -/

/-- A core that issues the word at its pc, inside its code segment. -/
def Fetches (s : State) (c : CoreId) : Prop :=
  s.issues c = true ∧ (s.core c).pc % 8 = 0 ∧ (s.core c).pc + 8 ≤ s.codeSize c

/-- The word is fetched and its guard holds: the instruction executes (R253). -/
def Executes (s : State) (c : CoreId) (pre : Pre) : Prop := Fetches s c ∧ (s.core c).guardHolds pre = true

/-- The next word. -/
def advance (x : Core) : Core := { x with pc := x.pc + 8 }

/-- The next state in which core c has taken f and gone to the next word, and nothing else has changed. -/
def regsTo (s : State) (c : CoreId) (f : Core → Core) : Host.Outcome State Fault Refusal :=
  .next (s.modCore c fun x => advance (f x))

/-- GUARD, GINV and SPAN of a word that is neither an engine command nor refused by R254. -/
def PlainPre (p : Pre) : Prop := p.span = false ∧ ¬ (p.ginv = true ∧ p.guard = 0)

/-- A format R word with CC and Rsv zero. -/
def PlainR (f : FmtR) : Prop := PlainPre f.pre ∧ f.cc = 0 ∧ f.rsv = 0
/-- A format I word with CC and Rsv zero. -/
def PlainI (f : FmtI) : Prop := PlainPre f.pre ∧ f.cc = 0 ∧ f.rsv = 0
/-- A format M word with Rsv zero. -/
def PlainM (f : FmtM) : Prop := PlainPre f.pre ∧ f.rsv = 0
/-- A format B word with Rsv zero. -/
def PlainB (f : FmtB) : Prop := PlainPre f.pre ∧ f.rsv = 0
/-- A format S word whose fields other than those named are zero. -/
def PlainS (f : FmtS) (rs pd q ctr tbl imm : Bool) : Prop :=
  PlainPre f.pre ∧ (rs = true ∨ f.rs = 0) ∧ (pd = true ∨ f.pd = 0) ∧ (q = true ∨ f.q = 0) ∧ (ctr = true ∨ f.ctr = 0)
    ∧ (tbl = true ∨ f.tbl = 0) ∧ (imm = true ∨ f.imm = 0)

/-- A five-bit field that names an a or td register (R252). -/
def NamesA (f : BitVec 5) : Prop := f.toNat < 16
/-- A five-bit field that names a p register (R252). -/
def NamesP (f : BitVec 5) : Prop := f.toNat < 8

/-- A three-register instruction that executes writes v of its two sources (s registers) to RD and goes on. -/
def rrr (mk : CoreId → FmtR → Instr) (v : Word → Word → Word) : Prop :=
  ∀ (c : CoreId) (f : FmtR) (s : State), Executes s c f.pre → PlainR f →
    exec (mk c f) s = regsTo s c fun x => x.setS f.rd.toNat (v (x.sreg f.ra.toNat) (x.sreg f.rb.toNat))

/-- An instruction on an s register and an immediate; `ok` is what the word's immediate must satisfy. -/
def rri (mk : CoreId → FmtI → Instr) (ok : Word32 → Prop) (v : Word → Word → Word) : Prop :=
  ∀ (c : CoreId) (f : FmtI) (s : State), Executes s c f.pre → PlainI f → ok f.imm →
    exec (mk c f) s = regsTo s c fun x => x.setS f.rd.toNat (v (x.sreg f.ra.toNat) (f.imm.signExtend 64))

/-- An instruction on two predicates. -/
def ppp (mk : CoreId → FmtR → Instr) (v : Bool → Bool → Bool) : Prop :=
  ∀ (c : CoreId) (f : FmtR) (s : State), Executes s c f.pre → PlainR f → NamesP f.rd → NamesP f.ra → NamesP f.rb →
    exec (mk c f) s = regsTo s c fun x => x.setPred f.rd.toNat (v (x.pred f.ra.toNat) (x.pred f.rb.toNat))

/-- A finite value times 2^k, a whole number where the exponent allows it. -/
def scaled (x : Fp) (k : Int) : Int := match x with | .fin n e => n * 2 ^ (e + k).toNat | _ => 0

/-- The integer of a shift count, RB[5:0] or IMM[5:0]. -/
def count (b : Word) : Nat := b.toNat % 2 ^ 6

end Sys2Proof.Claims

open Sys2Proof Sys2Proof.Machine Sys2Proof.Claims

/-! ## The block -/

/-- A step runs the command at the front of the queue on the queue's rest; with no command waiting the block idles (the
latter is the model's choice, notes/assumptions/32.md). -/
def Obligations.StepTakesFront : Prop :=
  (∀ (i : Instr) (s : State), step (s.front i) = exec i s) ∧ ∀ s : State, s.pending = [] → step s = .next s

/-- No well-formed command stops, whatever the state: it answers a next state. The commands that are not well-formed are those
whose operands have a shape that no event has, and those of strokes, lane counts, identity bodies, reports and verdicts
fault by name (the model's own shapes, WellFormed). -/
def Obligations.WellFormedNeverStops : Prop :=
  (∀ (i : Instr) (s : State), i.wf = true → ∃ t, exec i s = .next t) ∧
  (∀ (s : State) (p : PortId) (b : List Byte) (now : Nat) (l : List Nat),
    (b.length ≠ 544 → exec (.strokeForward p b) s = .fault (.illFormed "STROKE_FORWARD") ∧
      exec (.idleStroke p b) s = .fault (.illFormed "IDLE_STROKE") ∧
      exec (.packetReceive p [b]) s = .fault (.illFormed "PACKET_RECEIVE")) ∧
    (b.length < 64 → exec (.identityStroke p b) s = .fault (.illFormed "IDENTITY_STROKE")) ∧
    (l.length ≠ 4 → exec (.errorTest p l) s = .fault (.illFormed "ERROR_TEST")) ∧
    (∀ child r, Report.wf r = false → exec (.tickReport child r now) s = .fault (.illFormed "TICK_REPORT")) ∧
    (∀ v, VerdictMsg.wf v = false → exec (.verdict v now) s = .fault (.illFormed "VERDICT")))

/-- Every step keeps the canonical form of the three memories, and takes one command from the queue and nothing else (the
model's own invariant, notes/assumptions/1.md). -/
def Obligations.EveryStepKeeps : Prop :=
  ∀ s t : State, step s = .next t → s.memOk = true → t.memOk = true ∧ t.pending = s.pending.tail

/-! ## Scalar instructions (R253, R258 to R260) -/

/-- R258: the three-register integer instructions. Each writes RD alone, advances the pc and changes nothing else. -/
def Sys2Proof.Claims.ThreeRegisterResults : Prop :=
  rrr .add (fun a b => BitVec.ofNat 64 (a.toNat + b.toNat)) ∧
  rrr .sub (fun a b => BitVec.ofInt 64 (a.toInt - b.toInt)) ∧
  rrr .mul (fun a b => BitVec.ofInt 64 (a.toInt * b.toInt)) ∧
  rrr .mulhu (fun a b => (a.setWidth 128 * b.setWidth 128).extractLsb' 64 64) ∧
  rrr .mulh (fun a b => (a.signExtend 128 * b.signExtend 128).extractLsb' 64 64) ∧
  rrr .and (fun a b => ~~~(~~~a ||| ~~~b)) ∧
  rrr .or (fun a b => ~~~(~~~a &&& ~~~b)) ∧
  rrr .xor (fun a b => (a &&& ~~~b) ||| (~~~a &&& b)) ∧
  rrr .shl (fun a b => BitVec.ofNat 64 (a.toNat * 2 ^ count b)) ∧
  rrr .shr (fun a b => BitVec.ofNat 64 (a.toNat / 2 ^ count b)) ∧
  rrr .sra (fun a b => BitVec.ofInt 64 (a.toInt / 2 ^ count b)) ∧
  rrr .min (fun a b => BitVec.ofInt 64 (min a.toInt b.toInt)) ∧
  rrr .max (fun a b => BitVec.ofInt 64 (max a.toInt b.toInt)) ∧
  rrr .minu (fun a b => BitVec.ofNat 64 (min a.toNat b.toNat)) ∧
  rrr .maxu (fun a b => BitVec.ofNat 64 (max a.toNat b.toNat))

/-- R258, R259: division rounds toward zero, a remainder has the sign of RA; DIV of −2^63 by −1 gives −2^63 and REM gives 0;
a divisor of zero gives all ones. -/
def Sys2Proof.Claims.DivisionResults : Prop :=
  rrr .divu (fun a b => if b = 0 then BitVec.allOnes 64 else a.udiv b) ∧
  rrr .remu (fun a b => if b = 0 then BitVec.allOnes 64 else a.umod b) ∧
  rrr .div (fun a b => if b = 0 then BitVec.allOnes 64 else if a = BitVec.intMin 64 ∧ b = BitVec.allOnes 64
    then BitVec.intMin 64 else BitVec.ofInt 64 (a.toInt.tdiv b.toInt)) ∧
  rrr .rem (fun a b => if b = 0 then BitVec.allOnes 64 else if a = BitVec.intMin 64 ∧ b = BitVec.allOnes 64
    then 0 else BitVec.ofInt 64 (a.toInt.tmod b.toInt))

/-- R258, R259: the sums with an immediate, and those of the a registers. -/
def Sys2Proof.Claims.SumResults : Prop :=
  rri .addi (fun _ => True) (fun a b => BitVec.ofInt 64 (a.toInt + b.toInt)) ∧
  (∀ (c : CoreId) (f : FmtR) (s : State), Executes s c f.pre → PlainR f → NamesA f.rd → NamesA f.ra →
    exec (.addA c f) s = regsTo s c (fun x =>
      x.setA f.rd.toNat (BitVec.ofNat 64 ((x.areg f.ra.toNat).toNat + (x.sreg f.rb.toNat).toNat)))) ∧
  (∀ (c : CoreId) (f : FmtI) (s : State), Executes s c f.pre → PlainI f → NamesA f.rd → NamesA f.ra →
    exec (.addiA c f) s = regsTo s c (fun x =>
      x.setA f.rd.toNat (BitVec.ofInt 64 ((x.areg f.ra.toNat).toInt + f.imm.toInt))))

/-- R258, R259: the integer arithmetic, modulo 2^64 without fault or flag, with the division corners. -/
def Obligations.ArithmeticResults : Prop := ThreeRegisterResults ∧ DivisionResults ∧ SumResults

/-- R254, R258: NOP, the logic and shifts with an immediate, MOVI and MOVHI. IMM[31:6] of a shift is Rsv: a word in which
it is not zero is a Stylus fault with DECODE. -/
def Obligations.ImmediateResults : Prop :=
  rri .andi (fun _ => True) (fun a b => ~~~(~~~a ||| ~~~b)) ∧
  rri .ori (fun _ => True) (fun a b => ~~~(~~~a &&& ~~~b)) ∧
  rri .xori (fun _ => True) (fun a b => (a &&& ~~~b) ||| (~~~a &&& b)) ∧
  rri .shli (fun m => m.toNat < 64) (fun a b => BitVec.ofNat 64 (a.toNat * 2 ^ count b)) ∧
  rri .shri (fun m => m.toNat < 64) (fun a b => BitVec.ofNat 64 (a.toNat / 2 ^ count b)) ∧
  rri .srai (fun m => m.toNat < 64) (fun a b => BitVec.ofInt 64 (a.toInt / 2 ^ count b)) ∧
  (∀ (c : CoreId) (f : FmtI) (s : State), Executes s c f.pre → PlainI f → f.ra = 0 →
    exec (.movi c f) s = regsTo s c (fun x => x.setS f.rd.toNat (BitVec.ofInt 64 f.imm.toInt)) ∧
    exec (.movhi c f) s = regsTo s c (fun x =>
      x.setS f.rd.toNat (BitVec.ofNat 64 (f.imm.toNat * 2 ^ 32 + (x.sreg f.rd.toNat).toNat % 2 ^ 32)))) ∧
  (∀ (c : CoreId) (f : FmtR) (s : State), Executes s c f.pre → PlainR f → f.rd = 0 → f.ra = 0 → f.rb = 0 →
    exec (.nop c f) s = regsTo s c id) ∧
  (∀ (c : CoreId) (f : FmtI) (s : State), Fetches s c → 64 ≤ f.imm.toNat → ∀ mk ∈ [Instr.shli, .shri, .srai],
    exec (mk c f) s = .next ((s.stylusFault c .decode).tryReport))

/-- R252, R258: moves between the s and a files. -/
def Sys2Proof.Claims.AddressRegisterResults : Prop :=
  (∀ (c : CoreId) (f : FmtR) (s : State), Executes s c f.pre → PlainR f →
    (NamesA f.rd → f.rb = 0 → exec (.movA c f) s = regsTo s c (fun x => x.setA f.rd.toNat (x.sreg f.ra.toNat))) ∧
    (NamesA f.ra → f.rb = 0 → exec (.movS c f) s = regsTo s c (fun x => x.setS f.rd.toNat (x.areg f.ra.toNat))))

/-- R252, R258, R260: predicate logic and the comparisons, with each comparison code; a reserved code is a
Stylus fault with DECODE. -/
def Obligations.PredicateResults : Prop :=
  ppp .pAnd (fun a b => a && b) ∧ ppp .pOr (fun a b => a || b) ∧ ppp .pXor (fun a b => a != b) ∧
  (∀ (c : CoreId) (f : FmtR) (s : State), Executes s c f.pre → PlainR f → NamesP f.rd → NamesP f.ra → f.rb = 0 →
    exec (.pNot c f) s = regsTo s c (fun x => x.setPred f.rd.toNat !(x.pred f.ra.toNat))) ∧
  (∀ (c : CoreId) (f : FmtR) (s : State) (p : Word → Word → Bool),
    (f.cc = 0 ∧ p = fun a b => decide (a.toNat = b.toNat)) ∨ (f.cc = 1 ∧ p = fun a b => decide (a.toNat ≠ b.toNat)) ∨
    (f.cc = 2 ∧ p = fun a b => decide (a.toInt < b.toInt)) ∨ (f.cc = 3 ∧ p = fun a b => decide (a.toNat < b.toNat)) ∨
    (f.cc = 4 ∧ p = fun a b => decide (b.toInt ≤ a.toInt)) ∨ (f.cc = 5 ∧ p = fun a b => decide (b.toNat ≤ a.toNat)) →
    Executes s c f.pre → PlainPre f.pre → f.rsv = 0 → NamesP f.rd →
    exec (.cmp c f) s = regsTo s c (fun x => x.setPred f.rd.toNat (p (x.sreg f.ra.toNat) (x.sreg f.rb.toNat))) ∧
    (∀ g : FmtI, g.pre = f.pre → g.cc = f.cc → g.rsv = 0 → g.rd = f.rd →
      exec (.cmpi c g) s = regsTo s c (fun x =>
        x.setPred g.rd.toNat (p (x.sreg g.ra.toNat) (g.imm.signExtend 64))))) ∧
  (∀ (c : CoreId) (f : FmtR) (g : FmtI) (s : State), Fetches s c → 6 ≤ f.cc.toNat → 6 ≤ g.cc.toNat →
    exec (.cmp c f) s = .next ((s.stylusFault c .decode).tryReport) ∧
    exec (.cmpi c g) s = .next ((s.stylusFault c .decode).tryReport))

/-- R93 to R96: number formats. A code that is no NaN encodes back to itself in either rounding, unclamped; NaN encodes to the
canonical NaN of R94, which decodes to NaN. A finite value that does not overflow converts, under round to nearest, to the
format's nearest finite value (at a scale at which both are whole numbers), and to an even code where another is as near. -/
def Obligations.NumberConversions : Prop :=
  ∀ f ∈ [fp32, bf16, e4m3, e5m2, e40f],
    (∀ code < 2 ^ f.width, f.decode code ≠ .nan → ∀ r, f.encode r (f.decode code) = { code := code, clamped := false }) ∧
    (∀ r, f.encode r .nan = { code := f.nanCode, clamped := false }) ∧ f.decode f.nanCode = .nan ∧
    ∀ (n e k : Int) (c code : Nat), n ≠ 0 → f.encode .near (.fin n e) = { code := c, clamped := false } →
      code < 2 ^ f.width → (f.decode code).isFinite = true → 0 ≤ e + k → 0 ≤ f.qmin + k →
      let v := scaled (.fin n e) k
      (v - scaled (f.decode c) k).natAbs ≤ (v - scaled (f.decode code) k).natAbs ∧
      (code ≠ c → (v - scaled (f.decode c) k).natAbs = (v - scaled (f.decode code) k).natAbs → c % 2 = 0)

/-- R57: s0 reads 0 and p0 reads 1, and writes to them are ignored; a write of any other register is read back, and changes
no other register. -/
def Obligations.HardwiredRegisters : Prop :=
  ∀ (x : Core) (v : Word) (b : Bool),
    (x.sreg 0 = 0 ∧ x.pred 0 = true ∧ x.setS 0 v = x ∧ x.setPred 0 b = x) ∧
    (∀ i < 32, i ≠ 0 → (x.setS i v).sreg i = v ∧ ∀ j < 32, j ≠ i → (x.setS i v).sreg j = x.sreg j) ∧
    (∀ i < 16, (x.setA i v).areg i = v ∧ ∀ j < 16, j ≠ i → (x.setA i v).areg j = x.areg j) ∧
    (∀ i < 8, i ≠ 0 → (x.setPred i b).pred i = b ∧ ∀ j < 8, j ≠ i → (x.setPred i b).pred j = x.pred j) ∧
    ∀ d : Vector Word 16, ∀ i < 16, (x.setTd i d).tdreg i = d ∧ ∀ j < 16, j ≠ i → (x.setTd i d).tdreg j = x.tdreg j

/-- R258: TD.WR and TD.WRP replace one word of a td register, by RA or by the paired word of RA[31:0]. -/
def Sys2Proof.Claims.DescriptorWordWrites : Prop :=
  ∀ (c : CoreId) (f : FmtI) (s : State), Executes s c f.pre → PlainI f → NamesA f.rd → f.imm.toNat < 16 →
    (∃ x : Core, exec (.tdWr c f) s = regsTo s c (fun _ => x) ∧
      x = { s.core c with td := x.td } ∧
      ∀ (i : Fin 16) (k : Fin 16), (x.td[i])[k] =
        if i.val = f.rd.toNat ∧ k.val = f.imm.toNat then (s.core c).sreg f.ra.toNat else ((s.core c).td[i])[k]) ∧
    (∃ x : Core, exec (.tdWrp c f) s = regsTo s c (fun _ => x) ∧
      x = { s.core c with td := x.td } ∧
      ∀ (i : Fin 16) (k : Fin 16), (x.td[i])[k] =
        if i.val = f.rd.toNat ∧ k.val = f.imm.toNat
        then (~~~((s.core c).sreg f.ra.toNat).setWidth 32) ++ (((s.core c).sreg f.ra.toNat).setWidth 32 : BitVec 32)
        else ((s.core c).td[i])[k])

/-- R252, R258: moves between the register files, and writes of one word of a td register. -/
def Obligations.AddressAndDescriptorWrites : Prop := AddressRegisterResults ∧ DescriptorWordWrites

/-! ## Loads and stores (R261, R262) -/

namespace Sys2Proof.Claims

/-- Core d's windows can be reached: a logical core that neither a recovery fences nor a power domain leaves off. -/
def Reachable (s : State) (d : Nat) : Prop := d < s.logicalCores ∧ s.coreFenced d = false

/-- n bytes at a local offset that a load finds served: HBM whose stacks serve requests without a recorded error, outside the
tables that the V12 keeps to itself; a scratchpad window; or an accumulator window none of whose banks a command holds. -/
def Loadable (s : State) (off n : Nat) : Prop :=
  (off + n ≤ hbmEnd ∧ s.hbmGuarded off n = false ∧ s.hbmRefuses off n = none ∧ hasDamage s off n = false) ∨
  (∃ d o, Reachable s d ∧ off = spmOf d + o ∧ o + n ≤ spmSize) ∨
  (∃ d o, Reachable s d ∧ off = accOf d + o ∧ o + n ≤ accSize ∧ (s.cores.toList.getD d {}).banks &&& bankMask o n = 0)

/-- [off, off + n) of HBM lies outside the local frames, where a write also sets DIRTY (R311). -/
def OffFrames (s : State) (off n : Nat) : Prop :=
  s.folio.t1Count = 0 ∨ off + n ≤ s.folio.localOff 0 ∨ s.folio.localOff 0 + 65536 * s.folio.t1Count ≤ off

/-- n bytes that a store finds served: as a load, outside what the V12 protects in a scratchpad window; in HBM, outside the
local frames. -/
def Storable (s : State) (off n : Nat) : Prop :=
  (off + n ≤ hbmEnd ∧ s.hbmGuarded off n = false ∧ s.hbmRefuses off n = none ∧ hasDamage s off n = false ∧
    OffFrames s off n) ∨
  (∃ d o, Reachable s d ∧ off = spmOf d + o ∧ o + n ≤ spmSize ∧ s.spmGuarded d o n = false) ∨
  (∃ d o, Reachable s d ∧ off = accOf d + o ∧ o + n ≤ accSize ∧ (s.cores.toList.getD d {}).banks &&& bankMask o n = 0)

/-- AB + OFF. -/
def target (x : Core) (f : FmtM) : Word := x.areg f.ab.toNat + f.off.signExtend 64

/-- The access lies on the core's own chip, at local offset off, aligned to m bytes. -/
def OwnAt (s : State) (c : CoreId) (f : FmtM) (m off : Nat) : Prop :=
  (target (s.core c) f).toNat = s.chip * 2 ^ 48 + off ∧ off < 2 ^ 48 ∧ off % m = 0

/-- Byte k of a word. -/
def byteOf (w : Word) (k : Nat) : Byte := w.extractLsb' (8 * k) 8

/-- The next state of a store by core c: the pc advances, byte k of the n bytes at off becomes `v k`, and every other byte of
memory, and everything else, is as before. -/
def Stored (s : State) (c : CoreId) (off n : Nat) (v : Nat → Byte) (o : Host.Outcome State Fault Refusal) : Prop :=
  ∃ t : State, o = .next t ∧ t = { s.modCore c advance with mem := t.mem } ∧
    (∀ k < n, t.mem.byte (off + k) = v k) ∧ ∀ a, a < off ∨ off + n ≤ a → t.mem.byte a = s.mem.byte a

end Sys2Proof.Claims

/-- R258, R261: LD and LDS read SIZE bytes, zero-extended or sign-extended, into RD; nothing else changes but the pc. -/
def Sys2Proof.Claims.LoadResults : Prop :=
  ∀ (c : CoreId) (f : FmtM) (s : State) (n off : Nat), n = 2 ^ f.size.toNat → Executes s c f.pre → PlainM f →
    OwnAt s c f n off → Loadable s off n →
    (∃ v : Word, exec (.ld c f) s = regsTo s c (fun x => x.setS f.rd.toNat v) ∧
      ∀ k < 8, byteOf v k = if k < n then s.mem.byte (off + k) else 0) ∧
    (∃ v : Word, exec (.lds c f) s = regsTo s c (fun x => x.setS f.rd.toNat v) ∧
      ∀ k < 8, byteOf v k = if k < n then s.mem.byte (off + k)
        else if (s.mem.byte (off + n - 1)).msb then 0xFF else 0)

/-- R10, R258, R261: LD.P gives the value of a valid paired word, and a Stylus fault with INTEGRITY otherwise. -/
def Sys2Proof.Claims.PairedLoadResults : Prop :=
  ∀ (c : CoreId) (f : FmtM) (s : State) (off : Nat) (lo hi : Word32), Executes s c f.pre → PlainM f → f.size = 3 →
    OwnAt s c f 8 off → Loadable s off 8 → (∀ k < 8, byteOf (hi ++ lo) k = s.mem.byte (off + k)) →
    (hi = ~~~lo → exec (.ldP c f) s = regsTo s c (fun x => x.setS f.rd.toNat (lo.setWidth 64))) ∧
    (hi ≠ ~~~lo → exec (.ldP c f) s = .next ((s.stylusFault c .integrity).tryReport))

/-- R10, R258, R261: LD, LDS and LD.P. -/
def Obligations.Loads : Prop := LoadResults ∧ PairedLoadResults

/-- R262: TD.LD copies 128 bytes at a 64-byte-aligned address into a td register, word i from bytes 8i to 8i + 7. -/
def Sys2Proof.Claims.DescriptorLoadResults : Prop :=
  ∀ (c : CoreId) (f : FmtM) (s : State) (off : Nat), Executes s c f.pre → PlainM f → f.size = 3 → NamesA f.rd →
    OwnAt s c f 64 off → Loadable s off 128 →
    ∃ v : Vector Word 16, exec (.tdLd c f) s = regsTo s c (fun x => x.setTd f.rd.toNat v) ∧
      ∀ (i : Fin 16), ∀ k < 8, byteOf v[i] k = s.mem.byte (off + 8 * i.val + k)

/-- R10, R261, R262: LD, LDS and LD.P of 8 bytes may lie in register space and read the register that lies there; one at a
reserved offset, a narrower one, TD.LD, and every store to register space are Stylus faults with ALLOC_FAULT. -/
def Sys2Proof.Claims.RegisterLoads : Prop :=
  ∀ (c : CoreId) (f : FmtM) (s : State) (off : Nat), Executes s c f.pre → PlainM f → regBase ≤ off → off < regEnd →
    let faults (i : Instr) : Prop := exec i s = .next ((s.stylusFault c .allocFault).tryReport)
    (f.size = 3 → OwnAt s c f 8 off →
      (∀ w, s.readReg off = some w →
        exec (.ld c f) s = regsTo s c (fun x => x.setS f.rd.toNat w) ∧
        exec (.lds c f) s = regsTo s c (fun x => x.setS f.rd.toNat w) ∧
        (pairOk w = true → exec (.ldP c f) s = regsTo s c (fun x => x.setS f.rd.toNat ((w.setWidth 32).setWidth 64))) ∧
        (pairOk w = false → exec (.ldP c f) s = .next ((s.stylusFault c .integrity).tryReport))) ∧
      (s.readReg off = none → faults (.ld c f) ∧ faults (.lds c f) ∧ faults (.ldP c f)) ∧ faults (.stP c f)) ∧
    (∀ n, n = 2 ^ f.size.toNat → OwnAt s c f n off → (n ≠ 8 → faults (.ld c f) ∧ faults (.lds c f)) ∧ faults (.st c f)) ∧
    (f.size = 3 → NamesA f.rd → OwnAt s c f 64 off → faults (.tdLd c f) ∧ faults (.tdSt c f))

/-- R10, R261, R262: TD.LD, and accesses to register space. -/
def Obligations.DescriptorAndRegisterLoads : Prop := DescriptorLoadResults ∧ RegisterLoads

/-- R10, R258, R261, R262: ST, ST.P and TD.ST write the named bytes and no other byte of memory. -/
def Sys2Proof.Claims.StoreResults : Prop :=
  ∀ (c : CoreId) (f : FmtM) (s : State) (off : Nat), Executes s c f.pre → PlainM f → s.mem.wf = true →
    (∀ n, n = 2 ^ f.size.toNat → OwnAt s c f n off → Storable s off n →
      Stored s c off n (byteOf ((s.core c).sreg f.rd.toNat)) (exec (.st c f) s)) ∧
    (f.size = 3 → OwnAt s c f 8 off → Storable s off 8 →
      Stored s c off 8 (byteOf ((~~~((s.core c).sreg f.rd.toNat).setWidth 32 : BitVec 32) ++
        (((s.core c).sreg f.rd.toNat).setWidth 32 : BitVec 32))) (exec (.stP c f) s)) ∧
    (f.size = 3 → NamesA f.rd → OwnAt s c f 64 off → Storable s off 128 →
      Stored s c off 128 (fun k => byteOf (((s.core c).tdreg f.rd.toNat).toList.getD (k / 8) 0) (k % 8)) (exec (.tdSt c f) s))

/-- R18, R71, R261, R262: an access to another chip, or not aligned (to its size; TD.LD and TD.ST to 64 bytes), is a Stylus
fault with ALLOC_FAULT, and nothing is read or written. -/
def Sys2Proof.Claims.MisalignedAccesses : Prop :=
  ∀ (c : CoreId) (f : FmtM) (s : State), Executes s c f.pre → PlainM f →
    let bad (m : Nat) : Prop := (target (s.core c) f).toNat / 2 ^ 48 ≠ s.chip ∨ (target (s.core c) f).toNat % m ≠ 0
    let faults (i : Instr) : Prop := exec i s = .next ((s.stylusFault c .allocFault).tryReport)
    (bad (2 ^ f.size.toNat) → faults (.ld c f) ∧ faults (.lds c f) ∧ faults (.st c f)) ∧
    (f.size = 3 → bad 8 → faults (.ldP c f) ∧ faults (.stP c f)) ∧
    (f.size = 3 → NamesA f.rd → bad 64 → faults (.tdLd c f) ∧ faults (.tdSt c f))

/-- R10, R18, R71, R258, R261, R262: stores and their bytes; misaligned accesses and those to another chip fault. -/
def Obligations.Stores : Prop := StoreResults ∧ MisalignedAccesses

/-! ## Control flow (R263) -/

/-- R258, R263: BR and a LOOP whose counter does not reach zero branch to their own address + 8 × OFF, JR to its register;
LOOP writes its counter in either case. The targets here lie inside the code segment. -/
def Obligations.BranchResults : Prop :=
  ∀ (c : CoreId) (f : FmtB) (s : State), Executes s c f.pre → PlainB f →
    (∀ t : Nat, f.ra = 0 → (t : Int) = (s.core c).pc + 8 * f.off.toInt →
      exec (.br c f) s = .next (s.modCore c fun x => { x with pc := t })) ∧
    (f.ra ≠ 0 → (s.core c).sreg f.ra.toNat = 1 →
      exec (.loop c f) s = regsTo s c (fun x => x.setS f.ra.toNat 0)) ∧
    (∀ t : Nat, f.ra ≠ 0 → (s.core c).sreg f.ra.toNat ≠ 1 → (t : Int) = (s.core c).pc + 8 * f.off.toInt →
      exec (.loop c f) s = .next (s.modCore c fun x =>
        { x.setS f.ra.toNat (x.sreg f.ra.toNat - 1) with pc := t })) ∧
    (f.off = 0 → exec (.jr c f) s = .next (s.modCore c fun x => { x with pc := (x.sreg f.ra.toNat).toNat }))

/-! ## The guard and the word (R253, R254, R256) -/

namespace Sys2Proof.Claims

/-- Core, common fields and whether the word alone is legal (R252 to R254, R258 to R263, R277), for the scalar, memory,
control-flow and synchronisation instructions. -/
def word : Instr → Option (CoreId × Pre × Bool)
  | .nop c f => some (c, f.pre, formR unused unused unused f)
  | .add c f | .sub c f | .mul c f | .mulhu c f | .mulh c f | .divu c f | .div c f | .remu c f | .rem c f | .and c f
  | .or c f | .xor c f | .shl c f | .shr c f | .sra c f | .min c f | .max c f | .minu c f | .maxu c f =>
    some (c, f.pre, formR asS asS asS f)
  | .addi c f | .andi c f | .ori c f | .xori c f => some (c, f.pre, formI asS asS f)
  | .shli c f | .shri c f | .srai c f => some (c, f.pre, formI asS asS f && decide (f.imm.toNat < 64))
  | .movi c f | .movhi c f => some (c, f.pre, formI asS unused f)
  | .movA c f => some (c, f.pre, formR asA asS unused f)
  | .movS c f => some (c, f.pre, formR asS asA unused f)
  | .addA c f => some (c, f.pre, formR asA asA asS f)
  | .addiA c f => some (c, f.pre, formI asA asA f)
  | .cmp c f => some (c, f.pre, plainPre f.pre && asP f.rd && unused f.rsv && decide (f.cc.toNat < 6))
  | .cmpi c f => some (c, f.pre, plainPre f.pre && asP f.rd && unused f.rsv && decide (f.cc.toNat < 6))
  | .pAnd c f | .pOr c f | .pXor c f => some (c, f.pre, formR asP asP asP f)
  | .pNot c f => some (c, f.pre, formR asP asP unused f)
  | .ld c f | .lds c f | .st c f => some (c, f.pre, formM asS f)
  | .ldP c f | .stP c f => some (c, f.pre, formM asS f && f.size == 3)
  | .tdLd c f | .tdSt c f => some (c, f.pre, formM asA f && f.size == 3)
  | .tdWr c f | .tdWrp c f => some (c, f.pre, formI asA asS f && decide (f.imm.toNat < 16))
  | .br c f => some (c, f.pre, formB unused f)
  | .loop c f => some (c, f.pre, formB asS f && f.ra != 0)
  | .jr c f => some (c, f.pre, formB asS f && unused f.off)
  | .cmdWait c f => some (c, f.pre, formS true true true false false false f && f.q != 0)
  | .cmdSeq c f => some (c, f.pre, formS true false true false false false f && f.q != 0)
  | .tokWait c f | .tokSet c f => some (c, f.pre, formS true false false true false true f)
  | .fenceL c f | .fenceD c f | .fenceG c f => some (c, f.pre, formS false false false false false false f)
  | .tblSwap c f => some (c, f.pre, formS false false false false true false f && decide (f.tbl.toNat < 3))
  | _ => none

/-- The engine commands of format C. -/
def engineWord : Instr → Option (CoreId × EngOp × FmtC)
  | .burinMm c f => some (c, .burinMm, f) | .conv3 c f => some (c, .conv3, f)
  | .hatchRun c f => some (c, .hatchRun, f) | .stencilRun c f => some (c, .stencilRun, f)
  | .attn c f => some (c, .attn, f) | .strmCopy c f => some (c, .strmCopy, f)
  | .strmFlash c f => some (c, .strmFlash, f) | .strmFadd c f => some (c, .strmFadd, f)
  | .folioPromote c f => some (c, .folioPromote, f) | .folioEvict c f => some (c, .folioEvict, f)
  | .folioFlush c f => some (c, .folioFlush, f) | .etchBuild c f => some (c, .etchBuild, f)
  | .xhStep c f => some (c, .xhStep, f) | .xhTree c f => some (c, .xhTree, f)
  | .xhStepArr c f => some (c, .xhStepArr, f) | .xhTreeArr c f => some (c, .xhTreeArr, f)
  | .hostPost c f => some (c, .hostPost, f)
  | _ => none

/-- A Stylus instruction whose command carries no time: its core, and whether its word alone is legal (R252 to R256). -/
def untimed : Instr → Option (CoreId × Bool)
  | .kvPage c f => some (c, formK f)
  | .reservedOpcode c w => if definedOpcode (w.toNat / 2 ^ 56) then none else some (c, false)
  | i => match word i, engineWord i with
    | some (c, _, b), _ => some (c, b)
    | none, some (c, op, f) => some (c, formC op f)
    | none, none => none

/-- TICK.WAIT and PROOF.MARK, whose commands carry the group time: core, time, and whether the word alone is legal (R253,
R277, R279). -/
def timed : Instr → Option (CoreId × Nat × Bool)
  | .tickWait c f now =>
    some (c, now, formS false false false false false false f && f.pre.guard == 0 && !f.pre.ginv)
  | .proofMark c f now => some (c, now, formS true false false false false true f && decide (f.imm.toNat < 65536))
  | _ => none

/-- The next instruction lies outside the code segment, or at an address that is no multiple of 8. -/
def Outside (s : State) (c : CoreId) : Prop :=
  s.issues c = true ∧ ((s.core c).pc % 8 ≠ 0 ∨ s.codeSize c < (s.core c).pc + 8)

/-- What a Stylus fault with a status leaves of the core (R70 to R72): the core issues nothing more in the frame, its error
flag is set, and the fault is recorded unless the context has met one before. -/
def StylusFaulted (s t : State) (c : CoreId) (st : Status) : Prop :=
  (t.core c).stopped = true ∧ (t.core c).err = true ∧
  (t.core c).fault = some ((s.core c).fault.getD ⟨st, 0, 0, s.tick.number, (s.core c).pc⟩) ∧
  (t.core c).s = (s.core c).s ∧ (t.core c).a = (s.core c).a ∧ (t.core c).p = (s.core c).p ∧ (t.core c).td = (s.core c).td ∧
  (t.core c).pc = (s.core c).pc

end Sys2Proof.Claims

/-- R253: a legal scalar, memory, control-flow or synchronisation word whose guard fails has no effect but the pc's
advance. -/
def Obligations.GuardedOffHasNoEffect : Prop :=
  ∀ (i : Instr) (c : CoreId) (pre : Pre) (s : State), word i = some (c, pre, true) → Fetches s c →
    (s.core c).guardHolds pre = false → exec i s = .next (s.modCore c advance)

/-- R71, R252 to R254, R256, R263: for every Stylus instruction, a fetch outside the code segment, or at an address that is no
multiple of 8, is a Stylus fault with ALLOC_FAULT, whatever the word; and a word that breaks its format, or whose opcode no
table lists, is a Stylus fault with DECODE, whatever its guard. -/
def Sys2Proof.Claims.WordsFault : Prop :=
  (∀ (i : Instr) (c : CoreId) (b : Bool) (s : State), untimed i = some (c, b) →
    (Outside s c → exec i s = .next ((s.stylusFault c .allocFault).tryReport)) ∧
    (b = false → Fetches s c → exec i s = .next ((s.stylusFault c .decode).tryReport))) ∧
  (∀ (i : Instr) (c : CoreId) (now : Nat) (b : Bool) (s : State), timed i = some (c, now, b) →
    (Outside s c → exec i s = .next (((s.atTime now).stylusFault c .allocFault).tryReportNow)) ∧
    (b = false → Fetches s c → exec i s = .next (((s.atTime now).stylusFault c .decode).tryReportNow)))

/-- R70 to R72: what a Stylus fault leaves of a core that runs; and a reserved opcode completes so. -/
def Sys2Proof.Claims.FaultsAreRecorded : Prop :=
  (∀ (c : CoreId) (s : State) (st : Status), (s.core c).running = true →
    StylusFaulted s ((s.stylusFault c st).tryReport) c st ∧ StylusFaulted s ((s.stylusFault c st).tryReportNow) c st) ∧
  (∀ (c : CoreId) (w : Word) (s : State), definedOpcode (w.toNat / 2 ^ 56) = false → Fetches s c →
    ∃ t, exec (.reservedOpcode c w) s = .next t ∧ StylusFaulted s t c .decode)

/-- R250, R251, R255: the words of the Stylus. Every instruction of the Stylus but RESERVED.OPCODE of a defined opcode has a
word, and decoding that word gives the instruction back (its core and time are the command's own); every word decodes, and
encodes back to itself. -/
def Sys2Proof.Claims.WordsRoundTrip : Prop :=
  (∀ (i : Instr), (untimed i).isSome = true ∨ (timed i).isSome = true → ∃ w, stylusEncode i = some w) ∧
  (∀ (i : Instr) (w : Word), i.wf = true → stylusEncode i = some w → ∃ c now, stylusDecode c now w = i) ∧
  ∀ (c : CoreId) (now : Nat) (w : Word), stylusEncode (stylusDecode c now w) = some w

/-- R70 to R72, R250 to R256, R263: fetches outside the code segment and illegal words fault; words and instructions
correspond. -/
def Obligations.FetchAndDecodeFaults : Prop := WordsFault ∧ FaultsAreRecorded ∧ WordsRoundTrip

/-! ## Engine commands: issue (R65 to R70, R253, R265, R266) -/

namespace Sys2Proof.Claims

/-- The command's own table of checks at issue, in its chapter: R136, R230, R169, R235, R206, R274, R313, R343, R384,
R456. -/
def checks (c : CoreId) : EngOp → QCmd → Eng QCmd
  | .burinMm => checkBurinMm c | .conv3 => checkConv3 c | .hatchRun => checkHatch c | .stencilRun => checkStencil c
  | .attn => checkAttn c | .strmCopy | .strmFlash | .strmFadd => checkStream c
  | .folioPromote | .folioEvict | .folioFlush => checkFolio c | .etchBuild => checkEtchBuild c
  | .xhStep | .xhTree | .xhStepArr | .xhTreeArr => checkXh c | .hostPost => checkPost c | .kvPage => pure

/-- The command block lies at local offset o, aligned to 64 bytes and wholly in the core's own scratchpad window (R265). -/
def BlockAt (s : State) (c : CoreId) (op : EngOp) (f : FmtC) (o : Nat) : Prop :=
  ((s.core c).areg f.ab.toNat).toNat = s.chip * 2 ^ 48 + o ∧ o < 2 ^ 48 ∧ o % 64 = 0 ∧ spmOf c.val ≤ o ∧
    o + op.blockSize ≤ spmOf c.val + spmSize

/-- A command as it stands before its checks: its number in its queue (ATTN's two), the copies of its block and of the
descriptors that its TDEN names, its token counter, SPAN, and the table banks of its frame (R67, R68, R194). -/
def issued (s : State) (c : CoreId) (op : EngOp) (f : FmtC) (o : Nat) : QCmd :=
  let x := s.core c
  let k : QCmd := { op := op, seq := (x.queue op.queue).next, seqHq := x.hq.next, span := f.pre.span,
                    block := s.peek o op.blockSize, tables := x.frameActive }
  { k with
    ctr := k.counter
    descs := (List.range 5).map fun i => if f.tden.getLsbD i then some (x.tdBytes (FmtC.t f i).toNat) else none }

/-- What an issued command leaves: its queue holds it last and counts one number more; the Stylus goes to the next word;
the registers and the memory are unchanged. -/
def Queued (s t : State) (c : CoreId) (q : QueueId) (j : QCmd) : Prop :=
  ((t.core c).queue q).cmds = ((s.core c).queue q).cmds ++ [j] ∧
  ((t.core c).queue q).next = ((s.core c).queue q).next + 1 ∧ ((t.core c).queue q).ended = ((s.core c).queue q).ended ∧
  (t.core c).pc = (s.core c).pc + 8 ∧ (t.core c).s = (s.core c).s ∧ (t.core c).a = (s.core c).a ∧
  (t.core c).p = (s.core c).p ∧ (t.core c).td = (s.core c).td ∧ (t.core c).err = (s.core c).err ∧ t.mem = s.mem

/-- What a command that ends at issue leaves: it has taken its number, and the queue's status ring holds its status word
(R68); the registers are unchanged and the Stylus goes to the next word. -/
def EndedAtIssue (s t : State) (c : CoreId) (q : QueueId) (st : Status) : Prop :=
  let n := ((s.core c).queue q).next
  ((t.core c).queue q).cmds = [] ∧ ((t.core c).queue q).next = n + 1 ∧ n ≤ ((t.core c).queue q).ended ∧
  t.mem.bytes (spmOf c.val + ringOff q + 8 * (n % 64)) 8 =
    bytesLE 8 (statusCode st + queueCode q * 2 ^ 8 + n % 2 ^ 32 * 2 ^ 32) ∧
  (t.core c).pc = (s.core c).pc + 8 ∧ (t.core c).s = (s.core c).s ∧ (t.core c).a = (s.core c).a ∧
  (t.core c).p = (s.core c).p ∧ (t.core c).td = (s.core c).td

/-- No command at the head of a queue is one that ends without being executed (R70, R253). -/
def HeadsStay (x : Core) : Prop :=
  ([QueueId.bq, .hq, .sq].all fun q => (x.queue q).cmds.head?.all fun k => !x.endsAtOnce k) = true

end Sys2Proof.Claims

/-- R67, R68, R253, R265: an engine command that executes, with its block in its own scratchpad, room in its queue and a
table of checks that accepts it, enters its queue with the next number and copies of its block and descriptors. -/
def Obligations.EngineCommandsIssue : Prop :=
  ∀ (i : Instr) (c : CoreId) (op : EngOp) (f : FmtC) (s : State) (o : Nat) (j : QCmd), engineWord i = some (c, op, f) →
    Executes s c f.pre → formC op f = true → (s.core c).hasRoom op = true → (s.core c).frameFail = none →
    BlockAt s c op f o → ((checks c op (issued s c op f o)).exec s).1 = .ok j →
    j.op = op ∧ j.seq = ((s.core c).queue op.queue).next ∧ j.block = s.peek o op.blockSize ∧
    j.descs = (issued s c op f o).descs ∧ j.active = true ∧ j.started = false ∧ j.doomed = none ∧
    ∃ t, exec i s = .next t ∧ Queued s t c op.queue j

/-- R70, R253: an engine command whose guard fails ends with OK once it stands at its queue's head, and one issued after a
failure in its frame ends with the frame's status: each takes its number, writes its status word and does nothing else. The premise
HeadsStay leaves out states in which the head of another queue is itself about to end so. -/
def Sys2Proof.Claims.UnexecutedCommandsEnd : Prop :=
  ∀ (i : Instr) (c : CoreId) (op : EngOp) (f : FmtC) (s : State), engineWord i = some (c, op, f) → s.mem.wf = true →
    Fetches s c → formC op f = true → ((s.core c).queue op.queue).cmds = [] → (op = .attn → (s.core c).hq.cmds = []) →
    HeadsStay (s.core c) →
    ((s.core c).frameFail = none → (s.core c).guardHolds f.pre = false →
      ∃ t, exec i s = .next t ∧ EndedAtIssue s t c op.queue .ok) ∧
    (∀ st, (s.core c).frameFail = some st → st ≠ .ok → ∃ t, exec i s = .next t ∧ EndedAtIssue s t c op.queue st)

/-- R65: with its queue full, an engine command stalls the Stylus and changes nothing else. -/
def Sys2Proof.Claims.FullQueueStalls : Prop :=
  ∀ (i : Instr) (c : CoreId) (op : EngOp) (f : FmtC) (s : State), engineWord i = some (c, op, f) →
    Fetches s c → formC op f = true → 16 ≤ ((s.core c).queue op.queue).cmds.length →
    exec i s = .next (s.modCore c fun x => { x with stall := some (.full op.queue) })

/-- R65, R70, R253: engine commands that end unexecuted, and a full queue. -/
def Obligations.QueuesFullAndUnexecuted : Prop := UnexecutedCommandsEnd ∧ FullQueueStalls

/-- R218, R276: KV.PAGE, where none of its faults holds, loads its page-table entry and issues one command in SQ with the
staging descriptors that its td registers hold. -/
def Obligations.KvPageIssues : Prop :=
  ∀ (c : CoreId) (f : FmtK) (s : State) (off frame : Nat) (a b : Desc), Executes s c f.pre → formK f = true →
    (s.core c).hasRoom .kvPage = true → (s.core c).frameFail = none →
    ((s.core c).areg f.ae.toNat).toNat = s.chip * 2 ^ 48 + off → off < 2 ^ 48 → off % 8 = 0 → Loadable s off 8 →
    s.peek64 off = pair frame → frame < 0xFFFFFFFF →
    ((s.core c).sreg f.rfs.toNat).toNat % 64 = 0 →
    parseDesc ((s.core c).tdBytes f.tk.toNat) = .ok a → parseDesc ((s.core c).tdBytes f.tv.toNat) = .ok b →
    a.fmt = b.fmt → (∀ i < 4, a.x i = b.x i) → 512 * a.x 0 * a.e ≤ ((s.core c).sreg f.rfs.toNat).toNat →
    ((checkKv ((((s.core c).areg f.af.toNat).toNat + frame * ((s.core c).sreg f.rfs.toNat).toNat) % 2 ^ 64)
      ((s.core c).sreg f.rfs.toNat).toNat (.ok a) (.ok b)).exec s).1 = .ok () →
    ∃ t j, exec (.kvPage c f) s = .next t ∧ Queued s t c .sq j ∧ j.op = .kvPage ∧
      j.seq = (s.core c).sq.next ∧ j.started = false ∧ j.doomed = none ∧
      j.descs = [some ((s.core c).tdBytes f.tk.toNat), some ((s.core c).tdBytes f.tv.toNat)]

/-! ## Synchronisation (R69, R84, R88, R195, R277 to R279) -/

namespace Sys2Proof.Claims

/-- The queue that a Q code names (R68). -/
def queueNamed : BitVec 2 → QueueId
  | 1 => .bq | 2 => .hq | _ => .sq

/-- The predicates after a wait writes one; p0 discards. -/
def setP (x : Core) (i : Nat) (v : Bool) : Core := { x.setPred i v with stall := none }

end Sys2Proof.Claims

/-- R69, R277: CMD.WAIT, for a number issued, goes on when every command up to it has ended and writes whether all ended with
OK; until then it stalls. A number not yet issued is ALLOC_FAULT. CMD.SEQ gives the last number issued, or all ones. -/
def Sys2Proof.Claims.CommandWaits : Prop :=
  ∀ (c : CoreId) (f : FmtS) (s : State), Executes s c f.pre → f.q ≠ 0 →
    let q := (s.core c).queue (queueNamed f.q)
    let n := ((s.core c).sreg f.rs.toNat).toNat % 2 ^ 32
    (PlainS f true true true false false false →
      (n < q.next → (∀ k ∈ q.cmds, n < k.seq) → exec (.cmdWait c f) s = regsTo s c (fun x =>
        setP x f.pd.toNat (decide (∀ b ∈ q.badSeq, n < b)))) ∧
      (n < q.next → (∃ k ∈ q.cmds, k.seq ≤ n) →
        exec (.cmdWait c f) s = .next (s.modCore c fun x => { x with stall := some (.cmdWait (queueNamed f.q) n f.pd.toNat) })) ∧
      (q.next ≤ n → exec (.cmdWait c f) s = .next ((s.stylusFault c .allocFault).tryReport))) ∧
    (PlainS f true false true false false false → exec (.cmdSeq c f) s = regsTo s c (fun x =>
      x.setS f.rs.toNat (if q.next = 0 then BitVec.allOnes 64 else BitVec.ofNat 64 ((q.next - 1) % 2 ^ 32))))

/-- R88 to R90, R277, R278: TOK.WAIT and TOK.SET with n = s[RS] + IMM of at most 65,535; beyond, ALLOC_FAULT. -/
def Sys2Proof.Claims.TokenInstructions : Prop :=
  ∀ (c : CoreId) (f : FmtS) (s : State) (t : Fin 32), Executes s c f.pre → PlainS f true false false true false true →
    t.val = f.ctr.toNat →
    let n := ((s.core c).sreg f.rs.toNat + f.imm.signExtend 64).toNat
    (65535 < n → exec (.tokWait c f) s = .next ((s.stylusFault c .allocFault).tryReport) ∧
      exec (.tokSet c f) s = .next ((s.stylusFault c .allocFault).tryReport)) ∧
    (n ≤ 65535 →
      ((s.core c).tokFailed.getLsbD t = true → exec (.tokWait c f) s = regsTo s c (fun x => setP x 7 false)) ∧
      ((s.core c).tokFailed.getLsbD t = false → n ≤ ((s.core c).tok[t]).toNat →
        exec (.tokWait c f) s = regsTo s c (fun x => setP x 7 true)) ∧
      ((s.core c).tokFailed.getLsbD t = false → ((s.core c).tok[t]).toNat < n →
        exec (.tokWait c f) s = .next (s.modCore c fun x => { x with stall := some (.tokWait t n) })) ∧
      ((∀ k ∈ (s.core c).allCmds, k.active = true → k.doomed = none → k.ctr ≠ some t.val) →
        exec (.tokSet c f) s = regsTo s c (fun x => { x with
          tok := x.tok.set t (BitVec.ofNat 16 n)
          tokFailed := x.tokFailed &&& ~~~(1#32 <<< t.val)
          tokStatus := x.tokStatus.filter fun e => e.1 != t.val })) ∧
      ((∃ k ∈ (s.core c).allCmds, k.active = true ∧ k.doomed = none ∧ k.ctr = some t.val) →
        exec (.tokSet c f) s = .next ((s.stylusFault c .allocFault).tryReport)))

/-- R69, R88 to R90, R277, R278: CMD.WAIT, CMD.SEQ, TOK.WAIT and TOK.SET. -/
def Obligations.CommandAndTokenWaits : Prop := CommandWaits ∧ TokenInstructions

/-- R84: a fence goes on once every command of its core has ended, and stalls until then. -/
def Sys2Proof.Claims.Fences : Prop :=
  ∀ (c : CoreId) (f : FmtS) (s : State), Executes s c f.pre → PlainS f false false false false false false →
    ((s.core c).allCmds = [] →
      exec (.fenceL c f) s = regsTo s c id ∧ exec (.fenceD c f) s = regsTo s c id ∧ exec (.fenceG c f) s = regsTo s c id) ∧
    ((s.core c).allCmds ≠ [] →
      exec (.fenceL c f) s = .next (s.modCore c fun x => { x with stall := some (.fence .l) }) ∧
      exec (.fenceD c f) s = .next (s.modCore c fun x => { x with stall := some (.fence .d) }) ∧
      exec (.fenceG c f) s = .next (s.modCore c fun x => { x with stall := some (.fence .g) }))

/-- R28, R63: TICK.WAIT ends the core's frame once no command but those issued with SPAN is left, and waits for that. -/
def Sys2Proof.Claims.TickWaits : Prop :=
  ∀ (c : CoreId) (f : FmtS) (now : Nat) (s : State), Fetches s c → PlainS f false false false false false false →
    f.pre = {} →
    ((∀ k ∈ (s.core c).allCmds, k.span = true) → ∃ t, exec (.tickWait c f now) s = .next t ∧
      t.core c = { s.core c with atWait := true, running := false, stall := none } ∧
      (∀ d, d ≠ c → t.core d = s.core d) ∧ t.mem = s.mem) ∧
    ((∃ k ∈ (s.core c).allCmds, k.span = false) → exec (.tickWait c f now) s =
      .next ((s.atTime now).modCore c fun x => { x with stall := some .tickWait }))

/-- R28, R63, R84: the fences and TICK.WAIT. -/
def Obligations.FencesAndTickWait : Prop := Fences ∧ TickWaits

/-- R195, R279, R534: TBL.SWAP sets the table's PENDING bit in the control word and changes no other byte of memory; a second
one is ignored. PROOF.MARK writes one trace entry when trace is on for the core and for marks, is dropped and counted when the
trace queue holds 4,096 entries, and has no effect when trace is off. -/
def Obligations.SwapsAndMarks : Prop :=
  ∀ (c : CoreId) (f : FmtS) (s : State), Executes s c f.pre →
    (PlainS f false false false false true false → f.tbl.toNat < 3 → s.mem.wf = true →
      let w := s.peek64 (spmOf c.val + 0x7FF580)
      (w.getLsbD (16 + f.tbl.toNat) = true → exec (.tblSwap c f) s = regsTo s c id) ∧
      (w.getLsbD (16 + f.tbl.toNat) = false → w.toNat < 2 ^ 48 → ∃ t, exec (.tblSwap c f) s = .next t ∧
        t = { s.modCore c advance with mem := t.mem } ∧
        t.peek64 (spmOf c.val + 0x7FF580) = w ||| (1#64 <<< (16 + f.tbl.toNat)) ∧
        ∀ a, a < spmOf c.val + 0x7FF580 ∨ spmOf c.val + 0x7FF588 ≤ a → t.mem.byte a = s.mem.byte a)) ∧
    (PlainS f true false false false false true → f.imm.toNat < 65536 → ∀ now,
      let on := s.proof.traceEn && s.proof.traceMark && s.proof.traceCores.getLsbD c.val && !s.proof.full
      let e : TraceEntry := ⟨1, 0, c.val, f.imm.toNat, (s.core c).sreg f.rs.toNat, s.tick.number, max s.tick.time now - s.tick.edge⟩
      (on = false → exec (.proofMark c f now) s = regsTo (s.atTime now) c id) ∧
      (on = true → s.proof.queue.length < 4096 → exec (.proofMark c f now) s =
        .next { (s.atTime now).modCore c advance with proof := { s.proof with queue := s.proof.queue ++ [e] } }) ∧
      (on = true → 4096 ≤ s.proof.queue.length → exec (.proofMark c f now) s =
        .next { (s.atTime now).modCore c advance with
          proof := { s.proof with dropped := min (2 ^ 16 - 1) (s.proof.dropped + 1) } }))

/-! ## The tick (R27 to R48, R478) -/

namespace Sys2Proof.Claims

/-- The tick unit of a chip in the middle of a tick. -/
def InTick (t : Tick) : Prop := t.run = true ∧ t.waitAlign = false ∧ t.tickStarted = true ∧ t.lost = false

/-- A tick quantity carried as two valid paired words, with [31:16] of the high word zero (R27). -/
def Carries (w : PW2) (n : Nat) : Prop := n < 2 ^ 48 ∧ w = ⟨pair (n % 2 ^ 32), pair (n / 2 ^ 32)⟩

/-- A chip number that a TICK_CHILD register of a chip with children names, as a valid paired word with VALID (R31, R56). -/
def Names (t : Tick) (child : Half) : Prop :=
  (t.role = .member ∨ t.role = .master) ∧
    ∃ i : Fin 8, pairOk t.children[i] = true ∧ pairVal t.children[i] % 2 ^ 17 = child.toNat + 2 ^ 16

/-- The words of a message for tick n: its tick is n, its other words are valid pairs, and so is a broadcast's tick. -/
def ForTick (tick : PW2) (others : List PW2) (proof : Option PW2) (n : Nat) : Prop :=
  Carries tick n ∧ (∀ w ∈ others, pairOk w.lo = true ∧ pairOk w.hi = true) ∧ ∀ p, proof = some p → ∃ k, Carries p k

/-- Some word of a message is no valid pair, or its tick is not n. -/
def NotForTick (tick : PW2) (others : List PW2) (proof : Option PW2) (n : Nat) : Prop :=
  PW2.val tick ≠ n ∨ ∃ w ∈ tick :: others ++ proof.toList, pairOk w.lo = false ∨ pairOk w.hi = false

end Sys2Proof.Claims

/-- R41, R47, R48, R504: START while RUN is 0 begins at tick 0 with stretch step 0 and no pending step, and a member then waits
for the master's first alignment message; only the tick unit changes. It is ignored while RUN is 1, and refused with BAD_WRITE
while a die is in band stop. STOP on a running chip that decides is kept for its next verdict; it changes nothing on a running
member, or while RUN is 0. On a chip that has lost the tick, STOP ends RUN at once, with step 0 and pending starts
cancelled (the model's choice, notes/assumptions/20.md). STRETCH_REQ is kept for the next report. -/
def Obligations.TickStartAndStop : Prop :=
  ∀ s : State,
    (s.tick.run = true → exec .tickStart s = .next s) ∧
    (s.tick.run = false → (∃ d : Fin 13, s.power.dieBand[d] = .stop) →
      exec .tickStart s = .next { s with tick := { s.tick with badWrite := true } }) ∧
    (s.tick.run = false → (∀ d : Fin 13, s.power.dieBand[d] ≠ .stop) → ∃ t, exec .tickStart s = .next t ∧
      t = { s with tick := t.tick } ∧ t.tick.run = true ∧ t.tick.number = 0 ∧ t.tick.step = 0 ∧ t.tick.pending = none ∧
      t.tick.effective = s.tick.period ∧ t.tick.tickStarted = false ∧ t.tick.lost = false ∧
      (t.tick.waitAlign = true ↔ s.tick.role = .member) ∧ t.tick.role = s.tick.role ∧ t.tick.period = s.tick.period ∧
      t.tick.lead = s.tick.lead) ∧
    (s.tick.run = true → s.tick.lost = false → s.tick.role ≠ .member →
      exec .tickStop s = .next { s with tick := { s.tick with stopReq := true } }) ∧
    (s.tick.run = false ∨ s.tick.lost = false ∧ s.tick.role = .member → exec .tickStop s = .next s) ∧
    (s.tick.run = true → s.tick.lost = true → ∃ t, exec .tickStop s = .next t ∧
      t = { s with tick := t.tick, power := { s.power with stretchAsk := false }, parts := t.parts } ∧
      t.tick.run = false ∧ t.tick.lost = false ∧ t.tick.step = 0 ∧ t.tick.pending = none ∧
      ∀ p, t.part p = (if (s.part p).state = .startPending then { s.part p with state := .idle } else s.part p)) ∧
    exec .stretchReq s = .next { s with tick := { s.tick with stretchReq := true } }

/-- R27, R32, R38, R39: an edge. The first edge of a start begins tick 0. A later one follows the verdict held: the tick
number advances modulo 2^48, the edge falls no earlier than the verdict's, a pending step that is due takes effect with its
period, and a verdict that stops the tick stops it there with the step at 0 (R41, R48). -/
def Obligations.TickEdges : Prop :=
  ∀ s : State, s.tick.run = true → s.tick.waitAlign = false → s.tick.lost = false → s.qcp.waiting = [] →
    (s.tick.tickStarted = false → ∃ t, exec .tickEdge s = .next t ∧ t.tick.number = 0 ∧ t.tick.tickStarted = true ∧
      t.tick.edge = s.tick.time ∧ t.tick.run = true) ∧
    (∀ v e, s.tick.tickStarted = true → s.tick.verdict = some v → Carries v.edge e →
      (v.stop = none → ∃ t, exec .tickEdge s = .next t ∧ t.tick.number = (s.tick.number + 1) % 2 ^ 48 ∧
        t.tick.edge = max s.tick.time e ∧ t.tick.run = true ∧
        (∀ n k, s.tick.pending = some (n, k) → n ≤ (s.tick.number + 1) % 2 ^ 48 →
          t.tick.step = k ∧ t.tick.effective = stepPeriod s.tick.period k) ∧
        (s.tick.pending = none → t.tick.step = s.tick.step)) ∧
      (v.stop ≠ none → ∃ t, exec .tickEdge s = .next t ∧ t.tick.run = false ∧ t.tick.step = 0 ∧ t.tick.pending = none ∧
        t.tick.stopReq = false)) ∧
    (s.tick.tickStarted = true → s.tick.verdict = none → exec .tickEdge s = .next s)

/-- R33: at or after the nominal edge, a core that has not reached TICK.WAIT sets OVERRUN, once a tick, counted in
OVERRUNS; the frame runs on. -/
def Sys2Proof.Claims.Overruns : Prop :=
  ∀ (s : State) (now : Nat), InTick s.tick → s.tick.overran = false → s.tick.edge + s.tick.effective ≤ now →
    (∃ c, (s.core c).running = true) → ∃ t, exec (.overrun now) s = .next t ∧ t.tick.overrun = true ∧
      t.tick.overruns = min 65535 (s.tick.overruns + 1) ∧ t.tick.number = s.tick.number ∧ t.cores = s.cores ∧ t.mem = s.mem

/-- R10, R27, R31, R32: for the tick in progress, a report of a child that a TICK_CHILD register names is kept, the latest in
place of an earlier one (here while a core runs, so that the subtree is not complete); a member keeps the first verdict and
sends it to its children. A message with a word that is no valid pair, or of another tick's number, a report of a chip that no
register names, a verdict at a chip that decides, and a second verdict only show the time; so does any message while no
tick is in progress. -/
def Sys2Proof.Claims.ReportsAndVerdicts : Prop :=
  ∀ (s : State) (now : Nat) (child : Half) (r : Report) (v : VerdictMsg), Report.wf r = true → VerdictMsg.wf v = true →
    (InTick s.tick → (∃ c, (s.core c).running = true) →
      (ForTick r.tick (r.edge :: r.vf ++ r.va) r.proof s.tick.number → Names s.tick child →
        exec (.tickReport child r now) s = .next { s with tick := { s.tick with
          time := max s.tick.time now, got := s.tick.got.filter (fun g => g.1 != child) ++ [(child, r)] } })) ∧
    (InTick s.tick → ForTick v.tick (v.edge :: v.vf ++ v.va) v.proof s.tick.number → s.tick.role = .member →
      s.tick.verdict = none → exec (.verdict v now) s =
        .next (({ s with tick := { s.tick with time := max s.tick.time now, verdict := some v } }).tellAll (.verdict v)
          s.tick.validChildren)) ∧
    (¬ InTick s.tick ∨ NotForTick r.tick (r.edge :: r.vf ++ r.va) r.proof s.tick.number ∨ ¬ Names s.tick child →
      exec (.tickReport child r now) s = .next (s.atTime now)) ∧
    (¬ InTick s.tick ∨ NotForTick v.tick (v.edge :: v.vf ++ v.va) v.proof s.tick.number ∨ s.tick.role ≠ .member ∨
        s.tick.verdict ≠ none → exec (.verdict v now) s = .next (s.atTime now))

/-- R31, R354, R358, R361, R366: what `tell` and `validChildren` mean. The children are the chips that TICK_CHILD registers
name. A message to a chip of the row leaves as one management packet by the port of its route, with the route's VC, and takes
one management credit there (at ports where nothing waits, on a fabric that is not stopping); with no route, or no port
up on it, it is lost. -/
def Sys2Proof.Claims.ManagementMessages : Prop :=
  ∀ (s : State),
    (∀ child, child ∈ s.tick.validChildren ↔ Names s.tick child) ∧
    ∀ (m : Mgmt) (dst : Half),
      let route := routePort s.chip (s.fabric.rowRacks + 1) dst.toNat 0
      (∀ l leaves q, dst.toNat / 64 ≤ s.fabric.rowRacks → dst.toNat < 4096 → route = some (l, leaves) → s.outPort l 0 = some q →
        (∀ p, (s.port p).outq = [] ∧ (s.port p).owedVc0 = 0 ∧ (s.port p).owedVc1 = 0 ∧ (s.port p).owedMgmt = 0) →
        s.fabric.stopping = false → 0 < (s.port q).credMgmt →
        s.tell m dst = { s.modPort q (fun x => { x with credMgmt := x.credMgmt - 1 }) with
          out := s.out ++ [.mgmt q.val (s.mgmtBytes dst.toNat
            (if leaves ∨ dst.toNat / 64 % 64 = s.chip / 64 % 64 then 1 else 0)) m] }) ∧
      (route = none ∨ (∃ l leaves, route = some (l, leaves) ∧ s.outPort l 0 = none) → s.tell m dst = s)

/-- R31: at or after the nominal edge a member whose subtree is not done sends the chip that TICK_PARENT names its report
with the late flag, once; before it, on a chip that decides, or a second time, nothing but the time changes. -/
def Sys2Proof.Claims.LateReports : Prop :=
  ∀ (s : State) (now : Nat),
    (∀ parent : Half, InTick s.tick → s.tick.role = .member → s.tick.sentDone = false → s.tick.sentLate = false →
      s.tick.edge + s.tick.effective ≤ now → (∃ c, (s.core c).running = true) → pairOk s.tick.parent = true →
      pairVal s.tick.parent % 2 ^ 16 = parent.toNat → ∃ r, r.late = true ∧ r.done = false ∧
        PW2.val r.tick = s.tick.number % 2 ^ 64 ∧ exec (.lateReport now) s =
          .next (({ s with tick := { s.tick with time := max s.tick.time now, sentLate := true } }).tell (.report r) parent)) ∧
    (¬ InTick s.tick ∨ s.tick.role ≠ .member ∨ s.tick.sentDone = true ∨ s.tick.sentLate = true ∨
        now < s.tick.edge + s.tick.effective → exec (.lateReport now) s = .next (s.atTime now))

/-- R36, R478: a member, or the master of a group, that has held its edge for four nominal periods without a verdict sets
TICK_LOST and ends every context that runs on it; RUN stays 1. Before that, with a verdict, or on a chip that is its own group,
nothing but the time changes. -/
def Sys2Proof.Claims.LostTicks : Prop :=
  ∀ (s : State) (now : Nat), s.qcp.waiting = [] →
    (InTick s.tick → s.tick.role = .member ∨ s.tick.role = .master → s.tick.verdict = none →
      s.tick.edge + 5 * s.tick.effective ≤ now →
      ∃ t, exec (.tickLost now) s = .next t ∧ t.tick.lost = true ∧ t.tick.lostFlag = true ∧ t.tick.run = true ∧
        ∀ p, (t.part p).active = false) ∧
    (s.tick.role = .standalone ∨ s.tick.verdict ≠ none ∨ now < s.tick.edge + 5 * s.tick.effective → exec (.tickLost now) s = .next (s.atTime now))

/-- R31, R33, R36, R478: what a chip does when its frame overruns and when no verdict comes. -/
def Obligations.TickDeadlines : Prop := Overruns ∧ LateReports ∧ LostTicks

/-- R43, R44, R48: the first alignment message of a start gives a member the group's time; a later one sets ALIGNED by the
40 ns limit, ALIGN_FAULT latches beyond it, and each goes on to the children. A chip that decides, or whose tick does not run,
takes none. -/
def Sys2Proof.Claims.AlignmentMessages : Prop :=
  ∀ (s : State) (m d now : Nat),
    (s.tick.run = true → s.tick.role = .member → s.tick.waitAlign = true → exec (.alignmentMessage m d now) s =
      .next (({ s with tick := { s.tick with waitAlign := false, time := m + d, aligned := true } }).tellAll (.align m)
        s.tick.validChildren)) ∧
    (s.tick.run = true → s.tick.role = .member → s.tick.waitAlign = false →
      ∀ err, (m + d ≤ now ∧ err = now - (m + d) ∨ now < m + d ∧ err = m + d - now) →
      ∃ t : State, exec (.alignmentMessage m d now) s = .next (t.tellAll (.align m) s.tick.validChildren) ∧
        t = { s with tick := { s.tick with time := max s.tick.time now, aligned := t.tick.aligned
                                           alignFault := t.tick.alignFault, alignErrs := t.tick.alignErrs } } ∧
        (t.tick.aligned = true ↔ 5 * err ≤ 9 * 40) ∧
        (t.tick.alignFault = true ↔ s.tick.alignFault = true ∨ 9 * 40 < 5 * err)) ∧
    (s.tick.run = false ∨ s.tick.role ≠ .member → exec (.alignmentMessage m d now) s = .next s)

/-- R10, R27, R31, R32, R43, R44, R48, R358: reports, verdicts and alignment messages, and how they leave. -/
def Obligations.MessagesOfTheTick : Prop := ReportsAndVerdicts ∧ ManagementMessages ∧ AlignmentMessages

/-! ## Register writes and window accesses (R8, R24, R25, R47, R126) -/

/-- R8, R23, R47, R56: register writes. TICK_PERIOD takes a period from 20 µs to 20 ms while RUN is 0; out of that range, or
while RUN is 1, it is ignored and BAD_WRITE is set. TICK_SLACK is taken while RUN is 0, and set to another value while RUN is
1 it is ignored and BAD_WRITE is set. TICK_STATUS clears what is written as 1, and changes nothing else. The read-only registers
listed (of the device, the tick unit, a partition, a core, a stack, a port, a ring and the trace) take nothing, and a write where no
register space lies is a request that ends with ALLOC_FAULT. -/
def Sys2Proof.Claims.RegisterWrites : Prop :=
  ∀ (s : State) (v : Word),
    (∀ p, p = v.toNat % 2 ^ 26 → s.tick.run = false → 36000 ≤ p → p ≤ 36000000 →
      exec (.registerWrite (regBase + 0x1008) v) s =
        .next (if p = s.tick.period then s else { s with tick := { s.tick with period := p, effective := p } })) ∧
    (∀ p, p = v.toNat % 2 ^ 26 → p ≠ s.tick.period → (s.tick.run = true ∨ p < 36000 ∨ 36000000 < p) →
      exec (.registerWrite (regBase + 0x1008) v) s = .next { s with tick := { s.tick with badWrite := true } }) ∧
    (s.tick.run = false → exec (.registerWrite (regBase + 0x1010) v) s =
      .next { s with tick := { s.tick with slack := v.toNat % 2 ^ 7 } }) ∧
    (s.tick.run = true → v.toNat % 2 ^ 7 ≠ s.tick.slack → exec (.registerWrite (regBase + 0x1010) v) s =
      .next { s with tick := { s.tick with badWrite := true } }) ∧
    (∃ t, exec (.registerWrite (regBase + 0x1030) v) s = .next t ∧
      t = { s with tick := { s.tick with
        badWrite := t.tick.badWrite, lostFlag := t.tick.lostFlag, alignFault := t.tick.alignFault
        stretchLimit := t.tick.stretchLimit, voteLate := t.tick.voteLate, held := t.tick.held, overrun := t.tick.overrun
        slackUsed := t.tick.slackUsed } } ∧
      ∀ f ∈ [(7, Tick.badWrite), (6, Tick.lostFlag), (5, Tick.alignFault), (4, Tick.stretchLimit), (3, Tick.voteLate),
        (2, Tick.held), (1, Tick.overrun), (0, Tick.slackUsed)],
        (f.2 t.tick = true ↔ f.2 s.tick = true ∧ v.getLsbD f.1 = false)) ∧
    (∀ o ∈ [0x0, 0x8, 0x10, 0x18, 0x20, 0x400, 0x1018, 0x1020, 0x1028, 0x1038, 0x1040, 0x1050, 0x1100, 0x1208, 0x1228, 0x1340,
        0x1000008, 0x1000018, 0x1000100, 0x2000010, 0x2000018, 0x3000018, 0x3000030, 0x4000030, 0x5000008, 0x7000008, 0x7001010,
        0x8000018, 0x8100000, 0x8100100, 0x9000008, 0x9000110],
      exec (.registerWrite (regBase + o) v) s = .next s) ∧
    (∀ off, off < regBase ∨ regEnd ≤ off ∨ off % 8 ≠ 0 → exec (.registerWrite off v) s = .next (s.endRequest .allocFault))

/-- R24, R25, R196, R336, R381, R496: another agent's access to a scratchpad or accumulator window of this chip. A read returns the bytes
and changes nothing; a write, outside what R196, R336 and R381 protect, stores its bytes there and nowhere else. A write to what
they protect writes nothing, is counted in TABLE_FAULTS and ends with ALLOC_FAULT; so does, uncounted, an access to a
range that a running command's banks hold. A window that is fenced or switched off gives FENCED, counted. -/
def Sys2Proof.Claims.WindowsServe : Prop :=
  ∀ (s : State) (ag : Agent) (d : CoreId) (o n off : Nat), d.val < s.logicalCores → 0 < n → s.chip < 4096 →
    let read : Instr := .windowAccess ⟨ag, s.chip * 2 ^ 48 + off, n, none⟩
    let write (data : List Byte) : Instr := .windowAccess ⟨ag, s.chip * 2 ^ 48 + off, n, some data⟩
    let spm : Prop := off = spmOf d + o ∧ o + n ≤ spmSize
    let acc : Prop := off = accOf d + o ∧ o + n ≤ accSize
    let free : Prop := (s.core d).banks &&& bankMask o n = 0
    (s.coreFenced d = false → spm ∨ acc ∧ free →
      exec read s = .next (s.emit (.access .ok (s.mem.bytes off n))) ∧
      ∀ data : List Byte, data.length = n → s.mem.wf = true → (spm → s.spmGuarded d o n = false) →
        ∃ t, exec (write data) s = .next t ∧ t = { s.emit (.access .ok []) with mem := t.mem } ∧
          (∀ k, (h : k < data.length) → t.mem.byte (off + k) = data[k]) ∧
          ∀ a, a < off ∨ off + n ≤ a → t.mem.byte a = s.mem.byte a) ∧
    (s.coreFenced d = false → spm → s.spmGuarded d o n = true → ∀ data : List Byte, data.length = n →
      exec (write data) s = .next ((s.modCore d fun x => { x with
        tableFaults := min (2 ^ 16 - 1) (x.tableFaults + 1) }).answerAccess .allocFault [])) ∧
    (s.coreFenced d = false → acc → ¬ free → exec read s = .next (s.answerAccess .allocFault []) ∧
      ∀ data : List Byte, data.length = n → exec (write data) s = .next (s.answerAccess .allocFault [])) ∧
    (s.coreFenced d = true → spm ∨ acc → ∀ i, i = read ∨ (∃ data : List Byte, data.length = n ∧ i = write data) →
      exec i s = .next (State.answerAccess { s with recov := { s.recov with
        fenceRefused := min (2 ^ 16 - 1) (s.recov.fenceRefused + 1) } } .fenced []))

/-- R18, R19, R23: an access whose bits [63:60] are not zero, that lies where the local map is reserved, or that runs past
the end of a window, ends with ALLOC_FAULT and reads and writes nothing; one to another chip does not come here and changes
nothing. -/
def Sys2Proof.Claims.WindowsRefuse : Prop :=
  ∀ (s : State) (a : Access), 0 < a.len → Access.wf a = true →
    let off := a.addr % 2 ^ 48
    (a.addr / 2 ^ 60 % 16 ≠ 0 → exec (.windowAccess a) s = .next (s.answerAccess .allocFault [])) ∧
    (a.addr / 2 ^ 60 % 16 = 0 → a.addr / 2 ^ 48 ≠ s.chip → exec (.windowAccess a) s = .next s) ∧
    (a.addr / 2 ^ 60 % 16 = 0 → a.addr / 2 ^ 48 = s.chip →
      (hbmEnd ≤ off ∧ off < spmBase ∨ accOf 128 ≤ off ∧ off < regBase ∨ regEnd ≤ off ∧ off < flashBase ∨ flashEnd ≤ off ∨
        (∃ d o, d < 128 ∧ off = spmOf d + o ∧ o < spmSize ∧ spmSize < o + a.len) ∨
        (∃ d o, d < 128 ∧ off = accOf d + o ∧ o < accSize ∧ accSize < o + a.len)) →
      exec (.windowAccess a) s = .next (s.answerAccess .allocFault []))

/-- What an answer with a status other than INTEGRITY is, with the error trigger of R531 off: one output, and nothing else
changes. -/
def Sys2Proof.Claims.AnswersLeave : Prop :=
  ∀ (s : State) (st : Status) (d : List Byte), s.proof.errEn = false → st ≠ .integrity →
    s.answerAccess st d = { s with out := s.out ++ [.access st d] }

/-- R18, R19, R23 to R25, R196, R336, R381, R496: accesses of other agents to windows. -/
def Obligations.WindowAccesses : Prop := WindowsServe ∧ WindowsRefuse ∧ AnswersLeave

/-- R126, R129: RETRY and SKIP act only on the chip that decides and only while HOLD is 1; they wait for the next verdict. -/
def Sys2Proof.Claims.WatchReleases : Prop :=
  ∀ (s : State) (p : PartId),
    (s.tick.role ≠ .member → (s.part p).held = true →
      exec (.watchCtrlRetry p) s = .next (s.modPart p fun x => { x with ctl := some true }) ∧
      exec (.watchCtrlSkip p) s = .next (s.modPart p fun x => { x with ctl := some false })) ∧
    (s.tick.role = .member ∨ (s.part p).held = false →
      exec (.watchCtrlRetry p) s = .next s ∧ exec (.watchCtrlSkip p) s = .next s)

/-- R8, R47, R56, R126, R129: register writes, and RETRY and SKIP. -/
def Obligations.RegisterWritesAndReleases : Prop := RegisterWrites ∧ WatchReleases

/-! ## QCP (R441 to R452) -/

namespace Sys2Proof.Claims

/-- A request that the endpoint takes as it arrives: boot done, the endpoint idle, its TAG not one of the kept responses,
and a header of a known version with zero Rsv fields (R441 to R443, R447). -/
def Taken (s : State) (r : QcpReq) : Prop :=
  s.boot.booted = true ∧ (∀ k ∈ s.qcp.kept, k.1 ≠ r.src ∨ k.2.1 ≠ r.tag) ∧ s.qcp.current = none ∧ s.qcp.waiting = [] ∧
  s.qcp.aside = [] ∧ (r.version = 1 ∨ r.version = 2) ∧ r.flags = 0 ∧ r.status = 0 ∧ r.rsv13 = 0 ∧ r.retryAfter = 0 ∧
  r.rsv16 = 0

/-- The same, ready and of the device's epoch (R445). -/
def Admitted (s : State) (r : QcpReq) : Prop := Taken s r ∧ s.qcp.ready = true ∧ r.epoch = s.recov.epoch

/-- The response to a request (R441, R442): one message leaves for its source, with the header of the table "QCP header" (its
CHECK, zero Rsv fields, and RETRY_AFTER zero but for NOT_READY) and the body given, and it is kept. -/
def Answers (s t : State) (r : QcpReq) (code : Nat) (st : Status) (body : List Byte) : Prop :=
  ∃ m : List Byte, t.out = s.out ++ [.qcp r.src m] ∧ t.qcp.kept.head? = some (r.src, r.tag, m) ∧ m.length = 32 + body.length ∧
    m.take 20 = [0x51, 0x43, 0x50, 0x4D, r.version, 1] ++ bytesLE 2 code ++ bytesLE 4 r.tag.toNat ++ bytesLE 4 body.length ++
      bytesLE 2 t.recov.epoch.toNat ++ bytesLE 1 (statusCode st) ++ [0] ∧ (st ≠ .notReady → slice m 0x14 2 = [0, 0]) ∧
    slice m 0x16 6 = [0, 0, 0, 0, 0, 0] ∧ w32At m 0x1C = crc32c (zeroed m 0x1C 4) ∧ m.drop 32 = body

/-- Only the response has changed: what has left, and the kept responses. -/
def OnlyAnswered (s t : State) : Prop :=
  t = { s with out := t.out, qcp := { s.qcp with kept := t.qcp.kept, current := none } }

/-- A request in execution: nothing else has changed. -/
def executing (s : State) (cmd : QcpCmd) (r : QcpReq) : State :=
  { s with qcp := { s.qcp with current := some ⟨cmd, r⟩ } }

end Sys2Proof.Claims

/-- R443 to R446: HELLO, STATUS and REG_READ are answered at once with the bodies of the table "QCP bodies" and change
nothing. HELLO chooses the highest version of its range that is implemented (1 and 2 are); with none it ends with DECODE and
still carries its body. REG_READ reads up to 16 registers, before readiness those of the identity region alone. -/
def Sys2Proof.Claims.QcpReads : Prop :=
  ∀ (r : QcpReq) (s : State), Taken s r →
    (∀ lo hi v : Byte, ∀ st : Status, r.body = [lo, hi, 0, 0, 0, 0, 0, 0] →
      (lo.toNat ≤ 2 ∧ 2 ≤ hi.toNat ∧ v = 2 ∧ st = .ok ∨ lo.toNat ≤ 1 ∧ hi.toNat = 1 ∧ v = 1 ∧ st = .ok ∨
        (2 < lo.toNat ∨ hi.toNat < 1 ∨ lo.toNat = 2 ∧ hi.toNat = 1) ∧ v = 0 ∧ st = .decode) →
      ∃ t, exec (.hello r) s = .next t ∧ OnlyAnswered s t ∧ Answers s t r 0x01 st ([v, 0] ++ bytesLE 2 6 ++
        bytesLE 2 s.boot.version ++ [0, 0] ++ pairBytes s.boot.abi ++ bytesLE 8 s.deviceId.toNat ++ bytesLE 8 s.chipId.toNat)) ∧
    (r.body = [] → ∃ t, exec (.status r) s = .next t ∧ OnlyAnswered s t ∧ Answers s t r 0x02 .ok
      (bytesLE 8 s.qcpStatus.toNat ++ pairBytes (s.tick.number % 2 ^ 32) ++ pairBytes (s.tick.number / 2 ^ 32) ++
        bytesLE 8 s.tick.ctrlWord.toNat ++ (List.finRange 8).flatMap fun p =>
          bytesLE 8 (s.part p).statusWord.toNat ++ bytesLE 8 (((s.part p).image.map (·.base)).getD 0))) ∧
    (∀ off n, r.body = bytesLE 8 off ++ bytesLE 4 n ++ [0, 0, 0, 0] → off < 2 ^ 48 → 1 ≤ n → n ≤ 16 →
      (∀ w : Fin n → Word, (s.qcp.ready = true ∨ regBase ≤ off ∧ off + 8 * n ≤ regBase + 0x1000) →
        (∀ i : Fin n, s.readReg (off + 8 * i.val) = some (w i)) → ∃ t, exec (.regRead r) s = .next t ∧ OnlyAnswered s t ∧
          Answers s t r 0x10 .ok ((List.ofFn w).flatMap fun w => bytesLE 8 w.toNat)) ∧
      (s.proof.errEn = false → (∃ i < n, s.readReg (off + 8 * i) = none) → ∃ t, exec (.regRead r) s = .next t ∧
        OnlyAnswered s t ∧ Answers s t r 0x10 .allocFault []) ∧
      (s.proof.errEn = false → s.qcp.ready = false → regBase + 0x1000 ≤ off → (∀ i < n, s.readReg (off + 8 * i) ≠ none) →
        ∃ t, exec (.regRead r) s = .next t ∧ OnlyAnswered s t ∧ Answers s t r 0x10 .notReady []))

/-- R8, R443, R444: a REG_WRITE of one register has the effect of that register's write, and is answered with OK. -/
def Sys2Proof.Claims.QcpRegisterWrite : Prop :=
  ∀ (r : QcpReq) (s : State) (off : Nat) (v : Word), Admitted s r → off < 2 ^ 48 → (s.regAt off).isSome = true →
    r.body = bytesLE 8 off ++ bytesLE 4 1 ++ [0, 0, 0, 0] ++ bytesLE 8 v.toNat →
    ∃ t u, exec (.regWrite r) s = .next t ∧ exec (.registerWrite off v) (executing s .regWrite r) = .next u ∧
      t = { u with out := t.out, qcp := { u.qcp with kept := t.qcp.kept, current := none } } ∧ Answers u t r 0x11 .ok []

/-- R8, R443, R444, R446: HELLO, STATUS, REG_READ and REG_WRITE. -/
def Obligations.QcpRegisterRequests : Prop := QcpReads ∧ QcpRegisterWrite

/-- R436, R444: QP_CONNECT leaves a queue pair ready to send with the host's numbers; QP_DESTROY leaves it in reset. No other
queue pair changes. The device's QPN and PSN are the model's free values (notes/assumptions/3.md). -/
def Obligations.QueuePairRequests : Prop :=
  ∀ (r : QcpReq) (s : State) (p : Fin 2) (q : Fin 64), Admitted s r →
    (∀ (rc ack k : Byte) (qpn psn rx : Nat) (gid : List Byte), rc.toNat < 8 → ack.toNat < 32 → k.toNat ≤ 8 → qpn < 2 ^ 24 →
      psn < 2 ^ 24 → gid.length = 16 → rx < 2 ^ 48 → rx % 64 = 0 → (s.qp p q).state ≠ .ready →
      r.body = [BitVec.ofNat 8 p.val, BitVec.ofNat 8 q.val, rc, ack] ++ bytesLE 4 qpn ++ bytesLE 4 psn ++ [k, 0, 0, 0] ++ gid ++
        bytesLE 8 rx →
      ∃ t, exec (.qpConnect r) s = .next t ∧ OnlyAnswered { s with eth := t.eth, free := t.free } t ∧
        (t.qp p q).state = .ready ∧ (t.qp p q).hostQpn = BitVec.ofNat 24 qpn ∧
        (t.qp p q).hostPsn = BitVec.ofNat 24 psn ∧ (t.qp p q).retries = rc.toNat ∧ (t.qp p q).ackTimeout = ack.toNat ∧
        (t.qp p q).rxBase = rx ∧ (t.qp p q).rxK = k.toNat ∧ (t.qp p q).rxCount = 0 ∧
        (t.qp p q).gid = BitVec.ofNat 128 (beNat gid) ∧ (∀ p' q', (p' ≠ p ∨ q' ≠ q) → t.qp p' q' = s.qp p' q') ∧
        ∃ qpn' body, qpn' < 2 ^ 24 ∧ Answers s t r 0x20 .ok body ∧
          body = bytesLE 4 qpn' ++ bytesLE 4 (t.qp p q).psn.toNat ++ (bytesLE 16 (s.gid p).toNat).reverse) ∧
    (r.body = [BitVec.ofNat 8 p.val, BitVec.ofNat 8 q.val, 0, 0, 0, 0, 0, 0] →
      ∃ t, exec (.qpDestroy r) s = .next t ∧ (t.qp p q).state = .reset ∧
        (∀ p' q', (p' ≠ p ∨ q' ≠ q) → t.qp p' q' = s.qp p' q') ∧
        ∃ o, t.out = s.out ++ o ∧ ∃ m, Output.qcp r.src m ∈ o)

/-- R437: WINDOW_SET opens a window (a length of 0 closes it) under an R_Key whose count is one more than the last one given;
its answer carries the R_Key; no other window changes. A window over register or flash space is refused with
ALLOC_FAULT. -/
def Sys2Proof.Claims.WindowRequests : Prop :=
  ∀ (r : QcpReq) (s : State) (i : Fin 16) (perm : Byte) (base len : Nat), Admitted s r → perm.toNat < 4 →
    base < 2 ^ 48 → base % 64 = 0 → len < 2 ^ 63 → len % 64 = 0 →
    r.body = [BitVec.ofNat 8 i.val, perm, 0, 0, 0, 0, 0, 0] ++ bytesLE 8 base ++ bytesLE 8 len →
    let bad : Prop := len ≠ 0 ∧ (base < regEnd ∧ regBase < base + len ∨ base < flashEnd ∧ flashBase < base + len)
    let n := (s.qcp.keyCount + 1) % 2 ^ 28
    (¬ bad → ∃ t, exec (.windowSet r) s = .next t ∧
      OnlyAnswered { s with windows := t.windows, qcp := { s.qcp with keyCount := n } } t ∧
      t.windows[i] = { open_ := decide (len ≠ 0), base := base, length := len, read := perm.getLsbD 0, write := perm.getLsbD 1
                       count := n } ∧
      (∀ j, j ≠ i → t.windows[j] = s.windows[j]) ∧
      Answers s t r 0x22 .ok (bytesLE 4 (i.val * 2 ^ 28 + n) ++ [0, 0, 0, 0])) ∧
    (bad → s.proof.errEn = false → ∃ t, exec (.windowSet r) s = .next t ∧ OnlyAnswered s t ∧ Answers s t r 0x22 .allocFault [])

/-- R453: RING_SET gives a ring its place and queue pair and begins it anew at number 0. -/
def Sys2Proof.Claims.RingRequests : Prop :=
  ∀ (r : QcpReq) (s : State) (i : RingId) (p : Fin 2) (q : Fin 64) (log2 wait : Byte) (key host cons : Nat), Admitted s r →
    4 ≤ log2.toNat → log2.toNat ≤ 16 → 1 ≤ wait.toNat → key < 2 ^ 32 → host < 2 ^ 64 → host % 64 = 0 → cons < 2 ^ 48 →
    cons % 8 = 0 → (s.ring i).backlog = [] → (s.ring i).unacked = [] →
    r.body = [BitVec.ofNat 8 i.val, BitVec.ofNat 8 p.val, BitVec.ofNat 8 q.val, log2, wait, 0, 0, 0] ++ bytesLE 4 key ++
      [0, 0, 0, 0] ++ bytesLE 8 host ++ bytesLE 8 cons →
    ∃ t, exec (.ringSet r) s = .next t ∧ Answers s t r 0x23 .ok [] ∧
      t.ring i = { set := true, port := p, qp := q, log2 := log2.toNat, postWait := wait.toNat, rkey := BitVec.ofNat 32 key,
                   host := host, consOff := cons } ∧
      (∀ j, j ≠ i → t.ring j = s.ring j) ∧ t.mem = s.mem ∧ t.cores = s.cores ∧ t.eth = s.eth

/-- R437, R453: WINDOW_SET and RING_SET. -/
def Obligations.WindowAndRingRequests : Prop := WindowRequests ∧ RingRequests

/-- R448, R461: PROGRAM_LOAD on an enabled partition without a context waits for the check of its image; when the checks of
R60 accept it and its cores fit the partition, the partition holds it and the request is answered with OK. -/
def Sys2Proof.Claims.ProgramLoads : Prop :=
  ∀ (r : QcpReq) (s : State) (p : PartId) (off : Nat), off < 2 ^ 48 → off % 64 = 0 →
    r.body = [BitVec.ofNat 8 p.val, 0, 0, 0, 0, 0, 0, 0] ++ bytesLE 8 off → (s.part p).enable = true →
    (s.part p).active = false →
    (Admitted s r → exec (.programLoad r) s = .next (executing s .programLoad r)) ∧
    (∀ im img, s.qcp.current = some ⟨.programLoad, r⟩ → s.qcp.waiting = [] → (readImage off).exec s = (.ok (im, img), s) →
      im.cores ≤ 8 * ((s.part p).count + 1) → ∃ t, exec .imageCheckEnd s = .next t ∧
        t.part p = { s.part p with image := some im } ∧ (∀ j, j ≠ p → t.part j = s.part j) ∧ t.mem = s.mem ∧
        t.cores = s.cores ∧ t.qcp.current = none ∧ Answers s t r 0x30 .ok [])

/-- R448 to R450, R475: CTX_START on an idle partition with an image, no resume set up and a tick at least two ahead, holds the
start until its tick; with a nearer tick it ends with TIMEOUT, without an image or on a partition that is not idle with
ALLOC_FAULT, and neither changes anything. CTX_STOP of a pending start cancels it and is answered at once; of a running context
it waits for an edge. Nothing else changes. -/
def Obligations.ContextRequests : Prop :=
  ∀ (r : QcpReq) (s : State) (p : PartId), Admitted s r →
    (∀ (ring : RingId) (tick cid : Nat), tick < 2 ^ 48 → cid < 2 ^ 32 →
      r.body = [BitVec.ofNat 8 p.val, BitVec.ofNat 8 ring.val, 0, 0, 0, 0, 0, 0] ++ pairBytes (tick % 2 ^ 32) ++
        pairBytes (tick / 2 ^ 32) ++ bytesLE 4 cid ++ [0, 0, 0, 0] →
      let near : Prop := tick < (if s.tick.run then s.tick.number else 0) + 2
      (¬ near → (s.part p).state = .idle → (s.part p).enable = true → (s.part p).image.isSome = true →
        (s.part p).resumeValid = false → ∃ t, exec (.ctxStart r) s = .next t ∧ Answers s t r 0x31 .ok [] ∧
          OnlyAnswered (s.modPart p fun x => { x with
            state := .startPending, nextId := BitVec.ofNat 32 cid, ring := ring, startTick := tick, resume := none }) t) ∧
      (s.proof.errEn = false → ((s.part p).state ≠ .idle ∨ (s.part p).image = none) → ∃ t, exec (.ctxStart r) s = .next t ∧
        OnlyAnswered s t ∧ Answers s t r 0x31 .allocFault []) ∧
      (s.proof.errEn = false → (s.part p).state = .idle → (s.part p).enable = true → (s.part p).image.isSome = true → near →
        ∃ t, exec (.ctxStart r) s = .next t ∧ OnlyAnswered s t ∧ Answers s t r 0x31 .timeout [])) ∧
    (∀ (save : Bool) (off : Nat), off < 2 ^ 48 → (save = false → off = 0) → (save = true → r.version = 2) →
      r.body = [BitVec.ofNat 8 p.val, (if save then 1 else 0), 0, 0, 0, 0, 0, 0] ++ bytesLE 8 off →
      ((s.part p).state = .startPending → ∃ t,
        exec (if save then .ctxStopSave r else .ctxStopAbort r) s = .next t ∧ Answers s t r 0x32 .ok [] ∧
        OnlyAnswered (s.modPart p fun x => { x with state := .idle, resume := none }) t) ∧
      ((s.part p).state = .idle → s.proof.errEn = false → ∃ t,
        exec (if save then .ctxStopSave r else .ctxStopAbort r) s = .next t ∧ Answers s t r 0x32 .allocFault [] ∧
        OnlyAnswered s t) ∧
      (save = false → (s.part p).active = true → exec (.ctxStopAbort r) s =
        .next ((executing s .ctxStop r).modPart p fun x => { x with stopReq := some false })) ∧
      (save = true → ((s.part p).state = .running ∨ (s.part p).state = .switchDeferred) → (s.part p).reserved = false →
        s.saveAreaOk off (((s.part p).image.map State.saveSize).getD 0) = true →
        exec (.ctxStopSave r) s =
          .next ((executing s .ctxStop r).modPart p fun x => { x with stopReq := some true, saveOff := off })))

/-- R455, R466, R467: the end of a save whose area lies in HBM, where nothing stands in its way (every stack serves clean
codewords, the pool and the collectives do not run, and there is no local frame): the area begins with the MAGIC of a save
header, the context ends and its partition is idle, and the record of its ring is a CONTEXT record with CODE OK and REASON
saved. A partition that is not saving takes no such event. -/
def Sys2Proof.Claims.ContextSaves : Prop :=
  ∀ (s : State) (p : PartId),
    (∀ im : Image, (s.part p).state = .saving → (s.part p).image = some im → s.qcp.waiting = [] → s.mem.wf = true →
      (∀ i, (s.stack i).refuses = none) → s.damage = [] → s.folio.run = false → s.coll.run = false → s.folio.t1Count = 0 →
      (s.part p).saveOff + 65536 + 9437184 * im.cores ≤ hbmEnd →
      let g := s.ring (s.part p).ring
      ∃ t, exec (.contextSaveEnd p) s = .next t ∧ (t.part p).state = .idle ∧
        t.mem.bytes (s.part p).saveOff 8 = [0x4F, 0x5A, 0x44, 0x58, 0x53, 0x41, 0x56, 0x45] ∧
        (g.set = true → (s.qp g.port g.qp).state = .ready → g.backlog.length < 64 → ∃ x : Rec,
          (t.ring (s.part p).ring).backlog = g.backlog ++ [x] ∧ x.type = 1 ∧ x.code = 0 ∧ x.tick = s.tick.number ∧
          x.body.take 2 = [BitVec.ofNat 8 p.val, 4])) ∧
    ((s.part p).state ≠ .saving → exec (.contextSaveEnd p) s = .next s)

/-- R448, R455, R461, R466, R467: PROGRAM_LOAD with the check of its image, and the end of a save. -/
def Obligations.LoadsAndSaves : Prop := ProgramLoads ∧ ContextSaves

/-- R528, R530, R531: a request on the chip that ends with an error whose bit of ERR_MASK is set latches every bank while the
trigger is armed and the error source enabled, and disarms it; while it is not armed, MISSED counts. With the source
disabled, or the bit clear, nothing is latched. -/
def Sys2Proof.Claims.ErrorTriggers : Prop :=
  ∀ (s : State) (st : Status), st ≠ .ok → statusCode st ≤ 14 → st ≠ .integrity →
    (s.proof.errEn = true → s.proof.errMask.getLsbD (statusCode st) = true → s.proof.errBcast = false →
      (s.proof.armed = true → s.endRequest st = { s with proof := { s.proof with
        armed := false, source := 2, banks := s.latchBanks 2 (statusCode st) } }) ∧
      (s.proof.armed = false → s.endRequest st =
        { s with proof := { s.proof with missed := min 65535 (s.proof.missed + 1) } })) ∧
    (s.proof.errEn = false ∨ s.proof.errMask.getLsbD (statusCode st) = false → s.endRequest st = s)

/-- R446, R531, R532: PROOF_TRIGGER now latches the banks, and disarms the trigger, if the trigger is armed and the source
enabled; armed or not, a disabled source does nothing, and one that finds the trigger disarmed counts in MISSED. At a tick it
sets the tick compare; with BROADCAST it asks for the group's latch at a tick three ahead at the least, and ends with TIMEOUT
for a nearer one. Nothing else changes. -/
def Sys2Proof.Claims.HostTriggers : Prop :=
  ∀ (r : QcpReq) (s : State), Admitted s r →
    (r.body = [0, 0, 0, 0, 0, 0, 0, 0] ++ pairBytes 0 ++ pairBytes 0 → ∀ x : Proof,
      (s.proof.qcpEn = true ∧ s.proof.armed = true ∧ x = { s.proof with
          armed := false, source := 3, banks := (executing s .proofTrigger r).latchBanks 3 0 } ∨
        s.proof.qcpEn = true ∧ s.proof.armed = false ∧ x = { s.proof with missed := min 65535 (s.proof.missed + 1) } ∨
        s.proof.qcpEn = false ∧ x = s.proof) →
      ∃ t, exec (.proofTrigger r) s = .next t ∧ OnlyAnswered { s with proof := x } t ∧ Answers s t r 0x40 .ok []) ∧
    (∀ n, n < 2 ^ 48 → r.body = [1, 0, 0, 0, 0, 0, 0, 0] ++ pairBytes (n % 2 ^ 32) ++ pairBytes (n / 2 ^ 32) →
      ∃ t, exec (.proofTrigger r) s = .next t ∧ Answers s t r 0x40 .ok [] ∧ OnlyAnswered { s with proof := { s.proof with
        tickLo := pair (n % 2 ^ 32), tickHi := pair (n / 2 ^ 32), tickEn := true } } t) ∧
    (∀ n, n < 2 ^ 48 → r.version = 2 →
      r.body = [1, 1, 0, 0, 0, 0, 0, 0] ++ pairBytes (n % 2 ^ 32) ++ pairBytes (n / 2 ^ 32) →
      (s.tick.number + 3 ≤ n → ∃ t, exec (.proofTrigger r) s = .next t ∧ Answers s t r 0x40 .ok [] ∧
        OnlyAnswered { s with proof := { s.proof with bcastAt := some (match s.proof.bcastAt with
          | none => n
          | some x => min n x) } } t) ∧
      (n < s.tick.number + 3 → s.proof.errEn = false → ∃ t, exec (.proofTrigger r) s = .next t ∧
        Answers s t r 0x40 .timeout [] ∧ OnlyAnswered s t))

/-- R446, R528, R530 to R532: triggers of the host and of errors. -/
def Obligations.ProofTriggers : Prop := HostTriggers ∧ ErrorTriggers

/-- R451, R480, R483 to R485, R490, R493: a RESET of an HBM stack, while no recovery runs, begins the stack's recovery, which
fences it, and waits for it; with a crash record already held nothing else changes but the count of missed ones. RESET_TIMEOUT
answers a RESET in execution with TIMEOUT. A RESET of the device is answered with OK before the device's recovery: the epoch
advances by one modulo 2^16, the crash region keeps its bytes, every core, scratchpad and session is as after reset, and the
fuses stay, but for a security version in the course of being blown. While a stack blows a fuse the device's reset waits. -/
def Obligations.ResetRequests : Prop :=
  ∀ (r : QcpReq) (s : State),
    (∀ i : StackId, Taken s r → r.body = [5, BitVec.ofNat 8 i.val, 0, 0, 0, 0, 0, 0] → s.recov.current = none →
      (s.stack i).cause ≠ .thermal → ∃ t, exec (.reset r) s = .next t ∧
        t.qcp.current = some ⟨.reset, r⟩ ∧ t.recov.current = some ⟨.stack, i.val, 2, .draining⟩ ∧
        (t.stack i).fenced = true ∧ (t.stack i).cause = .recovery ∧ t.recov.epoch = s.recov.epoch ∧
        (s.recov.crashValid = true → t = { executing s .reset r with
          recov := { s.recov with
            current := t.recov.current, lastKind := 5, lastIndex := i.val
            recoveries := min 65535 (s.recov.recoveries + 1), crashMissed := min 65535 (s.recov.crashMissed + 1) }
          hbmStacks := s.hbmStacks.set i.val { s.stack i with fenced := true, cause := .recovery } })) ∧
    (Taken s r → r.body = [0, 0, 0, 0, 0, 0, 0, 0] → s.mem.wf = true →
      ((∀ i, (s.stack i).fusing = false) → ∃ t, exec (.resetDevice r) s = .next t ∧ t.recov.epoch = s.recov.epoch + 1 ∧
        t.cores = Vector.replicate 128 {} ∧ t.engines = Vector.replicate 8 {} ∧ t.boot.booted = false ∧
        t.qcp.ready = false ∧ t.fuses = { s.fuses with svn := t.fuses.svn } ∧ (s.sec.busy ≠ some 2 → t.fuses = s.fuses) ∧
        (∀ a, s.crashOff ≤ a → a < s.crashOff + 2 ^ 25 → a < hbmEnd → t.mem.byte a = s.mem.byte a) ∧
        (∀ c o, c < 128 → o < spmSize → t.mem.byte (spmOf c + o) = 0) ∧
        ∃ m, t.out = s.out ++ [.qcp r.src m] ∧ m.drop 32 = []) ∧
      ((∃ i, (s.stack i).fusing = true) → ∃ t, exec (.resetDevice r) s = .next t ∧
        t = { s with out := t.out, recov := { s.recov with current := some ⟨.device, 0, 2, .fuseWait⟩, waiting := [] }
                     qcp := { s.qcp with kept := t.qcp.kept, current := none } } ∧ Answers s t r 0x50 .ok [])) ∧
    (s.qcp.current = some ⟨.reset, r⟩ → s.qcp.waiting = [] → ∃ t, exec .resetTimeout s = .next t ∧ t.qcp.current = none ∧
      Answers s t r 0x50 .timeout [] ∧ t.recov = s.recov ∧ t.cores = s.cores ∧ t.mem = s.mem)

/-- R442, R443, R445: a datagram whose MAGIC, LENGTH or CHECK is wrong is discarded, counted and not answered. A repeat of a
kept TAG is answered with the kept response and not executed again. Before READY the commands marked NOT_READY end with it,
and a command of another epoch ends with EPOCH; neither changes anything. -/
def Obligations.QcpRefusals : Prop :=
  (∀ (src : Word) (d : List Byte) (s : State), s.boot.booted = true →
    (d.length < 32 ∨ d.take 4 ≠ [0x51, 0x43, 0x50, 0x4D] ∨ d.length ≠ 32 + (w32At d 12).toNat ∨
      w32At d 0x1C ≠ crc32c (zeroed d 0x1C 4)) →
    exec (.malformedQcpRequest src d) s =
      .next { s with qcp := { s.qcp with discarded := min 65535 (s.qcp.discarded + 1) } }) ∧
  (∀ (r : QcpReq) (s : State) (m : List Byte), s.boot.booted = true → r.flags = 0 →
    (s.qcp.kept.find? fun k => k.1 == r.src && k.2.1 == r.tag) = some (r.src, r.tag, m) →
    ∀ mk ∈ [Instr.hello, .status, .regRead, .regWrite, .qpConnect, .qpDestroy, .windowSet, .ringSet, .programLoad, .ctxStart,
      .ctxStopAbort, .ctxStopSave, .proofTrigger, .reset, .resetDevice],
      exec (mk r) s = .next { s with
        qcp := { s.qcp with duplicates := min 65535 (s.qcp.duplicates + 1) }, out := s.out ++ [.qcp r.src m] }) ∧
  (∀ (r : QcpReq) (s : State), Taken s r → s.proof.errEn = false →
    ∀ e ∈ [(Instr.regWrite, 0x11, 16 + 8 * (w32At r.body 8).toNat), (Instr.qpConnect, 0x20, 40), (Instr.qpDestroy, 0x21, 8),
      (Instr.windowSet, 0x22, 24), (Instr.ringSet, 0x23, 32), (Instr.programLoad, 0x30, 16), (Instr.ctxStart, 0x31, 32),
      (Instr.ctxStopAbort, 0x32, 16), (Instr.ctxStopSave, 0x32, 16), (Instr.proofTrigger, 0x40, 24)], r.body.length = e.2.2 →
      (s.qcp.ready = false → ∃ t, exec (e.1 r) s = .next t ∧ OnlyAnswered s t ∧ Answers s t r e.2.1 .notReady []) ∧
      (s.qcp.ready = true → r.epoch ≠ s.recov.epoch → ∃ t, exec (e.1 r) s = .next t ∧ OnlyAnswered s t ∧
        Answers s t r e.2.1 .epoch []))

/-! ## HBM (R284 to R301) -/

namespace Sys2Proof.Claims

/-- A request to HBM that nothing refuses: inside the address map and outside the guarded tables, and every stack it
touches serves (R25, R293, R295, R297, R305, R379). -/
def Serves (s : State) (off n : Nat) : Prop :=
  0 < n ∧ off + n ≤ hbmEnd ∧ s.hbmGuarded off n = false ∧ s.hbmRefuses off n = none

/-- No error of the proof unit's error trigger is asked for (R531). -/
def NoTrigger (s : State) : Prop := s.proof.errEn = false

/-- Only one HBM stack and the symbol errors stored with its lines have changed. -/
def OnlyStack (s t : State) (i : StackId) : Prop :=
  t = { s with hbmStacks := t.hbmStacks, damage := t.damage } ∧ ∀ j, j ≠ i → t.stack j = s.stack j

end Sys2Proof.Claims

/-- R287: what the decoder removes has at most t symbols and the syndromes of what it found, so that it always delivers a
codeword within t symbols of the word received. -/
def Sys2Proof.Claims.DecoderIsBounded : Prop :=
  ∀ (n r t : Nat) (e f : Pattern), rsDecode n r t e = some f → f.length ≤ t ∧ syndromes f r = syndromes e r

/-- R25, R288, R289, R293, R305, R379: HBM reads and writes, with the error trigger of R531 off. A read of clean codewords changes
nothing. A read of one codeword that is correctable counts one in CORRECTED and records HBM_CE_ADDR with the symbols
changed; of one that is uncorrectable, it counts one in UNCORRECTED and records HBM_UE_ADDR; either leaves the codeword as
found. A write outside the local frames stores its bytes there and nowhere else; one of a whole codeword leaves it clean. What a
stack refuses, what the V12 keeps to itself, and a request past the end of HBM, changes nothing. -/
def Obligations.HbmAccesses : Prop :=
  ∀ (s : State) (off n : Nat), NoTrigger s →
    (Serves s off n → hasDamage s off n = false → exec (.hbmRead off n []) s = .next s) ∧
    (Serves s off 64 → off % 64 = 0 → s.damageOf off = [] → ∀ (err : List SymbolError) (i : StackId), err ≠ [] →
      i.val = (hbmMap off).1 →
      let e := patternAdd [] (patternOf err)
      e ≠ [] →
      (∀ f, rsDecode 72 8 4 e = some f → f ≠ [] → ∃ t, exec (.hbmRead off 64 err) s = .next t ∧ OnlyStack s t i ∧
        (t.stack i).corrected = min (2 ^ 32 - 1) ((s.stack i).corrected + 1) ∧ (t.stack i).ce = ⟨true, f.length, off⟩ ∧
        (t.stack i).uncorrected = (s.stack i).uncorrected ∧ (t.stack i).ue = (s.stack i).ue ∧ t.damageOf off = e) ∧
      (rsDecode 72 8 4 e = none → ∃ t, exec (.hbmRead off 64 err) s = .next t ∧ OnlyStack s t i ∧
        (t.stack i).uncorrected = min (2 ^ 16 - 1) ((s.stack i).uncorrected + 1) ∧ (t.stack i).ue = ⟨true, 0, off⟩ ∧
        (t.stack i).corrected = (s.stack i).corrected ∧ (t.stack i).ce = (s.stack i).ce ∧ t.damageOf off = e)) ∧
    (∀ data : List Byte, data.length = n → Serves s off n → OffFrames s off n → s.mem.wf = true →
      (hasDamage s off n = false → ∃ t, exec (.hbmWrite off data []) s = .next t ∧ t = { s with mem := t.mem } ∧
        (∀ k, (h : k < data.length) → t.mem.byte (off + k) = data[k]) ∧
        ∀ a, a < off ∨ off + n ≤ a → t.mem.byte a = s.mem.byte a) ∧
      (hasDamage s off n = true → off % 64 = 0 → n = 64 → ∃ t, exec (.hbmWrite off data []) s = .next t ∧
        t = { s with mem := t.mem, damage := t.damage } ∧ t.damageOf off = [] ∧
        (∀ k, (h : k < data.length) → t.mem.byte (off + k) = data[k]) ∧
        ∀ a, a < off ∨ off + n ≤ a → t.mem.byte a = s.mem.byte a)) ∧
    (∀ st data, data.length = n → 0 < n → off + n ≤ hbmEnd → s.hbmGuarded off n = false → s.hbmRefuses off n = some st →
      st ≠ .integrity → exec (.hbmRead off n []) s = .next s ∧ exec (.hbmWrite off data []) s = .next s) ∧
    (∀ data, data.length = n → 0 < n → off < hbmEnd → s.hbmGuarded off n = true ∨ hbmEnd < off + n →
      exec (.hbmRead off n []) s = .next s ∧ exec (.hbmWrite off data []) s = .next s)

/-- R290, R291: while SCRUB_EN is 1 the scrubber of a ready stack takes the next codeword of a pseudo-channel in ascending
order of P. A clean codeword changes nothing else; a correctable one is written back and counted in CORRECTED, an
uncorrectable one is left and counted in SCRUB_UNCORRECTED. With SCRUB_EN 0, or on a stack that is not ready, nothing is
scrubbed. -/
def Sys2Proof.Claims.PatrolScrubs : Prop :=
  ∀ (s : State) (i : StackId) (pc : Fin 32),
    let p := (s.stack i).scrubAt[pc]
    let line := hbmUnmap i.val pc.val p
    ((s.stack i).scrubEn = false ∨ (s.stack i).ready = false → ∀ err, exec (.patrolScrub i pc err) s = .next s) ∧
    ((s.stack i).scrubEn = true → (s.stack i).ready = true →
      let moved (t : State) : Prop := (t.stack i).scrubAt = (s.stack i).scrubAt.set pc.val ((p + 64) % (25165824 * 64))
      (s.damageOf line = [] → ∃ t, exec (.patrolScrub i pc []) s = .next t ∧
        t = s.setStack i { s.stack i with scrubAt := (t.stack i).scrubAt } ∧ moved t) ∧
      (∀ f, s.damageOf line ≠ [] → rsDecode 72 8 4 (s.damageOf line) = some f → f ≠ [] → s.mem.wf = true →
        ∃ t, exec (.patrolScrub i pc []) s = .next t ∧ t = { s with mem := t.mem, damage := t.damage, hbmStacks := t.hbmStacks } ∧
          moved t ∧ t.damageOf line = [] ∧
          t.mem.bytes line 64 = residual (s.peek line 64) (s.damageOf line) f ∧
          (∀ a, a < line ∨ line + 64 ≤ a → t.mem.byte a = s.mem.byte a) ∧
          (t.stack i).corrected = min (2 ^ 32 - 1) ((s.stack i).corrected + 1) ∧
          (t.stack i).scrubUncorrected = (s.stack i).scrubUncorrected ∧ ∀ j, j ≠ i → t.stack j = s.stack j) ∧
      (s.damageOf line ≠ [] → rsDecode 72 8 4 (s.damageOf line) = none → ∃ t,
        exec (.patrolScrub i pc []) s = .next t ∧ t = s.setStack i { s.stack i with
          scrubAt := (t.stack i).scrubAt
          scrubUncorrected := min (2 ^ 16 - 1) ((s.stack i).scrubUncorrected + 1) } ∧ moved t))

/-- R287, R290, R291: the decoder's bound, and patrol scrub. -/
def Obligations.CodewordsAndScrub : Prop := DecoderIsBounded ∧ PatrolScrubs

/-- R37, R292, R294, R295: a powered stack trains with no failing lane and becomes ready with an empty lane map; one that is
ready, or has no power, does not train. A sample sets LAST, PEAK and the band by the table "Stack temperature bands"; above
95 °C the chip's next report asks for a step. Above 105 °C the stack is fenced with cause thermal, and with the tick running
the report asks for the group's stop; up to it nothing changes but the stack's reading and band and that request. Band 0b11
stays. -/
def Sys2Proof.Claims.StackTrainingAndTemperature : Prop :=
  ∀ (s : State) (i : StackId),
    ((s.stack i).ready = false → s.stackResetting i = false → s.phyOn i = true → (s.stack i).fusedLanes = [] →
      (s.stack i).retestLane = none → (s.stack i).retestRow = none → exec (.hbmTraining i []) s =
        .next (s.modStack i fun x => { x with
          ready := true, laneMap := Vector.replicate 32 0, degraded := 0, retrained := false })) ∧
    ((s.stack i).ready = true ∧ s.stackResetting i = false ∨ s.phyOn i = false → ∀ l, exec (.hbmTraining i l) s = .next s) ∧
    (∀ c : Byte, ∃ t, exec (.stackTempSample i c) s = .next t ∧ (t.stack i).last = c.toNat ∧
      (t.stack i).peak = max (s.stack i).peak c.toNat ∧ (t.stack i).sampleTick = BitVec.ofNat 32 s.tick.number ∧
      (∀ j, j ≠ i → t.stack j = s.stack j) ∧ t.mem = s.mem ∧ t.cores = s.cores ∧
      (95 < c.toNat → t.ownReport.stretch = true) ∧
      ((s.stack i).band ≠ 3 → c.toNat ≤ 105 →
        t = { s.setStack i (t.stack i) with tick := { s.tick with hotSince := s.tick.hotSince || decide (95 < c.toNat) } } ∧
        (t.stack i).fenced = (s.stack i).fenced ∧ (t.stack i).cause = (s.stack i).cause ∧
        (t.stack i).band = (if 95 < c.toNat ∨ (s.stack i).band = 2 ∧ 92 < c.toNat then 2
          else if 85 < c.toNat ∨ (s.stack i).band ≠ 0 ∧ 82 < c.toNat then 1 else 0)) ∧
      ((s.stack i).band ≠ 3 → 105 < c.toNat → (t.stack i).band = 3 ∧ (t.stack i).fenced = true ∧
        (t.stack i).cause = .thermal ∧ (s.tick.run = true → t.power.thermAbort = true)) ∧
      ((s.stack i).band = 3 → (t.stack i).band = 3))

/-- R297 to R299: MAINT rises only while RUN is 0, and falls at any time, at once or with the end of the busy mailbox command. The
mailbox of a stack in maintenance takes a command with valid arguments; while busy it ignores one; outside maintenance,
or for HARD_PPR, HARD_LANE and TEST_MODE without debug unlock, the result is DENIED, and a bad argument, or one that is no
paired word, is BAD_ARG. A row repair that succeeds is in force, and its row leaves the candidate list. With no command busy,
none ends. -/
def Sys2Proof.Claims.StackRepairs : Prop :=
  ∀ (s : State) (i : StackId),
    (s.tick.run = false → (s.stack i).maintReq = false →
      exec (.maint i true) s = .next (s.modStack i fun x => { x with maintReq := true, maint := true })) ∧
    (s.tick.run = true → (s.stack i).maintReq = false →
      exec (.maint i true) s = .next { s with tick := { s.tick with badWrite := true } }) ∧
    ((s.stack i).busy = none →
      exec (.maint i false) s = .next (s.modStack i fun x => { x with maintReq := false, maint := false })) ∧
    ((s.stack i).busy.isSome = true →
      exec (.maint i false) s = .next (s.modStack i fun x => { x with maintReq := false })) ∧
    ((s.stack i).busy = none → ∀ rep, exec (.mailboxCommandEnd i rep) s = .next s) ∧
    (∀ e ∈ [(Instr.resources i, 1), (.softPpr i, 2), (.hardPpr i, 3), (.softLane i, 4), (.hardLane i, 5), (.mbist i, 6),
        (.testMode i, 7)],
      ((s.stack i).busy.isSome = true → exec e.1 s = .next s) ∧
      ((s.stack i).busy = none → ((s.stack i).maint = false ∨ (e.2 = 3 ∨ e.2 = 5 ∨ e.2 = 7) ∧ s.sec.perms % 2 = 0) →
        exec e.1 s = .next (s.modStack i fun x => { x with result := 2, data := 0 })) ∧
      ((s.stack i).busy = none → (s.stack i).maint = true → (s.sec.perms % 2 = 1 ∨ ¬ (e.2 = 3 ∨ e.2 = 5 ∨ e.2 = 7)) →
        (pairOk (s.stack i).arg0 = false ∨ pairOk (s.stack i).arg1 = false →
          exec e.1 s = .next (s.modStack i fun x => { x with result := 3, data := 0 })) ∧
        ∀ a0 a1, a0 < 2 ^ 32 → a1 < 2 ^ 32 → (s.stack i).arg0 = pair a0 → (s.stack i).arg1 = pair a1 →
        (mboxArgs e.2 a0 a1 = true →
          exec e.1 s = .next (s.modStack i fun x => { x with busy := some ⟨e.2, a0, a1⟩ })) ∧
        (mboxArgs e.2 a0 a1 = false →
          exec e.1 s = .next (s.modStack i fun x => { x with result := 3, data := 0 })))) ∧
    (∀ (hard : Bool) (a0 : Nat) (rep : MailboxReport), (s.stack i).busy = some ⟨if hard then 3 else 2, a0, 0⟩ →
      s.recov.current = none → rep.spareLeft = true → rep.succeeded = true → ∃ t,
        exec (.mailboxCommandEnd i rep) s = .next t ∧ t = s.setStack i (t.stack i) ∧ (t.stack i).busy = none ∧
        (t.stack i).result = 0 ∧ (t.stack i).maint = ((s.stack i).maint && (s.stack i).maintReq) ∧
        (t.stack i).softRows = (if hard then (s.stack i).softRows else (s.stack i).softRows ++ [rowOfArg a0]) ∧
        (t.stack i).hardRows = (if hard then (s.stack i).hardRows ++ [rowOfArg a0] else (s.stack i).hardRows) ∧
        ∀ k : Fin 8, ((t.stack i).cands[k]).map (·.row) ≠ some (rowOfArg a0))

/-- R292, R294, R295, R297 to R299: training, temperature, maintenance and repairs of an HBM stack. -/
def Obligations.StackServices : Prop := StackTrainingAndTemperature ∧ StackRepairs

/-! ## Command start, delivery and end (R66, R68, R70, R87, R88, R147) -/

namespace Sys2Proof.Claims

/-- A core other than c is in its frame, so that no report leaves now (R31). -/
def OthersRun (s : State) (c : CoreId) : Prop := ∃ d, d ≠ c ∧ (s.core d).running = true

/-- k is the only command of its core. -/
def Only (s : State) (c : CoreId) (k : QCmd) : Prop :=
  (s.core c).allCmds = [k] ∧ ((s.core c).queue k.op.queue).cmds = [k]

/-- k has ended with st: it has left its queue, its number is reached, and the queue's status ring holds its status word
(R68); a failure is the frame's (R70). -/
def HasEnded (t : State) (c : CoreId) (k : QCmd) (st : Status) : Prop :=
  (t.core c).allCmds = [] ∧ k.seq ≤ ((t.core c).queue k.op.queue).ended ∧
  t.mem.bytes (spmOf c.val + ringOff k.op.queue + 8 * (k.seq % 64)) 8 =
    bytesLE 8 (statusCode st + queueCode k.op.queue * 2 ^ 8 + k.seq % 2 ^ 32 * 2 ^ 32) ∧
  (st ≠ .ok → (t.core c).frameFail.isSome = true)

/-- A FOLIO command. -/
def IsFolio (k : QCmd) : Prop := k.op = .folioPromote ∨ k.op = .folioEvict ∨ k.op = .folioFlush

end Sys2Proof.Claims

/-- R66, R87, R147: the command at the head of a queue starts unless an accumulator bank that it uses is held by a running
command of another queue; a wait is counted once. What a started command first does (`startCmd`) leaves it under way, or ends
it; a STENCIL.RUN does nothing yet. PIECE_DELIVERY does what the running head of SQ does at a delivery (`deliverCmd`): a FOLIO.PROMOTE
that has succeeded counts one token, once. With no command at the head of its queue, and for a head that has started (to
COMMAND_START) or has not (to PIECE_DELIVERY), nothing changes. -/
def Sys2Proof.Claims.CommandsStartAndDeliver : Prop :=
  ∀ (c : CoreId) (q : QueueId) (k : QCmd) (s : State), OthersRun s c →
    (((s.core c).queue q).cmds = [] → exec (.commandStart c q) s = .next s) ∧
    (((s.core c).queue q).cmds.head? = some k → k.shadow = false → k.started = true →
      exec (.commandStart c q) s = .next s) ∧
    (((s.core c).queue q).cmds.head? = some k → k.op.queue = q → k.shadow = false → k.started = false → k.doomed = none →
      k.active = true → (s.core c).gateFailed k = none → k.op ≠ .attn →
      (k.banks &&& (s.core c).otherBanks q = 0 → let j : QCmd := { k with started := true, waits := 0 }
        (k.op = .stencilRun → exec (.commandStart c q) s = .next (s.putCmd c j)) ∧
        (¬ IsFolio k → ∀ i t, (startCmd c j).exec (s.putCmd c j) = (.ok i, t) → OthersRun t c →
          exec (.commandStart c q) s = .next (t.putCmd c i)) ∧
        (¬ IsFolio k → ∀ st t, (startCmd c j).exec (s.putCmd c j) = (.error st, t) → st ≠ .ok → Only t c j → OthersRun t c →
          t.mem.wf = true → ∃ u, exec (.commandStart c q) s = .next u ∧ HasEnded u c j st)) ∧
      (k.banks &&& (s.core c).otherBanks q ≠ 0 → k.waits = 0 → exec (.commandStart c q) s =
        .next ((s.modCore c fun x => { x with bankWaits := min (2 ^ 16 - 1) (x.bankWaits + 1) }).putCmd c { k with waits := 1 })) ∧
      (k.banks &&& (s.core c).otherBanks q ≠ 0 → k.waits ≠ 0 → exec (.commandStart c q) s = .next s)) ∧
    (((s.core c).sq.cmds = [] ∨ ∃ j, (s.core c).sq.cmds.head? = some j ∧ j.started = false) →
      exec (.pieceDelivery c) s = .next s) ∧
    (Only s c k → k.op.queue = .sq → k.started = true → ∀ j t, (deliverCmd c k).exec s = (.ok j, t) → Only t c j →
      j.op.queue = .sq → OthersRun t c → exec (.pieceDelivery c) s = .next (t.putCmd c j)) ∧
    (∀ i : Fin 32, Only s c k → k.started = true → k.op = .folioPromote → k.result = some .ok → k.ctr = some i.val →
      k.xh.tokens = 0 → (s.core c).stall = none → (s.core c).stopped = false → ((s.core c).tok[i]).toNat < 65535 →
      exec (.pieceDelivery c) s =
        .next ((s.modCore c fun x => { x with tok := x.tok.set i (x.tok[i] + 1) }).putCmd c
          { k with xh := { k.xh with tokens := 1 } }))

/-- R68, R70: the work of a running command at its end (`finishCmd`) decides its status; the command then leaves its queue, and its
status word is written. Where work is still under way for it, it stays, with what that work has brought. A FOLIO command ends
with what its transfer has brought, and its end writes nothing but its status word and the table control word. -/
def Sys2Proof.Claims.CommandsEnd : Prop :=
  ∀ (c : CoreId) (k : QCmd) (s : State) (now : Nat), OthersRun s c → s.mem.wf = true → Only s c k → k.started = true →
    k.shadow = false →
    (∀ j u, ((finishCmd c k).exec (s.atTime now)) = (.ok (j, true), u) → j.op = k.op → j.seq = k.seq → Only u c k → OthersRun u c →
      u.mem.wf = true → ∃ t, exec (.commandEnd c k.op.queue now) s = .next t ∧ HasEnded t c k .ok) ∧
    (∀ j u, ((finishCmd c k).exec (s.atTime now)) = (.ok (j, false), u) → j.op = k.op → j.seq = k.seq → Only u c k → OthersRun u c →
      exec (.commandEnd c k.op.queue now) s = .next (u.putCmd c j)) ∧
    (∀ u st, ((finishCmd c k).exec (s.atTime now)) = (.error st, u) → Only u c k → OthersRun u c → u.mem.wf = true → st ≠ .ok →
      ∃ t, exec (.commandEnd c k.op.queue now) s = .next t ∧ HasEnded t c k st) ∧
    (∀ st, IsFolio k → k.ctr = none → k.result = some st → ∃ t, exec (.commandEnd c .sq now) s = .next t ∧ HasEnded t c k st ∧
      ∀ a, (a < spmOf c.val + ringOff .sq + 8 * (k.seq % 64) ∨ spmOf c.val + ringOff .sq + 8 * (k.seq % 64) + 8 ≤ a) →
        (a < spmOf c.val + 0x7FF580 ∨ spmOf c.val + 0x7FF588 ≤ a) → t.mem.byte a = s.mem.byte a) ∧
    (IsFolio k → k.result = none → exec (.commandEnd c .sq now) s = .next (s.atTime now))

/-- R66, R68, R70, R87, R147: start, deliveries and end of a queued command. -/
def Obligations.CommandProgress : Prop := CommandsStartAndDeliver ∧ CommandsEnd

/-! ## Folio (R303 to R322) and flash (R323 to R326) -/

namespace Sys2Proof.Claims

/-- Every stack serves and no codeword is in error. -/
def Healthy (s : State) : Prop := s.damage = [] ∧ (∀ i, (s.stack i).refuses = none) ∧ s.mem.wf = true

/-- The directory entry of slot n, with valid words and fields (R310). -/
def Entry (s : State) (n : Nat) (e : DirEntry) : Prop :=
  n < s.folio.dirSlots ∧ parseDir (s.peek (s.slotOff n) 64) = some e ∧ dirRsv (s.peek (s.slotOff n) 64) = true

/-- Memory is unchanged outside the ranges [a, a + n) listed. -/
def SameBut (s t : State) (rs : List (Nat × Nat)) : Prop :=
  ∀ a, (∀ r ∈ rs, a < r.1 ∨ r.1 + r.2 ≤ a) → t.mem.byte a = s.mem.byte a

end Sys2Proof.Claims

/-- R306, R319: START and CLEAR begin a directory check, unless the pool runs or a check is under way; its end sets RUN, with nothing
under way. After CLEAR every slot is ABSENT. STOP ends the pool when its transfers, spills and write-backs have ended. -/
def Obligations.PoolControl : Prop :=
  ∀ s : State,
    (∀ clear : Bool, let i := if clear then Instr.poolClear else .poolStart
      (s.folio.run = true ∨ s.folio.starting.isSome = true → exec i s = .next s) ∧
      (s.folio.run = false → s.folio.starting = none → exec i s = .next { s with folio := { s.folio with
        starting := some clear, cancelled := 0, pinSkips := 0, spills := 0, timeouts := 0 } })) ∧
    (s.folio.starting = none → exec .directoryCheckEnd s = .next s) ∧
    (∀ clear, s.folio.starting = some clear → ∃ t, exec .directoryCheckEnd s = .next t ∧ t.folio.run = true ∧
      t.folio.starting = none ∧ t.folio.spilling = [] ∧ t.folio.transfers = [] ∧ t.folio.serving = [] ∧ t.folio.writing = [] ∧
      t.cores = s.cores ∧ t.tick = s.tick) ∧
    (s.folio.starting = some true → Healthy s → ∃ t, exec .directoryCheckEnd s = .next t ∧ t.folio.frames = [] ∧
      t.folio.units = [] ∧ t.folio.badEntries = 0 ∧
      (∀ n < s.folio.dirSlots, t.peek (s.slotOff n) 64 = absentEntry.bytes) ∧
      SameBut s t [(s.folio.poolBase, 64 * s.folio.dirSlots)]) ∧
    (s.folio.run = true → exec .poolStop s = .next { s with folio := { s.folio with stopping := true } }) ∧
    (s.folio.run = false → exec .poolStop s = .next s) ∧
    (s.folio.stopping = true → s.folio.transfers = [] → s.folio.serving = [] → s.folio.spilling = [] → s.folio.writing = [] →
      exec .poolStopDrained s = .next { s with folio := { s.folio with run := false, stopping := false } }) ∧
    (s.folio.stopping = false ∨ s.folio.transfers ≠ [] ∨ s.folio.serving ≠ [] ∨ s.folio.spilling ≠ [] ∨ s.folio.writing ≠ [] →
      exec .poolStopDrained s = .next s)

/-- R314, R316, R317, R321: what a home serves. A promotion of a RESIDENT folio whose payload has the CHECK of its header is answered
with it; PINS rises by one and AGE becomes the tick; the end of the promotion lowers PINS again. A refresh sets AGE, and a
question about a slot is answered. A write-back to an unpinned slot goes to a free frame, or to that of a KEEP folio that has
one, and the header then names that frame, the payload's size and its CRC-32C; to a pinned slot it waits. A promotion of an ABSENT
slot, or of one outside the directory, is answered with ALLOC_FAULT. -/
def Sys2Proof.Claims.FolioHome : Prop :=
  ∀ (s : State) (n : Nat) (e : DirEntry) (chip : Half), Healthy s → s.folio.run = true →
    (Entry s n e → e.state = 1 → e.size ≤ 65536 → e.loc < s.folio.frameCount →
      (crc32c (s.peek (s.folio.frameOff e.loc) e.size)).toNat = e.check → ∃ t,
      exec (.promotion { chip := chip, slot := n }) s = .next t ∧
      t = { s with mem := t.mem, folio := { s.folio with serving := s.folio.serving ++ [(chip, n)] }, out := t.out } ∧
      t.out = s.out ++ [.folioAnswer chip n .ok (BitVec.ofNat 32 e.format) (s.peek (s.folio.frameOff e.loc) e.size)] ∧
      t.peek (s.slotOff n) 64 = DirEntry.bytes { e with pins := min 65535 (e.pins + 1), age := s.tick.number % 2 ^ 48 } ∧
      SameBut s t [(s.slotOff n, 64)]) ∧
    (Entry s n e → (chip, n) ∈ s.folio.serving → ∃ t, exec (.promotion { chip := chip, slot := n, kind := .ending }) s = .next t ∧
      t = { s with mem := t.mem, folio := { s.folio with serving := s.folio.serving.erase (chip, n) } } ∧
      t.peek (s.slotOff n) 64 = DirEntry.bytes { e with pins := e.pins - 1 } ∧ SameBut s t [(s.slotOff n, 64)]) ∧
    (Entry s n e → e.state ≠ 0 → ∃ t, exec (.promotion { chip := chip, slot := n, kind := .refresh }) s = .next t ∧
      t = { s with mem := t.mem } ∧ t.peek (s.slotOff n) 64 = DirEntry.bytes { e with age := s.tick.number % 2 ^ 48 } ∧
      SameBut s t [(s.slotOff n, 64)]) ∧
    exec (.promotion { chip := chip, slot := n, kind := .probe }) s = .next { s with
      out := s.out ++ [.folioAnswer chip n (if n < s.folio.dirSlots then .ok else .allocFault) 0 []] } ∧
    (∀ (m : WriteBackMsg), m.chip = chip → m.slot = n → m.failAt = none → m.data.length ≤ 65536 → Entry s n e → e.state < 3 →
      (∀ w ∈ s.folio.writing, w.slot ≠ n) → let keep := m.keep || (e.keep && e.state != 0)
      (e.pins ≠ 0 → exec (.writeBack m) s = .next s) ∧
      (e.pins = 0 → (keep = true → e.state = 1 → e.loc < s.folio.frameCount) →
        s.folio.frames.Pairwise (· < ·) → (∀ f ∈ s.folio.frames, f < s.folio.frameCount) →
        s.folio.frames.length < s.folio.frameCount → ∃ t i, exec (.writeBack m) s = .next t ∧ i < s.folio.frameCount ∧
          (keep = true ∧ e.state = 1 ∧ i = e.loc ∨ (keep = false ∨ e.state ≠ 1) ∧ i ∉ s.folio.frames) ∧ i ∈ t.folio.frames ∧
          t = { s with mem := t.mem, free := t.free, out := t.out, folio := { s.folio with
            frames := t.folio.frames, units := t.folio.units } } ∧
          t.out = s.out ++ [.folioAnswer chip n .ok m.format []] ∧ t.peek (s.folio.frameOff i) m.data.length = m.data ∧
          t.peek (s.slotOff n) 64 = DirEntry.bytes ⟨1, keep, i, m.format.toNat, m.data.length,
            s.tick.number % 2 ^ 48, 0, (crc32c m.data).toNat⟩ ∧
          SameBut s t [(s.slotOff n, 64), (s.folio.frameOff i, m.data.length)])) ∧
    ((Entry s n e ∧ e.state = 0 ∨ s.folio.dirSlots ≤ n) → exec (.promotion { chip := chip, slot := n }) s =
      .next { s with out := s.out ++ [.folioAnswer chip n .allocFault 0 []] })

/-- R318: a home short of frames spills its oldest unpinned RESIDENT folio that is not KEEP to a unit of the spill area: the
header reads SPILLING; with no unit free, SPILL_FULL is set. At the end of the flash write the header is SPILLED with the
unit; when the write failed, it is RESIDENT again, the unit is free, and the next candidate is tried. With frames to spare, or
none to spill, nothing begins. -/
def Sys2Proof.Claims.FolioSpills : Prop :=
  ∀ (s : State) (n u : Nat) (e : DirEntry), Healthy s → s.folio.run = true →
    (s.folio.freeFrames ≠ 0 → s.folio.lowater ≤ s.folio.freeFrames → exec .spill s = .next s) ∧
    (s.folio.freeFrames = 0 ∨ s.folio.freeFrames < s.folio.lowater →
      (s.spillVictim.1 = none → exec .spill s = .next { s with folio := { s.folio with passed := [] } }) ∧
      (s.spillVictim.1 = some (n, e) →
        (parseDir (s.peek (s.slotOff n) 64) = some e ∧ e.state = 1 ∧ e.pins = 0 ∧ e.keep = false ∧ n ∉ s.folio.passed ∧
          ∀ m f, m < s.folio.dirSlots → parseDir (s.peek (s.slotOff m) 64) = some f → f.state = 1 → f.pins = 0 →
            f.keep = false → m ∉ s.folio.passed → e.age < f.age ∨ e.age = f.age ∧ n ≤ m) ∧
        (s.folio.spillUnits ≤ s.folio.areaUsed.length →
          exec .spill s = .next { s with folio := { s.folio with spillFull := true } }) ∧
        (s.folio.units.Pairwise (· < ·) → s.folio.areaUsed.length < s.folio.spillUnits → ∃ t v, exec .spill s = .next t ∧
          s.folio.spillBase ≤ v ∧ v < s.folio.spillBase + s.folio.spillUnits ∧ v ∉ s.folio.units ∧
          t = { s with mem := t.mem, free := s.free + 1, folio := { s.folio with
            units := insertNat v s.folio.units, spilling := s.folio.spilling ++ [(n, v)] } } ∧
          t.peek (s.slotOff n) 64 = DirEntry.bytes { e with state := 3 } ∧ SameBut s t [(s.slotOff n, 64)]))) ∧
    (s.folio.spilling.find? (fun x => x.1 == n) = some (n, u) → Entry s n e →
      (∃ t, t = { s with mem := t.mem, folio := { s.folio with
          passed := insertNat n s.folio.passed
          spilling := s.folio.spilling.filter (fun x => x.1 != n), units := s.folio.units.filter (· != u) } } ∧
        t.peek (s.slotOff n) 64 = DirEntry.bytes { e with state := 1 } ∧ SameBut s t [(s.slotOff n, 64)] ∧
        exec (.spillEnd n false) s = exec .spill t) ∧
      (((flashWrite (flashBase + 65536 * u) (s.peek (s.folio.frameOff e.loc) e.size) true).exec s).1 = .ok () →
        ∃ t, exec (.spillEnd n true) s = .next t ∧ t.folio = { s.folio with
          spilling := s.folio.spilling.filter (fun x => x.1 != n), frames := s.folio.frames.filter (· != e.loc)
          spills := min (2 ^ 16 - 1) (s.folio.spills + 1), passed := [], touched := t.folio.touched } ∧
        t.peek (s.slotOff n) 64 = DirEntry.bytes { e with state := 2, loc := u })) ∧
    (s.folio.spilling.find? (fun x => x.1 == n) = none → ∀ ok, exec (.spillEnd n ok) s = .next s)

/-- R314, R316 to R318, R321: promotions, write-backs and spills at the home. -/
def Obligations.FolioHomes : Prop := FolioHome ∧ FolioSpills

/-- R314, R315, R320: at the requester, the payload that answers a promotion fills its local frame, the local entry is
RESIDENT, clean, with the payload's format and size, and the home is told that the promotion has ended; a home that has the slot
of a PROMOTE with NEW lets its frame be bound, dirty; and the answer to an eviction that nothing wrote to meanwhile empties its
entry. An answer for no transfer changes nothing. A FOLIO command whose limit
has run out ends with TIMEOUT; before that, nothing changes. -/
def Obligations.FolioRequester : Prop :=
  ∀ (s : State) (h : Nat), s.mem.wf = true →
    (∀ (x : LocalEntry) (kind : FolioKind), Healthy s → s.folio.transfers.find? (fun e => e.1 == h) = some (h, kind) →
      parseLocal (s.peek (s.folio.tableOff + 64 * h) 64) = .ok x → h < s.folio.t1Count → s.folioWaiters h 4 = [] →
      let rest : Folio := { s.folio with transfers := s.folio.transfers.filter (fun e => e.1 != h)
                                         touched := s.folio.touched.filter (· != h) }
      let entry (t : State) (e : LocalEntry) : Prop := t.peek (s.folio.tableOff + 64 * h) 64 = e.bytes
      (∀ (fmt : Word32) (data : List Byte), kind = .promote → data.length ≤ 65536 → ∃ t,
        exec (.folioTransferEnd h (.payload fmt data.length data)) s = .next t ∧
        t.peek (s.folio.localOff h) data.length = data ∧ entry t ⟨2, false, false, x.slot, x.chip, fmt.toNat, data.length⟩ ∧
        SameBut s t [(s.folio.localOff h, data.length), (s.folio.tableOff + 64 * h, 64)] ∧ t.folio = rest ∧
        t.out = s.out ++ [.folioEnd (BitVec.ofNat 16 x.chip) x.slot]) ∧
      (∀ chip slot format size, kind = .new chip slot format size false → ∃ t, exec (.folioTransferEnd h .done) s = .next t ∧
        entry t ⟨2, true, false, slot, chip, format, size⟩ ∧ SameBut s t [(s.folio.tableOff + 64 * h, 64)] ∧
        t.folio = { rest with keeps := s.folio.keeps.filter (· != h) } ∧ t.out = s.out) ∧
      (kind = .evict → x.cancel = false → s.folio.touched.contains h = false → ∃ t,
        exec (.folioTransferEnd h .done) s = .next t ∧ entry t ⟨0, false, false, 0, 0, 0, 0⟩ ∧
        SameBut s t [(s.folio.tableOff + 64 * h, 64)] ∧ t.folio = { rest with keeps := s.folio.keeps.filter (· != h) } ∧
        t.out = s.out)) ∧
    (s.folio.transfers.find? (fun e => e.1 == h) = none → ∀ a, exec (.folioTransferEnd h a) s = .next s) ∧
    (∀ (c : CoreId) (k : QCmd), (s.core c).sq.cmds.head? = some k →
      (k.started = false ∨ k.waits < s.folio.timeout ∨ k.result.isSome = true → exec (.folioTimeout c) s = .next s) ∧
      (Only s c k → OthersRun s c → IsFolio k → k.started = true → k.result = none → k.await ≠ 1 →
        s.folio.timeout ≤ k.waits → ∃ t, exec (.folioTimeout c) s = .next t ∧ HasEnded t c k .timeout ∧
          t.folio = { s.folio with timeouts := min (2 ^ 16 - 1) (s.folio.timeouts + 1) }))

/-- R324, R325: the flash translation layer, with the error trigger of R531 off. A write within one unit goes to a block that holds
nothing, with a journal record; it reads back at once, every other flash byte stays, and its answer waits for the commit. A
commit keeps what every logical unit reads as, makes it safe, and answers the writes that waited. A read leaves the data as
it is, and the command that awaits it receives it. While the layer is not ready, and for writes while it is read-only,
requests fail with LOWER_TIER and change nothing. FTL_START replays the journal, drops what was not committed and sets LOCK; it
does nothing where the configuration leaves the layer stopped. -/
def Obligations.FlashLayer : Prop :=
  ∀ s : State, NoTrigger s → s.nand.wf = true →
    (∀ w ∈ s.ftl.waiting, ∃ r ∈ s.ftl.pendingRecs, r.seq < w.seq) →
    let map (l : Nat) : Nat := s.ftl.mapBase.toNat * 65536 + 4 * l
    let only (t : State) : Prop := t = { s with mem := t.mem, nand := t.nand, ftl := t.ftl, damage := t.damage
                                                hbmStacks := t.hbmStacks, folio := t.folio, out := t.out }
    let refused : State := { s with out := s.out ++ [.access .lowerTier []] }
    (∀ (o n : Nat) (data : List Byte) (b : Nat), data.length = n → 0 < n → o / 65536 = (o + n - 1) / 65536 →
      flashBase + o + n ≤ flashEnd → o + n ≤ s.ftl.capacity * 65536 → s.ftl.ready = true →
      (s.ftl.readOnly = false → s.ftl.newBlock = some b → ∃ t, exec (.flashWrite (flashBase + o) data true) s = .next t ∧
        only t ∧ t.out = s.out ∧ t.ftl.waiting = s.ftl.waiting ++ [⟨s.ftl.nextSeq + 1, none⟩] ∧
        t.ftl.pendingRecs = s.ftl.pendingRecs ++ [⟨s.ftl.nextSeq, o / 65536, b⟩] ∧ t.flashBytes o n = data ∧
        (∀ a, a < o ∨ o + n ≤ a → t.flashBytes a 1 = s.flashBytes a 1) ∧ t.ftl.journal = s.ftl.journal ∧
        (Healthy s → OffFrames s (map (o / 65536)) 4 → SameBut s t [(map (o / 65536), 4)] ∧ t.damage = s.damage ∧
          t.hbmStacks = s.hbmStacks ∧ t.folio = s.folio)) ∧
      (s.ftl.readOnly = true → exec (.flashWrite (flashBase + o) data true) s = .next refused) ∧
      (∀ d, mapFind s.ftl.current (o / 65536) = some d → (s.ftl.block d).reads + 1 ≠ s.ftl.rdLimit * 1000 →
        let t := { s with ftl := s.ftl.setBlock d { s.ftl.block d with reads := (s.ftl.block d).reads + 1 } }
        ((∀ c, s.flashWaiter c (flashBase + o) n = none) → exec (.flashRead (flashBase + o) n true) s = .next t) ∧
        (∀ c k, (∀ c', c'.val < c.val → s.flashWaiter c' (flashBase + o) n = none) →
          s.flashWaiter c (flashBase + o) n = some k → ∃ l, exec (.flashRead (flashBase + o) n true) s =
            .next (t.putCmd c { k with reads := l }) ∧ ∀ u, flashBase + o ≤ u → u % 64 = 0 → u + 64 ≤ flashBase + o + n →
              (s.chip * 2 ^ 48 + u, s.flashBytes (u - flashBase) 64) ∈ l))) ∧
    (s.ftl.ready = false → ∀ o n data, data.length = n → 0 < n → flashBase + o + n ≤ flashEnd →
      ((∀ c, s.flashWaiter c (flashBase + o) n = none) → exec (.flashRead (flashBase + o) n true) s = .next s) ∧
      exec (.flashWrite (flashBase + o) data true) s = .next refused ∧ exec .journalCommit s = .next s) ∧
    (s.ftl.ready = true → ∃ t, exec .journalCommit s = .next t ∧
      t.ftl.commits = min (2 ^ 32 - 1) (s.ftl.commits + 1) ∧ t.ftl.waiting = [] ∧
      (∀ l, mapFind t.ftl.committed l = mapFind s.ftl.current l) ∧ (∀ a, t.flashBytes a 1 = s.flashBytes a 1) ∧
      ((∀ w ∈ s.ftl.waiting, w.back = none) →
        t = { s with mem := t.mem, nand := t.nand, ftl := t.ftl, damage := t.damage, hbmStacks := t.hbmStacks, folio := t.folio
                     free := t.free, out := s.out ++ s.ftl.waiting.map fun _ => .access .ok [] })) ∧
    (s.ftl.ready = true ∨ s.cfg.ftl = 0 → ∀ bad, exec (.ftlStart bad) s = .next s) ∧
    (s.ftl.ready = false → s.cfg.ftl ≠ 0 → ∀ bad, ∃ t, exec (.ftlStart bad) s = .next t ∧ t.ftl.ready = true ∧
      t.ftl.lock = true ∧ t.ftl.pendingRecs = [] ∧ t.ftl.journal = replay bad none s.ftl.journal ∧
      t.ftl.nextSeq = nextAfter s.ftl.nextSeq t.ftl.journal ∧
      t.ftl.mapBase = BitVec.ofNat 32 s.cfg.ftl ∧ t.nand = s.nand ∧ t.cores = s.cores)

/-! ## Crosshatch (R353 to R378) and collectives (R379 to R400) -/

namespace Sys2Proof.Claims

/-- A header with every field in its range (R354). -/
def HdrOk (h : Hdr) : Prop :=
  h.dest < 4096 ∧ h.kind ≤ 6 ∧ h.vc < 2 ∧ h.run < 4 ∧ h.spread < 12 ∧ h.cred < 256 ∧ h.cpool < 3

/-- A port that is up. -/
def Up (s : State) (p : PortId) : Prop := (s.port p).state = .upData ∨ (s.port p).state = .upMgmt

/-- Nothing waits at any port, and no credit is to be returned. -/
def Calm (s : State) : Prop :=
  ∀ p, (s.port p).outq = [] ∧ (s.port p).owedVc0 = 0 ∧ (s.port p).owedVc1 = 0 ∧ (s.port p).owedMgmt = 0

/-- A stroke of 544 bytes that reads, without correction, as h with body b. -/
def Reads (stroke : List Byte) (h : Hdr) (b : List Byte) : Prop :=
  stroke.length = 544 ∧ readHeader stroke = some (h, false) ∧ readBody stroke = some b ∧ b.length = 512

/-- The state after port p has taken the header of a stroke: its credits, and the count of a corrected one (R353, R366). -/
def taken (s : State) (p : PortId) (h : Hdr) (fixed : Bool) : State :=
  s.modPort p fun x =>
    (if fixed then { x with hdrCorrected := min (2 ^ 16 - 1) (x.hdrCorrected + 1) } else x).addCredits h.cpool h.cred

/-- The state after port p has counted an uncorrectable stroke. -/
def countBroken (s : State) (p : PortId) : State :=
  s.modPort p fun x => { x with uncorrected := min (2 ^ 8 - 1) (x.uncorrected + 1) }

/-- The idle stroke that returns one credit of a pool. -/
def creditStroke (pool : Nat) : List Byte := encodeStroke { dest := 0, kind := 0, cred := 1, cpool := pool } (zeros 512)

/-- An attempt begins at port p (R368, R375): stage 2, its buffers empty; or it stays pending. -/
def begun (s : State) (p : PortId) : State :=
  (s.flushPort p).setPort p { (s.flushPort p).port p with state := .equalise, waiting := false }
def pended (s : State) (p : PortId) : State :=
  (s.flushPort p).setPort p { (s.flushPort p).port p with
    waiting := true, state := if (s.port p).state = .backOff then .backOff else .idle }

/-- What a failed attempt leaves (R369): back-off, or after 32 attempts the failed state, with the cause. -/
def FailedAttempt (s t : State) (p : PortId) (c : PortCause) : Prop :=
  t = s.setPort p (t.port p) ∧ (t.port p).attempts = min 255 ((s.port p).attempts + 1) ∧ (t.port p).cause = c ∧
  ((t.port p).state = if 32 ≤ min 255 ((s.port p).attempts + 1) then .failed else .backOff)

end Sys2Proof.Claims

/-- R353, R354: decode of encode. A stroke made of a header whose fields are in range and of 512 body bytes has 544 bytes
and reads back, uncorrected, as that header and those bytes. -/
def Obligations.StrokeRoundTrip : Prop :=
  ∀ (h : Hdr) (body : List Byte), HdrOk h → body.length = 512 →
    (encodeStroke h body).length = 544 ∧ readHeader (encodeStroke h body) = some (h, false) ∧
      readBody (encodeStroke h body) = some body

/-- R358, R361 to R363, R366, R373: a stroke for another chip, at a chip where nothing else waits. Between ports of one class, fewer than
three times retimed, it leaves by the port that its route gives with RUN one higher and the body as it is; else its body is
encoded anew, and marked BAD and counted where it cannot be corrected. It takes one credit there, its own buffer's credit goes
back, and the credits that it carries are added at its port; without a credit, or while another packet of its VC is in
progress, it waits there. With no port up toward its destination it is dropped, and the credit goes back. A header that
cannot be read is counted. A port that is not up takes nothing, and a management-only port forwards management strokes
alone. -/
def Sys2Proof.Claims.StrokesForward : Prop :=
  ∀ (s : State) (p : PortId) (stroke : List Byte), stroke.length = 544 →
    (¬ Up s p → exec (.strokeForward p stroke) s = .next s) ∧
    (Up s p → readHeader stroke = none → exec (.strokeForward p stroke) s =
      .next (s.modPort p fun x => { x with hdrLost := min (2 ^ 8 - 1) (x.hdrLost + 1) })) ∧
    ∀ (h : Hdr) (fixed : Bool), Up s p → Calm s → readHeader stroke = some (h, fixed) →
      let s1 := taken s p h fixed
      (h.kind = 0 ∨ h.kind = 6 ∨ (s.port p).carries h = false → exec (.strokeForward p stroke) s = .next s1) ∧
      (1 ≤ h.kind → h.kind ≤ 5 → (s.port p).carries h = true →
        ((∀ l leaves, routePort s.chip (s.fabric.rowRacks + 1) h.dest h.spread = some (l, leaves) → s.outPort l h.spread = none) →
          exec (.strokeForward p stroke) s = .next (s1.emit (.strokes p.val [creditStroke (poolOf h)]))) ∧
        ∀ l leaves q, routePort s.chip (s.fabric.rowRacks + 1) h.dest h.spread = some (l, leaves) →
          s.outPort l h.spread = some q →
          let g : Hdr := { h with vc := if leaves then 1 else h.vc, cred := 0, cpool := 0 }
          let anew : Bool := decide (s.classOf p ≠ s.classOf q ∨ h.run = 3)
          let s2 := if anew && (readBody stroke).isNone then countBroken s1 p else s1
          let sent : List Byte := if anew then (match readBody stroke with
              | some b => encodeStroke { g with run := 0 } b
              | none => encodeStroke { g with run := 0, bad := true } (slice stroke 8 512))
            else reheader { g with run := h.run + 1 } stroke
          let goes : Prop := 0 < (s2.port q).credits (poolOf g) ∧ (s.fabric.stopping = false ∧
            (poolOf g = 2 ∨ (s.port q).inPacket (poolOf g) = none) ∨
            poolOf g ≠ 2 ∧ (s.port q).inPacket (poolOf g) = some (some p))
          (goes → ∃ t, exec (.strokeForward p stroke) s = .next t ∧ t = { s2 with ports := t.ports, out := s.out ++
              [.strokes q.val [sent], .strokes p.val [creditStroke (poolOf h)]] } ∧
            (t.port q).credits (poolOf g) = (s2.port q).credits (poolOf g) - 1 ∧ ∀ r, r ≠ q → t.port r = s2.port r) ∧
          (¬ goes → exec (.strokeForward p stroke) s = .next (s2.modPort q fun x => { x with
            outq := x.outq ++ [{ pool := poolOf g, src := some p, srcPool := poolOf h, kind := h.kind, bytes := sent }] })))

/-- R364, R366: an idle stroke returns its credits, and its body bytes that differ from zero are counted, in IDLE_ERRORS and in the
window of 2^32 body bytes, whose 430th error sets DEGRADED. Any other stroke of this command returns its credits alone; a
header that cannot be read is counted. -/
def Sys2Proof.Claims.IdleStrokes : Prop :=
  ∀ (s : State) (p : PortId) (stroke : List Byte), stroke.length = 544 →
    (¬ Up s p → exec (.idleStroke p stroke) s = .next s) ∧
    (Up s p → readHeader stroke = none → exec (.idleStroke p stroke) s =
      .next (s.modPort p fun x => { x with hdrLost := min (2 ^ 8 - 1) (x.hdrLost + 1) })) ∧
    ∀ (h : Hdr) (fixed : Bool), Up s p → Calm s → readHeader stroke = some (h, fixed) →
      (h.kind ≠ 0 → exec (.idleStroke p stroke) s = .next (taken s p h fixed)) ∧
      (h.kind = 0 → let n := ((slice stroke 8 512).filter (· != 0)).length
        exec (.idleStroke p stroke) s = .next ((taken s p h fixed).modPort p fun x =>
          let w := if x.windowBytes < 2 ^ 32 then (x.windowBytes, x.windowErrors) else (0, 0)
          { x with
            idleErrors := min (2 ^ 32 - 1) (x.idleErrors + n), windowBytes := w.1 + 512
            windowErrors := w.2 + n, degraded := x.degraded || decide (429 < w.2 + n) }))

/-- R358, R361 to R364, R366, R373: strokes for another chip, and idle strokes. -/
def Obligations.StrokesAtPorts : Prop := StrokesForward ∧ IdleStrokes

/-- R356, R357, R559: a write request of one stroke and of the device's epoch, to HBM outside the local frames, stores its data and
nothing else; one of another epoch stores nothing. When a request of this chip times out, its command keeps TIMEOUT, or FENCED where its packet
was discarded; a tag that nothing awaits changes nothing. -/
def Obligations.PacketsAndTimeouts : Prop :=
  ∀ (s : State), NoTrigger s →
    (∀ (p : PortId) (stroke : List Byte) (h : Hdr) (b : List Byte) (r : Trans), Reads stroke h b → HdrOk h → h.kind = 4 →
      h.dest = s.chip → h.bad = false → h.cred = 0 → Up s p → Calm s → s.allDone = false → readTrans b = some r →
      r.dest = s.chip → r.op = 1 → 1 ≤ r.units → r.units ≤ 7 → Healthy s → OffFrames s r.addr (64 * r.units) →
      r.addr + 64 * r.units ≤ hbmEnd → s.hbmGuarded r.addr (64 * r.units) = false →
      ∃ t, exec (.packetReceive p [stroke]) s = .next t ∧ t = { s with mem := t.mem, ports := t.ports, out := t.out } ∧
        (r.epoch = s.epoch.toNat → t.mem.bytes r.addr (64 * r.units) = slice b 64 (64 * r.units) ∧
          SameBut s t [(r.addr, 64 * r.units)]) ∧
        (r.epoch ≠ s.epoch.toNat → t.mem = s.mem)) ∧
    (∀ (tag : BitVec 24) (o : Outstanding) (discarded : Bool), s.fabric.outstanding.find? (fun x => x.tag == tag.toNat) = some o →
      OthersRun s o.core →
      let rest : State :=
        { s with fabric := { s.fabric with outstanding := s.fabric.outstanding.filter fun x => x.tag != o.tag } }
      ((s.core o.core).allCmds = [] → exec (.requestTimeout tag discarded) s = .next rest) ∧
      (∀ k, Only s o.core k → k.op ∈ [EngOp.strmCopy, .strmFlash, .strmFadd, .kvPage] → o.queue = .sq → o.seq = k.seq →
        k.result = none → exec (.requestTimeout tag discarded) s = .next (rest.putCmd o.core { k with
          await := k.await - 1, result := some (if o.lost ∨ discarded then .fenced else .timeout) }))) ∧
    (∀ (tag : BitVec 24) (discarded : Bool), s.fabric.outstanding.find? (fun x => x.tag == tag.toNat) = none →
      exec (.requestTimeout tag discarded) s = .next s)

/-- R368 to R374: the stages of training. Stage 2 ends in stage 3; stage 3, with at most four bit errors on every lane, ends in
the identity exchange, for which this side sends its identity stroke; a fitting identity with a verified member, which
this side answers unless it has, and the delay measurement bring the port up with all its credits. A failed stage 2 or 3, an
identity stroke with an invalid word and a delay measurement that is cut short end the attempt; a peer that is no verified
member leaves the port down. A stage's event at a port in another state changes nothing. -/
def Obligations.TrainingStages : Prop :=
  ∀ (s : State) (p : PortId),
    ((s.port p).state = .equalise → exec (.equalise p true) s = .next (s.modPort p fun x => { x with state := .errorTest }) ∧
      ∃ t, exec (.equalise p false) s = .next t ∧ FailedAttempt s t p .timeout) ∧
    ((s.port p).state ≠ .equalise → ∀ ok, exec (.equalise p ok) s = .next s) ∧
    (∀ a b c d : Nat, (s.port p).state = .errorTest →
      (a ≤ 4 → b ≤ 4 → c ≤ 4 → d ≤ 4 → exec (.errorTest p [a, b, c, d]) s =
        .next ((s.modPort p fun x => { x with state := .identity, identityMode := none }).emit
          (.identity p.val (s.identityBody p 0) 0))) ∧
      (4 < a ∨ 4 < b ∨ 4 < c ∨ 4 < d → ∃ t, exec (.errorTest p [a, b, c, d]) s = .next t ∧ FailedAttempt s t p .ber)) ∧
    (∀ (chip logical fw proto : Nat) (rest : List Byte), chip < 2 ^ 16 → logical < 64 → fw < 2 ^ 16 → 1 ≤ proto → proto ≤ 3 →
      (s.port p).state = .identity → (s.port p).level < 4 → (s.port p).cls < 4 → (s.port p).expect = pair chip →
      (s.port p).peerPort = logical → s.boot.abi < 2 ^ 26 → ((s.port p).mode = 1 ∨ (s.port p).mode = 2) →
      let b := pairBytes chip ++ pairBytes (logical * 256 + (s.port p).level * 64 + (s.port p).cls * 16) ++ pairBytes fw ++
        pairBytes proto ++ pairBytes s.boot.abi ++ pairBytes 0
      ∃ t, exec (.identityStroke p (b ++ s.memberTag b ++ rest)) s = .next t ∧
        (t.port p).state = .identity ∧ (t.port p).identityMode = some (s.port p).mode ∧ (t.port p).cause = .none ∧
        (t.port p).peer = chip ∧ (t.port p).logical = p.val ∧ (∀ q, q ≠ p → t.port q = s.port q) ∧
        ((s.port p).identityMode = none → t.out = s.out ++ [.identity p.val (s.identityBody p 0) 0]) ∧
        ((s.port p).identityMode ≠ none → t.out = s.out) ∧ t.cores = s.cores ∧ t.mem = s.mem) ∧
    (∀ body : List Byte, (s.port p).state = .identity → 64 ≤ body.length →
      ((∃ i < 6, pairOk (w64At body (8 * i)) = false) → ∃ t, exec (.identityStroke p body) s = .next t ∧
        FailedAttempt s t p .timeout) ∧
      ((∀ i < 6, pairOk (w64At body (8 * i)) = true) → slice body 0x30 16 ≠ s.memberTag body → ∃ t,
        exec (.identityStroke p body) s = .next t ∧ (t.port p).state = .idle ∧ (t.port p).cause = .auth ∧
        ∀ q, q ≠ p → t.port q = s.port q)) ∧
    (∀ (m : Nat) (l : List Nat) (d : Nat), (s.port p).state = .identity → (s.port p).identityMode = some m → l.length < 64 →
      ∃ t, exec (.delayMeasurement p l d) s = .next t ∧ FailedAttempt s t p .timeout) ∧
    (∀ (m : Nat) (l : List Nat) (d : Nat), (s.port p).state = .identity → (s.port p).identityMode = some m → 64 ≤ l.length →
      (s.port p).cause = .none → ∃ t, exec (.delayMeasurement p l d) s = .next t ∧ t = s.setPort p (t.port p) ∧
        (t.port p).state = (if m = 2 then .upData else .upMgmt) ∧ (t.port p).credVc0 = 48 ∧ (t.port p).credVc1 = 48 ∧
        (t.port p).credMgmt = 8) ∧
    (∀ a b c d : Nat, (s.port p).state ≠ .errorTest → exec (.errorTest p [a, b, c, d]) s = .next s) ∧
    (∀ (body : List Byte) (l : List Nat) (d : Nat), (s.port p).state ≠ .identity → 64 ≤ body.length →
      exec (.identityStroke p body) s = .next s ∧ exec (.delayMeasurement p l d) s = .next s)

/-- R20, R369, R375, R376, R509: attempts. A port with MODE data or management-only that retrains, loses its signal, ends its
back-off or receives its slot enters stage 2 with its buffers empty, where its link die is powered, training is permitted and
fewer than nine ports of the die train; else it stays pending. Strokes that came over it no longer wait at another port.
RETRAIN and RETRAIN_ALL also clear ATTEMPTS, and leave a port that does not train as it is. START makes every port's logical
number its own, and the ports whose MODE lets them train begin or pend. Boot firmware writes START once training is permitted
and the configuration applied. STOP, ignored while the tick runs, ends with every port idle once the packets begun are
finished. -/
def Obligations.FabricControl : Prop :=
  ∀ (s : State) (p : PortId),
    let room := s.fabric.permitted = true ∧ s.linkDieOn p.val = true ∧ s.slotsUsed (dieOfPort p.val) < 9
    let fresh := s.modPort p fun x => { x with attempts := 0, waiting := false }
    ((s.flushPort p).port p = (s.port p).flush ∧ ∀ q, q ≠ p → ∀ o ∈ ((s.flushPort p).port q).outq, o.src ≠ some p) ∧
    (s.fabric.run = true → (s.port p).trains = true →
      (room → exec (.retrain p) s = .next (begun fresh p)) ∧ (¬ room → exec (.retrain p) s = .next (pended fresh p)) ∧
      (Up s p → (room → exec (.lossOfSignal p) s = .next (begun s p)) ∧ (¬ room → exec (.lossOfSignal p) s = .next (pended s p))) ∧
      ((s.port p).state = .backOff → (s.port p).waiting = false → (room → exec (.backOff p) s = .next (begun s p)) ∧
        (¬ room → exec (.backOff p) s = .next (pended s p))) ∧
      ((s.port p).waiting = true → (∀ q, q < p → dieOfPort q.val = dieOfPort p.val → (s.port q).waiting = false) →
        (room → exec (.trainingSlot p) s = .next (begun s p)) ∧ (¬ room → exec (.trainingSlot p) s = .next (pended s p)))) ∧
    (¬ Up s p → exec (.lossOfSignal p) s = .next s) ∧
    ((s.port p).state ≠ .backOff ∨ (s.port p).waiting = true → exec (.backOff p) s = .next s) ∧
    ((s.port p).waiting = false → exec (.trainingSlot p) s = .next s) ∧
    (s.fabric.run = false ∨ (s.port p).trains = false → exec (.retrain p) s = .next s) ∧
    (s.fabric.run = false → exec .retrainAll s = .next s) ∧
    (s.fabric.run = true → ∃ t, exec .retrainAll s = .next t ∧ t = { s with ports := t.ports, out := t.out } ∧ ∀ q,
      ((s.port q).trains = true → (t.port q).attempts = 0 ∧ ((t.port q).state = .equalise ∨ (t.port q).waiting = true)) ∧
      ((s.port q).trains = false → (t.port q).attempts = (s.port q).attempts ∧ (t.port q).state = (s.port q).state ∧
        (t.port q).waiting = (s.port q).waiting)) ∧
    (s.fabric.run = true → exec .xhStart s = .next s) ∧
    (s.fabric.run = false → ∃ t, exec .xhStart s = .next t ∧
      t = { s with cfg := t.cfg, fabric := t.fabric, ports := t.ports, out := t.out } ∧
      t.fabric = { s.fabric with run := true, stopping := false } ∧ (s.cfg.nextKey = none → t.cfg = s.cfg) ∧
      (∀ k n, s.cfg.nextKey = some (k, n) → t.cfg = { s.cfg with
        key := k, keyGen := n, nextKey := none, memberNone := k.isNone }) ∧
      ∀ q : PortId, (t.port q).logical = q.val ∧ (t.port q).attempts = 0 ∧
        ((s.port q).trains = true → (t.port q).state = .equalise ∨ (t.port q).waiting = true) ∧
        ((s.port q).trains = false → (t.port q).state = .idle ∧ (t.port q).waiting = false)) ∧
    (s.boot.booted = false ∨ s.cfg.applied = false → exec .fabricTrainingPermitted s = .next s) ∧
    (s.boot.booted = true → s.cfg.applied = true → ∃ t, exec .fabricTrainingPermitted s = .next t ∧
      t.fabric.permitted = true ∧ t.fabric.run = true) ∧
    (s.tick.run = true ∨ s.fabric.run = false → exec .xhStop s = .next s) ∧
    (s.tick.run = false → s.fabric.run = true →
      exec .xhStop s = .next { s with fabric := { s.fabric with stopping := true } }) ∧
    (s.fabric.run = false ∨ s.fabric.stopping = false ∨ (∃ q, (s.port q).open0 ≠ none ∨ (s.port q).open1 ≠ none) →
      exec .xhStopDrained s = .next s) ∧
    (s.fabric.run = true → s.fabric.stopping = true → (∀ q, (s.port q).open0 = none ∧ (s.port q).open1 = none) → ∃ t,
      exec .xhStopDrained s = .next t ∧
      t = { s with fabric := { s.fabric with run := false, stopping := false }, ports := t.ports } ∧
      ∀ q, t.port q = { (s.port q).flush with state := .idle, waiting := false })

/-- R387, R393, R394, R400, R559: collective events. A grant of the device's epoch is kept, and the running step of its core goes on;
one of another epoch has no effect. The first abort of a collective is counted and recorded, goes on to the members next to this
one in the group's table entry, and ends the running XH command of its group and SEQ with the abort's status; a repeat, and
one of another epoch, has no effect. A step that has waited for WAIT_LIMIT periods ends with TIMEOUT; with no step running, or
before, nothing changes. START clears the counters and STOP ends the unit once no XH command is queued. -/
def Obligations.CollectiveEvents : Prop :=
  ∀ s : State, s.mem.wf = true →
    (∀ g : GrantMsg, let kept := { s with coll := { s.coll with grants := s.coll.grants ++ [g] } }
      (g.epoch ≠ s.epoch → exec (.grant g) s = .next s) ∧
      (g.epoch = s.epoch → s.runningXh g.core = none → exec (.grant g) s = .next kept) ∧
      (∀ k, g.epoch = s.epoch → s.runningXh g.core = some k → let j : QCmd := { k with waits := 0 }
        ∀ i t, (pumpXh g.core j).exec (kept.putCmd g.core j) = (.ok i, t) → i.op = k.op → i.seq = k.seq → Only t g.core j →
          OthersRun t g.core → exec (.grant g) s = .next (t.putCmd g.core i))) ∧
    (∀ g : Nat, Healthy s → s.groupEntry g =
      ((let e : GroupEntry := ⟨words (s.peek (s.coll.tableOff + 128 * g) 128) 16⟩; if e.paired then some e else none), s)) ∧
    (∀ a : AbortMsg, let seen := s.coll.abortSeen a.group.val a.seq.toNat
      (a.epoch ≠ s.epoch ∨ seen = true → exec (.abort a) s = .next s) ∧
      (a.epoch = s.epoch → seen = false → s.allDone = false → (∀ c, s.runningXh c = none) →
        let u := (s.groupEntry a.group.val).2
        let next := (((s.groupEntry a.group.val).1.map GroupEntry.neighbours).getD []).map half
        let rec1 := u.coll.record a.group.val a.seq.toNat a.origin.toNat a.status
        exec (.abort a) s = .next ({ u with coll := { rec1 with
          aborted := (u.coll.aborted.filter fun (x : Aborted) => !(x.group == a.group.val && x.seq == a.seq.toNat)) ++
            [{ group := a.group.val, seq := a.seq.toNat, status := a.status : Aborted }]
          aborts := min (2 ^ 16 - 1) (u.coll.aborts + 1) } }.tellAll (.abort a) next)) ∧
      (∀ c k, a.epoch = s.epoch → seen = false → a.status ≠ .ok → OthersRun s c → Only s c k → s.runningXh c = some k →
        (∀ d, d ≠ c → s.runningXh d = none) → (xhBlk k.block).group = a.group.val → k.xh.seq = a.seq.toNat →
        ∃ t, exec (.abort a) s = .next t ∧ HasEnded t c k a.status)) ∧
    (∀ c, s.runningXh c = none → exec (.collectiveWaitLimit c) s = .next s) ∧
    (∀ c k, s.runningXh c = some k → OthersRun s c → Only s c k →
      (k.waits < s.coll.waitLimit → exec (.collectiveWaitLimit c) s = .next s) ∧
      (1 ≤ s.coll.waitLimit → s.coll.waitLimit ≤ k.waits → ∃ t, exec (.collectiveWaitLimit c) s = .next t ∧
        HasEnded t c k .timeout)) ∧
    (s.coll.run = true → exec .xhCollStart s = .next s ∧
      exec .xhCollStop s = .next { s with coll := { s.coll with stopping := true } }) ∧
    (s.coll.run = false → exec .xhCollStop s = .next s ∧ exec .xhCollStart s = .next { s with coll := { s.coll with
      run := true, stopping := false, steps := 0, aborts := 0, mismatches := 0, aborted := [], grants := [], early := [] } }) ∧
    (s.coll.stopping = true → (∀ c, ∀ k ∈ (s.core c).sq.cmds, k.op.isXh = false) → exec .xhCollStopDrained s =
      .next { s with coll := { s.coll with run := false, stopping := false } }) ∧
    (s.coll.stopping = false ∨ (∃ c, ∃ k ∈ (s.core c).sq.cmds, k.op.isXh = true) → exec .xhCollStopDrained s = .next s)

/-! ## Intaglio (R402 to R431) -/

namespace Sys2Proof.Claims

/-- Job j is the one that engine e serves next, the one job in flight of number n, and of the given KIND. -/
def Next (s : State) (e : EngineId) (n kind : Nat) (j : Job) : Prop :=
  (s.engine e).chosen = some j ∧ j.n = n ∧ j.kind = kind ∧ ∀ i ∈ (s.engine e).jobs, i.n = n → i = j

/-- The jobs of e after job n was served as j. -/
def JobServed (s t : State) (e : EngineId) (n : Nat) (j : Job) (st : Status) : Prop :=
  (t.engine e).jobs = (s.engine e).jobs.map fun i => if i.n = n then { j with served := true, status := some st } else i

/-- A session's own areas: its frame pool and its state area. -/
def OwnAreas (g : SessCfg) : List (Nat × Nat) :=
  [(g.frameBase % 2 ^ 48, g.frames * g.bufSize), (g.stateBase % 2 ^ 48, 2 ^ 22)]

/-- The V12 keeps none of them to itself. -/
def AreasFree (s : State) (g : SessCfg) : Prop := ∀ r ∈ OwnAreas g, s.hbmGuarded r.1 r.2 = false

/-- The engine's ring lies in HBM outside the pool region, the local frames and the tables that the V12 keeps to itself
(R402, R407). -/
def RingFree (s : State) (e : EngineId) : Prop :=
  let x := s.engine e
  let n := 64 + 128 * x.entries
  s.plainHbm x.base n = true ∧ s.hbmGuarded x.base n = false ∧ OffFrames s x.base n

/-- The configuration block that job j names, with valid words and every field in range, so that the level alone decides
(R403, R413; the level's limits are free, notes/assumptions/33.md). -/
def ConfAt (s : State) (j : Job) (g : SessCfg) : Prop :=
  (∀ r ∈ j.reaches none, s.mediaAddr r.1 r.2 = true) ∧ s.hbmGuarded (j.inAddr % 2 ^ 48) 128 = false ∧
  g.bytes = s.peek (j.inAddr % 2 ^ 48) 128 ∧ g.pairsOk = true ∧ g.formed = Config.levelOk g.bytes ∧
  s.mediaAddr g.frameBase (g.frames * g.bufSize) = true ∧ s.mediaAddr g.stateBase (2 ^ 22) = true

/-- The pictures of an encode session that its mini-GOP holds, with the one of job j (R417). -/
def held (x : Session) (key : Bool) (j : Job) : List Pic := x.pics.drop x.encoded ++ [{ data := [], key := key, eos := j.bit 7 }]

end Sys2Proof.Claims

/-- R408 to R410, R430: the job ring, with the error trigger of R531 off. A poll that finds one more job, which passes the checks, copies
its entry and advances CONS; one that finds none changes nothing but PROD. A PROD further ahead than the ring is long, or one that
is no paired word, counts a ring fault. A served job's end
writes STATUS and RESULT into its entry and nothing else, and takes it out of flight. START clears the counts and reads
CONS from the ring; STOP ends acceptance, and RUN falls when no job is in flight. -/
def Obligations.MediaRings : Prop :=
  ∀ (s : State) (e : EngineId), Healthy s → RingFree s e → NoTrigger s →
    let faulted := s.modEngine e fun x => { x with ringFaults := min (2 ^ 8 - 1) (x.ringFaults + 1) }
    ((s.engine e).run = false ∨ (s.engine e).stopping = true → exec (.jobRingPoll e) s = .next s) ∧
    ((s.engine e).run = true → (s.engine e).stopping = false → (s.engine e).prod = (s.engine e).cons →
      (s.engine e).cons < 2 ^ 32 → pairOk (s.peek64 (s.engine e).base) = false → exec (.jobRingPoll e) s = .next faulted) ∧
    (∀ p, (s.engine e).run = true → (s.engine e).stopping = false → (s.engine e).cons < 2 ^ 32 →
      s.peek64 (s.engine e).base = pair p → p < 2 ^ 32 →
      let seen := s.modEngine e fun x => { x with prod := p }
      let j : Job := { n := (s.engine e).cons, entry := s.peek ((s.engine e).entryOff (s.engine e).cons) 128 }
      (p = (s.engine e).cons → exec (.jobRingPoll e) s = .next seen) ∧
      (p = ((s.engine e).cons + 1) % 2 ^ 32 → (s.engine e).jobs.length < 64 →
        (jobChecks e j).exec seen = (.ok (), seen) → s.engineFenced e = false →
        j.kind ≠ 1 ∨ (s.engine e).session j.session = none →
        (∀ i ∈ (s.engine e).jobs, i.session = j.session → i.kind ≠ 1 ∨ i.unit.isSome = true) → ∃ t,
          exec (.jobRingPoll e) s = .next t ∧ t = { s with mem := t.mem, engines := t.engines } ∧
          t.engine e = { s.engine e with prod := p, cons := p, jobs := (s.engine e).jobs ++ [j] } ∧
          (∀ d, d ≠ e → t.engine d = s.engine d) ∧ t.peek64 ((s.engine e).base + 8) = pair p ∧
          SameBut s t [((s.engine e).base + 8, 8)]) ∧
      ((s.engine e).entries < (p + 2 ^ 32 - (s.engine e).cons) % 2 ^ 32 → exec (.jobRingPoll e) s =
        .next (s.modEngine e fun x => { x with prod := p, ringFaults := min (2 ^ 8 - 1) (x.ringFaults + 1) }))) ∧
    (∀ (n : Nat) (j : Job) (st : Status), (s.engine e).jobs.find? (fun i => i.n == n) = some j → j.served = true →
      j.status = some st → ∃ t, exec (.mediaJobEnd e n) s = .next t ∧
        t.peek ((s.engine e).entryOff n + 0x58) 16 = bytesLE 8 (j.statusWord st).toNat ++ bytesLE 8 j.resultWord.toNat ∧
        SameBut s t [((s.engine e).entryOff n + 0x58, 16)] ∧
        (t.engine e).jobs = (s.engine e).jobs.filter (fun i => i.n != n) ∧ t.cores = s.cores ∧ t.tick = s.tick) ∧
    (∀ n, (s.engine e).jobs.find? (fun i => i.n == n) = none → exec (.mediaJobEnd e n) s = .next s) ∧
    ((s.engine e).run = true → exec (.mediaStart e) s = .next s ∧
      exec (.mediaStop e) s = .next (s.modEngine e fun x => { x with stopping := true })) ∧
    (∀ c, (s.engine e).run = false → c < 2 ^ 32 → s.peek64 ((s.engine e).base + 8) = pair c → exec (.mediaStart e) s =
      .next (s.modEngine e fun x => { x with
        run := true, stopping := false, cons := c, prod := c, pictures := 0, decodeErrors := 0, capExceeded := 0
        ringFaults := 0 })) ∧
    ((s.engine e).run = true → (s.engine e).stopping = true → (s.engine e).jobs = [] → exec (.mediaStopDrained e) s =
      .next (s.modEngine e fun x => { x with run := false, stopping := false })) ∧
    ((s.engine e).jobs ≠ [] → exec (.mediaStopDrained e) s = .next s)

/-- R411, R413, R424: sessions. An open job whose configuration block is in order opens its session with a copy of the block, unless it
exceeds the highest level, which ends it with DECODE; a reconfigure job that keeps direction, codec, FRAMES and FRAME_BASE replaces
the copy likewise, and the next picture is a key picture; a close job closes the session. A flush job with no picture ready
ends with OK and writes nothing outside the session's own areas. A job that is not the one served next changes nothing
but the time that its command shows. -/
def Sys2Proof.Claims.MediaSessions : Prop :=
  ∀ (s : State) (e : EngineId) (n : Nat) (j : Job) (g : SessCfg), Healthy s →
    (Next s e n 4 j → s.engineFenced e = false → (s.engine e).session j.session = none → ConfAt s j g → AreasFree s g → ∃ t,
      exec (.openJob e n) s = .next t ∧ t.cores = s.cores ∧ SameBut s t (OwnAreas g) ∧
      (Config.levelOk g.bytes = true → (∃ y, (t.engine e).session j.session = some y ∧ y.cfg = g.bytes ∧ y.written = 0 ∧
          ((s.engine e).waiting j.session [n] = [] → y = { cfg := g.bytes })) ∧
        ((s.engine e).waiting j.session [n] = [] → JobServed s t e n j .ok)) ∧
      (Config.levelOk g.bytes = false → JobServed s t e n j .decode ∧ (t.engine e).session j.session = none ∧
        t.mem = s.mem)) ∧
    (∀ x, Next s e n 5 j → (openSession e j).exec s = (.ok x, s) → j.session < 16 → (s.engine e).session j.session = some x →
      ConfAt s j g → g.dir = x.conf.dir → g.codec = x.conf.codec → g.frames = x.conf.frames →
      g.frameBase = x.conf.frameBase → ∃ t, exec (.reconfigureJob e n) s = .next t ∧ t.mem = s.mem ∧ t.cores = s.cores ∧
        (Config.levelOk g.bytes = true → JobServed s t e n j .ok ∧
          (t.engine e).session j.session = some { x with cfg := g.bytes, keyNext := true }) ∧
        (Config.levelOk g.bytes = false → JobServed s t e n j .decode ∧ (t.engine e).session j.session = some x)) ∧
    (∀ x, Next s e n 6 j → (openSession e j).exec s = (.ok x, s) → ∃ t, exec (.closeJob e n) s = .next t ∧
      JobServed s t e n j .ok ∧ (t.engine e).session j.session = none ∧ t.mem = s.mem ∧ t.cores = s.cores) ∧
    (∀ x, Next s e n 3 j → (openSession e j).exec s = (.ok x, s) → (s.engine e).session j.session = some x →
      x.queue = [] → AreasFree s x.conf → ∃ t, exec (.flushJob e n) s = .next t ∧
      JobServed s t e n j .ok ∧ (t.engine e).session j.session = some x ∧ SameBut s t (OwnAreas x.conf) ∧ t.cores = s.cores) ∧
    ((s.engine e).chosen = none ∨ (∃ k, (s.engine e).chosen = some k ∧ k.n ≠ n) →
      (∀ i ∈ [Instr.openJob e n, .reconfigureJob e n, .closeJob e n, .flushJob e n], exec i s = .next s) ∧
      ∀ now, exec (.decodeJob e n now) s = .next (s.atTime now) ∧ exec (.encodeJob e n now) s = .next (s.atTime now))

/-- R411, R414, R417, R423, R429: a decode job whose access unit is not conformant, or activates a changed SPS without a key picture,
counts a decode error, ends with DECODE and leaves its picture damaged; one that is, and references no earlier picture, is counted
and its picture is whole, and with none ready the job ends with OK and writes none. An encode job takes its input picture; while its
mini-GOP is not whole the picture is held and the job ends with OK; once it is, its pictures are encoded and counted. No
memory changes outside the session's own areas and the job's surfaces. What the standards say of a unit is free
(notes/assumptions/6.md), so that the statement goes by cases of it. -/
def Sys2Proof.Claims.MediaPictures : Prop :=
  ∀ (o : State) (e : EngineId) (n now : Nat) (j : Job) (x : Session), let s := o.atTime now
    Healthy s → (openSession e j).exec s = (.ok x, s) →
    (s.engine e).session j.session = some x → j.session < 16 → AreasFree s x.conf →
    (∀ k, x.bufs.length < x.conf.frames → Next s e n 1 j → j.unit = some k → k < x.pics.length → (x.pic k).failed = none → 1 ≤ j.inSize →
      s.hbmGuarded (j.inAddr % 2 ^ 48) j.inSize = false →
      let x1 := x.modPic k fun p => { p with cfg := x.cfg }
      let c := x1.upTo k
      let good := Config.codecConformant c = true ∧ (Config.codecKey c = true ∨ Config.codecChangedSps c = false)
      ∃ t, exec (.decodeJob e n now) o = .next t ∧ t.cores = s.cores ∧
        (¬ good → JobServed s t e n j .decode ∧ (t.engine e).session j.session = some (x1.heard k) ∧
          (t.engine e).decodeErrors = min (2 ^ 16 - 1) ((s.engine e).decodeErrors + 1) ∧
          (t.engine e).pictures = (s.engine e).pictures ∧ SameBut s t (OwnAreas x.conf)) ∧
        (good → (∀ i ∈ Config.codecRefs c, k ≤ i ∨ i < x.lastKey) →
          (t.engine e).decodeErrors = (s.engine e).decodeErrors ∧
          (t.engine e).pictures = min (2 ^ 32 - 1) ((s.engine e).pictures + 1) ∧
          ∃ b y, ({ x1.modPic k fun p => { p with lost := false, key := Config.codecKey c } with
              lastKey := if Config.codecKey c then k else x.lastKey }).takeBuf k (Config.codecShort c) (Config.codecLong c)
              (Config.codecShown c) = some (b, y) ∧ ((y.heard k).queue = [] → JobServed s t e n j .ok ∧
            (t.engine e).session j.session = some (y.heard k) ∧ SameBut s t (OwnAreas x.conf)))) ∧
    (Next s e n 2 j → j.stAddr = 0 → x.queue = [] → x.encoded ≤ x.pics.length → (∀ b ∈ x.bufs, b.1 < x.conf.frames) → 1 ≤ x.conf.surfaceSize → s.hbmGuarded (j.inAddr % 2 ^ 48) x.conf.surfaceSize = false →
      let key := x.keyNext || j.bit 4 || decide (x.conf.keyInterval ≤ x.sinceKey)
      let longs := (if key then 0 else x.longRefs) + (if j.bit 5 then 1 else 0)
      longs ≤ 2 →
      let p : Pic := { data := x.conf.unpack (s.peek (j.inAddr % 2 ^ 48) x.conf.surfaceSize), cfg := x.cfg, key := key
                       long := j.bit 5, eos := j.bit 7 }
      ((held x key j).length < x.conf.miniGop → (∀ i ∈ held x key j, i.key = false ∧ i.eos = false) → ∃ t,
        exec (.encodeJob e n now) o = .next t ∧ JobServed s t e n j .ok ∧
        (t.engine e).session j.session = some { x with
          pics := x.pics ++ [p], longRefs := longs, sinceKey := x.sinceKey + 1, keyNext := false } ∧
        (t.engine e).pictures = (s.engine e).pictures ∧ SameBut s t (OwnAreas x.conf) ∧ t.cores = s.cores) ∧
      (x.conf.miniGop ≤ (held x key j).length ∨ (∃ i ∈ held x key j, i.key = true ∨ i.eos = true) →
        x.bufs.length + (held x key j).length ≤ x.conf.frames →
        s.hbmGuarded (j.outAddr % 2 ^ 48) j.outSize = false → OffFrames s (j.outAddr % 2 ^ 48) j.outSize → ∃ t,
        exec (.encodeJob e n now) o = .next t ∧ t.cores = s.cores ∧
        (t.engine e).pictures = min (2 ^ 32 - 1) ((s.engine e).pictures + (held x key j).length) ∧
        SameBut s t ((j.outAddr % 2 ^ 48, j.outSize) :: OwnAreas x.conf)))

/-- R411, R413, R414, R417, R423, R424, R429: sessions, and the pictures of decode and encode jobs. -/
def Obligations.MediaSessionsAndPictures : Prop := MediaSessions ∧ MediaPictures

/-! ## The host's RDMA, records and frames (R432 to R440, R453 to R459) -/

namespace Sys2Proof.Claims

/-- The congestion notification that a packet marked by ECN brings, at most one in 50 µs for a queue pair (R434). -/
def marks (x : Qp) (ecn : Bool) (now : Nat) : Bool := ecn && (match x.cnpAt with | some k => decide (k + 90000 ≤ now) | none => true)

end Sys2Proof.Claims

/-- R434, R437: an RDMA WRITE or READ on a queue pair that takes packets (its port's link up, the pair ready), inside an open window
with the permission, to HBM that nothing refuses, stores its bytes and is acknowledged, or is answered with the bytes; a packet
marked by ECN is also answered with a congestion notification, at most one in 50 µs. An access outside the window, and one to
HBM that the V12 keeps to itself, is answered with a remote-access-error NAK and counted, and stores nothing. A queue
pair that takes no packets answers nothing. -/
def Sys2Proof.Claims.RdmaAccesses : Prop :=
  ∀ (s : State) (m : RdmaReq) (data : List Byte) (n : Nat), 0 < n → data.length = n →
    let cnp : List Output := if marks (s.qp m.port m.qp) m.ecn m.now then [.cnp m.port m.qp] else []
    let nak (o : Host.Outcome State Fault Refusal) : Prop := ∃ t, o = .next t ∧
      t = { s with eth := t.eth, qcp := { s.qcp with naks := min (2 ^ 16 - 1) (s.qcp.naks + 1) }
                   out := s.out ++ cnp ++ [.rdmaNak m.port m.qp "access"] }
    let guarded : Prop := NoTrigger s ∧ m.va.toNat + n ≤ hbmEnd ∧ s.hbmGuarded m.va.toNat n = true
    (s.qpTakes m.port m.qp = false → exec (.rdmaWrite m data) s = .next s ∧ exec (.rdmaRead m n) s = .next s) ∧
    (s.qpTakes m.port m.qp = true → Healthy s → m.va.toNat + n ≤ hbmEnd → s.hbmGuarded m.va.toNat n = false →
      (s.windowFor m.rkey m.va.toNat n true = true → OffFrames s m.va.toNat n → ∃ t, exec (.rdmaWrite m data) s = .next t ∧
        t = { s with mem := t.mem, eth := t.eth, out := s.out ++ cnp ++ [.rdmaAck m.port m.qp] } ∧
        t.mem.bytes m.va.toNat n = data ∧ SameBut s t [(m.va.toNat, n)]) ∧
      (s.windowFor m.rkey m.va.toNat n false = true → ∃ t, exec (.rdmaRead m n) s = .next t ∧
        t = { s with eth := t.eth, out := s.out ++ cnp ++ [.rdmaData m.port m.qp (s.mem.bytes m.va.toNat n)] })) ∧
    (s.qpTakes m.port m.qp = true → (s.windowFor m.rkey m.va.toNat n true = false ∨ guarded → nak (exec (.rdmaWrite m data) s)) ∧
      (s.windowFor m.rkey m.va.toNat n false = false ∨ guarded → nak (exec (.rdmaRead m n) s)))

/-- R434, R439: a SEND of at most 4,032 bytes lands in the next slot of the queue pair's receive area, after its header, counts one
message and is acknowledged; while the area is full it is answered with receiver not ready and lands nowhere, and a longer
one is answered as invalid. A queue pair that takes no packets answers nothing. -/
def Sys2Proof.Claims.SendMessages : Prop :=
  ∀ (s : State) (port : Fin 2) (qp : Fin 64) (data : List Byte) (ecn : Bool) (now cons : Nat),
    let x := s.qp port qp
    let area := 64 + 4096 * 2 ^ x.rxK
    let y : Qp := if marks x ecn now then { x with cnpAt := some now } else x
    let marked := s.out ++ if marks x ecn now then [Output.cnp port qp] else []
    let after (o : List Output) : State := { s.modQp port qp fun _ => y with out := marked ++ o }
    (s.qpTakes port qp = false → exec (.send port qp data ecn now) s = .next s) ∧
    (s.qpTakes port qp = true → 4032 < data.length →
      exec (.send port qp data ecn now) s = .next (after [.rdmaNak port qp "invalid"])) ∧
    (s.qpTakes port qp = true → data.length ≤ 4032 → Healthy s → s.hbmGuarded x.rxBase area = false →
      OffFrames s x.rxBase area → x.rxBase + area ≤ hbmEnd → cons < 2 ^ 32 → x.rxCount < 2 ^ 32 →
      s.peek64 x.rxBase = pair cons →
      ((x.rxCount + 2 ^ 32 - cons) % 2 ^ 32 < 2 ^ x.rxK → ∃ t, exec (.send port qp data ecn now) s = .next t ∧
        t.mem.bytes (rxSlot x x.rxCount + 64) data.length = data ∧
        t.mem.bytes (rxSlot x x.rxCount) 16 = pairBytes data.length ++ pairBytes x.rxCount ∧
        SameBut s t [(rxSlot x x.rxCount, 64 + data.length)] ∧
        t = { (after [.rdmaAck port qp]).modQp port qp fun z => { z with rxCount := (x.rxCount + 1) % 2 ^ 32 } with
          mem := t.mem }) ∧
      (2 ^ x.rxK ≤ (x.rxCount + 2 ^ 32 - cons) % 2 ^ 32 → exec (.send port qp data ecn now) s =
        .next (after [.rdmaNak port qp "receiver not ready"])))

/-- R434, R437, R439: RDMA WRITE, RDMA READ and SEND. -/
def Obligations.HostAccesses : Prop := RdmaAccesses ∧ SendMessages

/-- R434 to R436, R453, R454, R456, R457: queue pairs and completion records. A notification halves the rate of a queue pair that takes
packets, and recovery adds 100 Gb/s up to 800. Exhausted retries and an unsupported opcode put a ready queue pair into the
error state. The oldest record of a ring with a free slot goes out to its slot with the ring's number, and the number rises; a
ring that appears full has CONS read again first. An acknowledgement ends the HOST.POST that awaits it with OK. -/
def Obligations.QueuePairsAndRecords : Prop :=
  ∀ (s : State) (p : Fin 2) (q : Fin 64),
    (s.qpTakes p q = true →
      exec (.congestionNotification p q) s = .next (s.modQp p q fun x => { x with rate := x.rate / 2 })) ∧
    exec (.rateRecovery p q) s =
      .next (s.modQp p q fun x => { x with rate := min 800000000000 (x.rate + 100000000000) }) ∧
    (s.qpTakes p q = false → exec (.congestionNotification p q) s = .next s ∧ exec (.unsupportedOpcode p q) s = .next s) ∧
    ((s.qp p q).state ≠ .ready → exec (.qpRetryExhausted p q) s = .next s) ∧
    ((s.qp p q).state = .ready →
      (∃ t, exec (.qpRetryExhausted p q) s = .next t ∧ (t.qp p q).state = .error) ∧
      (s.qpTakes p q = true → ∃ t, exec (.unsupportedOpcode p q) s = .next t ∧ (t.qp p q).state = .error) ∧
      ((∀ r, (s.ring r).set = true → (s.ring r).port ≠ p ∨ (s.ring r).qp ≠ q) →
        exec (.qpRetryExhausted p q) s = .next (s.modQp p q fun x => { x with state := .error }) ∧
        (s.qpTakes p q = true → exec (.unsupportedOpcode p q) s =
          .next ((s.modQp p q fun x => { x with state := .error }).emit (.rdmaNak p q "invalid"))))) ∧
    (∀ r : RingId, let g := s.ring r
      (g.full = true ↔ 2 ^ g.log2 ≤ (g.seq + 2 ^ 32 - g.cons) % 2 ^ 32) ∧ (g.full = false → s.ringFull r = (false, s)) ∧
      (∀ c, g.full = true → c < 2 ^ 32 → Healthy s → g.consOff + 8 ≤ hbmEnd → s.hbmGuarded g.consOff 8 = false →
        s.peek64 g.consOff = pair c → s.ringFull r = (Ring.full { g with cons := c }, s.setRing r { g with cons := c }))) ∧
    (∀ (r : RingId) (x : Rec) (rest : List Rec) (u : State), (s.ring r).backlog = x :: rest → s.ringSends r = true →
      (s.ringFull r = (true, u) → exec (.recordWrite r) s = .next u) ∧
      (s.ringFull r = (false, u) → s.proof.traceEn = false → exec (.recordWrite r) s =
        let g := u.ring r
        .next ((u.emit (.record r (g.host + 64 * (g.seq % 2 ^ g.log2)) (recBytes g x))).setRing r { g with
          backlog := rest, seq := (g.seq + 1) % 2 ^ 32, lostFlag := false, unacked := g.unacked ++ [(g.seq, x.post)] }))) ∧
    (∀ r, (s.ring r).backlog = [] ∨ s.ringSends r = false → exec (.recordWrite r) s = .next s) ∧
    (∀ (r : RingId) (n : Nat), (s.ring r).unacked.find? (fun u => u.1 == n) = none → exec (.rdmaWriteAck r n) s = .next s) ∧
    (∀ (r : RingId) (n : Nat), (s.ring r).unacked.find? (fun u => u.1 == n) = some (n, none) →
      exec (.rdmaWriteAck r n) s =
        .next (s.modRing r fun g => { g with unacked := g.unacked.filter fun v => v.1 != n })) ∧
    (∀ (r : RingId) (n : Nat) (c : CoreId) (k : QCmd), (s.ring r).unacked.find? (fun u => u.1 == n) = some (n, some (c, k.seq)) →
      k.op = .hostPost → Only s c k → OthersRun s c → s.mem.wf = true → ∃ t, exec (.rdmaWriteAck r n) s = .next t ∧
        HasEnded t c k .ok)

/-- R433, R434, R458, R459: an Ethernet port that is up answers ARP, neighbour discovery and echo at its own addresses, and
discards and counts every other frame: the addresses configured or, with default configuration, the link-local IPv6 address of
its MAC address. A pause of its RoCEv2 priority is taken and counted. A link change sets the CHANGED
bit; a link that falls also drops the backlog of its rings. Nothing is answered before boot, or on a link that is down. -/
def Obligations.EthernetFrames : Prop :=
  ∀ (s : State) (p : Fin 2),
    let drop := s.modEth p fun x => { x with discarded := min (2 ^ 16 - 1) (x.discarded + 1) }
    (∀ (t4 : Word32) (w : Word) (t6 d6 : BitVec 128) (v6 : Bool) (pay : List Byte),
      (s.boot.booted = false ∨ s.eth[p].up = false →
        exec (.arp p t4 w) s = .next s ∧ exec (.neighbourDiscovery p t6 d6) s = .next s ∧
        exec (.icmpEcho p v6 t6 pay) s = .next s ∧ exec (.ethernetFrame p) s = .next s ∧
        ∀ pr pause, exec (.priorityFlowControl p pr pause) s = .next s) ∧
      (s.boot.booted = true → s.eth[p].up = true →
        exec (.ethernetFrame p) s = .next drop ∧
        (s.cfg.defaulted = false → t4 ≠ 0 → t4 = s.eth[p].ipv4 → exec (.arp p t4 w) s = .next (s.emit (.arpReply p w)) ∧
          exec (.icmpEcho p false (t4.zeroExtend 128) pay) s = .next (s.emit (.echoReply p false pay))) ∧
        (s.cfg.defaulted = true ∨ t4 ≠ s.eth[p].ipv4 → exec (.arp p t4 w) s = .next drop ∧
          exec (.icmpEcho p false (t4.zeroExtend 128) pay) s = .next drop) ∧
        (s.cfg.defaulted = false → t6 ≠ 0 → t6 = s.eth[p].ipv6 →
          exec (.neighbourDiscovery p t6 d6) s = .next (s.emit (.ndReply p d6)) ∧
          exec (.icmpEcho p true t6 pay) s = .next (s.emit (.echoReply p true pay))) ∧
        (s.cfg.defaulted = true → t6 = s.linkLocal p →
          exec (.neighbourDiscovery p t6 d6) s = .next (s.emit (.ndReply p d6)) ∧
          exec (.icmpEcho p true t6 pay) s = .next (s.emit (.echoReply p true pay))) ∧
        ((if s.cfg.defaulted then t6 ≠ s.linkLocal p else t6 ≠ s.eth[p].ipv6) →
          exec (.neighbourDiscovery p t6 d6) s = .next drop ∧ exec (.icmpEcho p true t6 pay) s = .next drop) ∧
        (∀ (pr : BitVec 3) (pause : Bool), pr.toNat ≠ s.eth[p].prio → exec (.priorityFlowControl p pr pause) s = .next s) ∧
        (∀ pr : BitVec 3, pr.toNat = s.eth[p].prio →
          exec (.priorityFlowControl p pr true) s = .next (s.modEth p fun x => { x with
            paused := true, pfcPauses := min (2 ^ 16 - 1) (x.pfcPauses + 1) }) ∧
          exec (.priorityFlowControl p pr false) s = .next (s.modEth p fun x => { x with paused := false })))) ∧
    (s.boot.booted = true → (s.eth[p].up = false → exec (.ethLinkChange p true) s =
        .next (s.modEth p fun x => { x with up := true, changed := true })) ∧
      (s.eth[p].up = true → (∀ r, (s.ring r).set = true → (s.ring r).port ≠ p) → exec (.ethLinkChange p false) s =
        .next (s.modEth p fun x => { x with up := false, changed := true, paused := false })) ∧
      (s.eth[p].up = true → ∃ t, exec (.ethLinkChange p false) s = .next t ∧ t.eth[p].up = false ∧ t.eth[p].changed = true ∧
        ∀ r, (s.ring r).set = true → (s.ring r).port = p → (t.ring r).backlog = []) ∧
      exec (.ethLinkChange p s.eth[p].up) s = .next s) ∧
    (s.boot.booted = false → ∀ up, exec (.ethLinkChange p up) s = .next s)

/-! ## Recovery (R480 to R493) -/

namespace Sys2Proof.Claims

/-- The heartbeat count of domain number n after a check (R481): 0 for a domain that passes, one more for one that fails. -/
def missedAfter (s : State) (f : LivenessFacts) (n : Fin 96) : Nat :=
  match domOfNumber n.val with
  | none => 0
  | some (k, i) => if i < k.count s ∧ s.domLive f k i = false then s.recov.missed[n] + 1 else 0

/-- No stack blows a fuse (R300). -/
def NoFusing (s : State) : Prop := s.hbmStacks.toList.any Stack.fusing = false

end Sys2Proof.Claims

/-- R480 to R482, R486, R492: the first heartbeat check after an edge counts the domains that fail it and clears the counts of the
others; a count at HB_LIMIT is a hang, and a hang of the device is recovered by the device's reset, which advances the epoch; one of
another domain begins its recovery. A beat by Easel
firmware clears its domain's count; one by any other agent is ignored. Clearing the suspects empties their list. -/
def Sys2Proof.Claims.Heartbeats : Prop :=
  ∀ (s : State) (f : LivenessFacts), NoTrigger s → s.tick.edgeChecked = false →
    ((∀ n, missedAfter s f n ≠ max 1 s.recov.hbLimit) → exec (.heartbeatCheck f) s = .next { s with
      tick := { s.tick with edgeChecked := true }
      recov := { s.recov with missed := Vector.ofFn (missedAfter s f) }
      cores := s.cores.map fun x => { x with startedSince := false } }) ∧
    (missedAfter s f 0 = max 1 s.recov.hbLimit → NoFusing s → ∃ t, exec (.heartbeatCheck f) s = .next t ∧
      t.recov.epoch = s.recov.epoch + 1 ∧ t.recov.hangs = min (2 ^ 16 - 1) (s.recov.hangs + 1) ∧
      t.recov.recoveries = min (2 ^ 16 - 1) (s.recov.recoveries + 1) ∧ t.cores = Vector.replicate 128 {} ∧
      t.boot.booted = false) ∧
    (∀ (n : Fin 96) (k : DomKind) (i : Nat), (∀ m, missedAfter s f m = max 1 s.recov.hbLimit ↔ m = n) →
      domOfNumber n.val = some (k, i) → k ≠ .device → s.recov.current = none → ∃ t, exec (.heartbeatCheck f) s = .next t ∧
      t.recov.current = some { kind := k, index := i, trigger := 1, phase := .draining } ∧
      t.recov.hangs = min (2 ^ 16 - 1) (s.recov.hangs + 1) ∧
      t.recov.recoveries = min (2 ^ 16 - 1) (s.recov.recoveries + 1) ∧ t.recov.epoch = s.recov.epoch) ∧
    (∀ d : BitVec 7, exec (.hbBeat d false) s = .next s ∧ ∃ t, exec (.hbBeat d true) s = .next t ∧
      t = { s with recov := { s.recov with missed := t.recov.missed } } ∧
      ∀ n : Fin 96, t.recov.missed[n] = if n.val = d.toNat then 0 else s.recov.missed[n]) ∧
    exec .clearSuspects s =
      .next { s with recov := { s.recov with suspects := Vector.replicate 16 none, suspectOvf := false } }

/-- R296, R483: the steps of a recovery of an HBM stack. At the end of the drain it asks for the next epoch in the tick report; with
no tick running, or with the tick lost, the epoch advances at once (the model's choice, notes/assumptions/23.md), and every queue
pair enters the error state. Once the stack has trained it is back: unfenced and ready, unless its training failed, with its
registers at their reset values, and no recovery runs; before that the recovery goes on. -/
def Sys2Proof.Claims.RecoverySteps : Prop :=
  ∀ (s : State) (i : StackId) (r : Recov), s.recov.current = some r → r.kind = .stack → r.index = i.val →
    (r.phase = .draining → (s.tick.run = false ∨ s.tick.lost = true) → ∃ t, exec .recoveryDrainEnd s = .next t ∧
      t.recov.epoch = s.recov.epoch + 1 ∧ t.recov.current = some { r with phase := .resetting } ∧
      ∀ p q, (t.qp p q).state = .error) ∧
    (r.phase = .draining → s.tick.run = true → s.tick.lost = false → s.allDone = false → s.activeParts = [] →
      exec .recoveryDrainEnd s = .next { s with recov := { s.recov with
        bumpEpoch := true, current := some { r with phase := .awaitEpoch } } }) ∧
    (r.phase ≠ .draining → exec .recoveryDrainEnd s = .next s) ∧
    (s.qcp.waiting = [] → r.phase ≠ .resetting ∨ (s.stack i).fusing = true ∨
      s.phyOn i = true ∧ (s.stack i).retrained = false → exec .domainResetDone s = .next s) ∧
    (r.phase = .resetting → (s.stack i).fusing = false → (s.stack i).retrained = true → s.recov.waiting = [] →
      s.qcp.current = none → s.qcp.waiting = [] → ∃ t, exec .domainResetDone s = .next t ∧ t.recov.current = none ∧
        ((s.stack i).cause ≠ .training → (t.stack i).ready = true ∧ (t.stack i).fenced = false ∧ (t.stack i).cause = .none) ∧
        ((s.stack i).cause = .training → (t.stack i).ready = false ∧ (t.stack i).fenced = true ∧
          (t.stack i).cause = .training) ∧ (t.stack i).laneMap = (s.stack i).laneMap ∧ (t.stack i).corrected = 0 ∧
        (t.stack i).uncorrected = 0 ∧ (t.stack i).softRows = [] ∧ (t.stack i).hardRows = (s.stack i).hardRows ∧
        (∀ j, j ≠ i → t.stack j = s.stack j) ∧ t.recov.epoch = s.recov.epoch ∧ t.cores = s.cores)

/-- R296, R480 to R483, R486, R492: heartbeats, hangs and the steps of a recovery. -/
def Obligations.HeartbeatsAndRecovery : Prop := Heartbeats ∧ RecoverySteps

/-! ## Power, reset and start-up (R494 to R526, R548, R549) -/

/-- R495 to R497, R499 to R501, R503 to R505: power events. PWR_DOMAIN needs [29:28] = 0b11, a stopped tick unless it changes nothing,
every domain's requirements, and no cluster turned off that an enabled partition uses; the domains turned off go at once: the
stacks of a PHY group must train again, the ports of a link die are down, and the sessions of a media die are lost; those turned
on are raised by Easel one at a time, in its order. A cap check keeps the average of the last WINDOW ticks, and asks
for a stretch step when it exceeds CAP while the tick runs and the quiet ticks that follow a step are over. A die's sample sets its
band by the table "Die temperature bands"; above 95 °C it asks for a step. A droop is counted. THERMTRIP_N is asserted once, for a
die above 125 °C or a stack above 115 °C. -/
def Sys2Proof.Claims.PowerEvents : Prop :=
  ∀ s : State,
    (∀ v : Word, let want := BitVec.ofNat 28 v.toNat
      let code := v.toNat / 2 ^ 28 % 4
      let used := ∃ i < 16, s.power.on.getLsbD i = true ∧ want.getLsbD i = false ∧ s.domainUsed i = true
      (code ≠ 3 ∨ s.tick.run = true ∧ want ≠ s.power.on ∨ s.tick.run = false ∧ (domainsOk (v.toNat % 2 ^ 28) = false ∨ used) →
        exec (.pwrDomain v) s = .next { s with tick := { s.tick with badWrite := true } }) ∧
      (code = 3 → s.tick.run = true → want = s.power.on → exec (.pwrDomain v) s = .next s) ∧
      (code = 3 → s.tick.run = false → domainsOk (v.toNat % 2 ^ 28) = true → ¬ used → ∃ t, exec (.pwrDomain v) s = .next t ∧
        t.power = { s.power with on := want &&& s.power.on, raising := t.power.raising } ∧
        t.power.raising = raiseOrder.filter (fun i => want.getLsbD i.val && !s.power.on.getLsbD i.val) ∧
        (want &&& s.power.on = s.power.on → t = { s with power := t.power }) ∧
        (∀ i : StackId, want.getLsbD (20 + i.val / 3) = false → s.power.on.getLsbD (20 + i.val / 3) = true →
          (t.stack i).ready = false) ∧
        (∀ p : PortId, want.getLsbD (24 + dieOfPort p.val) = false → s.power.on.getLsbD (24 + dieOfPort p.val) = true →
          (t.port p).state = .idle) ∧
        (∀ e : EngineId, want.getLsbD (26 + e.val / 4) = false → s.power.on.getLsbD (26 + e.val / 4) = true →
          (t.engine e).jobs = [] ∧ ∀ n, (t.engine e).session n = none))) ∧
    (∀ i : Fin 30, (∀ rest, s.power.raising = i :: rest → exec (.powerDomainRaised i) s = .next { s with
        power := { s.power with raising := rest, on := s.power.on ||| BitVec.ofNat 28 (2 ^ i.val) }
        qcp := if rest = [] ∧ s.qcp.stage = 2 then { s.qcp with stage := 3 } else s.qcp }) ∧
      (s.power.raising.head? ≠ some i → exec (.powerDomainRaised i) s = .next s)) ∧
    (∀ (w : Half) (l : List Nat) (avg quiet : Nat),
      quiet = (if s.tick.stepsAt ≠ none ∧ s.tick.stepsAt ≠ s.power.quietFor then max 1 s.power.window else s.power.quiet - 1) →
      l = (s.power.samples ++ [w.toNat]).drop (s.power.samples.length + 1 - max 1 s.power.window) → avg = l.sum / l.length →
      ∃ t, exec (.powerCapCheck w) s = .next t ∧ t = { s with power := t.power } ∧ t.power.samples = l ∧
        t.power.average = avg ∧ t.power.last = w.toNat ∧ t.power.peak = max s.power.peak w.toNat ∧
        t.power.quiet = quiet ∧
        (s.tick.run = true → quiet = 0 → s.capWatts < avg → t.power.stretchAsk = true ∧
          t.power.capRequests = min (2 ^ 32 - 1) (s.power.capRequests + 1)) ∧
        (s.tick.run = false ∨ quiet ≠ 0 ∨ avg ≤ s.capWatts → t.power.stretchAsk = s.power.stretchAsk ∧
          t.power.capRequests = s.power.capRequests)) ∧
    exec .droopResponse s = .next { s with tick := { s.tick with droops := min (2 ^ 16 - 1) (s.tick.droops + 1) } } ∧
    (∀ (d : Fin 13) (c : Byte), ∃ t, exec (.dieTempSample d c) s = .next t ∧ t.power.dieTemp[d] = c.toNat ∧
      t.power.dieBand[d] = (if 110 < c.toNat ∨ s.power.dieBand[d] = .stop ∧ 100 < c.toNat then .stop
        else if 95 < c.toNat ∨ s.power.dieBand[d] ≠ .normal ∧ 92 < c.toNat then .stretch else .normal) ∧
      (95 < c.toNat → t.power.stretchAsk = true ∧ t.power.thermRequests = min (2 ^ 32 - 1) (s.power.thermRequests + 1)) ∧
      (c.toNat ≤ 95 → t.power.stretchAsk = s.power.stretchAsk ∧ t.power.thermRequests = s.power.thermRequests) ∧
      (110 < c.toNat → s.power.dieBand[d] ≠ .stop → s.tick.run = true → t.power.thermAbort = true) ∧
      t.cores = s.cores ∧ t.mem = s.mem) ∧
    (∀ (src : ThermSource) (c : Byte), let limit := match src with | .die _ => 125 | .stack _ => 115
      (limit < c.toNat → s.power.tripped = false → exec (.thermtripN src c) s =
        .next { s with power := { s.power with tripped := true }, out := s.out ++ [.thermtrip] }) ∧
      (c.toNat ≤ limit ∨ s.power.tripped = true → exec (.thermtripN src c) s = .next s))

/-- R498, R546, R548, R549, R485: the resets that reach the whole device. COLD_RESET_N of 1 ms, a power-good loss of 2 µs and a
clock stop of 1 µs return every register and every memory but HBM, whose contents are undefined, to reset; fuses, flash, what
fuses repair in the stacks and the test port stay. A warm reset of 10 µs is a device recovery and advances the epoch, or waits
for a fuse step that runs. A shorter pulse does nothing. -/
def Sys2Proof.Claims.DeviceResets : Prop :=
  ∀ (s : State) (ns : Nat),
    (ns < 1000000 → exec (.coldResetN ns) s = .next s) ∧ (ns < 2000 → exec (.powerGoodLoss ns) s = .next s) ∧
    (ns < 1000 → exec (.refclkLoss ns) s = .next s) ∧ (ns < 10000 → exec (.warmResetN ns) s = .next s) ∧
    (∀ e ∈ [(Instr.coldResetN ns, 1000000), (.powerGoodLoss ns, 2000), (.refclkLoss ns, 1000)], e.2 ≤ ns → ∃ t,
      exec e.1 s = .next t ∧
        t = { State.reset with
          mem := t.mem, nand := s.nand, bootFlash := s.bootFlash, fuses := t.fuses, hbmStacks := t.hbmStacks, ftl := t.ftl
          parts := resetParts s.logicalCores, sec := { State.reset.sec with nonce := t.sec.nonce }, tap := s.tap
          drive := s.drive, free := t.free, out := s.out, pending := s.pending } ∧
        t.fuses = { s.fuses with svn := t.fuses.svn } ∧ s.fuses.svn ≤ t.fuses.svn ∧
        t.ftl.journal = s.ftl.journal ∧ t.ftl.checkpoint = s.ftl.checkpoint ∧ t.ftl.ready = false ∧
        (∀ i, (t.stack i).ready = false ∧ (t.stack i).fenced = false ∧ (t.stack i).hardRows = (s.stack i).hardRows ∧
          (t.stack i).fusedLanes = (s.stack i).fusedLanes) ∧ ∀ a, hbmEnd ≤ a → t.mem.byte a = 0) ∧
    (10000 ≤ ns → NoFusing s → ∃ t, exec (.warmResetN ns) s = .next t ∧ t.recov.epoch = s.recov.epoch + 1 ∧
      t.cores = State.reset.cores ∧ t.nand = s.nand ∧ t.bootFlash = s.bootFlash ∧ t.boot.booted = false ∧
      t.qcp.ready = false) ∧
    (10000 ≤ ns → ¬ NoFusing s → exec (.warmResetN ns) s = .next { s with recov := { s.recov with
      current := some { kind := .device, index := 0, trigger := 0, phase := .fuseWait }, waiting := [] } })

/-- R485, R495 to R501, R503 to R505, R546, R548, R549: power, heat and the resets of the whole device. -/
def Obligations.PowerAndResets : Prop := PowerEvents ∧ DeviceResets

/-- R445, R497, R508, R512 to R516: start-up. Power good starts the boot ROM. It takes the valid configuration copy, of two the one with
the larger SEQ, copy 0 of equals, or the defaults; and the first slot that passes, in descending GEN, slot 0 of equals first; with
none that passes the device stays unbooted. Boot firmware applies the copy or the factory defaults once, and begins to raise the
power domains, but for the clusters that the copy leaves off. QCP is ready once boot and configuration are
done, fabric training is permitted and every stack is trained or fenced. -/
def Obligations.StartUp : Prop :=
  ∀ s : State,
    let gen (k : Nat) : Nat := pw (s.bootBytes (slotBase k) 0x30) 0x28 % 65536
    s.firstSlot = (if gen 0 < gen 1 then 1 else 0) ∧
    (s.boot.powered = true → exec .powerOn s = .next s) ∧
    (s.boot.powered = false → ∃ t, exec .powerOn s = .next t ∧ t.boot = { s.boot with powered := true } ∧
      t = { s with boot := t.boot, qcp := { s.qcp with stage := 0, estimate := t.qcp.estimate }, free := t.free }) ∧
    (s.boot.powered = false ∨ s.boot.booted = true ∨ s.boot.failed ≠ 0 → exec .bootRom s = .next s) ∧
    (s.boot.powered = true → s.boot.booted = false → s.boot.failed = 0 → ∃ t, exec .bootRom s = .next t ∧
      (t.cfg.defaulted = true ↔ cfgReason (s.cfgCopy 0) ≠ 0 ∧ cfgReason (s.cfgCopy 1) ≠ 0) ∧
      (cfgReason (s.cfgCopy 0) = 0 → cfgReason (s.cfgCopy 1) ≠ 0 → t.cfg.copy = 0) ∧
      (cfgReason (s.cfgCopy 0) ≠ 0 → cfgReason (s.cfgCopy 1) = 0 → t.cfg.copy = 1) ∧
      (cfgReason (s.cfgCopy 0) = 0 → cfgReason (s.cfgCopy 1) = 0 →
        t.cfg.copy = if pw (s.cfgCopy 0) 0x10 < pw (s.cfgCopy 1) 0x10 then 1 else 0) ∧
      (s.slotPasses s.firstSlot = true → t.boot.booted = true ∧ t.boot.slot = s.firstSlot ∧ t.boot.fallback = false ∧
        t.boot.version = pw (s.bootBytes (slotBase s.firstSlot) 0x5000) 8) ∧
      (s.slotPasses s.firstSlot = false → s.slotPasses (1 - s.firstSlot) = true → t.boot.booted = true ∧
        t.boot.slot = 1 - s.firstSlot ∧ t.boot.fallback = true) ∧
      (s.slotPasses 0 = false → s.slotPasses 1 = false → t.boot.booted = false ∧ t.boot.failed = 3)) ∧
    (s.boot.booted = false ∨ s.cfg.applied = true → exec .configApply s = .next s) ∧
    (s.boot.booted = true → s.cfg.applied = false → ∃ t, exec .configApply s = .next t ∧ t.cfg.applied = true ∧
      t.cores = s.cores ∧ t.mem = s.mem ∧ t.qcp.stage = 2 ∧
      (s.cfg.defaulted = true → t.power.raising = raiseOrder ∧ t.fabric.rowRacks = 0 ∧ t.power.cap = 600 ∧ t.power.window = 16 ∧ t.cfg.key = none ∧
        ∀ p : PortId, (t.port p).mode = 1 ∧ (t.port p).cls = 0) ∧
      (s.cfg.defaulted = false → let b := s.cfgCopy s.cfg.copy
        t.power.raising = raiseList ((2 ^ 28 - 1) ^^^ pw b 0x20) ∧ t.chipId = pair (pw b 0x18) ∧ t.fabric.rowRacks = pw b 0x30 ∧ t.power.cap = pw b 0x28 % 65536 ∧
        ∀ p : PortId, (t.port p).expect = w64At b (0x108 + 16 * p.val))) ∧
    (s.boot.booted = true → s.cfg.applied = true → s.fabric.permitted = true →
      (∀ i, (s.stack i).ready = true ∨ (s.stack i).fenced = true) →
      exec .qcpReady s = .next { s with qcp := { s.qcp with ready := true, stage := 4 } }) ∧
    (s.boot.booted = false ∨ s.cfg.applied = false ∨ s.fabric.permitted = false ∨
        (∃ i, (s.stack i).ready = false ∧ (s.stack i).fenced = false) → exec .qcpReady s = .next s)

/-! ## The security mailbox (R518 to R524) -/

namespace Sys2Proof.Claims

/-- A security command has begun (R518). -/
def secBusy (s : State) (code : Nat) : State :=
  { s with sec := { s.sec with busy := some code, stage := bytesLE 6 s.sec.arg.toNat, outcome := 0 } }

/-- A security command has ended with a status (R518). -/
def SecEnded (t : State) (code : Nat) (st : Status) : Prop :=
  t.sec.busy = none ∧ t.sec.lastCmd = code ∧ t.sec.code = statusCode st

end Sys2Proof.Claims

/-- R518 to R520: a security command starts while none is busy and firmware runs, and otherwise changes nothing. An area outside
HBM, or in the pool region, gives ALLOC_FAULT, except for a command that has no area. FW_UPDATE with an image that passes erases the header of the slot not in use and writes the
body; CFG_WRITE with a valid copy erases the copy not in use. -/
def Sys2Proof.Claims.SecurityStarts : Prop :=
  ∀ s : State, s.bootFlash.wf = true →
    let off := s.sec.arg.toNat
    (∀ e ∈ [(Instr.fwUpdate, 1), (.svnCommit, 2), (.debugUnlock, 3), (.attest, 4), (.memberWrap, 5), (.cfgWrite, 6), (.certRead, 7)],
      (s.sec.busy.isSome = true ∨ s.boot.booted = false → exec e.1 s = .next s) ∧
      (s.sec.busy = none → s.boot.booted = true → secArea e.2 ≠ 0 → s.plainHbm off (secArea e.2) = false →
        exec e.1 s = .next { secBusy s e.2 with sec := { (secBusy s e.2).sec with outcome := statusCode .allocFault } })) ∧
    (s.sec.busy = none → s.boot.booted = true →
      (∀ e ∈ [(Instr.svnCommit, 2), (.debugUnlock, 3), (.memberWrap, 5), (.certRead, 7)], secArea e.2 = 0 ∨ s.plainHbm off (secArea e.2) = true →
        exec e.1 s = .next (secBusy s e.2)) ∧
      (s.plainHbm off (secArea 4) = true → exec .attest s =
        .next { secBusy s 4 with sec := { (secBusy s 4).sec with attestMeas := s.boot.meas.toList.flatten } }) ∧
      (∀ h body, s.plainHbm off 0x5000 = true → (checkFirmware off).exec (secBusy s 1) = (.ok (h, body), secBusy s 1) →
        let k := slotBase (1 - s.boot.slot)
        ∃ t, exec .fwUpdate s = .next t ∧ t.sec.busy = some 1 ∧ t.sec.outcome = 0 ∧
          t.sec.stage = overlay h 0x28 (pairBytes ((s.boot.gen + 1) % 65536)) ∧
          t.bootFlash.bytes k 0x5000 = List.replicate 0x5000 0xFF ∧ t.bootFlash.bytes (k + 0x5000) body.length = body ∧
          (∀ a, a < k ∨ k + 0x5000 + body.length ≤ a → t.bootFlash.byte a = s.bootFlash.byte a) ∧ t.mem = s.mem) ∧
      (∀ b, s.plainHbm off 4096 = true → (secRead off 4096).exec (secBusy s 6) = (.ok b, secBusy s 6) →
        ((checkCopy b).exec s).1 = .ok () →
        let k := 0x1000 * (1 - s.cfg.copy)
        ∃ t, exec .cfgWrite s = .next t ∧ t.sec.busy = some 6 ∧ t.sec.outcome = 0 ∧ t.sec.stage = s.sealCopy b ∧
          t.bootFlash.bytes k 4096 = List.replicate 4096 0xFF ∧
          (∀ a, a < k ∨ k + 4096 ≤ a → t.bootFlash.byte a = s.bootFlash.byte a) ∧ t.mem = s.mem))

/-- R519 to R524: the end of a security command. FW_UPDATE writes the header last, and CFG_WRITE its copy; SVN_COMMIT brings the
fused version up to the running image's; a debug token that passes adds its permissions, and every DEBUG_UNLOCK ends with a
fresh nonce; CERT_READ copies the certificates out; MEMBER_WRAP writes the wrapped key and zeroes the key; ATTEST writes its
report. Areas lie in HBM outside the pool region, the local frames and the tables that the V12 keeps to itself. A command whose
area was refused at its start ends with ALLOC_FAULT and does nothing. With no command busy, none ends. -/
def Sys2Proof.Claims.SecurityEnds : Prop :=
  ∀ (s : State) (off : Nat), NoTrigger s → s.bootFlash.wf = true → Healthy s → off < 2 ^ 48 →
    let area (n : Nat) : Prop := off + n ≤ hbmEnd ∧ s.plainHbm off n = true ∧ s.hbmGuarded off n = false ∧ OffFrames s off n
    (s.sec.busy = none → exec .securityCommandEnd s = .next s) ∧
    (∀ c, s.sec.busy = some c → c ≠ 3 → s.sec.outcome = statusCode .allocFault → ∃ t, exec .securityCommandEnd s = .next t ∧
      SecEnded t c .allocFault ∧ t = { s with sec := t.sec }) ∧
    (s.sec.outcome = 0 →
      (s.sec.busy = some 1 → ∃ t, exec .securityCommandEnd s = .next t ∧ SecEnded t 1 .ok ∧
        t.bootFlash.bytes (slotBase (1 - s.boot.slot)) s.sec.stage.length = s.sec.stage ∧ t.mem = s.mem ∧ t.fuses = s.fuses) ∧
      (s.sec.busy = some 2 → ∃ t, exec .securityCommandEnd s = .next t ∧ SecEnded t 2 .ok ∧
        t = { s with sec := t.sec, fuses := { s.fuses with svn := max s.fuses.svn s.boot.imageSvn } }) ∧
      (s.sec.busy = some 6 → ∃ t, exec .securityCommandEnd s = .next t ∧ SecEnded t 6 .ok ∧
        t.bootFlash.bytes (0x1000 * (1 - s.cfg.copy)) s.sec.stage.length = s.sec.stage ∧ t.mem = s.mem ∧ t.fuses = s.fuses ∧
        t.cfg = { s.cfg with nextKey := some (s.memberKey s.sec.stage) }) ∧
      (s.sec.stage = bytesLE 6 off →
        (s.sec.busy = some 3 → (∀ p msg, (checkToken off).exec s = (.ok (p, msg), s) → ∃ t, exec .securityCommandEnd s = .next t ∧
            SecEnded t 3 .ok ∧ t.sec.perms = s.sec.perms ||| p ∧ t.sec.nonce = Config.freeWord s.free ∧ t.mem = s.mem) ∧
          (∀ st, (checkToken off).exec s = (.error st, s) → ∃ t, exec .securityCommandEnd s = .next t ∧ SecEnded t 3 st ∧
            t.sec.perms = s.sec.perms ∧ t.sec.nonce = Config.freeWord s.free ∧ t.boot = s.boot ∧ t.mem = s.mem)) ∧
        (s.sec.busy = some 4 → area 17408 → ∃ t, exec .securityCommandEnd s = .next t ∧
          SecEnded t 4 .ok ∧ SameBut s t [(off, 17408)] ∧
          t.mem.bytes off (s.report (s.mem.bytes (off + 0x40) 48)).length = s.report (s.mem.bytes (off + 0x40) 48)) ∧
        (s.sec.busy = some 5 → area 128 → ∀ g, g < 2 ^ 32 → s.peek64 off = pair g →
          s.mem.bytes (off + 8) 24 = List.replicate 24 0 → ∃ t, exec .securityCommandEnd s = .next t ∧ SecEnded t 5 .ok ∧
          t.mem.bytes (off + 0x20) 32 = List.replicate 32 0 ∧
          t.mem.bytes (off + 0x40) 48 =
            slice (Config.wrapKey s.fuses.uid (BitVec.ofNat 32 g) (s.mem.bytes (off + 0x20) 32)) 0 48 ∧
          SameBut s t [(off + 0x20, 80)]) ∧
        (s.sec.busy = some 7 → area 65536 → ∃ t, exec .securityCommandEnd s = .next t ∧ SecEnded t 7 .ok ∧
          t.mem.bytes off 65536 = s.bootFlash.bytes 0x10000 65536 ∧ SameBut s t [(off, 65536)])))

/-- R518 to R524: the security mailbox from start to end. -/
def Obligations.SecurityCommands : Prop := SecurityStarts ∧ SecurityEnds

/-! ## Proof, trace, test port and sideband (R527 to R539, R551, R552) -/

/-- R530, R534, R535: ARM arms the trigger and clears MISSED. Trace enable restarts the ring; enabling it again changes nothing.
A drain writes the oldest entry's 32 bytes to its place in the ring, where HBM takes it, and no other byte of memory; a full ring
that does not wrap sets FULL and drops what is queued. -/
def Sys2Proof.Claims.TraceAndArm : Prop :=
  ∀ s : State,
    exec .arm s = .next { s with proof := { s.proof with armed := true, missed := 0 } } ∧
    (s.proof.traceEn = true → exec .traceEnable s = .next s) ∧
    (s.proof.traceEn = false → exec .traceEnable s =
      .next { s with proof := { s.proof with traceEn := true, next := 0, accepted := 0, full := false } }) ∧
    (s.proof.queue = [] → exec .traceDrain s = .next s) ∧
    (∀ e rest, s.proof.queue = e :: rest →
      let a := s.proof.traceBase.toNat * 65536 + 32 * (s.proof.next % 2 ^ s.proof.log2)
      let full : Prop := s.proof.full = true ∨ s.proof.traceWrap = false ∧ 2 ^ s.proof.log2 ≤ s.proof.accepted + 1
      ∃ t, exec .traceDrain s = .next t ∧ t.proof.next = (s.proof.next + 1) % 2 ^ 32 ∧
        t.proof.accepted = s.proof.accepted + 1 ∧ (full → t.proof.full = true ∧ t.proof.queue = []) ∧
        (¬ full → t.proof.full = false ∧ t.proof.queue = rest) ∧
        (Healthy s → a + 32 ≤ hbmEnd → s.hbmGuarded a 32 = false → OffFrames s a 32 →
          t = { s with mem := t.mem, proof := t.proof } ∧ t.mem.bytes a 32 = e.bytes ∧ SameBut s t [(a, 32)]))

/-- R538, R539, R551, R552: the test port's instructions select their data register: IDCODE the device's number, CLAMP, HIGHZ and
BYPASS one bit, HIGHZ with the outputs in high impedance; EXTEST and SAMPLE/PRELOAD give what the boundary cells hold, which is
free. A register access needs permission bit 1 and else acts as BYPASS; a read answers OK with the register, a write makes the
register's write, and an offset that names none gives ALLOC_FAULT. Over the sideband, six bytes set the
offset; a read at a served offset gives the register, and at any other, or with none set, is refused. Unpowered, it does
nothing. -/
def Sys2Proof.Claims.TestPortAndSideband : Prop :=
  ∀ (s : State),
    let select (ir : TapInstr) (dr : BitVec 128) (drive : Bool) : State :=
      { s with tap := { s.tap with ir := ir, dr := dr }, drive := drive, out := s.out ++ [.tap ir dr] }
    exec .idcode s = .next (select .idcode 0x10C1249D#128 true) ∧ exec .clamp s = .next (select .clamp 0 true) ∧
    exec .highz s = .next (select .highz 0 false) ∧ exec .bypass s = .next (select .bypass 0 true) ∧
    (∃ t d, exec .extest s = .next t ∧ t = { select .extest d true with free := t.free }) ∧
    (∀ pre : Word, ∃ t d, exec (.samplePreload (some pre)) s = .next t ∧
      t = { select .samplePreload d true with tap := { s.tap with ir := .samplePreload, dr := d, preload := some pre }, free := t.free }) ∧
    (∃ t d, exec (.samplePreload none) s = .next t ∧ t = { select .samplePreload d true with free := t.free }) ∧
    (∀ dr : BitVec 128, (s.sec.perms / 2 % 2 = 0 → exec (.regacc dr) s = .next (select .bypass 0 true)) ∧
      (s.sec.perms / 2 % 2 = 1 → dr.getLsbD 127 = false → NoTrigger s →
        (∀ w, s.readReg (dr.toNat / 2 ^ 64 % 2 ^ 48) = some w → exec (.regacc dr) s =
          .next (select .regacc (BitVec.ofNat 128 (2 ^ 126 + dr.toNat / 2 ^ 64 % 2 ^ 48 * 2 ^ 64 + w.toNat)) true)) ∧
        (s.readReg (dr.toNat / 2 ^ 64 % 2 ^ 48) = none → exec (.regacc dr) s =
          .next (select .regacc (BitVec.ofNat 128 (2 ^ 126 + statusCode .allocFault * 2 ^ 112 +
            dr.toNat / 2 ^ 64 % 2 ^ 48 * 2 ^ 64 + dr.toNat % 2 ^ 64)) true))) ∧
      (s.sec.perms / 2 % 2 = 1 → dr.getLsbD 127 = true → ∀ u,
        s.writeReg (dr.toNat / 2 ^ 64 % 2 ^ 48) (BitVec.ofNat 64 (dr.toNat % 2 ^ 64)) = some u →
        let d := BitVec.ofNat 128 (2 ^ 127 + 2 ^ 126 + dr.toNat % 2 ^ 112)
        exec (.regacc dr) s = .next { u with
          tap := { u.tap with ir := .regacc, dr := d }, drive := true, out := u.out ++ [.tap .regacc d] })) ∧
    (s.boot.powered = false → exec .i3cPrivateRead s = .next s ∧ ∀ d, exec (.i3cPrivateWrite d) s = .next s) ∧
    (s.boot.powered = true → s.i3c.offset = none → exec .i3cPrivateRead s = .next (s.emit (.i3c none))) ∧
    (s.boot.powered = true → (∀ d : List Byte, (d.length = 6 → exec (.i3cPrivateWrite d) s =
          .next { s with i3c := { offset := some (BitVec.ofNat 48 (leNat d)) } }) ∧
        (d.length ≠ 6 → exec (.i3cPrivateWrite d) s = .next s)) ∧
      (∀ o : BitVec 48, s.i3c.offset = some o → exec .i3cPrivateRead s =
        .next (s.emit (.i3c (if sidebandServes o.toNat then s.readReg o.toNat else none)))))

/-- R530, R534, R535, R538, R539, R551, R552: Proof, trace, the test port and the sideband. -/
def Obligations.DebugAccess : Prop := TraceAndArm ∧ TestPortAndSideband

/-! ## Reset and the whole machine -/

/-- R8, R28, R56, R301, R377, R439, R458, R474, R492, R498, R506, R530: the machine right after reset, for the values that the
manual gives: the tick stopped with its period of 1 ms, every core at rest, HBM stacks neither ready nor fenced with scrub
on, ports idle with the level of their number, partition 0 over every cluster, queue pairs in reset, no ring set, epoch 0,
the trigger armed, nothing waiting; and every memory is in canonical form. -/
def Obligations.ResetState : Prop :=
  let s := State.reset
  s.tick.run = false ∧ s.tick.period = 1800000 ∧ s.tick.lead = 8 ∧ s.tick.slack = 6 ∧ s.tick.role = .standalone ∧
  (∀ c : CoreId, (s.core c).running = false ∧ (s.core c).allCmds = []) ∧
  (∀ i : StackId, (s.stack i).ready = false ∧ (s.stack i).fenced = false ∧ (s.stack i).scrubEn = true) ∧
  (∀ p : PortId, (s.port p).state = .idle ∧ (s.port p).level =
    if p.val < 21 then 0 else if p.val < 28 then 1 else if p.val < 32 then 2 else 3) ∧
  (s.part 0).enable = true ∧ (s.part 0).count = 15 ∧ (∀ p : PartId, p ≠ 0 → (s.part p).enable = false) ∧
  (∀ p q, (s.qp p q).state = .reset) ∧ (∀ r : RingId, (s.ring r).set = false) ∧ s.recov.epoch = 0 ∧ s.recov.hbLimit = 4 ∧
  s.proof.armed = true ∧ s.power.cap = 600 ∧ s.boot.booted = false ∧ s.pending = [] ∧ s.memOk = true
end

