-- ==== Sys2Proof/Laws/Memory.lean ====
section
/-! SUPPORT. Byte memory: reading after writing, and that every memory operation keeps the canonical form. -/
namespace Sys2Proof.Machine

/-! ## Sorted cell lists -/

/-- Every address of a list is above a bound. -/
def above (a : Nat) (l : List Host.Cell) : Prop := ∀ c ∈ l, a < c.1

theorem risingFrom_cons (b : Host.Cell) (r : List Host.Cell) :
    risingFrom (b :: r) = true ↔ above b.1 r ∧ risingFrom r = true := by
  induction r generalizing b with
  | nil => simp [risingFrom, above]
  | cons c r ih =>
    have h := ih c
    simp only [risingFrom, Bool.and_eq_true, decide_eq_true_eq, above] at h ⊢
    constructor
    · rintro ⟨h1, h2⟩
      refine ⟨fun x hx => ?_, h2⟩
      rcases List.mem_cons.1 hx with rfl | hx
      · exact h1
      · exact Nat.lt_trans h1 ((h.1 h2).1 x hx)
    · rintro ⟨h1, h2⟩
      exact ⟨h1 c (List.mem_cons_self ..), h2⟩

theorem mem_cellPut {a : Nat} {o : Option Byte} {l : List Host.Cell} {c : Host.Cell} (h : c ∈ cellPut a o l) :
    c ∈ l ∨ (c.1 = a ∧ o = some c.2) := by
  induction l with
  | nil => cases o <;> simp_all [cellPut]
  | cons b r ih =>
    simp only [cellPut] at h
    split at h
    · cases o <;> simp_all
      rcases h with rfl | h <;> simp_all
    · split at h
      · cases o <;> simp_all
        rcases h with rfl | h <;> simp_all
      · rcases List.mem_cons.1 h with rfl | h
        · simp
        · rcases ih h with h | h <;> simp_all

theorem risingFrom_cellPut (a : Nat) (o : Option Byte) (l : List Host.Cell) (h : risingFrom l = true) :
    risingFrom (cellPut a o l) = true := by
  induction l with
  | nil => cases o <;> simp [cellPut, risingFrom]
  | cons b r ih =>
    obtain ⟨h1, h2⟩ := (risingFrom_cons b r).1 h
    simp only [cellPut]
    split
    · rename_i hlt
      cases o with
      | none => exact h
      | some v =>
        refine (risingFrom_cons _ _).2 ⟨fun x hx => ?_, h⟩
        rcases List.mem_cons.1 hx with rfl | hx
        · exact hlt
        · exact Nat.lt_trans hlt (h1 x hx)
    · rename_i hge
      split
      · rename_i he
        cases o with
        | none => exact h2
        | some v => exact (risingFrom_cons _ _).2 ⟨fun x hx => by simpa [he] using h1 x hx, h2⟩
      · rename_i hne
        refine (risingFrom_cons _ _).2 ⟨fun x hx => ?_, ih h2⟩
        rcases mem_cellPut hx with hx | ⟨hx, -⟩
        · exact h1 x hx
        · omega

theorem cellGet_of_ne {a : Nat} {l : List Host.Cell} (h : ∀ c ∈ l, a ≠ c.1) : cellGet a l = none := by
  induction l with
  | nil => rfl
  | cons b r ih =>
    have hb := h b (List.mem_cons_self ..)
    have hr := ih fun c hc => h c (List.mem_cons_of_mem _ hc)
    simp only [cellGet, hb, if_false, hr]
    split <;> rfl

theorem cellGet_of_above {a : Nat} {l : List Host.Cell} (h : above a l) : cellGet a l = none := by
  cases l with
  | nil => rfl
  | cons b r =>
    have := h b (List.mem_cons_self ..)
    simp [cellGet, Nat.ne_of_lt this, this]

theorem cellGet_cellPut_self (a : Nat) (o : Option Byte) (l : List Host.Cell) (h : risingFrom l = true) :
    cellGet a (cellPut a o l) = o := by
  induction l with
  | nil => cases o <;> simp [cellPut, cellGet]
  | cons b r ih =>
    obtain ⟨h1, h2⟩ := (risingFrom_cons b r).1 h
    simp only [cellPut]
    split
    · rename_i hlt
      cases o <;> simp [cellGet, hlt, Nat.ne_of_lt hlt]
    · split
      · rename_i he
        subst he
        cases o with
        | none => exact cellGet_of_above h1
        | some v => simp [cellGet]
      · rename_i h3 h4
        simp [cellGet, h3, h4, ih h2]

theorem cellGet_cellPut_ne {a b : Nat} (o : Option Byte) (l : List Host.Cell) (h : risingFrom l = true) (hab : b ≠ a) :
    cellGet b (cellPut a o l) = cellGet b l := by
  induction l with
  | nil => cases o <;> simp [cellPut, cellGet, hab]
  | cons c r ih =>
    obtain ⟨h1, h2⟩ := (risingFrom_cons c r).1 h
    simp only [cellPut]
    split
    · rename_i hlt
      cases o with
      | none => rfl
      | some v =>
        simp only [cellGet, hab, if_false]
        split <;> rename_i h3
        · have : b < c.1 := Nat.lt_trans h3 hlt
          simp [Nat.ne_of_lt this, this]
        · rfl
    · split
      · rename_i he
        subst he
        cases o with
        | none =>
          simp only [cellGet, hab, if_false]
          split <;> rename_i h3
          · exact cellGet_of_above fun x hx => Nat.lt_trans h3 (h1 x hx)
          · rfl
        | some v => simp [cellGet, hab]
      · simp [cellGet, ih h2]

/-! ## Memory -/

/-- A byte that nothing lists, and that no open range holds, reads 0. -/
theorem Memory.byte_unlisted {m : Memory} {a : Nat} (h : ∀ c ∈ m.cells, a ≠ c.1) (o : m.opens = []) : m.byte a = 0 := by
  simp [Memory.byte, cellGet_of_ne h, Memory.blank, o, openAt]

/-- Memory's canonical form in two parts: addresses rise, and no cell outside the open ranges holds 0. -/
theorem Memory.wf_iff (m : Memory) : m.wf = true ↔
    risingFrom m.cells = true ∧ ∀ c ∈ m.cells, c.2 ≠ 0 ∨ (openAt c.1 m.opens).isSome = true := by
  simp [Memory.wf, List.all_eq_true]

@[simp] theorem Memory.opens_setByte (m : Memory) (a : Nat) (v : Byte) : (m.setByte a v).opens = m.opens := by
  simp only [Memory.setByte]; split <;> rfl

@[simp] theorem Memory.opens_setBytes (m : Memory) (a : Nat) (bs : List Byte) : (m.setBytes a bs).opens = m.opens := by
  induction bs generalizing m a with
  | nil => rfl
  | cons v vs ih => simp [Memory.setBytes, ih]

theorem Memory.blank_setByte (m : Memory) (a b : Nat) (v : Byte) : (m.setByte a v).blank b = m.blank b := by
  simp [Memory.blank]

theorem Memory.wf_setByte (m : Memory) (a : Nat) (v : Byte) (h : m.wf = true) : (m.setByte a v).wf = true := by
  rw [Memory.wf_iff] at h ⊢
  obtain ⟨h1, h2⟩ := h
  simp only [Memory.setByte]
  split
  · refine ⟨risingFrom_cellPut _ _ _ h1, fun c hc => ?_⟩
    rcases mem_cellPut hc with hc | ⟨-, hc⟩
    · exact h2 c hc
    · cases hc
  · rename_i hn
    refine ⟨risingFrom_cellPut _ _ _ h1, fun c hc => ?_⟩
    rcases mem_cellPut hc with hc | ⟨hc, hv⟩
    · exact h2 c hc
    · by_cases hz : c.2 = 0
      · right
        have : v = 0 := by simpa [hz] using hv
        have hne : openAt a m.opens ≠ none := fun e => hn ⟨this, e⟩
        rw [hc]
        exact Option.isSome_iff_ne_none.2 hne
      · exact .inl hz

theorem Memory.wf_setBytes (m : Memory) (a : Nat) (bs : List Byte) (h : m.wf = true) : (m.setBytes a bs).wf = true := by
  induction bs generalizing m a with
  | nil => exact h
  | cons v vs ih => exact ih _ _ (m.wf_setByte a v h)

theorem Memory.byte_setByte_self (m : Memory) (a : Nat) (v : Byte) (h : m.wf = true) : (m.setByte a v).byte a = v := by
  have hr := ((Memory.wf_iff m).1 h).1
  simp only [Memory.byte, Memory.blank_setByte]
  simp only [Memory.setByte]
  split
  · rename_i hz
    simp [cellGet_cellPut_self _ _ _ hr, Memory.blank, hz]
  · simp [cellGet_cellPut_self _ _ _ hr]

theorem Memory.byte_setByte_ne (m : Memory) {a b : Nat} (v : Byte) (h : m.wf = true) (hab : b ≠ a) :
    (m.setByte a v).byte b = m.byte b := by
  have hr := ((Memory.wf_iff m).1 h).1
  simp only [Memory.byte, Memory.blank_setByte]
  simp only [Memory.setByte]
  split <;> simp [cellGet_cellPut_ne _ _ hr hab]

/-- A write leaves every byte outside it alone. -/
theorem Memory.byte_setBytes_out (m : Memory) (a b : Nat) (bs : List Byte) (h : m.wf = true)
    (hb : b < a ∨ a + bs.length ≤ b) : (m.setBytes a bs).byte b = m.byte b := by
  induction bs generalizing m a with
  | nil => rfl
  | cons v vs ih =>
    simp only [List.length_cons] at hb
    rw [Memory.setBytes, ih _ _ (m.wf_setByte a v h) (by omega), m.byte_setByte_ne v h (by omega)]

/-- A byte of a write reads as written. -/
theorem Memory.byte_setBytes_in (m : Memory) (a i : Nat) (bs : List Byte) (h : m.wf = true) (hi : i < bs.length) :
    (m.setBytes a bs).byte (a + i) = bs[i] := by
  induction bs generalizing m a i with
  | nil => cases hi
  | cons v vs ih =>
    cases i with
    | zero =>
      rw [Memory.setBytes, Memory.byte_setBytes_out _ _ _ _ (m.wf_setByte a v h) (.inl (by omega))]
      simpa using m.byte_setByte_self a v h
    | succ i =>
      have := ih (m.setByte a v) (a + 1) i (m.wf_setByte a v h) (by simpa using hi)
      rw [Memory.setBytes, ← Nat.add_assoc, Nat.add_right_comm]
      simpa using this

/-- A written range reads as written. -/
theorem Memory.bytes_setBytes (m : Memory) (a : Nat) (bs : List Byte) (h : m.wf = true) :
    (m.setBytes a bs).bytes a bs.length = bs := by
  apply List.ext_getElem
  · simp [Memory.bytes]
  · intro i h1 h2
    simp only [Memory.bytes, List.getElem_map, List.getElem_range]
    exact m.byte_setBytes_in a i bs h h2

theorem risingFrom_filter (p : Host.Cell → Bool) (l : List Host.Cell) (h : risingFrom l = true) :
    risingFrom (l.filter p) = true := by
  induction l with
  | nil => rfl
  | cons b r ih =>
    obtain ⟨h1, h2⟩ := (risingFrom_cons b r).1 h
    simp only [List.filter_cons]
    split
    · exact (risingFrom_cons _ _).2 ⟨fun x hx => h1 x ((List.mem_filter.1 hx).1), ih h2⟩
    · exact ih h2

theorem risingFrom_append (l r : List Host.Cell) (hl : risingFrom l = true) (hr : risingFrom r = true)
    (hlr : ∀ x ∈ l, ∀ y ∈ r, x.1 < y.1) : risingFrom (l ++ r) = true := by
  induction l with
  | nil => exact hr
  | cons b t ih =>
    obtain ⟨h1, h2⟩ := (risingFrom_cons b t).1 hl
    refine (risingFrom_cons _ _).2 ⟨fun x hx => ?_, ih h2 fun x hx => hlr x (List.mem_cons_of_mem _ hx)⟩
    rcases List.mem_append.1 hx with hx | hx
    · exact h1 x hx
    · exact hlr b (List.mem_cons_self ..) x hx

theorem risingFrom_map (f : Host.Cell → Host.Cell) (l : List Host.Cell) (h : risingFrom l = true)
    (hf : ∀ x ∈ l, ∀ y ∈ l, x.1 < y.1 → (f x).1 < (f y).1) : risingFrom (l.map f) = true := by
  induction l with
  | nil => rfl
  | cons b r ih =>
    obtain ⟨h1, h2⟩ := (risingFrom_cons b r).1 h
    refine (risingFrom_cons _ _).2 ⟨fun x hx => ?_, ih h2 fun x hx y hy => hf x (List.mem_cons_of_mem _ hx) y (List.mem_cons_of_mem _ hy)⟩
    obtain ⟨y, hy, rfl⟩ := List.mem_map.1 hx
    exact hf b (List.mem_cons_self ..) y (List.mem_cons_of_mem _ hy) (h1 y hy)

/-! ## Open ranges -/

theorem openAt_isSome (a : Nat) (l : List OpenRange) : (openAt a l).isSome = l.any fun r => r.holds a := by
  induction l with
  | nil => rfl
  | cons r rs ih => simp only [openAt, List.any_cons]; split <;> simp_all

theorem openMinus_holds {a n x : Nat} {o : OpenRange} (h : o.holds x = true) (hx : x < a ∨ a + n ≤ x) :
    (openMinus a n o).any (fun r => r.holds x) = true := by
  have hin : o.base ≤ x ∧ x < o.base + o.len := by
    simp only [OpenRange.holds, Bool.and_eq_true, decide_eq_true_eq] at h; exact h.1
  simp only [openMinus]
  split
  · simpa using h
  · rcases hx with hx | hx
    · rw [if_pos (by omega)]
      simp only [List.any_append, List.any_cons, List.any_nil, Bool.or_false, Bool.or_eq_true]
      left
      simp only [OpenRange.holds, Bool.and_eq_true, decide_eq_true_eq] at h ⊢
      exact ⟨⟨by omega, by omega⟩, h.2⟩
    · simp only [List.any_append, Bool.or_eq_true]
      right
      rw [if_pos (by omega)]
      simp only [OpenRange.holds, Bool.and_eq_true, decide_eq_true_eq, List.any_cons, List.any_nil, Bool.or_false] at h ⊢
      refine ⟨⟨by omega, by omega⟩, ?_⟩
      have e : o.origin + (a + n - o.base) + (x - (a + n)) = o.origin + (x - o.base) := by omega
      rw [e]; exact h.2

theorem Memory.wf_zero (m : Memory) (a n : Nat) (h : m.wf = true) : (m.zero a n).wf = true := by
  rw [Memory.wf_iff] at h ⊢
  refine ⟨risingFrom_filter _ _ h.1, fun c hc => ?_⟩
  obtain ⟨hc, hr⟩ := List.mem_filter.1 hc
  have hr : c.1 < a ∨ a + n ≤ c.1 := by
    simp only [inRange, Bool.not_eq_true', Bool.and_eq_false_iff, decide_eq_false_iff_not] at hr; omega
  refine (h.2 c hc).imp id fun ho => ?_
  rw [openAt_isSome, List.any_eq_true] at ho
  obtain ⟨o, ho, hh⟩ := ho
  simp only [openAt_isSome, Memory.zero, List.any_flatMap, List.any_eq_true (l := m.opens)]
  exact ⟨o, ho, openMinus_holds hh hr⟩

theorem Memory.wf_forget (m : Memory) (a n st : Nat) (h : m.wf = true) : (m.forget a n st).wf = true := by
  rw [Memory.wf_iff] at h ⊢
  refine ⟨risingFrom_filter _ _ h.1, fun c hc => ?_⟩
  obtain ⟨hc, -⟩ := List.mem_filter.1 hc
  refine (h.2 c hc).imp id fun ho => ?_
  simp only [openAt_isSome, Memory.forget, List.any_cons] at ho ⊢
  simp [ho]

theorem Memory.wf_forgetStack (m : Memory) (n k : Nat) (pc : Option Nat) (st : Nat) (h : m.wf = true) :
    (m.forgetStack n k pc st).wf = true := by
  rw [Memory.wf_iff] at h ⊢
  refine ⟨risingFrom_filter _ _ h.1, fun c hc => ?_⟩
  obtain ⟨hc, -⟩ := List.mem_filter.1 hc
  refine (h.2 c hc).imp id fun ho => ?_
  simp only [openAt_isSome, Memory.forgetStack, List.any_cons] at ho ⊢
  simp [ho]

theorem openMove_holds {a n b x : Nat} {o : OpenRange} (h : o.holds x = true) (h1 : a ≤ x) (h2 : x < a + n) :
    (openMove a n b o).any (fun r => r.holds (x - a + b)) = true := by
  have hin : o.base ≤ x ∧ x < o.base + o.len := by
    simp only [OpenRange.holds, Bool.and_eq_true, decide_eq_true_eq] at h; exact h.1
  have hlo : max a o.base = if o.base ≤ a then a else o.base := by split <;> omega
  have hhi : min (a + n) (o.base + o.len) = if a + n ≤ o.base + o.len then a + n else o.base + o.len := by split <;> omega
  simp only [openMove]
  rw [if_neg (by omega)]
  simp only [List.any_cons, List.any_nil, Bool.or_false]
  simp only [OpenRange.holds, Bool.and_eq_true, decide_eq_true_eq] at h ⊢
  refine ⟨⟨by omega, by omega⟩, ?_⟩
  have e : o.origin + (max a o.base - o.base) + (x - a + b - (b + (max a o.base - a))) = o.origin + (x - o.base) := by omega
  rw [e]; exact h.2

theorem Memory.wf_copy (m : Memory) (a n b : Nat) (h : m.wf = true) : (m.copy a n b).wf = true := by
  have hz := m.wf_zero b n h
  rw [Memory.wf_iff] at h hz ⊢
  have hzc : ∀ c ∈ (m.zero b n).cells, c.1 < b ∨ b + n ≤ c.1 := by
    intro c hc
    have := (List.mem_filter.1 hc).2
    simp only [inRange, Bool.not_eq_true', Bool.and_eq_false_iff, decide_eq_false_iff_not] at this; omega
  have hmid : ∀ c ∈ (m.cells.filter (inRange a n)).map (fun c => (c.1 - a + b, c.2)), b ≤ c.1 ∧ c.1 < b + n := by
    intro c hc
    obtain ⟨d, hd, rfl⟩ := List.mem_map.1 hc
    have := (List.mem_filter.1 hd).2
    simp only [inRange, Bool.and_eq_true, decide_eq_true_eq] at this; simp only; omega
  constructor
  · refine risingFrom_append _ _ (risingFrom_append _ _ (risingFrom_filter _ _ hz.1) ?_ ?_) (risingFrom_filter _ _ hz.1) ?_
    · refine risingFrom_map _ _ (risingFrom_filter _ _ h.1) fun x hx y hy hxy => ?_
      have h1 := (List.mem_filter.1 hx).2
      have h2 := (List.mem_filter.1 hy).2
      simp only [inRange, Bool.and_eq_true, decide_eq_true_eq] at h1 h2
      simp only; omega
    · intro x hx y hy
      have h1 := (List.mem_filter.1 hx).2
      have h2 := hmid y hy
      simp only [decide_eq_true_eq] at h1; omega
    · intro x hx y hy
      obtain ⟨hy1, hy2⟩ := List.mem_filter.1 hy
      have h3 := hzc y hy1
      simp only [Bool.not_eq_true', decide_eq_false_iff_not] at hy2
      rcases List.mem_append.1 hx with hx | hx
      · have h1 := (List.mem_filter.1 hx).2
        simp only [decide_eq_true_eq] at h1; omega
      · have h1 := hmid x hx
        omega
  · intro c hc
    simp only [Memory.copy, List.mem_append] at hc
    have old : ∀ c ∈ (m.zero b n).cells, c.2 ≠ 0 ∨ (openAt c.1 (m.copy a n b).opens).isSome = true := by
      intro c hc
      refine (hz.2 c hc).imp id fun ho => ?_
      rw [openAt_isSome] at ho ⊢
      simp [Memory.copy, ho]
    rcases hc with (hc | hc) | hc
    · exact old c ((List.mem_filter.1 hc).1)
    · obtain ⟨d, hd, rfl⟩ := List.mem_map.1 hc
      obtain ⟨hd1, hd2⟩ := List.mem_filter.1 hd
      simp only [inRange, Bool.and_eq_true, decide_eq_true_eq] at hd2
      refine (h.2 d hd1).imp id fun ho => ?_
      rw [openAt_isSome, List.any_eq_true] at ho
      obtain ⟨o, ho, hh⟩ := ho
      simp only [openAt_isSome, Memory.copy, List.any_append, List.any_flatMap, Bool.or_eq_true]
      left
      exact List.any_eq_true.2 ⟨o, ho, openMove_holds hh hd2.1 hd2.2⟩
    · exact old c ((List.mem_filter.1 hc).1)

/-! ## Slices of byte lists -/

@[simp] theorem slice_length (b : List Byte) (o n : Nat) : (slice b o n).length = n := by
  simp only [slice, List.length_append, List.length_take, List.length_drop, List.length_replicate]; omega

end Sys2Proof.Machine
end

