-- ==== Sys2Proof/Laws/Eng.lean ====
section
/-! SUPPORT. The engine monad, one equation per construct: how a program of `Eng` runs from a state; and what HBM requests
do where nothing refuses them. -/
namespace Sys2Proof.Machine

@[simp] theorem Eng.exec_pure {α : Type} (a : α) (s : State) : Eng.exec (pure a) s = (.ok a, s) := rfl
@[simp] theorem Eng.exec_throw {α : Type} (e : Status) (s : State) : Eng.exec (throw e : Eng α) s = (.error e, s) := rfl
@[simp] theorem Eng.exec_get (s : State) : Eng.exec get s = (.ok s, s) := rfl
@[simp] theorem Eng.exec_set (t s : State) : Eng.exec (set t) s = (.ok (), t) := rfl
@[simp] theorem Eng.exec_modify (f : State → State) (s : State) : Eng.exec (modify f) s = (.ok (), f s) := rfl

/-- A sequence runs its first program, and the second from where it ended, unless the first ended with a status. -/
theorem Eng.exec_bind {α β : Type} (x : Eng α) (f : α → Eng β) (s : State) :
    Eng.exec (x >>= f) s = match Eng.exec x s with
      | (.ok a, t) => Eng.exec (f a) t
      | (.error e, t) => (.error e, t) := by
  simp only [Eng.exec, bind, ExceptT.bind, ExceptT.mk, ExceptT.run, StateT.run, StateT.bind]
  generalize hx : x s = r
  obtain ⟨(e | a), t⟩ := r <;> rfl

theorem Eng.exec_bind_ok {α β : Type} {x : Eng α} {f : α → Eng β} {s t : State} {a : α} (h : Eng.exec x s = (.ok a, t)) :
    Eng.exec (x >>= f) s = Eng.exec (f a) t := by rw [Eng.exec_bind, h]
theorem Eng.exec_bind_error {α β : Type} {x : Eng α} {f : α → Eng β} {s t : State} {e : Status} (h : Eng.exec x s = (.error e, t)) :
    Eng.exec (x >>= f) s = (.error e, t) := by rw [Eng.exec_bind, h]

theorem Eng.exec_need (b : Bool) (e : Status) (s : State) :
    Eng.exec (need b e) s = (if b then .ok () else .error e, s) := by cases b <;> rfl
theorem Eng.exec_getPair (w : Word) (s : State) :
    Eng.exec (getPair w) s = (if pairOk w then .ok (pairVal w) else .error .integrity, s) := by
  unfold getPair; cases pairOk w <;> rfl
theorem Eng.outcome_ok {α : Type} {x : Eng α} {s t : State} {a : α} (h : Eng.exec x s = (.ok a, t)) : x.outcome s = (.ok, t) := by
  simp only [Eng.outcome, h]
theorem Eng.outcome_error {α : Type} {x : Eng α} {s t : State} {e : Status} (h : Eng.exec x s = (.error e, t)) :
    x.outcome s = (e, t) := by simp only [Eng.outcome, h]
@[simp] theorem Eng.exec_forM_nil {α : Type} (f : α → Eng Unit) (s : State) :
    Eng.exec (([] : List α).forM f) s = (.ok (), s) := rfl
theorem Eng.exec_forM_cons {α : Type} (a : α) (l : List α) (f : α → Eng Unit) (s : State) :
    Eng.exec ((a :: l).forM f) s = Eng.exec (f a >>= fun _ => l.forM f) s := rfl

/-- Where every stack serves, nothing refuses a request. -/
theorem State.hbmRefuses_none {s : State} (h : ∀ i, (s.stack i).refuses = none) (off n : Nat) : s.hbmRefuses off n = none := by
  unfold State.hbmRefuses
  exact List.findSome?_eq_none_iff.mpr fun i _ => h i

theorem hasDamage_nil {s : State} (h : s.damage = []) (off n : Nat) : hasDamage s off n = false := by
  simp [hasDamage, h]

/-- A read that nothing refuses, of clean codewords, answers the bytes and changes nothing (R288). -/
theorem hbmRead_clean {s : State} {off n : Nat} (h : s.hbmRefuses off n = none) (d : hasDamage s off n = false) :
    Eng.exec (hbmRead off n) s = (.ok (s.peek off n), s) := by
  simp [hbmRead, Eng.exec_bind, h, d]
/-- A write that nothing refuses, of clean codewords, stores the bytes and changes nothing else (R289). -/
theorem hbmWrite_clean {s : State} {off : Nat} {data : List Byte} (h : s.hbmRefuses off data.length = none)
    (d : hasDamage s off data.length = false) : Eng.exec (hbmWrite off data) s = (.ok (), s.poke off data) := by
  simp [hbmWrite, Eng.exec_bind, h, d]
/-- A refused request ends with the stack's status and changes nothing (R293, R295 to R297). -/
theorem hbmRead_refused {s : State} {off n : Nat} {st : Status} (h : s.hbmRefuses off n = some st) :
    Eng.exec (hbmRead off n) s = (.error st, s) := by
  simp [hbmRead, Eng.exec_bind, h]
theorem hbmWrite_refused {s : State} {off : Nat} {data : List Byte} {st : Status} (h : s.hbmRefuses off data.length = some st) :
    Eng.exec (hbmWrite off data) s = (.error st, s) := by
  simp [hbmWrite, Eng.exec_bind, h]

end Sys2Proof.Machine
end

