-- ==== Sys2Proof/Laws/Security.lean ====
section
/-! SUPPORT. Reads and writes of HBM by any requester where every stack serves, and when the checks of firmware images,
debug tokens and configuration copies accept (R519, R520, R522). -/
namespace Sys2Proof.Machine

/-- A range of HBM is HBM. -/
theorem State.locate_hbm (s : State) {off n : Nat} (h : off < hbmEnd) (h' : off + n ≤ hbmEnd) : s.locate off n = some .hbm := by
  simp [State.locate, h, h']

/-- A read of HBM, outside the pool directory and the tables, where every stack serves clean codewords. -/
theorem memRead_hbm {s : State} (r : Requester) {off n : Nat} (hs : ∀ i, (s.stack i).refuses = none) (d : s.damage = [])
    (hn : 0 < n) (he : off + n ≤ hbmEnd) (g : s.hbmGuarded off n = false) :
    Eng.exec (memRead r off n) s = (.ok (s.mem.bytes off n), s) := by
  have h0 : n ≠ 0 := Nat.pos_iff_ne_zero.mp hn
  have hr := hbmRead_clean (State.hbmRefuses_none hs off n) (hasDamage_nil d off n)
  have hl := s.locate_hbm (Nat.lt_of_lt_of_le (Nat.lt_add_of_pos_right hn) he) he
  unfold memRead
  rw [if_neg h0]
  simp only [Eng.exec_bind, Eng.exec_get]
  rw [hl]
  simp only [g, Bool.false_eq_true, if_false]
  exact hr

/-- A write that lands in no local frame marks none (R311). -/
theorem State.markDirty_off {s : State} {off n : Nat}
    (h : s.folio.t1Count = 0 ∨ off + n ≤ s.folio.localOff 0 ∨ s.folio.localOff 0 + 65536 * s.folio.t1Count ≤ off) :
    s.markDirty off n = s := by
  unfold State.markDirty
  rw [if_pos]
  rcases h with h | h | h
  · exact .inl h
  · exact .inr (.inr (.inl h))
  · exact .inr (.inr (.inr h))

/-- A write of HBM likewise, outside the local frames. -/
theorem memWrite_hbm {s : State} (r : Requester) {off : Nat} {data : List Byte} (hs : ∀ i, (s.stack i).refuses = none)
    (d : s.damage = []) (hn : data ≠ []) (he : off + data.length ≤ hbmEnd) (g : s.hbmGuarded off data.length = false)
    (hf : s.folio.t1Count = 0 ∨ off + data.length ≤ s.folio.localOff 0 ∨
      s.folio.localOff 0 + 65536 * s.folio.t1Count ≤ off) :
    Eng.exec (memWrite r off data) s = (.ok (), s.poke off data) := by
  have h0 : data.isEmpty = false := by cases data <;> simp_all
  have h1 : 0 < data.length := List.length_pos_iff.mpr hn
  have hw := hbmWrite_clean (State.hbmRefuses_none hs off data.length) (hasDamage_nil d off data.length)
  have hl := s.locate_hbm (Nat.lt_of_lt_of_le (Nat.lt_add_of_pos_right h1) he) he
  unfold memWrite
  rw [h0, if_neg Bool.false_ne_true]
  simp only [Eng.exec_bind, Eng.exec_get]
  rw [hl]
  simp only [g, Bool.false_eq_true, if_false, Eng.exec_bind, hw, Eng.exec_modify]
  exact congrArg (Prod.mk _) (State.markDirty_off (s := s.poke off data) hf)

/-- A read of an area outside the pool region. -/
theorem secRead_hbm {s : State} {off n : Nat} (p : s.plainHbm off n = true) (hs : ∀ i, (s.stack i).refuses = none) (d : s.damage = [])
    (hn : 0 < n) (he : off + n ≤ hbmEnd) (g : s.hbmGuarded off n = false) :
    Eng.exec (secRead off n) s = (.ok (s.mem.bytes off n), s) := by
  unfold secRead
  simp only [Eng.exec_bind, Eng.exec_need, Eng.exec_get, p, if_true]
  exact memRead_hbm .window hs d hn he g

/-- A check that holds lets a program go on. -/
theorem Eng.need_then {β : Type} {b : Bool} {e : Status} {f : Unit → Eng β} {s : State} {r : Except Status β × State}
    (h : b = true) (k : Eng.exec (f ()) s = r) : Eng.exec (need b e >>= f) s = r :=
  (Eng.exec_bind_ok (show Eng.exec (need b e) s = (.ok (), s) by rw [Eng.exec_need, h]; rfl)).trans k

/-- An image whose header, keys, signatures and hash pass is accepted (R516, R519, R520). -/
theorem checkFirmware_ok {s : State} {off : Nat} {h body : List Byte} (rh : Eng.exec (secRead off 0x5000) s = (.ok h, s))
    (rb : Eng.exec (secRead (off + 0x5000) (pw h 0x20)) s = (.ok body, s)) (form : fwForm h = true) (pairs : fwPairs h = true)
    (range : fwRange h = true) (valid : s.keyRevoked (pw h 0x30) = false)
    (keys : s.keyMatches (pw h 0x30) (slice h 0x100 384) (slice h 0x280 48) = true) (signed : fwSigned h = true)
    (svn : s.fuses.svn ≤ pw h 0x10) (hash : Config.sha384 body = slice h 0x40 48) :
    Eng.exec (checkFirmware off) s = (.ok (h, body), s) := by
  have k : (s.keyMatches (pw h 0x30) (slice h 0x100 384) (slice h 0x280 48) && fwSigned h) = true := by rw [keys, signed]; rfl
  have e : (Config.sha384 body == slice h 0x40 48) = true := by rw [hash]; exact BEq.rfl
  have v : decide (s.fuses.svn ≤ pw h 0x10) = true := decide_eq_true svn
  unfold checkFirmware
  refine (Eng.exec_bind_ok rh).trans (Eng.need_then form (Eng.need_then pairs (Eng.need_then range ?_)))
  refine (Eng.exec_bind_ok (Eng.exec_get s)).trans (Eng.need_then (by rw [valid]; rfl) (Eng.need_then k (Eng.need_then v ?_)))
  exact (Eng.exec_bind_ok rb).trans (Eng.need_then e rfl)

/-- A debug token that passes the checks of R522 is accepted with its permissions. -/
theorem checkToken_ok {s : State} {off : Nat} {b : List Byte} (rd : Eng.exec (secRead off 0x4160) s = (.ok b, s))
    (magic : b.take 8 = [0x4F, 0x5A, 0x44, 0x58, 0x44, 0x42, 0x47, 0x54])
    (pairs : ∀ o ∈ [0x08, 0x10, 0x18, 0x28], pairOk (w64At b o) = true)
    (perms : pw b 0x18 < 8) (key : pw b 0x28 < 4) (rsv : allZero (slice b 0x30 80) = true)
    (uid : pw b 0x08 + 2 ^ 32 * pw b 0x10 = s.fuses.uid.toNat) (nonce : w64At b 0x20 = s.sec.nonce)
    (valid : s.keyRevoked (pw b 0x28) = false) (keys : s.keyMatches (pw b 0x28) s.boot.rsaPub s.boot.slhPub = true)
    (signed : sigsOk s.boot.rsaPub s.boot.slhPub (b.take 0x80) (slice b 0x80 384) (slice b 0x200 16224) = true) :
    Eng.exec (checkToken off) s = (.ok (pw b 0x18, b.take 0x80), s) := by
  have p : ([0x08, 0x10, 0x18, 0x28].all fun o => pairOk (w64At b o)) = true := by simpa using pairs
  have u : (pw b 0x08 + 2 ^ 32 * pw b 0x10 == s.fuses.uid.toNat && w64At b 0x20 == s.sec.nonce) = true := by
    rw [uid, nonce]; simp
  have k : (decide (pw b 0x18 < 8) && decide (pw b 0x28 < 4) && allZero (slice b 0x30 80)) = true := by simp [perms, key, rsv]
  have m : (b.take 8 == [0x4F, 0x5A, 0x44, 0x58, 0x44, 0x42, 0x47, 0x54]) = true := by rw [magic]; rfl
  have w : (s.keyMatches (pw b 0x28) s.boot.rsaPub s.boot.slhPub
    && sigsOk s.boot.rsaPub s.boot.slhPub (b.take 0x80) (slice b 0x80 384) (slice b 0x200 16224)) = true := by rw [keys, signed]; rfl
  unfold checkToken
  refine (Eng.exec_bind_ok rd).trans (Eng.need_then m (Eng.need_then p (Eng.need_then k ?_)))
  exact (Eng.exec_bind_ok (Eng.exec_get s)).trans (Eng.need_then u (Eng.need_then (by rw [valid]; rfl) (Eng.need_then w rfl)))

end Sys2Proof.Machine
end

