-- ==== Sys2Proof/Laws/Context.lean ====
section
/-! SUPPORT. Contexts: what writing a save does where every stack serves. -/
namespace Sys2Proof.Machine

/-- Nothing stands in the way of a write of HBM: every stack serves clean codewords, the pool and the collectives do not
run, and no local frame exists. -/
def State.plain (s : State) : Prop :=
  (∀ i, (s.stack i).refuses = none) ∧ s.damage = [] ∧ s.folio.run = false ∧ s.coll.run = false ∧ s.folio.t1Count = 0

theorem State.plain_guard {s : State} (h : s.plain) (off n : Nat) : s.hbmGuarded off n = false := by
  simp [State.hbmGuarded, h.2.2.1, h.2.2.2.1]

/-- A bulk save that nothing refuses copies the range. -/
theorem bulkSave_clean {s : State} (h : s.plain) (a n b : Nat) :
    Eng.exec (bulkSave a n b) s = (.ok (), { s with mem := s.mem.copy a n b }) := by
  have e : ({ s with damage := [] } : State) = s := by rw [← h.2.1]
  have m : ∀ t : State, t.folio = s.folio → t.markDirty b n = t := fun t ht =>
    State.markDirty_off (.inl (by rw [ht]; exact h.2.2.2.2))
  simp only [bulkSave, Eng.exec_bind, Eng.exec_get, Eng.exec_need, State.plain_guard h, State.hbmRefuses_none h.1,
    Bool.not_false, if_true, Eng.exec_set]
  rw [m _ (by rfl)]
  simp [h.2.1]

/-- Two bulk saves for each element of a list. -/
theorem bulkSaves_clean {α : Type} (a1 n1 b1 a2 n2 b2 : α → Nat) (l : List α) : ∀ {s : State}, s.plain →
    ∃ m, Eng.exec (l.forM fun e => do
      bulkSave (a1 e) (n1 e) (b1 e)
      bulkSave (a2 e) (n2 e) (b2 e)) s = (.ok (), { s with mem := m }) := by
  induction l with
  | nil => intro s h; exact ⟨s.mem, rfl⟩
  | cons e l ih =>
    intro s h
    rw [Eng.exec_forM_cons, Eng.exec_bind, Eng.exec_bind, bulkSave_clean h]
    simp only []
    have h2 : ({ s with mem := s.mem.copy (a1 e) (n1 e) (b1 e) } : State).plain := h
    rw [bulkSave_clean h2]
    obtain ⟨m, hm⟩ := @ih { s with mem := (s.mem.copy (a1 e) (n1 e) (b1 e)).copy (a2 e) (n2 e) (b2 e) } h
    exact ⟨m, hm⟩

theorem length_overlay {bs v : List Byte} {o : Nat} (h : o + v.length ≤ bs.length) : (overlay bs o v).length = bs.length := by
  simp [overlay]; omega
theorem length_sealed (l : List Byte) (v n : Nat) (h : 108 ≤ n) : (overlay (slice l 0 n) 0x68 (le 4 v)).length = n := by
  have h4 : (le 4 v).length = 4 := by simp [le, bytesLE]
  rw [length_overlay (by rw [h4, slice_length]; exact h), slice_length]
theorem State.length_saveHeader (s : State) (p : PartId) (im : Image) : (s.saveHeader p im).length = 0xC00 :=
  length_sealed _ _ _ (by decide)

theorem length_savePad : savePad.length = 62464 := List.length_replicate

/-- With nothing in the way, a save is written: memory alone changes (R466). -/
theorem writeSave_clean {s : State} (h : s.plain) (p : PartId) (im : Image) (he : (s.part p).saveOff + 65536 ≤ hbmEnd) :
    ∃ t, Eng.exec (writeSave p im) s = (.ok (), t) ∧ t = { s with mem := t.mem } := by
  unfold writeSave
  simp only [Eng.exec_bind, Eng.exec_get]
  obtain ⟨m, hm⟩ := bulkSaves_clean (fun e => spmOf e.2.val) (fun _ => spmSize)
    (fun e => (s.part p).saveOff + 65536 + e.1 * saveStride) (fun e => accOf e.2.val) (fun _ => accSize)
    (fun e => (s.part p).saveOff + 65536 + e.1 * saveStride + spmSize) (enumFrom 0 (s.part p).imageCores) h
  rw [hm]; simp only []
  generalize hu : ({ s with mem := m } : State) = u
  have hp : u.plain := by rw [← hu]; exact h
  have hl := u.length_saveHeader p im
  have hz : ((u.saveHeader p im).drop 8 ++ savePad).length = 65528 := by
    rw [List.length_append, List.length_drop, hl, length_savePad]
  have ht : ((u.saveHeader p im).take 8).length = 8 := by rw [List.length_take, hl]; decide
  rw [memWrite_hbm .window hp.1 hp.2.1 (fun e => by rw [e, List.length_nil] at hz; omega) (by rw [hz, Nat.add_assoc]; exact he)
    (State.plain_guard hp _ _) (.inl hp.2.2.2.2)]
  simp only []
  have hp' : ∀ c e, (u.poke c e).plain := fun _ _ => hp
  rw [memWrite_hbm .window (hp' _ _).1 (hp' _ _).2.1 (fun e => by rw [e, List.length_nil] at ht; omega) (by rw [ht]; exact Nat.le_trans (Nat.add_le_add_left (by decide) _) he)
    (State.plain_guard (hp' _ _) _ _) (.inl (hp' _ _).2.2.2.2)]
  refine ⟨_, rfl, ?_⟩
  simp only [State.poke, ← hu]

end Sys2Proof.Machine
end

