-- ==== Sys2Proof/Laws/Encoding.lean ====
section
/-! SUPPORT. What each field of a Stylus word reads as, and the round trip of each format (R250, R251). -/
namespace Sys2Proof

theorem getLsbD_putField {n : Nat} (lo i : Nat) (f : BitVec n) :
    (putField lo f).getLsbD i = (decide (i < 64) && !decide (i < lo) && f.getLsbD (i - lo)) := by
  simp only [putField, BitVec.getLsbD_shiftLeft, BitVec.getLsbD_setWidth]
  by_cases h : i < 64 <;> simp [h]
  have : i - lo < 64 := by omega
  simp [this]

/-- A field reads back where it was put. -/
theorem extract_putField_same {n : Nat} (lo : Nat) (f : BitVec n) (h : lo + n ≤ 64) :
    (putField lo f).extractLsb' lo n = f := by
  ext i hi
  rw [BitVec.getElem_extractLsb', getLsbD_putField, ← BitVec.getLsbD_eq_getElem]
  have : lo + i < 64 := by omega
  simp [this]

/-- A field reads as zero elsewhere. -/
theorem extract_putField_apart {n : Nat} (lo p m : Nat) (f : BitVec n) (h : lo + n ≤ p ∨ p + m ≤ lo) :
    (putField lo f).extractLsb' p m = 0 := by
  ext i hi
  rw [BitVec.getElem_extractLsb', getLsbD_putField]
  rcases h with h | h
  · simp [BitVec.getLsbD_of_ge f (p + i - lo) (by omega)]
  · have : p + i < lo := by omega
    simp [this]

theorem extract_or (a b : Word) (p m : Nat) :
    (a ||| b).extractLsb' p m = a.extractLsb' p m ||| b.extractLsb' p m := by
  ext i hi
  simp

/-- A single bit as a field. -/
theorem getLsbD_eq_extract (w : Word) (i : Nat) : w.getLsbD i = (w.extractLsb' i 1 == 1) := by
  rw [Bool.eq_iff_iff, beq_iff_eq]
  constructor
  · intro h
    ext j hj
    have : j = 0 := by omega
    subst this
    simpa using h
  · intro h
    have := congrArg (fun v : BitVec 1 => v.getLsbD 0) h
    simpa using this

theorem ofBool_beq_one (b : Bool) : (BitVec.ofBool b == 1#1) = b := by cases b <;> rfl

theorem opcodeOf_eq (w : Word) : opcodeOf w = (w.extractLsb' 56 8).toNat := by
  simp [opcodeOf, Nat.shiftRight_eq_div_pow]
  have := w.isLt
  omega

/-- Format R: its fields and its opcode read back from its word. -/
theorem fmtR_round (f : FmtR) (op : Byte) : fmtROf (f.word op) = f ∧ opcodeOf (f.word op) = op.toNat := by
  obtain ⟨⟨g, x, y⟩, a, b, c, d, e⟩ := f
  simp (disch := omega) only [fmtROf, preOf, FmtR.word, wordOf, opcodeOf_eq, getLsbD_eq_extract, extract_or,
    extract_putField_same, extract_putField_apart]
  simp [ofBool_beq_one]

/-- Format I: its fields and its opcode read back from its word. -/
theorem fmtI_round (f : FmtI) (op : Byte) : fmtIOf (f.word op) = f ∧ opcodeOf (f.word op) = op.toNat := by
  obtain ⟨⟨g, x, y⟩, a, b, c, d, e⟩ := f
  simp (disch := omega) only [fmtIOf, preOf, FmtI.word, wordOf, opcodeOf_eq, getLsbD_eq_extract, extract_or,
    extract_putField_same, extract_putField_apart]
  simp [ofBool_beq_one]

/-- Format M: its fields and its opcode read back from its word. -/
theorem fmtM_round (f : FmtM) (op : Byte) : fmtMOf (f.word op) = f ∧ opcodeOf (f.word op) = op.toNat := by
  obtain ⟨⟨g, x, y⟩, a, b, c, d, e⟩ := f
  simp (disch := omega) only [fmtMOf, preOf, FmtM.word, wordOf, opcodeOf_eq, getLsbD_eq_extract, extract_or,
    extract_putField_same, extract_putField_apart]
  simp [ofBool_beq_one]

/-- Format B: its fields and its opcode read back from its word. -/
theorem fmtB_round (f : FmtB) (op : Byte) : fmtBOf (f.word op) = f ∧ opcodeOf (f.word op) = op.toNat := by
  obtain ⟨⟨g, x, y⟩, a, b, c⟩ := f
  simp (disch := omega) only [fmtBOf, preOf, FmtB.word, wordOf, opcodeOf_eq, getLsbD_eq_extract, extract_or,
    extract_putField_same, extract_putField_apart]
  simp [ofBool_beq_one]

/-- Format C: its fields and its opcode read back from its word. -/
theorem fmtC_round (f : FmtC) (op : Byte) : fmtCOf (f.word op) = f ∧ opcodeOf (f.word op) = op.toNat := by
  obtain ⟨⟨g, x, y⟩, a, b, c, d, e, f, g, h⟩ := f
  simp (disch := omega) only [fmtCOf, preOf, FmtC.word, wordOf, opcodeOf_eq, getLsbD_eq_extract, extract_or,
    extract_putField_same, extract_putField_apart]
  simp [ofBool_beq_one]

/-- Format K: its fields and its opcode read back from its word. -/
theorem fmtK_round (f : FmtK) (op : Byte) : fmtKOf (f.word op) = f ∧ opcodeOf (f.word op) = op.toNat := by
  obtain ⟨⟨g, x, y⟩, a, b, c, d, e, f, g, h, i⟩ := f
  simp (disch := omega) only [fmtKOf, preOf, FmtK.word, wordOf, opcodeOf_eq, getLsbD_eq_extract, extract_or,
    extract_putField_same, extract_putField_apart]
  simp [ofBool_beq_one]

/-- Format S: its fields and its opcode read back from its word. -/
theorem fmtS_round (f : FmtS) (op : Byte) : fmtSOf (f.word op) = f ∧ opcodeOf (f.word op) = op.toNat := by
  obtain ⟨⟨g, x, y⟩, a, b, c, d, e, f⟩ := f
  simp (disch := omega) only [fmtSOf, preOf, FmtS.word, wordOf, opcodeOf_eq, getLsbD_eq_extract, extract_or,
    extract_putField_same, extract_putField_apart]
  simp [ofBool_beq_one]

end Sys2Proof
end

