-- ==== Sys2Proof/Laws/Link.lean ====
section
/-! SUPPORT. Strokes: the body of a stroke whose four codewords decode without a correction is the bytes it carries. -/
namespace Sys2Proof.Machine

/-- Byte j of codeword w is byte 16 (j / 4) + 4 w + j mod 4 of the body (R353). -/
theorem bodyWord_eq (body : List Byte) {w : Nat} (h : w < 4) :
    bodyWord body w = (List.range 128).map fun j => byteAt body (16 * (j / 4) + 4 * w + j % 4) := by
  have : ∀ w < 4, ((List.range 512).filter fun n => n / 4 % 4 == w) = (List.range 128).map fun j => 16 * (j / 4) + 4 * w + j % 4 := by
    decide +kernel
  simp only [bodyWord, this w h, List.map_map]; rfl

@[simp] theorem bodyWord_length (body : List Byte) {w : Nat} (h : w < 4) : (bodyWord body w).length = 128 := by
  simp [bodyWord_eq body h]

theorem byteAt_bodyWord (body : List Byte) {w j : Nat} (h : w < 4) (hj : j < 128) :
    byteAt (bodyWord body w) j = byteAt body (16 * (j / 4) + 4 * w + j % 4) := by
  simp [bodyWord_eq body h, byteAt, List.getD, hj]

/-- A list of n bytes is the list of its bytes. -/
theorem map_byteAt (b : List Byte) {n : Nat} (h : b.length = n) : (List.range n).map (byteAt b) = b := by
  apply List.ext_getElem
  · simp [h]
  · intro i h1 h2
    simp [byteAt, List.getD, h2]

/-- A body whose four codewords are clean reads as it stands (R353, R363). -/
theorem readBody_clean (stroke : List Byte)
    (h : ∀ w < 4, rsDecode 134 6 3 (wordPattern (bodyWord (slice stroke 8 512) w ++ slice stroke (520 + 6 * w) 6)) = some []) :
    readBody stroke = some (slice stroke 8 512) := by
  have ht (w : Nat) (c : List Byte) (hw : w < 4) : (applyPattern (bodyWord (slice stroke 8 512) w ++ c) []).take 128 =
      bodyWord (slice stroke 8 512) w := by
    simp only [applyPattern, List.foldl_nil]
    rw [List.take_append_of_le_length (by simp [hw]), List.take_of_length_le (by simp [hw])]
  unfold readBody
  simp only [h 0 (by decide), h 1 (by decide), h 2 (by decide), h 3 (by decide), Option.map_some,
    ht 0 _ (by decide), ht 1 _ (by decide), ht 2 _ (by decide), ht 3 _ (by decide)]
  refine congrArg some (Eq.trans (List.map_congr_left fun n hn => ?_) (map_byteAt (n := 512) (slice stroke 8 512) (slice_length _ _ _)))
  have hn : n < 512 := List.mem_range.mp hn
  have hj : n / 16 * 4 + n % 4 < 128 := by omega
  have e (w : Nat) (hw : n / 4 % 4 = w) (h4 : w < 4) :
      byteAt (bodyWord (slice stroke 8 512) w) (n / 16 * 4 + n % 4) = byteAt (slice stroke 8 512) n := by
    rw [byteAt_bodyWord _ h4 hj]; congr 1; omega
  split
  · exact e 0 ‹_› (by decide)
  · split
    · exact e 1 ‹_› (by decide)
    · split
      · exact e 2 ‹_› (by decide)
      · exact e 3 (by omega) (by decide)

end Sys2Proof.Machine
end

