-- ==== Sys2Proof/Laws/State.lean ====
section
/-! SUPPORT. What each named update of State leaves of each field, and what it puts where it writes. -/
namespace Sys2Proof.Machine

/-! ## setCore -/

@[simp] theorem State.setCore_mem (s : State) (c : CoreId) (x : Core) : (s.setCore c x).mem = s.mem := rfl
@[simp] theorem State.setCore_nand (s : State) (c : CoreId) (x : Core) : (s.setCore c x).nand = s.nand := rfl
@[simp] theorem State.setCore_bootFlash (s : State) (c : CoreId) (x : Core) : (s.setCore c x).bootFlash = s.bootFlash := rfl
@[simp] theorem State.setCore_damage (s : State) (c : CoreId) (x : Core) : (s.setCore c x).damage = s.damage := rfl
@[simp] theorem State.setCore_fuses (s : State) (c : CoreId) (x : Core) : (s.setCore c x).fuses = s.fuses := rfl
@[simp] theorem State.setCore_chipId (s : State) (c : CoreId) (x : Core) : (s.setCore c x).chipId = s.chipId := rfl
@[simp] theorem State.setCore_tick (s : State) (c : CoreId) (x : Core) : (s.setCore c x).tick = s.tick := rfl
@[simp] theorem State.setCore_hbmStacks (s : State) (c : CoreId) (x : Core) : (s.setCore c x).hbmStacks = s.hbmStacks := rfl
@[simp] theorem State.setCore_folio (s : State) (c : CoreId) (x : Core) : (s.setCore c x).folio = s.folio := rfl
@[simp] theorem State.setCore_ftl (s : State) (c : CoreId) (x : Core) : (s.setCore c x).ftl = s.ftl := rfl
@[simp] theorem State.setCore_fabric (s : State) (c : CoreId) (x : Core) : (s.setCore c x).fabric = s.fabric := rfl
@[simp] theorem State.setCore_ports (s : State) (c : CoreId) (x : Core) : (s.setCore c x).ports = s.ports := rfl
@[simp] theorem State.setCore_coll (s : State) (c : CoreId) (x : Core) : (s.setCore c x).coll = s.coll := rfl
@[simp] theorem State.setCore_engines (s : State) (c : CoreId) (x : Core) : (s.setCore c x).engines = s.engines := rfl
@[simp] theorem State.setCore_mediaBw (s : State) (c : CoreId) (x : Core) : (s.setCore c x).mediaBw = s.mediaBw := rfl
@[simp] theorem State.setCore_eth (s : State) (c : CoreId) (x : Core) : (s.setCore c x).eth = s.eth := rfl
@[simp] theorem State.setCore_windows (s : State) (c : CoreId) (x : Core) : (s.setCore c x).windows = s.windows := rfl
@[simp] theorem State.setCore_rings (s : State) (c : CoreId) (x : Core) : (s.setCore c x).rings = s.rings := rfl
@[simp] theorem State.setCore_qcp (s : State) (c : CoreId) (x : Core) : (s.setCore c x).qcp = s.qcp := rfl
@[simp] theorem State.setCore_parts (s : State) (c : CoreId) (x : Core) : (s.setCore c x).parts = s.parts := rfl
@[simp] theorem State.setCore_recov (s : State) (c : CoreId) (x : Core) : (s.setCore c x).recov = s.recov := rfl
@[simp] theorem State.setCore_power (s : State) (c : CoreId) (x : Core) : (s.setCore c x).power = s.power := rfl
@[simp] theorem State.setCore_cfg (s : State) (c : CoreId) (x : Core) : (s.setCore c x).cfg = s.cfg := rfl
@[simp] theorem State.setCore_boot (s : State) (c : CoreId) (x : Core) : (s.setCore c x).boot = s.boot := rfl
@[simp] theorem State.setCore_sec (s : State) (c : CoreId) (x : Core) : (s.setCore c x).sec = s.sec := rfl
@[simp] theorem State.setCore_proof (s : State) (c : CoreId) (x : Core) : (s.setCore c x).proof = s.proof := rfl
@[simp] theorem State.setCore_tap (s : State) (c : CoreId) (x : Core) : (s.setCore c x).tap = s.tap := rfl
@[simp] theorem State.setCore_i3c (s : State) (c : CoreId) (x : Core) : (s.setCore c x).i3c = s.i3c := rfl
@[simp] theorem State.setCore_drive (s : State) (c : CoreId) (x : Core) : (s.setCore c x).drive = s.drive := rfl
@[simp] theorem State.setCore_free (s : State) (c : CoreId) (x : Core) : (s.setCore c x).free = s.free := rfl
@[simp] theorem State.setCore_out (s : State) (c : CoreId) (x : Core) : (s.setCore c x).out = s.out := rfl
@[simp] theorem State.setCore_pending (s : State) (c : CoreId) (x : Core) : (s.setCore c x).pending = s.pending := rfl

/-! ## modCore -/

@[simp] theorem State.modCore_mem (s : State) (c : CoreId) (f : Core → Core) : (s.modCore c f).mem = s.mem := rfl
@[simp] theorem State.modCore_nand (s : State) (c : CoreId) (f : Core → Core) : (s.modCore c f).nand = s.nand := rfl
@[simp] theorem State.modCore_bootFlash (s : State) (c : CoreId) (f : Core → Core) : (s.modCore c f).bootFlash = s.bootFlash := rfl
@[simp] theorem State.modCore_damage (s : State) (c : CoreId) (f : Core → Core) : (s.modCore c f).damage = s.damage := rfl
@[simp] theorem State.modCore_fuses (s : State) (c : CoreId) (f : Core → Core) : (s.modCore c f).fuses = s.fuses := rfl
@[simp] theorem State.modCore_chipId (s : State) (c : CoreId) (f : Core → Core) : (s.modCore c f).chipId = s.chipId := rfl
@[simp] theorem State.modCore_tick (s : State) (c : CoreId) (f : Core → Core) : (s.modCore c f).tick = s.tick := rfl
@[simp] theorem State.modCore_hbmStacks (s : State) (c : CoreId) (f : Core → Core) : (s.modCore c f).hbmStacks = s.hbmStacks := rfl
@[simp] theorem State.modCore_folio (s : State) (c : CoreId) (f : Core → Core) : (s.modCore c f).folio = s.folio := rfl
@[simp] theorem State.modCore_ftl (s : State) (c : CoreId) (f : Core → Core) : (s.modCore c f).ftl = s.ftl := rfl
@[simp] theorem State.modCore_fabric (s : State) (c : CoreId) (f : Core → Core) : (s.modCore c f).fabric = s.fabric := rfl
@[simp] theorem State.modCore_ports (s : State) (c : CoreId) (f : Core → Core) : (s.modCore c f).ports = s.ports := rfl
@[simp] theorem State.modCore_coll (s : State) (c : CoreId) (f : Core → Core) : (s.modCore c f).coll = s.coll := rfl
@[simp] theorem State.modCore_engines (s : State) (c : CoreId) (f : Core → Core) : (s.modCore c f).engines = s.engines := rfl
@[simp] theorem State.modCore_mediaBw (s : State) (c : CoreId) (f : Core → Core) : (s.modCore c f).mediaBw = s.mediaBw := rfl
@[simp] theorem State.modCore_eth (s : State) (c : CoreId) (f : Core → Core) : (s.modCore c f).eth = s.eth := rfl
@[simp] theorem State.modCore_windows (s : State) (c : CoreId) (f : Core → Core) : (s.modCore c f).windows = s.windows := rfl
@[simp] theorem State.modCore_rings (s : State) (c : CoreId) (f : Core → Core) : (s.modCore c f).rings = s.rings := rfl
@[simp] theorem State.modCore_qcp (s : State) (c : CoreId) (f : Core → Core) : (s.modCore c f).qcp = s.qcp := rfl
@[simp] theorem State.modCore_parts (s : State) (c : CoreId) (f : Core → Core) : (s.modCore c f).parts = s.parts := rfl
@[simp] theorem State.modCore_recov (s : State) (c : CoreId) (f : Core → Core) : (s.modCore c f).recov = s.recov := rfl
@[simp] theorem State.modCore_power (s : State) (c : CoreId) (f : Core → Core) : (s.modCore c f).power = s.power := rfl
@[simp] theorem State.modCore_cfg (s : State) (c : CoreId) (f : Core → Core) : (s.modCore c f).cfg = s.cfg := rfl
@[simp] theorem State.modCore_boot (s : State) (c : CoreId) (f : Core → Core) : (s.modCore c f).boot = s.boot := rfl
@[simp] theorem State.modCore_sec (s : State) (c : CoreId) (f : Core → Core) : (s.modCore c f).sec = s.sec := rfl
@[simp] theorem State.modCore_proof (s : State) (c : CoreId) (f : Core → Core) : (s.modCore c f).proof = s.proof := rfl
@[simp] theorem State.modCore_tap (s : State) (c : CoreId) (f : Core → Core) : (s.modCore c f).tap = s.tap := rfl
@[simp] theorem State.modCore_i3c (s : State) (c : CoreId) (f : Core → Core) : (s.modCore c f).i3c = s.i3c := rfl
@[simp] theorem State.modCore_drive (s : State) (c : CoreId) (f : Core → Core) : (s.modCore c f).drive = s.drive := rfl
@[simp] theorem State.modCore_free (s : State) (c : CoreId) (f : Core → Core) : (s.modCore c f).free = s.free := rfl
@[simp] theorem State.modCore_out (s : State) (c : CoreId) (f : Core → Core) : (s.modCore c f).out = s.out := rfl
@[simp] theorem State.modCore_pending (s : State) (c : CoreId) (f : Core → Core) : (s.modCore c f).pending = s.pending := rfl

/-! ## setStack -/

@[simp] theorem State.setStack_mem (s : State) (i : StackId) (x : Stack) : (s.setStack i x).mem = s.mem := rfl
@[simp] theorem State.setStack_nand (s : State) (i : StackId) (x : Stack) : (s.setStack i x).nand = s.nand := rfl
@[simp] theorem State.setStack_bootFlash (s : State) (i : StackId) (x : Stack) : (s.setStack i x).bootFlash = s.bootFlash := rfl
@[simp] theorem State.setStack_damage (s : State) (i : StackId) (x : Stack) : (s.setStack i x).damage = s.damage := rfl
@[simp] theorem State.setStack_fuses (s : State) (i : StackId) (x : Stack) : (s.setStack i x).fuses = s.fuses := rfl
@[simp] theorem State.setStack_chipId (s : State) (i : StackId) (x : Stack) : (s.setStack i x).chipId = s.chipId := rfl
@[simp] theorem State.setStack_cores (s : State) (i : StackId) (x : Stack) : (s.setStack i x).cores = s.cores := rfl
@[simp] theorem State.setStack_tick (s : State) (i : StackId) (x : Stack) : (s.setStack i x).tick = s.tick := rfl
@[simp] theorem State.setStack_folio (s : State) (i : StackId) (x : Stack) : (s.setStack i x).folio = s.folio := rfl
@[simp] theorem State.setStack_ftl (s : State) (i : StackId) (x : Stack) : (s.setStack i x).ftl = s.ftl := rfl
@[simp] theorem State.setStack_fabric (s : State) (i : StackId) (x : Stack) : (s.setStack i x).fabric = s.fabric := rfl
@[simp] theorem State.setStack_ports (s : State) (i : StackId) (x : Stack) : (s.setStack i x).ports = s.ports := rfl
@[simp] theorem State.setStack_coll (s : State) (i : StackId) (x : Stack) : (s.setStack i x).coll = s.coll := rfl
@[simp] theorem State.setStack_engines (s : State) (i : StackId) (x : Stack) : (s.setStack i x).engines = s.engines := rfl
@[simp] theorem State.setStack_mediaBw (s : State) (i : StackId) (x : Stack) : (s.setStack i x).mediaBw = s.mediaBw := rfl
@[simp] theorem State.setStack_eth (s : State) (i : StackId) (x : Stack) : (s.setStack i x).eth = s.eth := rfl
@[simp] theorem State.setStack_windows (s : State) (i : StackId) (x : Stack) : (s.setStack i x).windows = s.windows := rfl
@[simp] theorem State.setStack_rings (s : State) (i : StackId) (x : Stack) : (s.setStack i x).rings = s.rings := rfl
@[simp] theorem State.setStack_qcp (s : State) (i : StackId) (x : Stack) : (s.setStack i x).qcp = s.qcp := rfl
@[simp] theorem State.setStack_parts (s : State) (i : StackId) (x : Stack) : (s.setStack i x).parts = s.parts := rfl
@[simp] theorem State.setStack_recov (s : State) (i : StackId) (x : Stack) : (s.setStack i x).recov = s.recov := rfl
@[simp] theorem State.setStack_power (s : State) (i : StackId) (x : Stack) : (s.setStack i x).power = s.power := rfl
@[simp] theorem State.setStack_cfg (s : State) (i : StackId) (x : Stack) : (s.setStack i x).cfg = s.cfg := rfl
@[simp] theorem State.setStack_boot (s : State) (i : StackId) (x : Stack) : (s.setStack i x).boot = s.boot := rfl
@[simp] theorem State.setStack_sec (s : State) (i : StackId) (x : Stack) : (s.setStack i x).sec = s.sec := rfl
@[simp] theorem State.setStack_proof (s : State) (i : StackId) (x : Stack) : (s.setStack i x).proof = s.proof := rfl
@[simp] theorem State.setStack_tap (s : State) (i : StackId) (x : Stack) : (s.setStack i x).tap = s.tap := rfl
@[simp] theorem State.setStack_i3c (s : State) (i : StackId) (x : Stack) : (s.setStack i x).i3c = s.i3c := rfl
@[simp] theorem State.setStack_drive (s : State) (i : StackId) (x : Stack) : (s.setStack i x).drive = s.drive := rfl
@[simp] theorem State.setStack_free (s : State) (i : StackId) (x : Stack) : (s.setStack i x).free = s.free := rfl
@[simp] theorem State.setStack_out (s : State) (i : StackId) (x : Stack) : (s.setStack i x).out = s.out := rfl
@[simp] theorem State.setStack_pending (s : State) (i : StackId) (x : Stack) : (s.setStack i x).pending = s.pending := rfl

/-! ## modStack -/

@[simp] theorem State.modStack_mem (s : State) (i : StackId) (f : Stack → Stack) : (s.modStack i f).mem = s.mem := rfl
@[simp] theorem State.modStack_nand (s : State) (i : StackId) (f : Stack → Stack) : (s.modStack i f).nand = s.nand := rfl
@[simp] theorem State.modStack_bootFlash (s : State) (i : StackId) (f : Stack → Stack) : (s.modStack i f).bootFlash = s.bootFlash := rfl
@[simp] theorem State.modStack_damage (s : State) (i : StackId) (f : Stack → Stack) : (s.modStack i f).damage = s.damage := rfl
@[simp] theorem State.modStack_fuses (s : State) (i : StackId) (f : Stack → Stack) : (s.modStack i f).fuses = s.fuses := rfl
@[simp] theorem State.modStack_chipId (s : State) (i : StackId) (f : Stack → Stack) : (s.modStack i f).chipId = s.chipId := rfl
@[simp] theorem State.modStack_cores (s : State) (i : StackId) (f : Stack → Stack) : (s.modStack i f).cores = s.cores := rfl
@[simp] theorem State.modStack_tick (s : State) (i : StackId) (f : Stack → Stack) : (s.modStack i f).tick = s.tick := rfl
@[simp] theorem State.modStack_folio (s : State) (i : StackId) (f : Stack → Stack) : (s.modStack i f).folio = s.folio := rfl
@[simp] theorem State.modStack_ftl (s : State) (i : StackId) (f : Stack → Stack) : (s.modStack i f).ftl = s.ftl := rfl
@[simp] theorem State.modStack_fabric (s : State) (i : StackId) (f : Stack → Stack) : (s.modStack i f).fabric = s.fabric := rfl
@[simp] theorem State.modStack_ports (s : State) (i : StackId) (f : Stack → Stack) : (s.modStack i f).ports = s.ports := rfl
@[simp] theorem State.modStack_coll (s : State) (i : StackId) (f : Stack → Stack) : (s.modStack i f).coll = s.coll := rfl
@[simp] theorem State.modStack_engines (s : State) (i : StackId) (f : Stack → Stack) : (s.modStack i f).engines = s.engines := rfl
@[simp] theorem State.modStack_mediaBw (s : State) (i : StackId) (f : Stack → Stack) : (s.modStack i f).mediaBw = s.mediaBw := rfl
@[simp] theorem State.modStack_eth (s : State) (i : StackId) (f : Stack → Stack) : (s.modStack i f).eth = s.eth := rfl
@[simp] theorem State.modStack_windows (s : State) (i : StackId) (f : Stack → Stack) : (s.modStack i f).windows = s.windows := rfl
@[simp] theorem State.modStack_rings (s : State) (i : StackId) (f : Stack → Stack) : (s.modStack i f).rings = s.rings := rfl
@[simp] theorem State.modStack_qcp (s : State) (i : StackId) (f : Stack → Stack) : (s.modStack i f).qcp = s.qcp := rfl
@[simp] theorem State.modStack_parts (s : State) (i : StackId) (f : Stack → Stack) : (s.modStack i f).parts = s.parts := rfl
@[simp] theorem State.modStack_recov (s : State) (i : StackId) (f : Stack → Stack) : (s.modStack i f).recov = s.recov := rfl
@[simp] theorem State.modStack_power (s : State) (i : StackId) (f : Stack → Stack) : (s.modStack i f).power = s.power := rfl
@[simp] theorem State.modStack_cfg (s : State) (i : StackId) (f : Stack → Stack) : (s.modStack i f).cfg = s.cfg := rfl
@[simp] theorem State.modStack_boot (s : State) (i : StackId) (f : Stack → Stack) : (s.modStack i f).boot = s.boot := rfl
@[simp] theorem State.modStack_sec (s : State) (i : StackId) (f : Stack → Stack) : (s.modStack i f).sec = s.sec := rfl
@[simp] theorem State.modStack_proof (s : State) (i : StackId) (f : Stack → Stack) : (s.modStack i f).proof = s.proof := rfl
@[simp] theorem State.modStack_tap (s : State) (i : StackId) (f : Stack → Stack) : (s.modStack i f).tap = s.tap := rfl
@[simp] theorem State.modStack_i3c (s : State) (i : StackId) (f : Stack → Stack) : (s.modStack i f).i3c = s.i3c := rfl
@[simp] theorem State.modStack_drive (s : State) (i : StackId) (f : Stack → Stack) : (s.modStack i f).drive = s.drive := rfl
@[simp] theorem State.modStack_free (s : State) (i : StackId) (f : Stack → Stack) : (s.modStack i f).free = s.free := rfl
@[simp] theorem State.modStack_out (s : State) (i : StackId) (f : Stack → Stack) : (s.modStack i f).out = s.out := rfl
@[simp] theorem State.modStack_pending (s : State) (i : StackId) (f : Stack → Stack) : (s.modStack i f).pending = s.pending := rfl

/-! ## setPart -/

@[simp] theorem State.setPart_mem (s : State) (p : PartId) (x : Part) : (s.setPart p x).mem = s.mem := rfl
@[simp] theorem State.setPart_nand (s : State) (p : PartId) (x : Part) : (s.setPart p x).nand = s.nand := rfl
@[simp] theorem State.setPart_bootFlash (s : State) (p : PartId) (x : Part) : (s.setPart p x).bootFlash = s.bootFlash := rfl
@[simp] theorem State.setPart_damage (s : State) (p : PartId) (x : Part) : (s.setPart p x).damage = s.damage := rfl
@[simp] theorem State.setPart_fuses (s : State) (p : PartId) (x : Part) : (s.setPart p x).fuses = s.fuses := rfl
@[simp] theorem State.setPart_chipId (s : State) (p : PartId) (x : Part) : (s.setPart p x).chipId = s.chipId := rfl
@[simp] theorem State.setPart_cores (s : State) (p : PartId) (x : Part) : (s.setPart p x).cores = s.cores := rfl
@[simp] theorem State.setPart_tick (s : State) (p : PartId) (x : Part) : (s.setPart p x).tick = s.tick := rfl
@[simp] theorem State.setPart_hbmStacks (s : State) (p : PartId) (x : Part) : (s.setPart p x).hbmStacks = s.hbmStacks := rfl
@[simp] theorem State.setPart_folio (s : State) (p : PartId) (x : Part) : (s.setPart p x).folio = s.folio := rfl
@[simp] theorem State.setPart_ftl (s : State) (p : PartId) (x : Part) : (s.setPart p x).ftl = s.ftl := rfl
@[simp] theorem State.setPart_fabric (s : State) (p : PartId) (x : Part) : (s.setPart p x).fabric = s.fabric := rfl
@[simp] theorem State.setPart_ports (s : State) (p : PartId) (x : Part) : (s.setPart p x).ports = s.ports := rfl
@[simp] theorem State.setPart_coll (s : State) (p : PartId) (x : Part) : (s.setPart p x).coll = s.coll := rfl
@[simp] theorem State.setPart_engines (s : State) (p : PartId) (x : Part) : (s.setPart p x).engines = s.engines := rfl
@[simp] theorem State.setPart_mediaBw (s : State) (p : PartId) (x : Part) : (s.setPart p x).mediaBw = s.mediaBw := rfl
@[simp] theorem State.setPart_eth (s : State) (p : PartId) (x : Part) : (s.setPart p x).eth = s.eth := rfl
@[simp] theorem State.setPart_windows (s : State) (p : PartId) (x : Part) : (s.setPart p x).windows = s.windows := rfl
@[simp] theorem State.setPart_rings (s : State) (p : PartId) (x : Part) : (s.setPart p x).rings = s.rings := rfl
@[simp] theorem State.setPart_qcp (s : State) (p : PartId) (x : Part) : (s.setPart p x).qcp = s.qcp := rfl
@[simp] theorem State.setPart_recov (s : State) (p : PartId) (x : Part) : (s.setPart p x).recov = s.recov := rfl
@[simp] theorem State.setPart_power (s : State) (p : PartId) (x : Part) : (s.setPart p x).power = s.power := rfl
@[simp] theorem State.setPart_cfg (s : State) (p : PartId) (x : Part) : (s.setPart p x).cfg = s.cfg := rfl
@[simp] theorem State.setPart_boot (s : State) (p : PartId) (x : Part) : (s.setPart p x).boot = s.boot := rfl
@[simp] theorem State.setPart_sec (s : State) (p : PartId) (x : Part) : (s.setPart p x).sec = s.sec := rfl
@[simp] theorem State.setPart_proof (s : State) (p : PartId) (x : Part) : (s.setPart p x).proof = s.proof := rfl
@[simp] theorem State.setPart_tap (s : State) (p : PartId) (x : Part) : (s.setPart p x).tap = s.tap := rfl
@[simp] theorem State.setPart_i3c (s : State) (p : PartId) (x : Part) : (s.setPart p x).i3c = s.i3c := rfl
@[simp] theorem State.setPart_drive (s : State) (p : PartId) (x : Part) : (s.setPart p x).drive = s.drive := rfl
@[simp] theorem State.setPart_free (s : State) (p : PartId) (x : Part) : (s.setPart p x).free = s.free := rfl
@[simp] theorem State.setPart_out (s : State) (p : PartId) (x : Part) : (s.setPart p x).out = s.out := rfl
@[simp] theorem State.setPart_pending (s : State) (p : PartId) (x : Part) : (s.setPart p x).pending = s.pending := rfl

/-! ## modPart -/

@[simp] theorem State.modPart_mem (s : State) (p : PartId) (f : Part → Part) : (s.modPart p f).mem = s.mem := rfl
@[simp] theorem State.modPart_nand (s : State) (p : PartId) (f : Part → Part) : (s.modPart p f).nand = s.nand := rfl
@[simp] theorem State.modPart_bootFlash (s : State) (p : PartId) (f : Part → Part) : (s.modPart p f).bootFlash = s.bootFlash := rfl
@[simp] theorem State.modPart_damage (s : State) (p : PartId) (f : Part → Part) : (s.modPart p f).damage = s.damage := rfl
@[simp] theorem State.modPart_fuses (s : State) (p : PartId) (f : Part → Part) : (s.modPart p f).fuses = s.fuses := rfl
@[simp] theorem State.modPart_chipId (s : State) (p : PartId) (f : Part → Part) : (s.modPart p f).chipId = s.chipId := rfl
@[simp] theorem State.modPart_cores (s : State) (p : PartId) (f : Part → Part) : (s.modPart p f).cores = s.cores := rfl
@[simp] theorem State.modPart_tick (s : State) (p : PartId) (f : Part → Part) : (s.modPart p f).tick = s.tick := rfl
@[simp] theorem State.modPart_hbmStacks (s : State) (p : PartId) (f : Part → Part) : (s.modPart p f).hbmStacks = s.hbmStacks := rfl
@[simp] theorem State.modPart_folio (s : State) (p : PartId) (f : Part → Part) : (s.modPart p f).folio = s.folio := rfl
@[simp] theorem State.modPart_ftl (s : State) (p : PartId) (f : Part → Part) : (s.modPart p f).ftl = s.ftl := rfl
@[simp] theorem State.modPart_fabric (s : State) (p : PartId) (f : Part → Part) : (s.modPart p f).fabric = s.fabric := rfl
@[simp] theorem State.modPart_ports (s : State) (p : PartId) (f : Part → Part) : (s.modPart p f).ports = s.ports := rfl
@[simp] theorem State.modPart_coll (s : State) (p : PartId) (f : Part → Part) : (s.modPart p f).coll = s.coll := rfl
@[simp] theorem State.modPart_engines (s : State) (p : PartId) (f : Part → Part) : (s.modPart p f).engines = s.engines := rfl
@[simp] theorem State.modPart_mediaBw (s : State) (p : PartId) (f : Part → Part) : (s.modPart p f).mediaBw = s.mediaBw := rfl
@[simp] theorem State.modPart_eth (s : State) (p : PartId) (f : Part → Part) : (s.modPart p f).eth = s.eth := rfl
@[simp] theorem State.modPart_windows (s : State) (p : PartId) (f : Part → Part) : (s.modPart p f).windows = s.windows := rfl
@[simp] theorem State.modPart_rings (s : State) (p : PartId) (f : Part → Part) : (s.modPart p f).rings = s.rings := rfl
@[simp] theorem State.modPart_qcp (s : State) (p : PartId) (f : Part → Part) : (s.modPart p f).qcp = s.qcp := rfl
@[simp] theorem State.modPart_recov (s : State) (p : PartId) (f : Part → Part) : (s.modPart p f).recov = s.recov := rfl
@[simp] theorem State.modPart_power (s : State) (p : PartId) (f : Part → Part) : (s.modPart p f).power = s.power := rfl
@[simp] theorem State.modPart_cfg (s : State) (p : PartId) (f : Part → Part) : (s.modPart p f).cfg = s.cfg := rfl
@[simp] theorem State.modPart_boot (s : State) (p : PartId) (f : Part → Part) : (s.modPart p f).boot = s.boot := rfl
@[simp] theorem State.modPart_sec (s : State) (p : PartId) (f : Part → Part) : (s.modPart p f).sec = s.sec := rfl
@[simp] theorem State.modPart_proof (s : State) (p : PartId) (f : Part → Part) : (s.modPart p f).proof = s.proof := rfl
@[simp] theorem State.modPart_tap (s : State) (p : PartId) (f : Part → Part) : (s.modPart p f).tap = s.tap := rfl
@[simp] theorem State.modPart_i3c (s : State) (p : PartId) (f : Part → Part) : (s.modPart p f).i3c = s.i3c := rfl
@[simp] theorem State.modPart_drive (s : State) (p : PartId) (f : Part → Part) : (s.modPart p f).drive = s.drive := rfl
@[simp] theorem State.modPart_free (s : State) (p : PartId) (f : Part → Part) : (s.modPart p f).free = s.free := rfl
@[simp] theorem State.modPart_out (s : State) (p : PartId) (f : Part → Part) : (s.modPart p f).out = s.out := rfl
@[simp] theorem State.modPart_pending (s : State) (p : PartId) (f : Part → Part) : (s.modPart p f).pending = s.pending := rfl

/-! ## setPort -/

@[simp] theorem State.setPort_mem (s : State) (p : PortId) (x : Port) : (s.setPort p x).mem = s.mem := rfl
@[simp] theorem State.setPort_nand (s : State) (p : PortId) (x : Port) : (s.setPort p x).nand = s.nand := rfl
@[simp] theorem State.setPort_bootFlash (s : State) (p : PortId) (x : Port) : (s.setPort p x).bootFlash = s.bootFlash := rfl
@[simp] theorem State.setPort_damage (s : State) (p : PortId) (x : Port) : (s.setPort p x).damage = s.damage := rfl
@[simp] theorem State.setPort_fuses (s : State) (p : PortId) (x : Port) : (s.setPort p x).fuses = s.fuses := rfl
@[simp] theorem State.setPort_chipId (s : State) (p : PortId) (x : Port) : (s.setPort p x).chipId = s.chipId := rfl
@[simp] theorem State.setPort_cores (s : State) (p : PortId) (x : Port) : (s.setPort p x).cores = s.cores := rfl
@[simp] theorem State.setPort_tick (s : State) (p : PortId) (x : Port) : (s.setPort p x).tick = s.tick := rfl
@[simp] theorem State.setPort_hbmStacks (s : State) (p : PortId) (x : Port) : (s.setPort p x).hbmStacks = s.hbmStacks := rfl
@[simp] theorem State.setPort_folio (s : State) (p : PortId) (x : Port) : (s.setPort p x).folio = s.folio := rfl
@[simp] theorem State.setPort_ftl (s : State) (p : PortId) (x : Port) : (s.setPort p x).ftl = s.ftl := rfl
@[simp] theorem State.setPort_fabric (s : State) (p : PortId) (x : Port) : (s.setPort p x).fabric = s.fabric := rfl
@[simp] theorem State.setPort_coll (s : State) (p : PortId) (x : Port) : (s.setPort p x).coll = s.coll := rfl
@[simp] theorem State.setPort_engines (s : State) (p : PortId) (x : Port) : (s.setPort p x).engines = s.engines := rfl
@[simp] theorem State.setPort_mediaBw (s : State) (p : PortId) (x : Port) : (s.setPort p x).mediaBw = s.mediaBw := rfl
@[simp] theorem State.setPort_eth (s : State) (p : PortId) (x : Port) : (s.setPort p x).eth = s.eth := rfl
@[simp] theorem State.setPort_windows (s : State) (p : PortId) (x : Port) : (s.setPort p x).windows = s.windows := rfl
@[simp] theorem State.setPort_rings (s : State) (p : PortId) (x : Port) : (s.setPort p x).rings = s.rings := rfl
@[simp] theorem State.setPort_qcp (s : State) (p : PortId) (x : Port) : (s.setPort p x).qcp = s.qcp := rfl
@[simp] theorem State.setPort_parts (s : State) (p : PortId) (x : Port) : (s.setPort p x).parts = s.parts := rfl
@[simp] theorem State.setPort_recov (s : State) (p : PortId) (x : Port) : (s.setPort p x).recov = s.recov := rfl
@[simp] theorem State.setPort_power (s : State) (p : PortId) (x : Port) : (s.setPort p x).power = s.power := rfl
@[simp] theorem State.setPort_cfg (s : State) (p : PortId) (x : Port) : (s.setPort p x).cfg = s.cfg := rfl
@[simp] theorem State.setPort_boot (s : State) (p : PortId) (x : Port) : (s.setPort p x).boot = s.boot := rfl
@[simp] theorem State.setPort_sec (s : State) (p : PortId) (x : Port) : (s.setPort p x).sec = s.sec := rfl
@[simp] theorem State.setPort_proof (s : State) (p : PortId) (x : Port) : (s.setPort p x).proof = s.proof := rfl
@[simp] theorem State.setPort_tap (s : State) (p : PortId) (x : Port) : (s.setPort p x).tap = s.tap := rfl
@[simp] theorem State.setPort_i3c (s : State) (p : PortId) (x : Port) : (s.setPort p x).i3c = s.i3c := rfl
@[simp] theorem State.setPort_drive (s : State) (p : PortId) (x : Port) : (s.setPort p x).drive = s.drive := rfl
@[simp] theorem State.setPort_free (s : State) (p : PortId) (x : Port) : (s.setPort p x).free = s.free := rfl
@[simp] theorem State.setPort_out (s : State) (p : PortId) (x : Port) : (s.setPort p x).out = s.out := rfl
@[simp] theorem State.setPort_pending (s : State) (p : PortId) (x : Port) : (s.setPort p x).pending = s.pending := rfl

/-! ## modPort -/

@[simp] theorem State.modPort_mem (s : State) (p : PortId) (f : Port → Port) : (s.modPort p f).mem = s.mem := rfl
@[simp] theorem State.modPort_nand (s : State) (p : PortId) (f : Port → Port) : (s.modPort p f).nand = s.nand := rfl
@[simp] theorem State.modPort_bootFlash (s : State) (p : PortId) (f : Port → Port) : (s.modPort p f).bootFlash = s.bootFlash := rfl
@[simp] theorem State.modPort_damage (s : State) (p : PortId) (f : Port → Port) : (s.modPort p f).damage = s.damage := rfl
@[simp] theorem State.modPort_fuses (s : State) (p : PortId) (f : Port → Port) : (s.modPort p f).fuses = s.fuses := rfl
@[simp] theorem State.modPort_chipId (s : State) (p : PortId) (f : Port → Port) : (s.modPort p f).chipId = s.chipId := rfl
@[simp] theorem State.modPort_cores (s : State) (p : PortId) (f : Port → Port) : (s.modPort p f).cores = s.cores := rfl
@[simp] theorem State.modPort_tick (s : State) (p : PortId) (f : Port → Port) : (s.modPort p f).tick = s.tick := rfl
@[simp] theorem State.modPort_hbmStacks (s : State) (p : PortId) (f : Port → Port) : (s.modPort p f).hbmStacks = s.hbmStacks := rfl
@[simp] theorem State.modPort_folio (s : State) (p : PortId) (f : Port → Port) : (s.modPort p f).folio = s.folio := rfl
@[simp] theorem State.modPort_ftl (s : State) (p : PortId) (f : Port → Port) : (s.modPort p f).ftl = s.ftl := rfl
@[simp] theorem State.modPort_fabric (s : State) (p : PortId) (f : Port → Port) : (s.modPort p f).fabric = s.fabric := rfl
@[simp] theorem State.modPort_coll (s : State) (p : PortId) (f : Port → Port) : (s.modPort p f).coll = s.coll := rfl
@[simp] theorem State.modPort_engines (s : State) (p : PortId) (f : Port → Port) : (s.modPort p f).engines = s.engines := rfl
@[simp] theorem State.modPort_mediaBw (s : State) (p : PortId) (f : Port → Port) : (s.modPort p f).mediaBw = s.mediaBw := rfl
@[simp] theorem State.modPort_eth (s : State) (p : PortId) (f : Port → Port) : (s.modPort p f).eth = s.eth := rfl
@[simp] theorem State.modPort_windows (s : State) (p : PortId) (f : Port → Port) : (s.modPort p f).windows = s.windows := rfl
@[simp] theorem State.modPort_rings (s : State) (p : PortId) (f : Port → Port) : (s.modPort p f).rings = s.rings := rfl
@[simp] theorem State.modPort_qcp (s : State) (p : PortId) (f : Port → Port) : (s.modPort p f).qcp = s.qcp := rfl
@[simp] theorem State.modPort_parts (s : State) (p : PortId) (f : Port → Port) : (s.modPort p f).parts = s.parts := rfl
@[simp] theorem State.modPort_recov (s : State) (p : PortId) (f : Port → Port) : (s.modPort p f).recov = s.recov := rfl
@[simp] theorem State.modPort_power (s : State) (p : PortId) (f : Port → Port) : (s.modPort p f).power = s.power := rfl
@[simp] theorem State.modPort_cfg (s : State) (p : PortId) (f : Port → Port) : (s.modPort p f).cfg = s.cfg := rfl
@[simp] theorem State.modPort_boot (s : State) (p : PortId) (f : Port → Port) : (s.modPort p f).boot = s.boot := rfl
@[simp] theorem State.modPort_sec (s : State) (p : PortId) (f : Port → Port) : (s.modPort p f).sec = s.sec := rfl
@[simp] theorem State.modPort_proof (s : State) (p : PortId) (f : Port → Port) : (s.modPort p f).proof = s.proof := rfl
@[simp] theorem State.modPort_tap (s : State) (p : PortId) (f : Port → Port) : (s.modPort p f).tap = s.tap := rfl
@[simp] theorem State.modPort_i3c (s : State) (p : PortId) (f : Port → Port) : (s.modPort p f).i3c = s.i3c := rfl
@[simp] theorem State.modPort_drive (s : State) (p : PortId) (f : Port → Port) : (s.modPort p f).drive = s.drive := rfl
@[simp] theorem State.modPort_free (s : State) (p : PortId) (f : Port → Port) : (s.modPort p f).free = s.free := rfl
@[simp] theorem State.modPort_out (s : State) (p : PortId) (f : Port → Port) : (s.modPort p f).out = s.out := rfl
@[simp] theorem State.modPort_pending (s : State) (p : PortId) (f : Port → Port) : (s.modPort p f).pending = s.pending := rfl

/-! ## setRing -/

@[simp] theorem State.setRing_mem (s : State) (r : RingId) (x : Ring) : (s.setRing r x).mem = s.mem := rfl
@[simp] theorem State.setRing_nand (s : State) (r : RingId) (x : Ring) : (s.setRing r x).nand = s.nand := rfl
@[simp] theorem State.setRing_bootFlash (s : State) (r : RingId) (x : Ring) : (s.setRing r x).bootFlash = s.bootFlash := rfl
@[simp] theorem State.setRing_damage (s : State) (r : RingId) (x : Ring) : (s.setRing r x).damage = s.damage := rfl
@[simp] theorem State.setRing_fuses (s : State) (r : RingId) (x : Ring) : (s.setRing r x).fuses = s.fuses := rfl
@[simp] theorem State.setRing_chipId (s : State) (r : RingId) (x : Ring) : (s.setRing r x).chipId = s.chipId := rfl
@[simp] theorem State.setRing_cores (s : State) (r : RingId) (x : Ring) : (s.setRing r x).cores = s.cores := rfl
@[simp] theorem State.setRing_tick (s : State) (r : RingId) (x : Ring) : (s.setRing r x).tick = s.tick := rfl
@[simp] theorem State.setRing_hbmStacks (s : State) (r : RingId) (x : Ring) : (s.setRing r x).hbmStacks = s.hbmStacks := rfl
@[simp] theorem State.setRing_folio (s : State) (r : RingId) (x : Ring) : (s.setRing r x).folio = s.folio := rfl
@[simp] theorem State.setRing_ftl (s : State) (r : RingId) (x : Ring) : (s.setRing r x).ftl = s.ftl := rfl
@[simp] theorem State.setRing_fabric (s : State) (r : RingId) (x : Ring) : (s.setRing r x).fabric = s.fabric := rfl
@[simp] theorem State.setRing_ports (s : State) (r : RingId) (x : Ring) : (s.setRing r x).ports = s.ports := rfl
@[simp] theorem State.setRing_coll (s : State) (r : RingId) (x : Ring) : (s.setRing r x).coll = s.coll := rfl
@[simp] theorem State.setRing_engines (s : State) (r : RingId) (x : Ring) : (s.setRing r x).engines = s.engines := rfl
@[simp] theorem State.setRing_mediaBw (s : State) (r : RingId) (x : Ring) : (s.setRing r x).mediaBw = s.mediaBw := rfl
@[simp] theorem State.setRing_eth (s : State) (r : RingId) (x : Ring) : (s.setRing r x).eth = s.eth := rfl
@[simp] theorem State.setRing_windows (s : State) (r : RingId) (x : Ring) : (s.setRing r x).windows = s.windows := rfl
@[simp] theorem State.setRing_qcp (s : State) (r : RingId) (x : Ring) : (s.setRing r x).qcp = s.qcp := rfl
@[simp] theorem State.setRing_parts (s : State) (r : RingId) (x : Ring) : (s.setRing r x).parts = s.parts := rfl
@[simp] theorem State.setRing_recov (s : State) (r : RingId) (x : Ring) : (s.setRing r x).recov = s.recov := rfl
@[simp] theorem State.setRing_power (s : State) (r : RingId) (x : Ring) : (s.setRing r x).power = s.power := rfl
@[simp] theorem State.setRing_cfg (s : State) (r : RingId) (x : Ring) : (s.setRing r x).cfg = s.cfg := rfl
@[simp] theorem State.setRing_boot (s : State) (r : RingId) (x : Ring) : (s.setRing r x).boot = s.boot := rfl
@[simp] theorem State.setRing_sec (s : State) (r : RingId) (x : Ring) : (s.setRing r x).sec = s.sec := rfl
@[simp] theorem State.setRing_proof (s : State) (r : RingId) (x : Ring) : (s.setRing r x).proof = s.proof := rfl
@[simp] theorem State.setRing_tap (s : State) (r : RingId) (x : Ring) : (s.setRing r x).tap = s.tap := rfl
@[simp] theorem State.setRing_i3c (s : State) (r : RingId) (x : Ring) : (s.setRing r x).i3c = s.i3c := rfl
@[simp] theorem State.setRing_drive (s : State) (r : RingId) (x : Ring) : (s.setRing r x).drive = s.drive := rfl
@[simp] theorem State.setRing_free (s : State) (r : RingId) (x : Ring) : (s.setRing r x).free = s.free := rfl
@[simp] theorem State.setRing_out (s : State) (r : RingId) (x : Ring) : (s.setRing r x).out = s.out := rfl
@[simp] theorem State.setRing_pending (s : State) (r : RingId) (x : Ring) : (s.setRing r x).pending = s.pending := rfl

/-! ## modRing -/

@[simp] theorem State.modRing_mem (s : State) (r : RingId) (f : Ring → Ring) : (s.modRing r f).mem = s.mem := rfl
@[simp] theorem State.modRing_nand (s : State) (r : RingId) (f : Ring → Ring) : (s.modRing r f).nand = s.nand := rfl
@[simp] theorem State.modRing_bootFlash (s : State) (r : RingId) (f : Ring → Ring) : (s.modRing r f).bootFlash = s.bootFlash := rfl
@[simp] theorem State.modRing_damage (s : State) (r : RingId) (f : Ring → Ring) : (s.modRing r f).damage = s.damage := rfl
@[simp] theorem State.modRing_fuses (s : State) (r : RingId) (f : Ring → Ring) : (s.modRing r f).fuses = s.fuses := rfl
@[simp] theorem State.modRing_chipId (s : State) (r : RingId) (f : Ring → Ring) : (s.modRing r f).chipId = s.chipId := rfl
@[simp] theorem State.modRing_cores (s : State) (r : RingId) (f : Ring → Ring) : (s.modRing r f).cores = s.cores := rfl
@[simp] theorem State.modRing_tick (s : State) (r : RingId) (f : Ring → Ring) : (s.modRing r f).tick = s.tick := rfl
@[simp] theorem State.modRing_hbmStacks (s : State) (r : RingId) (f : Ring → Ring) : (s.modRing r f).hbmStacks = s.hbmStacks := rfl
@[simp] theorem State.modRing_folio (s : State) (r : RingId) (f : Ring → Ring) : (s.modRing r f).folio = s.folio := rfl
@[simp] theorem State.modRing_ftl (s : State) (r : RingId) (f : Ring → Ring) : (s.modRing r f).ftl = s.ftl := rfl
@[simp] theorem State.modRing_fabric (s : State) (r : RingId) (f : Ring → Ring) : (s.modRing r f).fabric = s.fabric := rfl
@[simp] theorem State.modRing_ports (s : State) (r : RingId) (f : Ring → Ring) : (s.modRing r f).ports = s.ports := rfl
@[simp] theorem State.modRing_coll (s : State) (r : RingId) (f : Ring → Ring) : (s.modRing r f).coll = s.coll := rfl
@[simp] theorem State.modRing_engines (s : State) (r : RingId) (f : Ring → Ring) : (s.modRing r f).engines = s.engines := rfl
@[simp] theorem State.modRing_mediaBw (s : State) (r : RingId) (f : Ring → Ring) : (s.modRing r f).mediaBw = s.mediaBw := rfl
@[simp] theorem State.modRing_eth (s : State) (r : RingId) (f : Ring → Ring) : (s.modRing r f).eth = s.eth := rfl
@[simp] theorem State.modRing_windows (s : State) (r : RingId) (f : Ring → Ring) : (s.modRing r f).windows = s.windows := rfl
@[simp] theorem State.modRing_qcp (s : State) (r : RingId) (f : Ring → Ring) : (s.modRing r f).qcp = s.qcp := rfl
@[simp] theorem State.modRing_parts (s : State) (r : RingId) (f : Ring → Ring) : (s.modRing r f).parts = s.parts := rfl
@[simp] theorem State.modRing_recov (s : State) (r : RingId) (f : Ring → Ring) : (s.modRing r f).recov = s.recov := rfl
@[simp] theorem State.modRing_power (s : State) (r : RingId) (f : Ring → Ring) : (s.modRing r f).power = s.power := rfl
@[simp] theorem State.modRing_cfg (s : State) (r : RingId) (f : Ring → Ring) : (s.modRing r f).cfg = s.cfg := rfl
@[simp] theorem State.modRing_boot (s : State) (r : RingId) (f : Ring → Ring) : (s.modRing r f).boot = s.boot := rfl
@[simp] theorem State.modRing_sec (s : State) (r : RingId) (f : Ring → Ring) : (s.modRing r f).sec = s.sec := rfl
@[simp] theorem State.modRing_proof (s : State) (r : RingId) (f : Ring → Ring) : (s.modRing r f).proof = s.proof := rfl
@[simp] theorem State.modRing_tap (s : State) (r : RingId) (f : Ring → Ring) : (s.modRing r f).tap = s.tap := rfl
@[simp] theorem State.modRing_i3c (s : State) (r : RingId) (f : Ring → Ring) : (s.modRing r f).i3c = s.i3c := rfl
@[simp] theorem State.modRing_drive (s : State) (r : RingId) (f : Ring → Ring) : (s.modRing r f).drive = s.drive := rfl
@[simp] theorem State.modRing_free (s : State) (r : RingId) (f : Ring → Ring) : (s.modRing r f).free = s.free := rfl
@[simp] theorem State.modRing_out (s : State) (r : RingId) (f : Ring → Ring) : (s.modRing r f).out = s.out := rfl
@[simp] theorem State.modRing_pending (s : State) (r : RingId) (f : Ring → Ring) : (s.modRing r f).pending = s.pending := rfl

/-! ## setEngine -/

@[simp] theorem State.setEngine_mem (s : State) (e : EngineId) (x : Engine) : (s.setEngine e x).mem = s.mem := rfl
@[simp] theorem State.setEngine_nand (s : State) (e : EngineId) (x : Engine) : (s.setEngine e x).nand = s.nand := rfl
@[simp] theorem State.setEngine_bootFlash (s : State) (e : EngineId) (x : Engine) : (s.setEngine e x).bootFlash = s.bootFlash := rfl
@[simp] theorem State.setEngine_damage (s : State) (e : EngineId) (x : Engine) : (s.setEngine e x).damage = s.damage := rfl
@[simp] theorem State.setEngine_fuses (s : State) (e : EngineId) (x : Engine) : (s.setEngine e x).fuses = s.fuses := rfl
@[simp] theorem State.setEngine_chipId (s : State) (e : EngineId) (x : Engine) : (s.setEngine e x).chipId = s.chipId := rfl
@[simp] theorem State.setEngine_cores (s : State) (e : EngineId) (x : Engine) : (s.setEngine e x).cores = s.cores := rfl
@[simp] theorem State.setEngine_tick (s : State) (e : EngineId) (x : Engine) : (s.setEngine e x).tick = s.tick := rfl
@[simp] theorem State.setEngine_hbmStacks (s : State) (e : EngineId) (x : Engine) : (s.setEngine e x).hbmStacks = s.hbmStacks := rfl
@[simp] theorem State.setEngine_folio (s : State) (e : EngineId) (x : Engine) : (s.setEngine e x).folio = s.folio := rfl
@[simp] theorem State.setEngine_ftl (s : State) (e : EngineId) (x : Engine) : (s.setEngine e x).ftl = s.ftl := rfl
@[simp] theorem State.setEngine_fabric (s : State) (e : EngineId) (x : Engine) : (s.setEngine e x).fabric = s.fabric := rfl
@[simp] theorem State.setEngine_ports (s : State) (e : EngineId) (x : Engine) : (s.setEngine e x).ports = s.ports := rfl
@[simp] theorem State.setEngine_coll (s : State) (e : EngineId) (x : Engine) : (s.setEngine e x).coll = s.coll := rfl
@[simp] theorem State.setEngine_mediaBw (s : State) (e : EngineId) (x : Engine) : (s.setEngine e x).mediaBw = s.mediaBw := rfl
@[simp] theorem State.setEngine_eth (s : State) (e : EngineId) (x : Engine) : (s.setEngine e x).eth = s.eth := rfl
@[simp] theorem State.setEngine_windows (s : State) (e : EngineId) (x : Engine) : (s.setEngine e x).windows = s.windows := rfl
@[simp] theorem State.setEngine_rings (s : State) (e : EngineId) (x : Engine) : (s.setEngine e x).rings = s.rings := rfl
@[simp] theorem State.setEngine_qcp (s : State) (e : EngineId) (x : Engine) : (s.setEngine e x).qcp = s.qcp := rfl
@[simp] theorem State.setEngine_parts (s : State) (e : EngineId) (x : Engine) : (s.setEngine e x).parts = s.parts := rfl
@[simp] theorem State.setEngine_recov (s : State) (e : EngineId) (x : Engine) : (s.setEngine e x).recov = s.recov := rfl
@[simp] theorem State.setEngine_power (s : State) (e : EngineId) (x : Engine) : (s.setEngine e x).power = s.power := rfl
@[simp] theorem State.setEngine_cfg (s : State) (e : EngineId) (x : Engine) : (s.setEngine e x).cfg = s.cfg := rfl
@[simp] theorem State.setEngine_boot (s : State) (e : EngineId) (x : Engine) : (s.setEngine e x).boot = s.boot := rfl
@[simp] theorem State.setEngine_sec (s : State) (e : EngineId) (x : Engine) : (s.setEngine e x).sec = s.sec := rfl
@[simp] theorem State.setEngine_proof (s : State) (e : EngineId) (x : Engine) : (s.setEngine e x).proof = s.proof := rfl
@[simp] theorem State.setEngine_tap (s : State) (e : EngineId) (x : Engine) : (s.setEngine e x).tap = s.tap := rfl
@[simp] theorem State.setEngine_i3c (s : State) (e : EngineId) (x : Engine) : (s.setEngine e x).i3c = s.i3c := rfl
@[simp] theorem State.setEngine_drive (s : State) (e : EngineId) (x : Engine) : (s.setEngine e x).drive = s.drive := rfl
@[simp] theorem State.setEngine_free (s : State) (e : EngineId) (x : Engine) : (s.setEngine e x).free = s.free := rfl
@[simp] theorem State.setEngine_out (s : State) (e : EngineId) (x : Engine) : (s.setEngine e x).out = s.out := rfl
@[simp] theorem State.setEngine_pending (s : State) (e : EngineId) (x : Engine) : (s.setEngine e x).pending = s.pending := rfl

/-! ## modEngine -/

@[simp] theorem State.modEngine_mem (s : State) (e : EngineId) (f : Engine → Engine) : (s.modEngine e f).mem = s.mem := rfl
@[simp] theorem State.modEngine_nand (s : State) (e : EngineId) (f : Engine → Engine) : (s.modEngine e f).nand = s.nand := rfl
@[simp] theorem State.modEngine_bootFlash (s : State) (e : EngineId) (f : Engine → Engine) : (s.modEngine e f).bootFlash = s.bootFlash := rfl
@[simp] theorem State.modEngine_damage (s : State) (e : EngineId) (f : Engine → Engine) : (s.modEngine e f).damage = s.damage := rfl
@[simp] theorem State.modEngine_fuses (s : State) (e : EngineId) (f : Engine → Engine) : (s.modEngine e f).fuses = s.fuses := rfl
@[simp] theorem State.modEngine_chipId (s : State) (e : EngineId) (f : Engine → Engine) : (s.modEngine e f).chipId = s.chipId := rfl
@[simp] theorem State.modEngine_cores (s : State) (e : EngineId) (f : Engine → Engine) : (s.modEngine e f).cores = s.cores := rfl
@[simp] theorem State.modEngine_tick (s : State) (e : EngineId) (f : Engine → Engine) : (s.modEngine e f).tick = s.tick := rfl
@[simp] theorem State.modEngine_hbmStacks (s : State) (e : EngineId) (f : Engine → Engine) : (s.modEngine e f).hbmStacks = s.hbmStacks := rfl
@[simp] theorem State.modEngine_folio (s : State) (e : EngineId) (f : Engine → Engine) : (s.modEngine e f).folio = s.folio := rfl
@[simp] theorem State.modEngine_ftl (s : State) (e : EngineId) (f : Engine → Engine) : (s.modEngine e f).ftl = s.ftl := rfl
@[simp] theorem State.modEngine_fabric (s : State) (e : EngineId) (f : Engine → Engine) : (s.modEngine e f).fabric = s.fabric := rfl
@[simp] theorem State.modEngine_ports (s : State) (e : EngineId) (f : Engine → Engine) : (s.modEngine e f).ports = s.ports := rfl
@[simp] theorem State.modEngine_coll (s : State) (e : EngineId) (f : Engine → Engine) : (s.modEngine e f).coll = s.coll := rfl
@[simp] theorem State.modEngine_mediaBw (s : State) (e : EngineId) (f : Engine → Engine) : (s.modEngine e f).mediaBw = s.mediaBw := rfl
@[simp] theorem State.modEngine_eth (s : State) (e : EngineId) (f : Engine → Engine) : (s.modEngine e f).eth = s.eth := rfl
@[simp] theorem State.modEngine_windows (s : State) (e : EngineId) (f : Engine → Engine) : (s.modEngine e f).windows = s.windows := rfl
@[simp] theorem State.modEngine_rings (s : State) (e : EngineId) (f : Engine → Engine) : (s.modEngine e f).rings = s.rings := rfl
@[simp] theorem State.modEngine_qcp (s : State) (e : EngineId) (f : Engine → Engine) : (s.modEngine e f).qcp = s.qcp := rfl
@[simp] theorem State.modEngine_parts (s : State) (e : EngineId) (f : Engine → Engine) : (s.modEngine e f).parts = s.parts := rfl
@[simp] theorem State.modEngine_recov (s : State) (e : EngineId) (f : Engine → Engine) : (s.modEngine e f).recov = s.recov := rfl
@[simp] theorem State.modEngine_power (s : State) (e : EngineId) (f : Engine → Engine) : (s.modEngine e f).power = s.power := rfl
@[simp] theorem State.modEngine_cfg (s : State) (e : EngineId) (f : Engine → Engine) : (s.modEngine e f).cfg = s.cfg := rfl
@[simp] theorem State.modEngine_boot (s : State) (e : EngineId) (f : Engine → Engine) : (s.modEngine e f).boot = s.boot := rfl
@[simp] theorem State.modEngine_sec (s : State) (e : EngineId) (f : Engine → Engine) : (s.modEngine e f).sec = s.sec := rfl
@[simp] theorem State.modEngine_proof (s : State) (e : EngineId) (f : Engine → Engine) : (s.modEngine e f).proof = s.proof := rfl
@[simp] theorem State.modEngine_tap (s : State) (e : EngineId) (f : Engine → Engine) : (s.modEngine e f).tap = s.tap := rfl
@[simp] theorem State.modEngine_i3c (s : State) (e : EngineId) (f : Engine → Engine) : (s.modEngine e f).i3c = s.i3c := rfl
@[simp] theorem State.modEngine_drive (s : State) (e : EngineId) (f : Engine → Engine) : (s.modEngine e f).drive = s.drive := rfl
@[simp] theorem State.modEngine_free (s : State) (e : EngineId) (f : Engine → Engine) : (s.modEngine e f).free = s.free := rfl
@[simp] theorem State.modEngine_out (s : State) (e : EngineId) (f : Engine → Engine) : (s.modEngine e f).out = s.out := rfl
@[simp] theorem State.modEngine_pending (s : State) (e : EngineId) (f : Engine → Engine) : (s.modEngine e f).pending = s.pending := rfl

/-! ## setEth -/

@[simp] theorem State.setEth_mem (s : State) (p : Fin 2) (x : EthPort) : (s.setEth p x).mem = s.mem := rfl
@[simp] theorem State.setEth_nand (s : State) (p : Fin 2) (x : EthPort) : (s.setEth p x).nand = s.nand := rfl
@[simp] theorem State.setEth_bootFlash (s : State) (p : Fin 2) (x : EthPort) : (s.setEth p x).bootFlash = s.bootFlash := rfl
@[simp] theorem State.setEth_damage (s : State) (p : Fin 2) (x : EthPort) : (s.setEth p x).damage = s.damage := rfl
@[simp] theorem State.setEth_fuses (s : State) (p : Fin 2) (x : EthPort) : (s.setEth p x).fuses = s.fuses := rfl
@[simp] theorem State.setEth_chipId (s : State) (p : Fin 2) (x : EthPort) : (s.setEth p x).chipId = s.chipId := rfl
@[simp] theorem State.setEth_cores (s : State) (p : Fin 2) (x : EthPort) : (s.setEth p x).cores = s.cores := rfl
@[simp] theorem State.setEth_tick (s : State) (p : Fin 2) (x : EthPort) : (s.setEth p x).tick = s.tick := rfl
@[simp] theorem State.setEth_hbmStacks (s : State) (p : Fin 2) (x : EthPort) : (s.setEth p x).hbmStacks = s.hbmStacks := rfl
@[simp] theorem State.setEth_folio (s : State) (p : Fin 2) (x : EthPort) : (s.setEth p x).folio = s.folio := rfl
@[simp] theorem State.setEth_ftl (s : State) (p : Fin 2) (x : EthPort) : (s.setEth p x).ftl = s.ftl := rfl
@[simp] theorem State.setEth_fabric (s : State) (p : Fin 2) (x : EthPort) : (s.setEth p x).fabric = s.fabric := rfl
@[simp] theorem State.setEth_ports (s : State) (p : Fin 2) (x : EthPort) : (s.setEth p x).ports = s.ports := rfl
@[simp] theorem State.setEth_coll (s : State) (p : Fin 2) (x : EthPort) : (s.setEth p x).coll = s.coll := rfl
@[simp] theorem State.setEth_engines (s : State) (p : Fin 2) (x : EthPort) : (s.setEth p x).engines = s.engines := rfl
@[simp] theorem State.setEth_mediaBw (s : State) (p : Fin 2) (x : EthPort) : (s.setEth p x).mediaBw = s.mediaBw := rfl
@[simp] theorem State.setEth_windows (s : State) (p : Fin 2) (x : EthPort) : (s.setEth p x).windows = s.windows := rfl
@[simp] theorem State.setEth_rings (s : State) (p : Fin 2) (x : EthPort) : (s.setEth p x).rings = s.rings := rfl
@[simp] theorem State.setEth_qcp (s : State) (p : Fin 2) (x : EthPort) : (s.setEth p x).qcp = s.qcp := rfl
@[simp] theorem State.setEth_parts (s : State) (p : Fin 2) (x : EthPort) : (s.setEth p x).parts = s.parts := rfl
@[simp] theorem State.setEth_recov (s : State) (p : Fin 2) (x : EthPort) : (s.setEth p x).recov = s.recov := rfl
@[simp] theorem State.setEth_power (s : State) (p : Fin 2) (x : EthPort) : (s.setEth p x).power = s.power := rfl
@[simp] theorem State.setEth_cfg (s : State) (p : Fin 2) (x : EthPort) : (s.setEth p x).cfg = s.cfg := rfl
@[simp] theorem State.setEth_boot (s : State) (p : Fin 2) (x : EthPort) : (s.setEth p x).boot = s.boot := rfl
@[simp] theorem State.setEth_sec (s : State) (p : Fin 2) (x : EthPort) : (s.setEth p x).sec = s.sec := rfl
@[simp] theorem State.setEth_proof (s : State) (p : Fin 2) (x : EthPort) : (s.setEth p x).proof = s.proof := rfl
@[simp] theorem State.setEth_tap (s : State) (p : Fin 2) (x : EthPort) : (s.setEth p x).tap = s.tap := rfl
@[simp] theorem State.setEth_i3c (s : State) (p : Fin 2) (x : EthPort) : (s.setEth p x).i3c = s.i3c := rfl
@[simp] theorem State.setEth_drive (s : State) (p : Fin 2) (x : EthPort) : (s.setEth p x).drive = s.drive := rfl
@[simp] theorem State.setEth_free (s : State) (p : Fin 2) (x : EthPort) : (s.setEth p x).free = s.free := rfl
@[simp] theorem State.setEth_out (s : State) (p : Fin 2) (x : EthPort) : (s.setEth p x).out = s.out := rfl
@[simp] theorem State.setEth_pending (s : State) (p : Fin 2) (x : EthPort) : (s.setEth p x).pending = s.pending := rfl

/-! ## modEth -/

@[simp] theorem State.modEth_mem (s : State) (p : Fin 2) (f : EthPort → EthPort) : (s.modEth p f).mem = s.mem := rfl
@[simp] theorem State.modEth_nand (s : State) (p : Fin 2) (f : EthPort → EthPort) : (s.modEth p f).nand = s.nand := rfl
@[simp] theorem State.modEth_bootFlash (s : State) (p : Fin 2) (f : EthPort → EthPort) : (s.modEth p f).bootFlash = s.bootFlash := rfl
@[simp] theorem State.modEth_damage (s : State) (p : Fin 2) (f : EthPort → EthPort) : (s.modEth p f).damage = s.damage := rfl
@[simp] theorem State.modEth_fuses (s : State) (p : Fin 2) (f : EthPort → EthPort) : (s.modEth p f).fuses = s.fuses := rfl
@[simp] theorem State.modEth_chipId (s : State) (p : Fin 2) (f : EthPort → EthPort) : (s.modEth p f).chipId = s.chipId := rfl
@[simp] theorem State.modEth_cores (s : State) (p : Fin 2) (f : EthPort → EthPort) : (s.modEth p f).cores = s.cores := rfl
@[simp] theorem State.modEth_tick (s : State) (p : Fin 2) (f : EthPort → EthPort) : (s.modEth p f).tick = s.tick := rfl
@[simp] theorem State.modEth_hbmStacks (s : State) (p : Fin 2) (f : EthPort → EthPort) : (s.modEth p f).hbmStacks = s.hbmStacks := rfl
@[simp] theorem State.modEth_folio (s : State) (p : Fin 2) (f : EthPort → EthPort) : (s.modEth p f).folio = s.folio := rfl
@[simp] theorem State.modEth_ftl (s : State) (p : Fin 2) (f : EthPort → EthPort) : (s.modEth p f).ftl = s.ftl := rfl
@[simp] theorem State.modEth_fabric (s : State) (p : Fin 2) (f : EthPort → EthPort) : (s.modEth p f).fabric = s.fabric := rfl
@[simp] theorem State.modEth_ports (s : State) (p : Fin 2) (f : EthPort → EthPort) : (s.modEth p f).ports = s.ports := rfl
@[simp] theorem State.modEth_coll (s : State) (p : Fin 2) (f : EthPort → EthPort) : (s.modEth p f).coll = s.coll := rfl
@[simp] theorem State.modEth_engines (s : State) (p : Fin 2) (f : EthPort → EthPort) : (s.modEth p f).engines = s.engines := rfl
@[simp] theorem State.modEth_mediaBw (s : State) (p : Fin 2) (f : EthPort → EthPort) : (s.modEth p f).mediaBw = s.mediaBw := rfl
@[simp] theorem State.modEth_windows (s : State) (p : Fin 2) (f : EthPort → EthPort) : (s.modEth p f).windows = s.windows := rfl
@[simp] theorem State.modEth_rings (s : State) (p : Fin 2) (f : EthPort → EthPort) : (s.modEth p f).rings = s.rings := rfl
@[simp] theorem State.modEth_qcp (s : State) (p : Fin 2) (f : EthPort → EthPort) : (s.modEth p f).qcp = s.qcp := rfl
@[simp] theorem State.modEth_parts (s : State) (p : Fin 2) (f : EthPort → EthPort) : (s.modEth p f).parts = s.parts := rfl
@[simp] theorem State.modEth_recov (s : State) (p : Fin 2) (f : EthPort → EthPort) : (s.modEth p f).recov = s.recov := rfl
@[simp] theorem State.modEth_power (s : State) (p : Fin 2) (f : EthPort → EthPort) : (s.modEth p f).power = s.power := rfl
@[simp] theorem State.modEth_cfg (s : State) (p : Fin 2) (f : EthPort → EthPort) : (s.modEth p f).cfg = s.cfg := rfl
@[simp] theorem State.modEth_boot (s : State) (p : Fin 2) (f : EthPort → EthPort) : (s.modEth p f).boot = s.boot := rfl
@[simp] theorem State.modEth_sec (s : State) (p : Fin 2) (f : EthPort → EthPort) : (s.modEth p f).sec = s.sec := rfl
@[simp] theorem State.modEth_proof (s : State) (p : Fin 2) (f : EthPort → EthPort) : (s.modEth p f).proof = s.proof := rfl
@[simp] theorem State.modEth_tap (s : State) (p : Fin 2) (f : EthPort → EthPort) : (s.modEth p f).tap = s.tap := rfl
@[simp] theorem State.modEth_i3c (s : State) (p : Fin 2) (f : EthPort → EthPort) : (s.modEth p f).i3c = s.i3c := rfl
@[simp] theorem State.modEth_drive (s : State) (p : Fin 2) (f : EthPort → EthPort) : (s.modEth p f).drive = s.drive := rfl
@[simp] theorem State.modEth_free (s : State) (p : Fin 2) (f : EthPort → EthPort) : (s.modEth p f).free = s.free := rfl
@[simp] theorem State.modEth_out (s : State) (p : Fin 2) (f : EthPort → EthPort) : (s.modEth p f).out = s.out := rfl
@[simp] theorem State.modEth_pending (s : State) (p : Fin 2) (f : EthPort → EthPort) : (s.modEth p f).pending = s.pending := rfl

/-! ## modQp -/

@[simp] theorem State.modQp_mem (s : State) (p : Fin 2) (q : Fin 64) (f : Qp → Qp) : (s.modQp p q f).mem = s.mem := rfl
@[simp] theorem State.modQp_nand (s : State) (p : Fin 2) (q : Fin 64) (f : Qp → Qp) : (s.modQp p q f).nand = s.nand := rfl
@[simp] theorem State.modQp_bootFlash (s : State) (p : Fin 2) (q : Fin 64) (f : Qp → Qp) : (s.modQp p q f).bootFlash = s.bootFlash := rfl
@[simp] theorem State.modQp_damage (s : State) (p : Fin 2) (q : Fin 64) (f : Qp → Qp) : (s.modQp p q f).damage = s.damage := rfl
@[simp] theorem State.modQp_fuses (s : State) (p : Fin 2) (q : Fin 64) (f : Qp → Qp) : (s.modQp p q f).fuses = s.fuses := rfl
@[simp] theorem State.modQp_chipId (s : State) (p : Fin 2) (q : Fin 64) (f : Qp → Qp) : (s.modQp p q f).chipId = s.chipId := rfl
@[simp] theorem State.modQp_cores (s : State) (p : Fin 2) (q : Fin 64) (f : Qp → Qp) : (s.modQp p q f).cores = s.cores := rfl
@[simp] theorem State.modQp_tick (s : State) (p : Fin 2) (q : Fin 64) (f : Qp → Qp) : (s.modQp p q f).tick = s.tick := rfl
@[simp] theorem State.modQp_hbmStacks (s : State) (p : Fin 2) (q : Fin 64) (f : Qp → Qp) : (s.modQp p q f).hbmStacks = s.hbmStacks := rfl
@[simp] theorem State.modQp_folio (s : State) (p : Fin 2) (q : Fin 64) (f : Qp → Qp) : (s.modQp p q f).folio = s.folio := rfl
@[simp] theorem State.modQp_ftl (s : State) (p : Fin 2) (q : Fin 64) (f : Qp → Qp) : (s.modQp p q f).ftl = s.ftl := rfl
@[simp] theorem State.modQp_fabric (s : State) (p : Fin 2) (q : Fin 64) (f : Qp → Qp) : (s.modQp p q f).fabric = s.fabric := rfl
@[simp] theorem State.modQp_ports (s : State) (p : Fin 2) (q : Fin 64) (f : Qp → Qp) : (s.modQp p q f).ports = s.ports := rfl
@[simp] theorem State.modQp_coll (s : State) (p : Fin 2) (q : Fin 64) (f : Qp → Qp) : (s.modQp p q f).coll = s.coll := rfl
@[simp] theorem State.modQp_engines (s : State) (p : Fin 2) (q : Fin 64) (f : Qp → Qp) : (s.modQp p q f).engines = s.engines := rfl
@[simp] theorem State.modQp_mediaBw (s : State) (p : Fin 2) (q : Fin 64) (f : Qp → Qp) : (s.modQp p q f).mediaBw = s.mediaBw := rfl
@[simp] theorem State.modQp_windows (s : State) (p : Fin 2) (q : Fin 64) (f : Qp → Qp) : (s.modQp p q f).windows = s.windows := rfl
@[simp] theorem State.modQp_rings (s : State) (p : Fin 2) (q : Fin 64) (f : Qp → Qp) : (s.modQp p q f).rings = s.rings := rfl
@[simp] theorem State.modQp_qcp (s : State) (p : Fin 2) (q : Fin 64) (f : Qp → Qp) : (s.modQp p q f).qcp = s.qcp := rfl
@[simp] theorem State.modQp_parts (s : State) (p : Fin 2) (q : Fin 64) (f : Qp → Qp) : (s.modQp p q f).parts = s.parts := rfl
@[simp] theorem State.modQp_recov (s : State) (p : Fin 2) (q : Fin 64) (f : Qp → Qp) : (s.modQp p q f).recov = s.recov := rfl
@[simp] theorem State.modQp_power (s : State) (p : Fin 2) (q : Fin 64) (f : Qp → Qp) : (s.modQp p q f).power = s.power := rfl
@[simp] theorem State.modQp_cfg (s : State) (p : Fin 2) (q : Fin 64) (f : Qp → Qp) : (s.modQp p q f).cfg = s.cfg := rfl
@[simp] theorem State.modQp_boot (s : State) (p : Fin 2) (q : Fin 64) (f : Qp → Qp) : (s.modQp p q f).boot = s.boot := rfl
@[simp] theorem State.modQp_sec (s : State) (p : Fin 2) (q : Fin 64) (f : Qp → Qp) : (s.modQp p q f).sec = s.sec := rfl
@[simp] theorem State.modQp_proof (s : State) (p : Fin 2) (q : Fin 64) (f : Qp → Qp) : (s.modQp p q f).proof = s.proof := rfl
@[simp] theorem State.modQp_tap (s : State) (p : Fin 2) (q : Fin 64) (f : Qp → Qp) : (s.modQp p q f).tap = s.tap := rfl
@[simp] theorem State.modQp_i3c (s : State) (p : Fin 2) (q : Fin 64) (f : Qp → Qp) : (s.modQp p q f).i3c = s.i3c := rfl
@[simp] theorem State.modQp_drive (s : State) (p : Fin 2) (q : Fin 64) (f : Qp → Qp) : (s.modQp p q f).drive = s.drive := rfl
@[simp] theorem State.modQp_free (s : State) (p : Fin 2) (q : Fin 64) (f : Qp → Qp) : (s.modQp p q f).free = s.free := rfl
@[simp] theorem State.modQp_out (s : State) (p : Fin 2) (q : Fin 64) (f : Qp → Qp) : (s.modQp p q f).out = s.out := rfl
@[simp] theorem State.modQp_pending (s : State) (p : Fin 2) (q : Fin 64) (f : Qp → Qp) : (s.modQp p q f).pending = s.pending := rfl

/-! ## poke -/

@[simp] theorem State.poke_nand (s : State) (off : Nat) (bs : List Byte) : (s.poke off bs).nand = s.nand := rfl
@[simp] theorem State.poke_bootFlash (s : State) (off : Nat) (bs : List Byte) : (s.poke off bs).bootFlash = s.bootFlash := rfl
@[simp] theorem State.poke_damage (s : State) (off : Nat) (bs : List Byte) : (s.poke off bs).damage = s.damage := rfl
@[simp] theorem State.poke_fuses (s : State) (off : Nat) (bs : List Byte) : (s.poke off bs).fuses = s.fuses := rfl
@[simp] theorem State.poke_chipId (s : State) (off : Nat) (bs : List Byte) : (s.poke off bs).chipId = s.chipId := rfl
@[simp] theorem State.poke_cores (s : State) (off : Nat) (bs : List Byte) : (s.poke off bs).cores = s.cores := rfl
@[simp] theorem State.poke_tick (s : State) (off : Nat) (bs : List Byte) : (s.poke off bs).tick = s.tick := rfl
@[simp] theorem State.poke_hbmStacks (s : State) (off : Nat) (bs : List Byte) : (s.poke off bs).hbmStacks = s.hbmStacks := rfl
@[simp] theorem State.poke_folio (s : State) (off : Nat) (bs : List Byte) : (s.poke off bs).folio = s.folio := rfl
@[simp] theorem State.poke_ftl (s : State) (off : Nat) (bs : List Byte) : (s.poke off bs).ftl = s.ftl := rfl
@[simp] theorem State.poke_fabric (s : State) (off : Nat) (bs : List Byte) : (s.poke off bs).fabric = s.fabric := rfl
@[simp] theorem State.poke_ports (s : State) (off : Nat) (bs : List Byte) : (s.poke off bs).ports = s.ports := rfl
@[simp] theorem State.poke_coll (s : State) (off : Nat) (bs : List Byte) : (s.poke off bs).coll = s.coll := rfl
@[simp] theorem State.poke_engines (s : State) (off : Nat) (bs : List Byte) : (s.poke off bs).engines = s.engines := rfl
@[simp] theorem State.poke_mediaBw (s : State) (off : Nat) (bs : List Byte) : (s.poke off bs).mediaBw = s.mediaBw := rfl
@[simp] theorem State.poke_eth (s : State) (off : Nat) (bs : List Byte) : (s.poke off bs).eth = s.eth := rfl
@[simp] theorem State.poke_windows (s : State) (off : Nat) (bs : List Byte) : (s.poke off bs).windows = s.windows := rfl
@[simp] theorem State.poke_rings (s : State) (off : Nat) (bs : List Byte) : (s.poke off bs).rings = s.rings := rfl
@[simp] theorem State.poke_qcp (s : State) (off : Nat) (bs : List Byte) : (s.poke off bs).qcp = s.qcp := rfl
@[simp] theorem State.poke_parts (s : State) (off : Nat) (bs : List Byte) : (s.poke off bs).parts = s.parts := rfl
@[simp] theorem State.poke_recov (s : State) (off : Nat) (bs : List Byte) : (s.poke off bs).recov = s.recov := rfl
@[simp] theorem State.poke_power (s : State) (off : Nat) (bs : List Byte) : (s.poke off bs).power = s.power := rfl
@[simp] theorem State.poke_cfg (s : State) (off : Nat) (bs : List Byte) : (s.poke off bs).cfg = s.cfg := rfl
@[simp] theorem State.poke_boot (s : State) (off : Nat) (bs : List Byte) : (s.poke off bs).boot = s.boot := rfl
@[simp] theorem State.poke_sec (s : State) (off : Nat) (bs : List Byte) : (s.poke off bs).sec = s.sec := rfl
@[simp] theorem State.poke_proof (s : State) (off : Nat) (bs : List Byte) : (s.poke off bs).proof = s.proof := rfl
@[simp] theorem State.poke_tap (s : State) (off : Nat) (bs : List Byte) : (s.poke off bs).tap = s.tap := rfl
@[simp] theorem State.poke_i3c (s : State) (off : Nat) (bs : List Byte) : (s.poke off bs).i3c = s.i3c := rfl
@[simp] theorem State.poke_drive (s : State) (off : Nat) (bs : List Byte) : (s.poke off bs).drive = s.drive := rfl
@[simp] theorem State.poke_free (s : State) (off : Nat) (bs : List Byte) : (s.poke off bs).free = s.free := rfl
@[simp] theorem State.poke_out (s : State) (off : Nat) (bs : List Byte) : (s.poke off bs).out = s.out := rfl
@[simp] theorem State.poke_pending (s : State) (off : Nat) (bs : List Byte) : (s.poke off bs).pending = s.pending := rfl

/-! ## setDamage -/

@[simp] theorem State.setDamage_mem (s : State) (line : Nat) (e : Pattern) : (s.setDamage line e).mem = s.mem := rfl
@[simp] theorem State.setDamage_nand (s : State) (line : Nat) (e : Pattern) : (s.setDamage line e).nand = s.nand := rfl
@[simp] theorem State.setDamage_bootFlash (s : State) (line : Nat) (e : Pattern) : (s.setDamage line e).bootFlash = s.bootFlash := rfl
@[simp] theorem State.setDamage_fuses (s : State) (line : Nat) (e : Pattern) : (s.setDamage line e).fuses = s.fuses := rfl
@[simp] theorem State.setDamage_chipId (s : State) (line : Nat) (e : Pattern) : (s.setDamage line e).chipId = s.chipId := rfl
@[simp] theorem State.setDamage_cores (s : State) (line : Nat) (e : Pattern) : (s.setDamage line e).cores = s.cores := rfl
@[simp] theorem State.setDamage_tick (s : State) (line : Nat) (e : Pattern) : (s.setDamage line e).tick = s.tick := rfl
@[simp] theorem State.setDamage_hbmStacks (s : State) (line : Nat) (e : Pattern) : (s.setDamage line e).hbmStacks = s.hbmStacks := rfl
@[simp] theorem State.setDamage_folio (s : State) (line : Nat) (e : Pattern) : (s.setDamage line e).folio = s.folio := rfl
@[simp] theorem State.setDamage_ftl (s : State) (line : Nat) (e : Pattern) : (s.setDamage line e).ftl = s.ftl := rfl
@[simp] theorem State.setDamage_fabric (s : State) (line : Nat) (e : Pattern) : (s.setDamage line e).fabric = s.fabric := rfl
@[simp] theorem State.setDamage_ports (s : State) (line : Nat) (e : Pattern) : (s.setDamage line e).ports = s.ports := rfl
@[simp] theorem State.setDamage_coll (s : State) (line : Nat) (e : Pattern) : (s.setDamage line e).coll = s.coll := rfl
@[simp] theorem State.setDamage_engines (s : State) (line : Nat) (e : Pattern) : (s.setDamage line e).engines = s.engines := rfl
@[simp] theorem State.setDamage_mediaBw (s : State) (line : Nat) (e : Pattern) : (s.setDamage line e).mediaBw = s.mediaBw := rfl
@[simp] theorem State.setDamage_eth (s : State) (line : Nat) (e : Pattern) : (s.setDamage line e).eth = s.eth := rfl
@[simp] theorem State.setDamage_windows (s : State) (line : Nat) (e : Pattern) : (s.setDamage line e).windows = s.windows := rfl
@[simp] theorem State.setDamage_rings (s : State) (line : Nat) (e : Pattern) : (s.setDamage line e).rings = s.rings := rfl
@[simp] theorem State.setDamage_qcp (s : State) (line : Nat) (e : Pattern) : (s.setDamage line e).qcp = s.qcp := rfl
@[simp] theorem State.setDamage_parts (s : State) (line : Nat) (e : Pattern) : (s.setDamage line e).parts = s.parts := rfl
@[simp] theorem State.setDamage_recov (s : State) (line : Nat) (e : Pattern) : (s.setDamage line e).recov = s.recov := rfl
@[simp] theorem State.setDamage_power (s : State) (line : Nat) (e : Pattern) : (s.setDamage line e).power = s.power := rfl
@[simp] theorem State.setDamage_cfg (s : State) (line : Nat) (e : Pattern) : (s.setDamage line e).cfg = s.cfg := rfl
@[simp] theorem State.setDamage_boot (s : State) (line : Nat) (e : Pattern) : (s.setDamage line e).boot = s.boot := rfl
@[simp] theorem State.setDamage_sec (s : State) (line : Nat) (e : Pattern) : (s.setDamage line e).sec = s.sec := rfl
@[simp] theorem State.setDamage_proof (s : State) (line : Nat) (e : Pattern) : (s.setDamage line e).proof = s.proof := rfl
@[simp] theorem State.setDamage_tap (s : State) (line : Nat) (e : Pattern) : (s.setDamage line e).tap = s.tap := rfl
@[simp] theorem State.setDamage_i3c (s : State) (line : Nat) (e : Pattern) : (s.setDamage line e).i3c = s.i3c := rfl
@[simp] theorem State.setDamage_drive (s : State) (line : Nat) (e : Pattern) : (s.setDamage line e).drive = s.drive := rfl
@[simp] theorem State.setDamage_free (s : State) (line : Nat) (e : Pattern) : (s.setDamage line e).free = s.free := rfl
@[simp] theorem State.setDamage_out (s : State) (line : Nat) (e : Pattern) : (s.setDamage line e).out = s.out := rfl
@[simp] theorem State.setDamage_pending (s : State) (line : Nat) (e : Pattern) : (s.setDamage line e).pending = s.pending := rfl

/-! ## emit -/

@[simp] theorem State.emit_mem (s : State) (o : Output) : (s.emit o).mem = s.mem := rfl
@[simp] theorem State.emit_nand (s : State) (o : Output) : (s.emit o).nand = s.nand := rfl
@[simp] theorem State.emit_bootFlash (s : State) (o : Output) : (s.emit o).bootFlash = s.bootFlash := rfl
@[simp] theorem State.emit_damage (s : State) (o : Output) : (s.emit o).damage = s.damage := rfl
@[simp] theorem State.emit_fuses (s : State) (o : Output) : (s.emit o).fuses = s.fuses := rfl
@[simp] theorem State.emit_chipId (s : State) (o : Output) : (s.emit o).chipId = s.chipId := rfl
@[simp] theorem State.emit_cores (s : State) (o : Output) : (s.emit o).cores = s.cores := rfl
@[simp] theorem State.emit_tick (s : State) (o : Output) : (s.emit o).tick = s.tick := rfl
@[simp] theorem State.emit_hbmStacks (s : State) (o : Output) : (s.emit o).hbmStacks = s.hbmStacks := rfl
@[simp] theorem State.emit_folio (s : State) (o : Output) : (s.emit o).folio = s.folio := rfl
@[simp] theorem State.emit_ftl (s : State) (o : Output) : (s.emit o).ftl = s.ftl := rfl
@[simp] theorem State.emit_fabric (s : State) (o : Output) : (s.emit o).fabric = s.fabric := rfl
@[simp] theorem State.emit_ports (s : State) (o : Output) : (s.emit o).ports = s.ports := rfl
@[simp] theorem State.emit_coll (s : State) (o : Output) : (s.emit o).coll = s.coll := rfl
@[simp] theorem State.emit_engines (s : State) (o : Output) : (s.emit o).engines = s.engines := rfl
@[simp] theorem State.emit_mediaBw (s : State) (o : Output) : (s.emit o).mediaBw = s.mediaBw := rfl
@[simp] theorem State.emit_eth (s : State) (o : Output) : (s.emit o).eth = s.eth := rfl
@[simp] theorem State.emit_windows (s : State) (o : Output) : (s.emit o).windows = s.windows := rfl
@[simp] theorem State.emit_rings (s : State) (o : Output) : (s.emit o).rings = s.rings := rfl
@[simp] theorem State.emit_qcp (s : State) (o : Output) : (s.emit o).qcp = s.qcp := rfl
@[simp] theorem State.emit_parts (s : State) (o : Output) : (s.emit o).parts = s.parts := rfl
@[simp] theorem State.emit_recov (s : State) (o : Output) : (s.emit o).recov = s.recov := rfl
@[simp] theorem State.emit_power (s : State) (o : Output) : (s.emit o).power = s.power := rfl
@[simp] theorem State.emit_cfg (s : State) (o : Output) : (s.emit o).cfg = s.cfg := rfl
@[simp] theorem State.emit_boot (s : State) (o : Output) : (s.emit o).boot = s.boot := rfl
@[simp] theorem State.emit_sec (s : State) (o : Output) : (s.emit o).sec = s.sec := rfl
@[simp] theorem State.emit_proof (s : State) (o : Output) : (s.emit o).proof = s.proof := rfl
@[simp] theorem State.emit_tap (s : State) (o : Output) : (s.emit o).tap = s.tap := rfl
@[simp] theorem State.emit_i3c (s : State) (o : Output) : (s.emit o).i3c = s.i3c := rfl
@[simp] theorem State.emit_drive (s : State) (o : Output) : (s.emit o).drive = s.drive := rfl
@[simp] theorem State.emit_free (s : State) (o : Output) : (s.emit o).free = s.free := rfl
@[simp] theorem State.emit_pending (s : State) (o : Output) : (s.emit o).pending = s.pending := rfl

/-! ## draw -/

@[simp] theorem State.draw_mem (s : State) : (s.draw.2).mem = s.mem := rfl
@[simp] theorem State.draw_nand (s : State) : (s.draw.2).nand = s.nand := rfl
@[simp] theorem State.draw_bootFlash (s : State) : (s.draw.2).bootFlash = s.bootFlash := rfl
@[simp] theorem State.draw_damage (s : State) : (s.draw.2).damage = s.damage := rfl
@[simp] theorem State.draw_fuses (s : State) : (s.draw.2).fuses = s.fuses := rfl
@[simp] theorem State.draw_chipId (s : State) : (s.draw.2).chipId = s.chipId := rfl
@[simp] theorem State.draw_cores (s : State) : (s.draw.2).cores = s.cores := rfl
@[simp] theorem State.draw_tick (s : State) : (s.draw.2).tick = s.tick := rfl
@[simp] theorem State.draw_hbmStacks (s : State) : (s.draw.2).hbmStacks = s.hbmStacks := rfl
@[simp] theorem State.draw_folio (s : State) : (s.draw.2).folio = s.folio := rfl
@[simp] theorem State.draw_ftl (s : State) : (s.draw.2).ftl = s.ftl := rfl
@[simp] theorem State.draw_fabric (s : State) : (s.draw.2).fabric = s.fabric := rfl
@[simp] theorem State.draw_ports (s : State) : (s.draw.2).ports = s.ports := rfl
@[simp] theorem State.draw_coll (s : State) : (s.draw.2).coll = s.coll := rfl
@[simp] theorem State.draw_engines (s : State) : (s.draw.2).engines = s.engines := rfl
@[simp] theorem State.draw_mediaBw (s : State) : (s.draw.2).mediaBw = s.mediaBw := rfl
@[simp] theorem State.draw_eth (s : State) : (s.draw.2).eth = s.eth := rfl
@[simp] theorem State.draw_windows (s : State) : (s.draw.2).windows = s.windows := rfl
@[simp] theorem State.draw_rings (s : State) : (s.draw.2).rings = s.rings := rfl
@[simp] theorem State.draw_qcp (s : State) : (s.draw.2).qcp = s.qcp := rfl
@[simp] theorem State.draw_parts (s : State) : (s.draw.2).parts = s.parts := rfl
@[simp] theorem State.draw_recov (s : State) : (s.draw.2).recov = s.recov := rfl
@[simp] theorem State.draw_power (s : State) : (s.draw.2).power = s.power := rfl
@[simp] theorem State.draw_cfg (s : State) : (s.draw.2).cfg = s.cfg := rfl
@[simp] theorem State.draw_boot (s : State) : (s.draw.2).boot = s.boot := rfl
@[simp] theorem State.draw_sec (s : State) : (s.draw.2).sec = s.sec := rfl
@[simp] theorem State.draw_proof (s : State) : (s.draw.2).proof = s.proof := rfl
@[simp] theorem State.draw_tap (s : State) : (s.draw.2).tap = s.tap := rfl
@[simp] theorem State.draw_i3c (s : State) : (s.draw.2).i3c = s.i3c := rfl
@[simp] theorem State.draw_drive (s : State) : (s.draw.2).drive = s.drive := rfl
@[simp] theorem State.draw_out (s : State) : (s.draw.2).out = s.out := rfl
@[simp] theorem State.draw_pending (s : State) : (s.draw.2).pending = s.pending := rfl

/-! ## badWrite -/

@[simp] theorem State.badWrite_mem (s : State) : (s.badWrite).mem = s.mem := rfl
@[simp] theorem State.badWrite_nand (s : State) : (s.badWrite).nand = s.nand := rfl
@[simp] theorem State.badWrite_bootFlash (s : State) : (s.badWrite).bootFlash = s.bootFlash := rfl
@[simp] theorem State.badWrite_damage (s : State) : (s.badWrite).damage = s.damage := rfl
@[simp] theorem State.badWrite_fuses (s : State) : (s.badWrite).fuses = s.fuses := rfl
@[simp] theorem State.badWrite_chipId (s : State) : (s.badWrite).chipId = s.chipId := rfl
@[simp] theorem State.badWrite_cores (s : State) : (s.badWrite).cores = s.cores := rfl
@[simp] theorem State.badWrite_hbmStacks (s : State) : (s.badWrite).hbmStacks = s.hbmStacks := rfl
@[simp] theorem State.badWrite_folio (s : State) : (s.badWrite).folio = s.folio := rfl
@[simp] theorem State.badWrite_ftl (s : State) : (s.badWrite).ftl = s.ftl := rfl
@[simp] theorem State.badWrite_fabric (s : State) : (s.badWrite).fabric = s.fabric := rfl
@[simp] theorem State.badWrite_ports (s : State) : (s.badWrite).ports = s.ports := rfl
@[simp] theorem State.badWrite_coll (s : State) : (s.badWrite).coll = s.coll := rfl
@[simp] theorem State.badWrite_engines (s : State) : (s.badWrite).engines = s.engines := rfl
@[simp] theorem State.badWrite_mediaBw (s : State) : (s.badWrite).mediaBw = s.mediaBw := rfl
@[simp] theorem State.badWrite_eth (s : State) : (s.badWrite).eth = s.eth := rfl
@[simp] theorem State.badWrite_windows (s : State) : (s.badWrite).windows = s.windows := rfl
@[simp] theorem State.badWrite_rings (s : State) : (s.badWrite).rings = s.rings := rfl
@[simp] theorem State.badWrite_qcp (s : State) : (s.badWrite).qcp = s.qcp := rfl
@[simp] theorem State.badWrite_parts (s : State) : (s.badWrite).parts = s.parts := rfl
@[simp] theorem State.badWrite_recov (s : State) : (s.badWrite).recov = s.recov := rfl
@[simp] theorem State.badWrite_power (s : State) : (s.badWrite).power = s.power := rfl
@[simp] theorem State.badWrite_cfg (s : State) : (s.badWrite).cfg = s.cfg := rfl
@[simp] theorem State.badWrite_boot (s : State) : (s.badWrite).boot = s.boot := rfl
@[simp] theorem State.badWrite_sec (s : State) : (s.badWrite).sec = s.sec := rfl
@[simp] theorem State.badWrite_proof (s : State) : (s.badWrite).proof = s.proof := rfl
@[simp] theorem State.badWrite_tap (s : State) : (s.badWrite).tap = s.tap := rfl
@[simp] theorem State.badWrite_i3c (s : State) : (s.badWrite).i3c = s.i3c := rfl
@[simp] theorem State.badWrite_drive (s : State) : (s.badWrite).drive = s.drive := rfl
@[simp] theorem State.badWrite_free (s : State) : (s.badWrite).free = s.free := rfl
@[simp] theorem State.badWrite_out (s : State) : (s.badWrite).out = s.out := rfl
@[simp] theorem State.badWrite_pending (s : State) : (s.badWrite).pending = s.pending := rfl

/-! ## atTime -/

@[simp] theorem State.atTime_mem (s : State) (now : Nat) : (s.atTime now).mem = s.mem := rfl
@[simp] theorem State.atTime_nand (s : State) (now : Nat) : (s.atTime now).nand = s.nand := rfl
@[simp] theorem State.atTime_bootFlash (s : State) (now : Nat) : (s.atTime now).bootFlash = s.bootFlash := rfl
@[simp] theorem State.atTime_damage (s : State) (now : Nat) : (s.atTime now).damage = s.damage := rfl
@[simp] theorem State.atTime_fuses (s : State) (now : Nat) : (s.atTime now).fuses = s.fuses := rfl
@[simp] theorem State.atTime_chipId (s : State) (now : Nat) : (s.atTime now).chipId = s.chipId := rfl
@[simp] theorem State.atTime_cores (s : State) (now : Nat) : (s.atTime now).cores = s.cores := rfl
@[simp] theorem State.atTime_hbmStacks (s : State) (now : Nat) : (s.atTime now).hbmStacks = s.hbmStacks := rfl
@[simp] theorem State.atTime_folio (s : State) (now : Nat) : (s.atTime now).folio = s.folio := rfl
@[simp] theorem State.atTime_ftl (s : State) (now : Nat) : (s.atTime now).ftl = s.ftl := rfl
@[simp] theorem State.atTime_fabric (s : State) (now : Nat) : (s.atTime now).fabric = s.fabric := rfl
@[simp] theorem State.atTime_ports (s : State) (now : Nat) : (s.atTime now).ports = s.ports := rfl
@[simp] theorem State.atTime_coll (s : State) (now : Nat) : (s.atTime now).coll = s.coll := rfl
@[simp] theorem State.atTime_engines (s : State) (now : Nat) : (s.atTime now).engines = s.engines := rfl
@[simp] theorem State.atTime_mediaBw (s : State) (now : Nat) : (s.atTime now).mediaBw = s.mediaBw := rfl
@[simp] theorem State.atTime_eth (s : State) (now : Nat) : (s.atTime now).eth = s.eth := rfl
@[simp] theorem State.atTime_windows (s : State) (now : Nat) : (s.atTime now).windows = s.windows := rfl
@[simp] theorem State.atTime_rings (s : State) (now : Nat) : (s.atTime now).rings = s.rings := rfl
@[simp] theorem State.atTime_qcp (s : State) (now : Nat) : (s.atTime now).qcp = s.qcp := rfl
@[simp] theorem State.atTime_parts (s : State) (now : Nat) : (s.atTime now).parts = s.parts := rfl
@[simp] theorem State.atTime_recov (s : State) (now : Nat) : (s.atTime now).recov = s.recov := rfl
@[simp] theorem State.atTime_power (s : State) (now : Nat) : (s.atTime now).power = s.power := rfl
@[simp] theorem State.atTime_cfg (s : State) (now : Nat) : (s.atTime now).cfg = s.cfg := rfl
@[simp] theorem State.atTime_boot (s : State) (now : Nat) : (s.atTime now).boot = s.boot := rfl
@[simp] theorem State.atTime_sec (s : State) (now : Nat) : (s.atTime now).sec = s.sec := rfl
@[simp] theorem State.atTime_proof (s : State) (now : Nat) : (s.atTime now).proof = s.proof := rfl
@[simp] theorem State.atTime_tap (s : State) (now : Nat) : (s.atTime now).tap = s.tap := rfl
@[simp] theorem State.atTime_i3c (s : State) (now : Nat) : (s.atTime now).i3c = s.i3c := rfl
@[simp] theorem State.atTime_drive (s : State) (now : Nat) : (s.atTime now).drive = s.drive := rfl
@[simp] theorem State.atTime_free (s : State) (now : Nat) : (s.atTime now).free = s.free := rfl
@[simp] theorem State.atTime_out (s : State) (now : Nat) : (s.atTime now).out = s.out := rfl
@[simp] theorem State.atTime_pending (s : State) (now : Nat) : (s.atTime now).pending = s.pending := rfl

/-! ## front -/

@[simp] theorem State.front_mem (s : State) (i : Instr) : (s.front i).mem = s.mem := rfl
@[simp] theorem State.front_nand (s : State) (i : Instr) : (s.front i).nand = s.nand := rfl
@[simp] theorem State.front_bootFlash (s : State) (i : Instr) : (s.front i).bootFlash = s.bootFlash := rfl
@[simp] theorem State.front_damage (s : State) (i : Instr) : (s.front i).damage = s.damage := rfl
@[simp] theorem State.front_fuses (s : State) (i : Instr) : (s.front i).fuses = s.fuses := rfl
@[simp] theorem State.front_chipId (s : State) (i : Instr) : (s.front i).chipId = s.chipId := rfl
@[simp] theorem State.front_cores (s : State) (i : Instr) : (s.front i).cores = s.cores := rfl
@[simp] theorem State.front_tick (s : State) (i : Instr) : (s.front i).tick = s.tick := rfl
@[simp] theorem State.front_hbmStacks (s : State) (i : Instr) : (s.front i).hbmStacks = s.hbmStacks := rfl
@[simp] theorem State.front_folio (s : State) (i : Instr) : (s.front i).folio = s.folio := rfl
@[simp] theorem State.front_ftl (s : State) (i : Instr) : (s.front i).ftl = s.ftl := rfl
@[simp] theorem State.front_fabric (s : State) (i : Instr) : (s.front i).fabric = s.fabric := rfl
@[simp] theorem State.front_ports (s : State) (i : Instr) : (s.front i).ports = s.ports := rfl
@[simp] theorem State.front_coll (s : State) (i : Instr) : (s.front i).coll = s.coll := rfl
@[simp] theorem State.front_engines (s : State) (i : Instr) : (s.front i).engines = s.engines := rfl
@[simp] theorem State.front_mediaBw (s : State) (i : Instr) : (s.front i).mediaBw = s.mediaBw := rfl
@[simp] theorem State.front_eth (s : State) (i : Instr) : (s.front i).eth = s.eth := rfl
@[simp] theorem State.front_windows (s : State) (i : Instr) : (s.front i).windows = s.windows := rfl
@[simp] theorem State.front_rings (s : State) (i : Instr) : (s.front i).rings = s.rings := rfl
@[simp] theorem State.front_qcp (s : State) (i : Instr) : (s.front i).qcp = s.qcp := rfl
@[simp] theorem State.front_parts (s : State) (i : Instr) : (s.front i).parts = s.parts := rfl
@[simp] theorem State.front_recov (s : State) (i : Instr) : (s.front i).recov = s.recov := rfl
@[simp] theorem State.front_power (s : State) (i : Instr) : (s.front i).power = s.power := rfl
@[simp] theorem State.front_cfg (s : State) (i : Instr) : (s.front i).cfg = s.cfg := rfl
@[simp] theorem State.front_boot (s : State) (i : Instr) : (s.front i).boot = s.boot := rfl
@[simp] theorem State.front_sec (s : State) (i : Instr) : (s.front i).sec = s.sec := rfl
@[simp] theorem State.front_proof (s : State) (i : Instr) : (s.front i).proof = s.proof := rfl
@[simp] theorem State.front_tap (s : State) (i : Instr) : (s.front i).tap = s.tap := rfl
@[simp] theorem State.front_i3c (s : State) (i : Instr) : (s.front i).i3c = s.i3c := rfl
@[simp] theorem State.front_drive (s : State) (i : Instr) : (s.front i).drive = s.drive := rfl
@[simp] theorem State.front_free (s : State) (i : Instr) : (s.front i).free = s.free := rfl
@[simp] theorem State.front_out (s : State) (i : Instr) : (s.front i).out = s.out := rfl

/-! ## What an indexed update puts where it writes -/

@[simp] theorem State.core_setCore (s : State) (i : CoreId) (x : Core) : (s.setCore i x).core i = x := by simp [State.core, State.setCore]
theorem State.core_setCore_ne (s : State) (i j : CoreId) (x : Core) (h : j ≠ i) : (s.setCore i x).core j = s.core j := by
  simp [State.core, State.setCore, Fin.val_inj, h.symm]
@[simp] theorem State.core_modCore (s : State) (i : CoreId) (f : Core → Core) : (s.modCore i f).core i = f (s.core i) := by simp [State.modCore]
theorem State.core_modCore_ne (s : State) (i j : CoreId) (f : Core → Core) (h : j ≠ i) : (s.modCore i f).core j = s.core j :=
  State.core_setCore_ne s i j _ h

@[simp] theorem State.stack_setStack (s : State) (i : StackId) (x : Stack) : (s.setStack i x).stack i = x := by simp [State.stack, State.setStack]
theorem State.stack_setStack_ne (s : State) (i j : StackId) (x : Stack) (h : j ≠ i) : (s.setStack i x).stack j = s.stack j := by
  simp [State.stack, State.setStack, Fin.val_inj, h.symm]
@[simp] theorem State.stack_modStack (s : State) (i : StackId) (f : Stack → Stack) : (s.modStack i f).stack i = f (s.stack i) := by simp [State.modStack]
theorem State.stack_modStack_ne (s : State) (i j : StackId) (f : Stack → Stack) (h : j ≠ i) : (s.modStack i f).stack j = s.stack j :=
  State.stack_setStack_ne s i j _ h

@[simp] theorem State.part_setPart (s : State) (i : PartId) (x : Part) : (s.setPart i x).part i = x := by simp [State.part, State.setPart]
theorem State.part_setPart_ne (s : State) (i j : PartId) (x : Part) (h : j ≠ i) : (s.setPart i x).part j = s.part j := by
  simp [State.part, State.setPart, Fin.val_inj, h.symm]
@[simp] theorem State.part_modPart (s : State) (i : PartId) (f : Part → Part) : (s.modPart i f).part i = f (s.part i) := by simp [State.modPart]
theorem State.part_modPart_ne (s : State) (i j : PartId) (f : Part → Part) (h : j ≠ i) : (s.modPart i f).part j = s.part j :=
  State.part_setPart_ne s i j _ h

@[simp] theorem State.port_setPort (s : State) (i : PortId) (x : Port) : (s.setPort i x).port i = x := by simp [State.port, State.setPort]
theorem State.port_setPort_ne (s : State) (i j : PortId) (x : Port) (h : j ≠ i) : (s.setPort i x).port j = s.port j := by
  simp [State.port, State.setPort, Fin.val_inj, h.symm]
@[simp] theorem State.port_modPort (s : State) (i : PortId) (f : Port → Port) : (s.modPort i f).port i = f (s.port i) := by simp [State.modPort]
theorem State.port_modPort_ne (s : State) (i j : PortId) (f : Port → Port) (h : j ≠ i) : (s.modPort i f).port j = s.port j :=
  State.port_setPort_ne s i j _ h

@[simp] theorem State.ring_setRing (s : State) (i : RingId) (x : Ring) : (s.setRing i x).ring i = x := by simp [State.ring, State.setRing]
theorem State.ring_setRing_ne (s : State) (i j : RingId) (x : Ring) (h : j ≠ i) : (s.setRing i x).ring j = s.ring j := by
  simp [State.ring, State.setRing, Fin.val_inj, h.symm]
@[simp] theorem State.ring_modRing (s : State) (i : RingId) (f : Ring → Ring) : (s.modRing i f).ring i = f (s.ring i) := by simp [State.modRing]
theorem State.ring_modRing_ne (s : State) (i j : RingId) (f : Ring → Ring) (h : j ≠ i) : (s.modRing i f).ring j = s.ring j :=
  State.ring_setRing_ne s i j _ h

@[simp] theorem State.engine_setEngine (s : State) (i : EngineId) (x : Engine) : (s.setEngine i x).engine i = x := by simp [State.engine, State.setEngine]
theorem State.engine_setEngine_ne (s : State) (i j : EngineId) (x : Engine) (h : j ≠ i) : (s.setEngine i x).engine j = s.engine j := by
  simp [State.engine, State.setEngine, Fin.val_inj, h.symm]
@[simp] theorem State.engine_modEngine (s : State) (i : EngineId) (f : Engine → Engine) : (s.modEngine i f).engine i = f (s.engine i) := by simp [State.modEngine]
theorem State.engine_modEngine_ne (s : State) (i j : EngineId) (f : Engine → Engine) (h : j ≠ i) : (s.modEngine i f).engine j = s.engine j :=
  State.engine_setEngine_ne s i j _ h

end Sys2Proof.Machine
end

