-- ==== Sys2Proof/Laws/Stylus.lean ====
section
/-! SUPPORT. What a Stylus instruction does to its core, said once: where it issues, executes, is guarded off, or is
refused by its word (R253, R254, R263). -/
namespace Sys2Proof.Machine

/-- While a core runs, the chip's cores are not all done. -/
theorem State.allDone_of_running (s : State) (c : CoreId) (h : (s.core c).running = true) : s.allDone = false := by
  have hm : s.core c ∈ s.cores.toList := by
    simp only [State.core, Vector.mem_toList_iff]
    exact Vector.getElem_mem _
  rw [State.allDone, List.all_eq_false]
  exact ⟨_, hm, by simp [h]⟩

/-- While a core runs, the chip does not report (R31). -/
theorem State.tryReport_of_running (s : State) (c : CoreId) (h : (s.core c).running = true) : s.tryReport = s := by
  simp [State.tryReport, State.tryReportAt, s.allDone_of_running c h]

theorem State.running_of_issues (s : State) (c : CoreId) (h : s.issues c = true) : (s.core c).running = true := by
  simp only [State.issues, Bool.and_eq_true] at h
  exact h.1.1.2

theorem State.stall_of_issues (s : State) (c : CoreId) (h : s.issues c = true) : (s.core c).stall = none := by
  simp only [State.issues, Bool.and_eq_true, Option.isNone_iff_eq_none] at h
  exact h.2

/-- An instruction that executes takes the flow of its body. -/
theorem stylus_executes {c : CoreId} {pre : Pre} {formed : Bool} {skip body : Eng Flow} {s t : State} {f : Flow}
    (hi : s.issues c = true) (ha : (s.core c).pc % 8 = 0) (hp : (s.core c).pc + 8 ≤ s.codeSize c) (hf : formed = true)
    (hg : (s.core c).guardHolds pre = true) (hb : body.exec s = (.ok f, t)) :
    stylus c pre formed skip body s = (t.flow c f).tryReport := by
  have hp' : ¬ s.codeSize c < (s.core c).pc + 8 := by omega
  simp only [stylus, State.tryReport, stylusAt, hi, hf, ha, hg, not_true_eq_false, if_false, ne_eq, gt_iff_lt, hp', or_self, if_true]
  rw [hb]

/-- An instruction that executes and whose body ends with a status is a Stylus fault. -/
theorem stylus_faults {c : CoreId} {pre : Pre} {formed : Bool} {skip body : Eng Flow} {s t : State} {st : Status}
    (hi : s.issues c = true) (ha : (s.core c).pc % 8 = 0) (hp : (s.core c).pc + 8 ≤ s.codeSize c) (hf : formed = true)
    (hg : (s.core c).guardHolds pre = true) (hb : body.exec s = (.error st, t)) :
    stylus c pre formed skip body s = (t.stylusFault c st).tryReport := by
  have hp' : ¬ s.codeSize c < (s.core c).pc + 8 := by omega
  simp only [stylus, State.tryReport, stylusAt, hi, hf, ha, hg, not_true_eq_false, if_false, ne_eq, gt_iff_lt, hp', or_self, if_true]
  rw [hb]

/-- An instruction whose guard fails takes the flow of what is skipped. -/
theorem stylus_skips {c : CoreId} {pre : Pre} {formed : Bool} {skip body : Eng Flow} {s t : State} {f : Flow}
    (hi : s.issues c = true) (ha : (s.core c).pc % 8 = 0) (hp : (s.core c).pc + 8 ≤ s.codeSize c) (hf : formed = true)
    (hg : (s.core c).guardHolds pre = false) (hb : skip.exec s = (.ok f, t)) :
    stylus c pre formed skip body s = (t.flow c f).tryReport := by
  have hp' : ¬ s.codeSize c < (s.core c).pc + 8 := by omega
  simp only [stylus, State.tryReport, stylusAt, hi, hf, ha, hg, not_true_eq_false, if_false, ne_eq, gt_iff_lt, hp', or_self,
    Bool.false_eq_true]
  rw [hb]

/-- An ill-formed word is a Stylus fault with DECODE, whatever its guard. -/
theorem stylus_illFormed {c : CoreId} {pre : Pre} {formed : Bool} {skip body : Eng Flow} {s : State}
    (hi : s.issues c = true) (ha : (s.core c).pc % 8 = 0) (hp : (s.core c).pc + 8 ≤ s.codeSize c) (hf : formed = false) :
    stylus c pre formed skip body s = (s.stylusFault c .decode).tryReport := by
  have hp' : ¬ s.codeSize c < (s.core c).pc + 8 := by omega
  simp [stylus, State.tryReport, stylusAt, hi, hf, ha, hp']

/-- A fetch outside the code segment is a Stylus fault with ALLOC_FAULT. -/
theorem stylus_outside {c : CoreId} {pre : Pre} {formed : Bool} {skip body : Eng Flow} {s : State}
    (hi : s.issues c = true) (h : (s.core c).pc % 8 ≠ 0 ∨ (s.core c).pc + 8 > s.codeSize c) :
    stylus c pre formed skip body s = (s.stylusFault c .allocFault).tryReport := by
  simp only [stylus, State.tryReport, stylusAt, hi, not_true_eq_false, if_false]
  rw [if_pos h]

/-- A core that issues nothing is left alone. -/
theorem stylus_idle {c : CoreId} {pre : Pre} {formed : Bool} {skip body : Eng Flow} {s : State} (hi : s.issues c = false) :
    stylus c pre formed skip body s = s := by
  simp [stylus, stylusAt, hi]

@[simp] theorem Core.setS_running (x : Core) (i : Nat) (v : Word) : (x.setS i v).running = x.running := by
  simp only [Core.setS]; split <;> rfl
@[simp] theorem Core.setA_running (x : Core) (i : Nat) (v : Word) : (x.setA i v).running = x.running := rfl
@[simp] theorem Core.setPred_running (x : Core) (i : Nat) (v : Bool) : (x.setPred i v).running = x.running := by
  simp only [Core.setPred]; split <;> rfl
@[simp] theorem Core.setTdWord_running (x : Core) (i k : Nat) (v : Word) : (x.setTdWord i k v).running = x.running := rfl
@[simp] theorem Core.setTd_running (x : Core) (i : Nat) (v : Vector Word 16) : (x.setTd i v).running = x.running := rfl
@[simp] theorem Core.setS_pc (x : Core) (i : Nat) (v : Word) : (x.setS i v).pc = x.pc := by
  simp only [Core.setS]; split <;> rfl
@[simp] theorem Core.setA_pc (x : Core) (i : Nat) (v : Word) : (x.setA i v).pc = x.pc := rfl
@[simp] theorem Core.setPred_pc (x : Core) (i : Nat) (v : Bool) : (x.setPred i v).pc = x.pc := by
  simp only [Core.setPred]; split <;> rfl
@[simp] theorem Core.setTdWord_pc (x : Core) (i k : Nat) (v : Word) : (x.setTdWord i k v).pc = x.pc := rfl
@[simp] theorem Core.setTd_pc (x : Core) (i : Nat) (v : Vector Word 16) : (x.setTd i v).pc = x.pc := rfl

@[simp] theorem State.setCore_setCore (s : State) (c : CoreId) (x y : Core) : (s.setCore c x).setCore c y = s.setCore c y := by
  simp [State.setCore]
@[simp] theorem State.modCore_modCore (s : State) (c : CoreId) (f g : Core → Core) :
    (s.modCore c f).modCore c g = s.modCore c fun x => g (f x) := by
  simp [State.modCore]

/-- The flow of an instruction that goes to the next word. -/
theorem State.flow_step (t : State) (c : CoreId) : t.flow c .step = t.modCore c fun x => { x with pc := x.pc + 8 } := rfl

/-- An instruction on registers writes them and advances the pc; nothing else changes. -/
theorem scalar_regs {c : CoreId} {pre : Pre} {formed : Bool} {f : Core → Core} {s : State}
    (hi : s.issues c = true) (ha : (s.core c).pc % 8 = 0) (hp : (s.core c).pc + 8 ≤ s.codeSize c) (hf : formed = true)
    (hg : (s.core c).guardHolds pre = true) (hr : (f (s.core c)).running = (s.core c).running) :
    scalar c pre formed (regsStep c f) s = s.modCore c fun x => { f x with pc := (f x).pc + 8 } := by
  have hb : (regsStep c f).exec s = (.ok .step, s.modCore c f) := rfl
  rw [scalar, stylus_executes hi ha hp hf hg hb, State.flow_step, State.modCore_modCore]
  exact State.tryReport_of_running _ c (by simpa [hr] using s.running_of_issues c hi)

/-- A scalar instruction whose guard fails only advances the pc. -/
theorem scalar_skips {c : CoreId} {pre : Pre} {formed : Bool} {body : Eng Flow} {s : State}
    (hi : s.issues c = true) (ha : (s.core c).pc % 8 = 0) (hp : (s.core c).pc + 8 ≤ s.codeSize c) (hf : formed = true)
    (hg : (s.core c).guardHolds pre = false) :
    scalar c pre formed body s = s.modCore c fun x => { x with pc := x.pc + 8 } := by
  have hb : (pure .step : Eng Flow).exec s = (.ok .step, s) := rfl
  rw [scalar, stylus_skips hi ha hp hf hg hb, State.flow_step]
  exact State.tryReport_of_running _ c (by simpa using s.running_of_issues c hi)

end Sys2Proof.Machine
end

