-- ==== Sys2Proof/Tests/Slice0.lean ====
section
/-! SUPPORT. Tests of the model: ill-formed commands that `wf` refuses, single steps whose results come from the manual, and
a witness for the hypotheses of each statement that has any. -/
namespace Sys2Proof.Tests
open Sys2Proof Sys2Proof.Machine Sys2Proof.Claims
set_option Elab.async false

/-! ## Small states -/

/-- An image of one core with 64 bytes of code. -/
def image : Image :=
  { base := 0, size := 4096, check := 0, cores := 1, groupSize := 1, entries := 1, seed := 0, variants := 1
    table := [{ code := 64, codeSize := 64, frames := 128, data := 192 }] }

/-- Partition 0 runs a context of that image. -/
def ctx : State :=
  { State.reset with parts := State.reset.parts.set 0 { enable := true, count := 15, image := some image, state := .running } }

/-- The context on chip 0, with core 0 as given. -/
def with0 (x : Core) : State := { ctx with cores := ctx.cores.set 0 x, chipId := pair 0 }

/-- Core 0 issues with s1 = a and s2 = b. -/
def regs (a b : Word) : State := with0 {
  running := true
  s := Vector.ofFn fun i => if i.val = 1 then a else if i.val = 2 then b else 0
  a := Vector.replicate 16 (BitVec.ofNat 64 spmBase) }

/-- Core 0 issues its first word. -/
def run : State := with0 { running := true }

/-- The value of s3 of core 0 after a command. -/
def s3 (i : Instr) (s : State) : Option Word :=
  match exec i s with
  | .next t => some ((t.core 0).s[3])
  | _ => none

/-- The next state's answer to a question. -/
def after (i : Instr) (s : State) (q : State → Bool) : Bool :=
  match exec i s with
  | .next t => q t
  | _ => false

/-! ## WellFormed: one ill-formed command for each check -/

/-- A report with its lists as given. -/
def rep (vf va : List PW2) (ab : List (Option Status)) : Report := { tick := ⟨0, 0⟩, edge := ⟨0, 0⟩, vf := vf, va := va, abort := ab }
/-- A verdict with its lists as given. -/
def ver (a b : List PW2) (d : List Decision) (p : List (Option Status)) (r : List (Option Bool)) : VerdictMsg :=
  { tick := ⟨0, 0⟩, edge := ⟨0, 0⟩, vf := a, va := b, decide := d, partStop := p, release := r }
/-- Eight of a thing. -/
def of8 {α : Type} (x : α) : List α := List.replicate 8 x

theorem test_wf_reports : (Instr.tickReport 0 (rep [] (of8 ⟨0, 0⟩) (of8 none)) 0).wf = false ∧
    (Instr.tickReport 0 (rep (of8 ⟨0, 0⟩) [] (of8 none)) 0).wf = false ∧ (Instr.tickReport 0 (rep (of8 ⟨0, 0⟩) (of8 ⟨0, 0⟩) []) 0).wf = false ∧
    (Instr.tickReport 0 (rep (of8 ⟨0, 0⟩) (of8 ⟨0, 0⟩) (of8 none)) 0).wf = true := by decide
theorem test_wf_verdicts : (Instr.verdict (ver [] (of8 ⟨0, 0⟩) (of8 .goOn) (of8 none) (of8 none)) 0).wf = false ∧
    (Instr.verdict (ver (of8 ⟨0, 0⟩) [] (of8 .goOn) (of8 none) (of8 none)) 0).wf = false ∧
    (Instr.verdict (ver (of8 ⟨0, 0⟩) (of8 ⟨0, 0⟩) [] (of8 none) (of8 none)) 0).wf = false ∧
    (Instr.verdict (ver (of8 ⟨0, 0⟩) (of8 ⟨0, 0⟩) (of8 .goOn) [] (of8 none)) 0).wf = false ∧
    (Instr.verdict (ver (of8 ⟨0, 0⟩) (of8 ⟨0, 0⟩) (of8 .goOn) (of8 none) []) 0).wf = false := by decide
theorem test_wf_symbols : (Instr.hbmRead 0 64 [⟨3, 0⟩]).wf = false ∧ (Instr.hbmWrite 0 [] [⟨3, 1⟩, ⟨3, 2⟩]).wf = false ∧
    (Instr.patrolScrub 0 0 [⟨3, 0⟩]).wf = false ∧ (Instr.hbmRead 0 64 [⟨3, 1⟩, ⟨4, 2⟩]).wf = true := by decide
theorem test_wf_window_access : (Instr.windowAccess ⟨.host, 0, 2, some [0]⟩).wf = false := by decide
theorem test_wf_folio_answer : (Instr.folioTransferEnd 0 (.payload 0 2 [0])).wf = false ∧
    (Instr.folioTransferEnd 0 (.failed .ok)).wf = false := by decide
theorem test_wf_strokes : (Instr.strokeForward 0 []).wf = false ∧ (Instr.idleStroke 0 [1]).wf = false ∧
    (Instr.packetReceive 0 [[]]).wf = false ∧ (Instr.packetReceive 0 []).wf = false ∧
    (Instr.packetReceive 0 (List.replicate 9 (List.replicate 544 0))).wf = false := by decide +kernel
theorem test_wf_training : (Instr.errorTest 0 [0, 0, 0]).wf = false ∧ (Instr.identityStroke 0 (List.replicate 63 0)).wf = false := by
  decide
theorem test_wf_requests : (Instr.hello { body := List.replicate 1025 0 }).wf = false ∧
    (Instr.ctxStopAbort { body := [0, 1] }).wf = false ∧ (Instr.ctxStopSave { body := [0, 0] }).wf = false ∧
    (Instr.reset { body := [0] }).wf = false ∧ (Instr.resetDevice { body := [1] }).wf = false := by decide +kernel
theorem test_wf_reserved_opcode : (Instr.reservedOpcode 0 0x0100000000000000).wf = false ∧
    (Instr.reservedOpcode 0 0xFF00000000000000).wf = true := by decide

/-! ## Number formats (R93 to R106): values the manual states -/

/-- R96: 449 and 464 convert to 448 in E4M3 without clamping; 465 is clamped. -/
theorem test_e4m3_top : e4m3.encode .near (.fin 449 0) = ⟨0x7E, false⟩ ∧ e4m3.encode .near (.fin 464 0) = ⟨0x7E, false⟩ ∧
    e4m3.encode .near (.fin 465 0) = ⟨0x7E, true⟩ := by decide +kernel
/-- R93: the largest finite values of E4M3 and E5M2, and the infinity of E5M2. -/
theorem test_fp8_codes : e4m3.decode 0x7E = .fin 14 5 ∧ e5m2.decode 0x7B = .fin 7 13 ∧ e5m2.decode 0xFC = .inf true ∧
    e4m3.decode 0xFF = .nan := by decide +kernel

/-! ## Words of the Stylus: the fields of the table "Formats" and the opcodes written out bit by bit -/

/-- The worked example of 09_instruction_reference.md: a guarded BURIN.MM and the CMD.WAIT on it. -/
theorem test_words_worked_example :
    stylusDecode 0 0 0x404091801D000000 = .burinMm 0 { pre := { guard := 2 }, t0 := 1, t1 := 2, t2 := 3, tden := 7, ab := 4 } ∧
    stylusDecode 0 0 0x60025A0000000000 = .cmdWait 0 { rs := 9, pd := 3, q := 1 } := by decide
/-- One word of each other format, its fields in the order of R250 and R251. -/
theorem test_words_scalar :
    stylusDecode 0 0 (0x02#8 ++ 0b10110#5 ++ 3#5 ++ 1#5 ++ 2#5 ++ 0#4 ++ 0#32) =
      .add 0 { pre := { guard := 5, ginv := true }, rd := 3, ra := 1, rb := 2 } ∧
    stylusDecode 0 0 (0x29#8 ++ 0#5 ++ 4#5 ++ 1#5 ++ 3#4 ++ 0#5 ++ 7#32) = .cmpi 0 { rd := 4, ra := 1, cc := 3, imm := 7 } ∧
    stylusDecode 0 0 (0x36#8 ++ 0#5 ++ 15#5 ++ 9#4 ++ 3#2 ++ 0#8 ++ 64#32) = .tdSt 0 { rd := 15, ab := 9, size := 3, off := 64 } ∧
    stylusDecode 0 0 (0x3D#8 ++ 0#5 ++ 6#5 ++ 0#14 ++ 0xFFFFFFFE#32) = .loop 0 { ra := 6, off := -2 } ∧
    stylusDecode 0 0 (0x4F#8 ++ 0#5 ++ 1#4 ++ 2#4 ++ 3#4 ++ 4#4 ++ 5#5 ++ 6#5 ++ 3#2 ++ 7#5 ++ 0#18) =
      .kvPage 0 { tk := 1, tv := 2, ae := 3, af := 4, rsl := 5, rfs := 6, halves := 3, ctr := 7 } ∧
    stylusDecode 0 0 (0x62#8 ++ 0#5 ++ 8#5 ++ 0#3 ++ 0#2 ++ 31#5 ++ 0#4 ++ 2#32) = .tokWait 0 { rs := 8, ctr := 31, imm := 2 } := by
  decide
/-- Every word names an instruction; an opcode that no table lists is RESERVED.OPCODE. -/
theorem test_words_reserved : stylusDecode 0 0 0xFF00000000000000 = .reservedOpcode 0 0xFF00000000000000 := by decide

/-! ## Stylus steps -/

theorem test_add_wraps : s3 (.add 0 { rd := 3, ra := 1, rb := 2 }) (regs (-1) 2) = some 1 := by decide +kernel
theorem test_div_corner : s3 (.div 0 { rd := 3, ra := 1, rb := 2 }) (regs (BitVec.intMin 64) (-1)) = some (BitVec.intMin 64) ∧
    s3 (.rem 0 { rd := 3, ra := 1, rb := 2 }) (regs (BitVec.intMin 64) (-1)) = some 0 ∧
    s3 (.remu 0 { rd := 3, ra := 1, rb := 2 }) (regs 7 0) = some (-1) := by decide +kernel
theorem test_div_sign : s3 (.div 0 { rd := 3, ra := 1, rb := 2 }) (regs (-7) 2) = some (-3) ∧
    s3 (.rem 0 { rd := 3, ra := 1, rb := 2 }) (regs (-7) 2) = some (-1) := by decide +kernel
theorem test_shifts : s3 (.sra 0 { rd := 3, ra := 1, rb := 2 }) (regs (-8) 65) = some (-4) ∧
    s3 (.shr 0 { rd := 3, ra := 1, rb := 2 }) (regs (-1) 63) = some 1 := by decide +kernel
theorem test_movhi_keeps_low : after (.movhi 0 { rd := 1, imm := 0x12345678 }) (regs 0xAABBCCDD 0)
    (fun t => (t.core 0).s[1] == 0x12345678AABBCCDD#64) = true := by decide +kernel
theorem test_s0_discards : after (.addi 0 { rd := 0, ra := 0, imm := 5 }) run (fun t => (t.core 0).s[0] == 0 && (t.core 0).pc == 8) = true := by
  decide +kernel
theorem test_cmp_signed : after (.cmp 0 { rd := 4, ra := 1, rb := 2, cc := 2 }) (regs (-1) 1) (fun t => (t.core 0).p[4]) = true ∧
    after (.cmp 0 { rd := 4, ra := 1, rb := 2, cc := 3 }) (regs (-1) 1) (fun t => (t.core 0).p[4]) = false := by decide +kernel
theorem test_cmp_reserved_code : after (.cmp 0 { rd := 4, cc := 6 }) run
    (fun t => (t.core 0).fault.map (·.code) == some .decode && (t.core 0).stopped) = true := by decide +kernel
theorem test_branch_back : after (.br 0 { off := -1 }) (with0 { running := true, pc := 16 }) (fun t => (t.core 0).pc == 8) = true := by
  decide +kernel
theorem test_loop_last : after (.loop 0 { ra := 1, off := -1 }) (regs 1 0) (fun t => (t.core 0).pc == 8 && (t.core 0).s[1] == 0) = true := by
  decide +kernel
theorem test_store_load : after (.st 0 { rd := 1, ab := 0, size := 1 }) (regs 0x1234 0)
    (fun t => s3 (.ld 0 { rd := 3, ab := 0, size := 0 }) t == some 0x34#64) = true := by decide +kernel
theorem test_ldp_integrity : after (.ldP 0 { rd := 1, size := 3 }) (regs 0 0)
    (fun t => (t.core 0).fault.map (·.code) == some .integrity) = true := by decide +kernel
theorem test_fetch_outside : after (.nop 0 {}) (with0 { running := true, pc := 64 })
    (fun t => (t.core 0).fault.map (·.code) == some .allocFault) = true := by decide +kernel

/-! ## Witnesses: the Stylus -/

/-- Core 0 issues, no HBM stack refuses, and a register a[i] = v for every i. -/
def at0 (v : Nat) : State :=
  { with0 { running := true, a := Vector.replicate 16 (BitVec.ofNat 64 v) } with hbmStacks := Vector.replicate 12 { ready := true } }

theorem executes_at0 (v : Nat) : Executes (at0 v) 0 {} := by
  unfold Executes Fetches; refine ⟨⟨?_, ?_, ?_⟩, ?_⟩ <;> first | exact Nat.le_of_ble_eq_true rfl | rfl
theorem plainPre : PlainPre {} := by unfold PlainPre; decide
theorem plainR (a b c : BitVec 5) : PlainR { rd := a, ra := b, rb := c } := ⟨plainPre, rfl, rfl⟩
theorem plainI (a b : BitVec 5) (m : Word32) : PlainI { rd := a, ra := b, imm := m } := ⟨plainPre, rfl, rfl⟩
theorem plainM (k : BitVec 2) (o : Word32) : PlainM { size := k, off := o } := ⟨plainPre, rfl⟩

theorem witness_ArithmeticResults : Executes (at0 0) 0 {} ∧ PlainR { rd := 31, ra := 31, rb := 31 } ∧
    PlainI { rd := 31, ra := 31, imm := 0xFFFFFFFF } ∧ NamesA (15 : BitVec 5) :=
  ⟨executes_at0 0, plainR _ _ _, plainI _ _ _, by unfold NamesA; decide⟩
theorem witness_ImmediateResults : Executes (at0 0) 0 {} ∧ PlainI { rd := 1, imm := 63 } ∧ (63 : Word32).toNat < 64 ∧
    PlainR {} := ⟨executes_at0 0, plainI _ _ _, by decide, plainR _ _ _⟩
theorem witness_NumberConversions : fp32.decode 0xFF800000 ≠ .nan ∧ 0xFF800000 < 2 ^ fp32.width ∧
    e4m3.encode .near (.fin (-464) 0) = { code := 0xFE, clamped := false } ∧ (e4m3.decode 0xFE).isFinite = true ∧
    (0 : Int) ≤ 0 + 9 ∧ 0 ≤ e4m3.qmin + 9 := by decide +kernel
theorem witness_PredicateResults : Executes (at0 0) 0 {} ∧ PlainR { rd := 7, ra := 7, rb := 7 } ∧ NamesP (7 : BitVec 5) ∧
    (∀ k < 6, ∃ f : FmtR, f = { rd := 7, cc := BitVec.ofNat 4 k } ∧ f.cc.toNat = k ∧ PlainPre f.pre ∧ f.rsv = 0) ∧
    Fetches (at0 0) 0 ∧ 6 ≤ (6 : BitVec 4).toNat ∧ 6 ≤ (15 : BitVec 4).toNat :=
  ⟨executes_at0 0, plainR _ _ _, by unfold NamesP; decide,
    fun k hk => ⟨_, rfl, by simp; omega, plainPre, rfl⟩, (executes_at0 0).1, by decide, by decide⟩
theorem witness_AddressAndDescriptorWrites : Executes (at0 0) 0 {} ∧ PlainR { rd := 15, ra := 31 } ∧ PlainR { rd := 31, ra := 15 } ∧
    NamesA (15 : BitVec 5) ∧ PlainI { rd := 15, imm := 15 } ∧ (15 : Word32).toNat < 16 :=
  ⟨executes_at0 0, plainR _ _ _, plainR _ _ _, by unfold NamesA; decide, plainI _ _ _, by decide⟩

/-- The last doubleword of HBM, of core 127's scratchpad and of its accumulators: an access of core 0 to each is loadable
and storable. -/
theorem witness_loadable : ∀ off ∈ [hbmEnd - 8, spmOf 127 + spmSize - 8, accOf 127 + accSize - 8],
    OwnAt (at0 off) 0 { size := 3 } 8 off ∧ Loadable (at0 off) off 8 := by
  intro off h
  simp only [List.mem_cons, List.not_mem_nil, or_false] at h
  refine ⟨?_, ?_⟩
  · rcases h with rfl | rfl | rfl <;> (unfold OwnAt; decide +kernel)
  · rcases h with rfl | rfl | rfl
    · exact .inl (by decide +kernel)
    · exact .inr (.inl ⟨127, spmSize - 8, by unfold Reachable; decide +kernel⟩)
    · exact .inr (.inr ⟨127, accSize - 8, by unfold Reachable; decide +kernel⟩)
theorem witness_Loads : Executes (at0 (spmOf 0)) 0 {} ∧ PlainM { size := 3 } ∧ OwnAt (at0 (spmOf 0)) 0 { size := 3 } 8 (spmOf 0) ∧
    Loadable (at0 (spmOf 0)) (spmOf 0) 8 ∧
    ∀ k < 8, byteOf ((0 : Word32) ++ (0 : Word32)) k = (at0 (spmOf 0)).mem.byte (spmOf 0 + k) :=
  ⟨executes_at0 _, plainM _ _, by unfold OwnAt; decide +kernel,
    .inr (.inl ⟨0, 0, by unfold Reachable; decide +kernel⟩), by decide +kernel⟩
/-- The same with a valid paired word in place. -/
theorem witness_Loads_paired : ∃ s : State, Executes s 0 {} ∧ OwnAt s 0 { size := 3 } 8 (spmOf 0) ∧ Loadable s (spmOf 0) 8 ∧
    ∀ k < 8, byteOf ((~~~(7 : Word32)) ++ (7 : Word32)) k = s.mem.byte (spmOf 0 + k) :=
  ⟨{ at0 (spmOf 0) with mem := ⟨[(spmOf 0, 7), (spmOf 0 + 4, 0xF8), (spmOf 0 + 5, 0xFF), (spmOf 0 + 6, 0xFF), (spmOf 0 + 7, 0xFF)], []⟩ },
    by unfold Executes Fetches; refine ⟨⟨?_, ?_, ?_⟩, ?_⟩ <;> first | exact Nat.le_of_ble_eq_true rfl | rfl, by unfold OwnAt; decide +kernel,
    .inr (.inl ⟨0, 0, by unfold Reachable; decide +kernel⟩), by decide +kernel⟩
theorem witness_DescriptorAndRegisterLoads : Executes (at0 (spmOf 0)) 0 {} ∧ PlainM { rd := 15, size := 3 } ∧ NamesA (15 : BitVec 5) ∧
    OwnAt (at0 (spmOf 0)) 0 { rd := 15, size := 3 } 64 (spmOf 0) ∧ Loadable (at0 (spmOf 0)) (spmOf 0) 128 ∧
    Executes (at0 regBase) 0 {} ∧ PlainM { size := 2 } ∧ OwnAt (at0 regBase) 0 { size := 3 } 8 regBase ∧ regBase + 8 ≤ regEnd ∧
    ((at0 regBase).readReg regBase).map pairOk = some false ∧ ((at0 regBase).readReg (regBase + 0x1020)).map pairOk = some true ∧
    OwnAt (at0 (regBase + 0x2C00000)) 0 { size := 3 } 8 (regBase + 0x2C00000) ∧ (at0 0).readReg (regBase + 0x2C00000) = none ∧
    OwnAt (at0 (regEnd - 8)) 0 { size := 3 } 8 (regEnd - 8) ∧
    OwnAt (at0 (regEnd - 4)) 0 { size := 2 } 4 (regEnd - 4) ∧ OwnAt (at0 regBase) 0 { rd := 15, size := 3 } 64 regBase :=
  ⟨executes_at0 _, ⟨plainPre, rfl⟩, by unfold NamesA; decide, by unfold OwnAt; decide +kernel,
    .inr (.inl ⟨0, 0, by unfold Reachable; decide +kernel⟩), executes_at0 _, plainM _ _, by unfold OwnAt; decide +kernel,
    by decide, by decide +kernel, by decide +kernel, by unfold OwnAt; decide +kernel, by decide +kernel,
    by unfold OwnAt; decide +kernel, by unfold OwnAt; decide +kernel, by unfold OwnAt; decide +kernel⟩
theorem witness_Stores : Executes (at0 (spmOf 0 + 128)) 0 {} ∧ PlainM { size := 3 } ∧ (at0 (spmOf 0 + 128)).mem.wf = true ∧
    OwnAt (at0 (spmOf 0 + 128)) 0 { size := 3 } 64 (spmOf 0 + 128) ∧ OwnAt (at0 (spmOf 0 + 128)) 0 { size := 3 } 8 (spmOf 0 + 128) ∧
    Storable (at0 (spmOf 0 + 128)) (spmOf 0 + 128) 128 ∧ Storable (at0 (spmOf 0 + 128)) (spmOf 0 + 128) 8 ∧
    Storable (at0 0) (hbmEnd - 8) 8 ∧ Storable (at0 0) (accOf 127 + accSize - 8) 8 ∧ NamesA (0 : BitVec 5) :=
  ⟨executes_at0 _, plainM _ _, by decide +kernel, by unfold OwnAt; decide +kernel, by unfold OwnAt; decide +kernel,
    .inr (.inl ⟨0, 128, by unfold Reachable; decide +kernel⟩), .inr (.inl ⟨0, 128, by unfold Reachable; decide +kernel⟩),
    .inl ⟨by decide +kernel, by decide +kernel, by decide +kernel, by decide +kernel, .inl rfl⟩, .inr (.inr ⟨127, accSize - 8, by unfold Reachable; decide +kernel⟩), by unfold NamesA; decide⟩
theorem witness_Stores_bad : Executes (at0 1) 0 {} ∧ PlainM { size := 3 } ∧
    (target ((at0 1).core 0) { size := 3 }).toNat % 8 ≠ 0 ∧ Executes (at0 (2 ^ 48)) 0 {} ∧
    (target ((at0 (2 ^ 48)).core 0) { size := 3 }).toNat / 2 ^ 48 ≠ (at0 (2 ^ 48)).chip :=
  ⟨executes_at0 _, plainM _ _, by decide +kernel, executes_at0 _, by decide +kernel⟩
theorem witness_BranchResults : Executes (at0 0) 0 {} ∧ PlainB {} ∧ ((0 : Nat) : Int) = ((at0 0).core 0).pc + 8 * (0 : Word32).toInt ∧
    (∃ s : State, Executes s 0 {} ∧ (1 : BitVec 5) ≠ 0 ∧ (s.core 0).sreg 1 = 1) ∧ ((at0 0).core 0).sreg 1 ≠ 1 :=
  ⟨executes_at0 _, ⟨plainPre, rfl⟩, by decide +kernel,
    ⟨regs 1 0, by unfold Executes Fetches; refine ⟨⟨?_, ?_, ?_⟩, ?_⟩ <;> first | exact Nat.le_of_ble_eq_true rfl | rfl, by decide, by decide +kernel⟩, by decide +kernel⟩
theorem witness_GuardedOffHasNoEffect : word (.add 0 { pre := { guard := 1 } }) = some (0, { guard := 1 }, true) ∧
    Fetches (at0 0) 0 ∧ ((at0 0).core 0).guardHolds { guard := 1 } = false := ⟨rfl, (executes_at0 0).1, by decide +kernel⟩
theorem witness_FetchAndDecodeFaults : (∃ s : State, s.issues 0 = true ∧ (s.core 0).pc % 8 ≠ 0) ∧
    (∃ s : State, s.issues 0 = true ∧ s.codeSize 0 < (s.core 0).pc + 8) ∧
    word (.shli 0 { imm := 64 }) = some (0, {}, false) ∧ word (.add 0 { rsv := 1 }) = some (0, {}, false) ∧
    definedOpcode ((0xFF00000000000000#64).toNat / 2 ^ 56) = false ∧ Fetches (at0 0) 0 ∧ ((at0 0).core 0).running = true :=
  ⟨⟨with0 { running := true, pc := 4 }, by decide +kernel⟩, ⟨with0 { running := true, pc := 64 }, by decide +kernel⟩,
    by decide +kernel, by decide +kernel, by decide, (executes_at0 0).1, rfl⟩

/-! ## Witnesses: engine commands -/

/-- The words of a descriptor: base, FMT, LAYOUT 0, extents (also the buckets), LIMIT. -/
def td (base fmt : Nat) (e : List Nat) (limit : Nat) : List Word :=
  let x := e ++ List.replicate (4 - e.length) 0
  [pair (base % 2 ^ 32), pair (base / 2 ^ 32), pair (fmt + 256 * (e.length - 1)), pair limit] ++ x.map pair ++ x.map (BitVec.ofNat 64)

/-- 16 words. -/
def vec (l : List Word) : Vector Word 16 := Vector.ofFn fun i => l.getD i.val 0

/-- The cells of words in memory from an address on. -/
def cellsAt (a : Nat) (l : List Word) : List Host.Cell :=
  ((List.range (8 * l.length)).map fun i => (a + i, (l.getD (i / 8) 0).extractLsb' (8 * (i % 8)) 8)).filter fun c => c.2 != 0

/-- Core 0 issues with a command block at the start of its scratchpad, td registers as given, and the Folio pool and the
collectives started. -/
def engState (blk : List Word) (tds : List (List Word)) : State :=
  let g : List Word := pair (2 ^ 31) :: List.replicate 12 (pair 0)
  let s := at0 (spmOf 0)
  { s with
    cores := s.cores.set 0 { running := true, a := Vector.replicate 16 (BitVec.ofNat 64 (spmOf 0))
                             td := Vector.ofFn fun i => vec (tds.getD i.val []) }
    mem := ⟨cellsAt 0 g ++ cellsAt (spmOf 0) blk, []⟩
    folio := { run := true, t1Count := 1 }
    coll := { run := true } }

/-- What `EngineCommandsIssue` asks of an instruction, decided. -/
def accepted (i : Instr) (op : EngOp) (f : FmtC) (s : State) : Bool :=
  decide (engineWord i = some (0, op, f)) && s.issues 0 && (s.core 0).pc == 0 && decide (8 ≤ s.codeSize 0)
    && (s.core 0).guardHolds f.pre && formC op f && (s.core 0).hasRoom op && (s.core 0).frameFail.isNone && s.chip == 0
    && ((s.core 0).areg f.ab.toNat).toNat == spmOf 0 && ((checks 0 op (issued s 0 op f (spmOf 0))).exec s).1.toBool

theorem accepted_sound {i : Instr} {op : EngOp} {f : FmtC} {s : State} (h : accepted i op f s = true) :
    engineWord i = some (0, op, f) ∧ Executes s 0 f.pre ∧ formC op f = true ∧ (s.core 0).hasRoom op = true ∧
    (s.core 0).frameFail = none ∧ BlockAt s 0 op f (spmOf 0) ∧
    ∃ j, ((checks 0 op (issued s 0 op f (spmOf 0))).exec s).1 = .ok j := by
  simp only [accepted, Bool.and_eq_true, decide_eq_true_eq, beq_iff_eq, Option.isNone_iff_eq_none] at h
  obtain ⟨⟨⟨⟨⟨⟨⟨⟨⟨⟨h1, h2⟩, h3⟩, h4⟩, h5⟩, h6⟩, h7⟩, h8⟩, h9⟩, h10⟩, h11⟩ := h
  refine ⟨h1, ⟨⟨h2, by rw [h3], by rw [h3]; exact h4⟩, h5⟩, h6, h7, h8, ⟨?_, by decide, by decide, Nat.le_refl _, ?_⟩, ?_⟩
  · rw [h10, h9]; simp
  · cases op <;> decide
  · cases hj : ((checks 0 op (issued s 0 op f (spmOf 0))).exec s).1 with
    | ok j => exact ⟨j, rfl⟩
    | error e => rw [hj] at h11; simp [Except.toBool] at h11

/-- LOOP fields of three and of two indices in their order. -/
def loop3 : Nat := 0x081400
def loop2 : Nat := 0x041000
def t0 : Nat := spmOf 0 + 0x10000
def t1 : Nat := spmOf 0 + 0x20000
def z (n : Nat) : List Word := List.replicate n 0
def p0 : Word := pair 0

theorem witness_EngineCommandsIssue_burinMm : accepted (.burinMm 0 { tden := 3, t1 := 1 }) .burinMm { tden := 3, t1 := 1 }
    (engState ([p0, p0, p0, BitVec.ofNat 64 (loop3 + loop3 * 2 ^ 24)] ++ z 4) [td t0 2 [32, 1, 1] 1, td t1 2 [32, 1, 1] 1]) = true := by
  decide +kernel
theorem witness_EngineCommandsIssue_conv3 : accepted (.conv3 0 { tden := 3, t1 := 1 }) .conv3 { tden := 3, t1 := 1 }
    (engState ([p0, p0, p0, BitVec.ofNat 64 (loop2 + loop2 * 2 ^ 24)] ++ z 4 ++ [p0, p0, 0, 0])
      [td t0 2 [32, 1, 1, 1] 1, td t1 2 [32, 1] 1]) = true := by decide +kernel
theorem witness_EngineCommandsIssue_hatchRun : accepted (.hatchRun 0 { tden := 9, t3 := 1 }) .hatchRun { tden := 9, t3 := 1 }
    (engState ([pair (7 * 2 ^ 24), p0, p0, BitVec.ofNat 64 loop3] ++ z 4) [td t0 1 [4] 1, td t1 1 [4] 1]) = true := by decide +kernel
theorem witness_EngineCommandsIssue_stencilRun : accepted (.stencilRun 0 { tden := 9, t3 := 1 }) .stencilRun { tden := 9, t3 := 1 }
    (engState ([pair (0x48 * 2 ^ 24), p0, p0, p0, p0] ++ z 2 ++ [BitVec.ofNat 64 loop3]) [td t0 1 [4] 1, td t1 1 [4] 1]) = true := by
  decide +kernel
theorem witness_EngineCommandsIssue_attn : accepted (.attn 0 {}) .attn {}
    (engState ([p0, p0, p0, p0, p0, p0, p0, p0, pair 1, BitVec.ofNat 64 t0, 0, BitVec.ofNat 64 (2 ^ 17 + 2 ^ 6 + 2 ^ 5),
      0x0000830000828180#64, 0, 0, p0])
      [td t0 2 [64, 1, 1] 2, td (spmOf 0 + 0x40000) 2 [64, 128, 2] 512, td (spmOf 0 + 0x80000) 2 [64, 128, 2] 512, td t1 1 [66, 1, 1] 5])
    = true := by decide +kernel
theorem witness_EngineCommandsIssue_stream : ∀ x ∈ [(Instr.strmCopy 0 { tden := 3, t1 := 1 }, EngOp.strmCopy, t0, 1),
    (.strmFlash 0 { tden := 3, t1 := 1 }, .strmFlash, flashBase, 64), (.strmFadd 0 { tden := 3, t1 := 1 }, .strmFadd, t0, 1)],
    accepted x.1 x.2.1 { tden := 3, t1 := 1 } (engState ([p0, p0, 0, BitVec.ofNat 64 loop3] ++ z 4)
      [td x.2.2.1 1 [16] x.2.2.2, td t1 1 [16] x.2.2.2]) = true := by decide +kernel
theorem witness_EngineCommandsIssue_folio : ∀ x ∈ [(Instr.folioPromote 0 {}, EngOp.folioPromote), (.folioEvict 0 {}, .folioEvict),
    (.folioFlush 0 {}, .folioFlush)], accepted x.1 x.2 {} (engState ([p0, p0, p0, p0, p0] ++ z 3) []) = true := by decide +kernel
theorem witness_EngineCommandsIssue_etchBuild : accepted (.etchBuild 0 {}) .etchBuild {}
    (engState ([pair (2 * 2 ^ 24), 0, BitVec.ofNat 64 t0] ++ z 5) []) = true := by decide +kernel
theorem witness_EngineCommandsIssue_xh : ∀ x ∈ [(Instr.xhStep 0 { tden := 3, t1 := 1 }, EngOp.xhStep, (3 : BitVec 5)),
    (.xhStepArr 0 { tden := 3, t1 := 1 }, .xhStepArr, 3), (.xhTree 0 { tden := 2, t1 := 1 }, .xhTree, 2),
    (.xhTreeArr 0 { tden := 2, t1 := 1 }, .xhTreeArr, 2)], accepted x.1 x.2.1 { tden := x.2.2, t1 := 1 }
    (engState ([pair (2 ^ 28), pair 1, p0, p0, p0] ++ z 3) [td t0 1 [16] 1, td t1 1 [16] 1]) = true := by decide +kernel
theorem witness_EngineCommandsIssue_hostPost : accepted (.hostPost 0 {}) .hostPost {} (engState (p0 :: z 7) []) = true := by
  decide +kernel

/-- Queues: a full one; a guard that fails; a failure earlier in the frame. -/
theorem witness_QueuesFullAndUnexecuted : ∃ s1 s2 s3 : State,
    (Fetches s1 0 ∧ 16 ≤ ((s1.core 0).queue .sq).cmds.length) ∧
    (Fetches s2 0 ∧ ((s2.core 0).queue .sq).cmds = [] ∧ HeadsStay (s2.core 0) ∧ s2.mem.wf = true ∧ (s2.core 0).frameFail = none ∧
      (s2.core 0).guardHolds { guard := 1 } = false ∧ formC .hostPost { pre := { guard := 1 } } = true) ∧
    (Fetches s3 0 ∧ ((s3.core 0).queue .sq).cmds = [] ∧ HeadsStay (s3.core 0) ∧ s3.mem.wf = true ∧ (s3.core 0).frameFail = some .timeout) :=
  ⟨with0 { running := true, sq := { cmds := List.replicate 16 { op := .hostPost, seq := 0 } } }, at0 0, with0 { running := true, frameFail := some .timeout },
    ⟨by unfold Fetches; decide +kernel, by decide +kernel⟩,
    ⟨(executes_at0 0).1, by decide +kernel, by unfold HeadsStay; decide +kernel, by decide +kernel, by decide +kernel, by decide +kernel,
      by decide +kernel⟩,
    ⟨by unfold Fetches; decide +kernel, by decide +kernel, by unfold HeadsStay; decide +kernel, by decide +kernel, by decide +kernel⟩⟩

theorem ok_of {α : Type} {e : Except Status α} {a : α} (h : e.toOption = some a) : e = .ok a := by
  cases e <;> simp_all [Except.toOption]

/-- Core 0 before a KV.PAGE: the page-table entry at the start of its scratchpad names frame 1. -/
def kvState : State :=
  let s := engState [pair 1] [td (spmOf 0 + 0x40000) 2 [64, 128, 2] 512, td (spmOf 0 + 0x80000) 2 [64, 128, 2] 512]
  { s with cores := s.cores.set 0 { s.core 0 with
      a := Vector.ofFn fun i => if i.val = 0 then BitVec.ofNat 64 (spmOf 0) else 0, s := Vector.ofFn fun i => if i.val = 1 then 65536 else 0 } }
theorem witness_KvPageIssues : ∃ (f : FmtK) (a b : Desc), Executes kvState 0 f.pre ∧ formK f = true ∧
    (kvState.core 0).hasRoom .kvPage = true ∧ (kvState.core 0).frameFail = none ∧
    ((kvState.core 0).areg f.ae.toNat).toNat = kvState.chip * 2 ^ 48 + spmOf 0 ∧ spmOf 0 % 8 = 0 ∧
    Loadable kvState (spmOf 0) 8 ∧ kvState.peek64 (spmOf 0) = pair 1 ∧ f.halves ≠ 0 ∧
    ((kvState.core 0).sreg f.rfs.toNat).toNat % 64 = 0 ∧ parseDesc ((kvState.core 0).tdBytes f.tk.toNat) = .ok a ∧
    parseDesc ((kvState.core 0).tdBytes f.tv.toNat) = .ok b ∧ a.fmt = b.fmt ∧ (∀ i < 4, a.x i = b.x i) ∧
    512 * a.x 0 * a.e ≤ ((kvState.core 0).sreg f.rfs.toNat).toNat ∧
    ((checkKv ((((kvState.core 0).areg f.af.toNat).toNat + 1 * ((kvState.core 0).sreg f.rfs.toNat).toNat) % 2 ^ 64)
      ((kvState.core 0).sreg f.rfs.toNat).toNat (.ok a) (.ok b)).exec kvState).1 = .ok () :=
  ⟨{ tv := 1, af := 1, rfs := 1, halves := 3 }, ⟨spmOf 0 + 0x40000, 2, 0, 3, 0, 0, 512, [64, 128, 2, 1], [64, 128, 2, 1], [0, 0, 0]⟩,
    ⟨spmOf 0 + 0x80000, 2, 0, 3, 0, 0, 512, [64, 128, 2, 1], [64, 128, 2, 1], [0, 0, 0]⟩,
    by unfold Executes Fetches; decide +kernel, by decide, by decide +kernel, by decide +kernel, by decide +kernel, by decide,
    .inr (.inl ⟨0, 0, by unfold Reachable; decide +kernel⟩), by decide +kernel, by decide, by decide +kernel, ok_of (by decide +kernel),
    ok_of (by decide +kernel), rfl, by decide, by decide +kernel, ok_of (by decide +kernel)⟩

/-! ## Witnesses: synchronisation and the tick -/

/-- A FOLIO.PROMOTE in SQ. -/
def folioCmd (seq : Nat) : QCmd := { op := .folioPromote, seq := seq }
/-- Core 0 issues with the commands given in SQ, numbered from 0. -/
def queued (l : List QCmd) : State := with0 { running := true, sq := { cmds := l, next := l.length + 1 } }
theorem executes_queued (l : List QCmd) : Executes (queued l) 0 {} := by
  unfold Executes Fetches; refine ⟨⟨?_, ?_, ?_⟩, ?_⟩ <;> first | exact Nat.le_of_ble_eq_true rfl | rfl
theorem plainS0 : PlainS {} false false false false false false := ⟨plainPre, by decide, by decide, by decide, by decide, by decide, by decide⟩

theorem witness_CommandAndTokenWaits : Executes (queued []) 0 {} ∧ PlainS { q := 3 } true true true false false false ∧
    PlainS { q := 3 } true false true false false false ∧
    (0 < ((queued []).core 0).sq.next ∧ ∀ k ∈ ((queued []).core 0).sq.cmds, 0 < k.seq) ∧
    (0 < ((queued [folioCmd 0]).core 0).sq.next ∧ ∃ k ∈ ((queued [folioCmd 0]).core 0).sq.cmds, k.seq ≤ 0) ∧
    ((run.core 0).sq.next ≤ 0) ∧ Executes (queued [folioCmd 0]) 0 {} :=
  ⟨executes_queued _, by unfold PlainS PlainPre; decide, by unfold PlainS PlainPre; decide, by decide +kernel, by decide +kernel,
    by decide +kernel, executes_queued _⟩
/-- Token counts at 65,535 and beyond; a failed counter; one below the count; a live and no live producer. -/
theorem witness_CommandAndTokenWaits_tokens : PlainS { ctr := 31, imm := 65535 } true false false true false true ∧
    (((run.core 0).sreg 0 + (65535 : Word32).signExtend 64).toNat ≤ 65535) ∧
    (65535 < ((run.core 0).sreg 0 + (65536 : Word32).signExtend 64).toNat) ∧
    (((with0 { running := true, tokFailed := 0x80000000 }).core 0).tokFailed.getLsbD 31 = true) ∧
    ((run.core 0).tokFailed.getLsbD 31 = false ∧ ((run.core 0).tok[31]).toNat < 65535) ∧
    (∀ k ∈ (run.core 0).allCmds, k.active = true → k.doomed = none → k.ctr ≠ some 31) ∧
    (∃ k ∈ ((queued [{ folioCmd 0 with ctr := some 31 }]).core 0).allCmds, k.active = true ∧ k.doomed = none ∧ k.ctr = some 31) := by
  refine ⟨by unfold PlainS PlainPre; decide, by decide +kernel, by decide +kernel, by decide +kernel, by decide +kernel, ?_, ?_⟩ <;>
    decide +kernel
theorem witness_FencesAndTickWait : PlainS {} false false false false false false ∧ Executes (queued []) 0 {} ∧
    ((queued []).core 0).allCmds = [] ∧ ((queued [folioCmd 0]).core 0).allCmds ≠ [] ∧
    (∀ k ∈ ((queued [{ folioCmd 0 with span := true }]).core 0).allCmds, k.span = true) ∧
    ∃ k ∈ ((queued [folioCmd 0]).core 0).allCmds, k.span = false :=
  ⟨plainS0, executes_queued _, by decide +kernel, by decide +kernel, by decide +kernel, by decide +kernel⟩
theorem witness_SwapsAndMarks : PlainS { tbl := 2 } false false false false true false ∧ (2 : BitVec 4).toNat < 3 ∧
    Executes run 0 {} ∧ run.mem.wf = true ∧ (run.peek64 (spmOf 0 + 0x7FF580)).getLsbD 18 = false ∧
    (run.peek64 (spmOf 0 + 0x7FF580)).toNat < 2 ^ 48 ∧
    (({ run with mem := ⟨[(spmOf 0 + 0x7FF582, 4)], []⟩ } : State).peek64 (spmOf 0 + 0x7FF580)).getLsbD 18 = true ∧
    PlainS { imm := 65535 } true false false false false true ∧
    ∀ n ∈ [4095, 4096], ∃ p : Proof, (p.traceEn && p.traceMark && p.traceCores.getLsbD 0 && !p.full) = true ∧ p.queue.length = n :=
  ⟨by unfold PlainS PlainPre; decide, by decide, by unfold Executes Fetches; decide +kernel, by decide +kernel, by decide +kernel,
    by decide +kernel, by decide +kernel, by unfold PlainS PlainPre; decide,
    fun n _ => ⟨{ traceEn := true, traceMark := true, traceCores := 1
                  queue := List.replicate n { type := 1, code := 0, core := 0, tag := 0, value := 0, tick := 0, cc := 0 } },
      by simp, List.length_replicate⟩⟩

/-- A running tick unit in tick n. -/
def tickAt (n : Nat) (r : Role) : Tick := { run := true, role := r, tickStarted := true, number := n }
theorem inTick (n : Nat) (r : Role) : InTick (tickAt n r) := ⟨rfl, rfl, rfl, rfl⟩
/-- Core 0 runs in a tick. -/
def inT (t : Tick) : State := { run with tick := t }

theorem witness_TickStartAndStop : (∃ s : State, s.tick.run = true ∧ s.tick.lost = false ∧ s.tick.role ≠ .member) ∧
    (∃ s : State, s.tick.run = true ∧ s.tick.lost = false ∧ s.tick.role = .member) ∧
    (∃ s : State, s.tick.run = true ∧ s.tick.lost = true) ∧
    (State.reset.tick.run = false ∧ ∀ d : Fin 13, State.reset.power.dieBand[d] ≠ .stop) ∧
    ∃ s : State, s.tick.run = false ∧ ∃ d : Fin 13, s.power.dieBand[d] = .stop :=
  ⟨⟨inT (tickAt 0 .master), by decide +kernel⟩, ⟨inT (tickAt 0 .member), by decide +kernel⟩,
    ⟨inT { tickAt 0 .member with lost := true }, by decide +kernel⟩, ⟨by decide +kernel, by decide +kernel⟩,
    ⟨{ State.reset with power := { dieBand := Vector.replicate 13 .stop } }, by decide +kernel⟩⟩
/-- The first edge; an edge at the top of the tick numbers with a step that is due; an edge that stops; one without a
verdict. -/
theorem witness_TickEdges : ∃ (a b c d : State) (v w : VerdictMsg),
    (a.tick.run = true ∧ a.tick.waitAlign = false ∧ a.tick.lost = false ∧ a.qcp.waiting = [] ∧ a.tick.tickStarted = false) ∧
    (InTick b.tick ∧ b.qcp.waiting = [] ∧ b.tick.verdict = some v ∧ Carries v.edge (2 ^ 48 - 1) ∧ v.stop = none ∧
      b.tick.number = 2 ^ 48 - 1 ∧ b.tick.pending = some (0, 1) ∧ 0 ≤ (b.tick.number + 1) % 2 ^ 48) ∧
    (InTick c.tick ∧ c.qcp.waiting = [] ∧ c.tick.verdict = some w ∧ Carries w.edge 0 ∧ w.stop ≠ none) ∧
    (InTick d.tick ∧ d.qcp.waiting = [] ∧ d.tick.verdict = none) :=
  let v : VerdictMsg := { tick := ⟨0, 0⟩, edge := ⟨pair (2 ^ 32 - 1), pair (2 ^ 16 - 1)⟩ };
  let w : VerdictMsg := { tick := ⟨0, 0⟩, edge := ⟨pair 0, pair 0⟩, stop := some .timeout };
  ⟨inT { tickAt 0 .standalone with tickStarted := false }, inT { tickAt (2 ^ 48 - 1) .member with verdict := some v, pending := some (0, 1) },
    inT { tickAt 3 .member with verdict := some w }, inT (tickAt 0 .member), v, w, by decide +kernel,
    ⟨⟨rfl, rfl, rfl, rfl⟩, rfl, rfl, by unfold Carries; decide, rfl, rfl, rfl, Nat.zero_le _⟩,
    ⟨⟨rfl, rfl, rfl, rfl⟩, rfl, rfl, by unfold Carries; decide, by decide⟩, ⟨inTick _ _, rfl, rfl⟩⟩
/-- The nominal edge and the fourth period after it, at their first moment; a member, a master, and a chip that is its own
group. -/
theorem witness_TickDeadlines : ∃ s : State, InTick s.tick ∧ s.tick.overran = false ∧ s.tick.edge + s.tick.effective ≤ 1800000 ∧
    (∃ c, (s.core c).running = true) ∧ s.tick.role = .member ∧ s.tick.sentDone = false ∧ s.tick.sentLate = false ∧
    pairOk s.tick.parent = true ∧ pairVal s.tick.parent % 2 ^ 16 = (9 : Half).toNat ∧
    s.tick.verdict = none ∧ s.tick.edge + 5 * s.tick.effective ≤ 9000000 ∧ s.qcp.waiting = [] ∧
    1799999 < s.tick.edge + s.tick.effective ∧ 8999999 < s.tick.edge + 5 * s.tick.effective ∧
    (∃ m : State, InTick m.tick ∧ m.tick.role = .master ∧ m.tick.verdict = none ∧ m.qcp.waiting = []) ∧
    (∃ a : State, a.tick.role = .standalone ∧ a.qcp.waiting = []) ∧ ∃ u : State, ¬ InTick u.tick :=
  ⟨inT { tickAt 5 .member with parent := pair 9 }, ⟨rfl, rfl, rfl, rfl⟩, rfl, by decide, ⟨0, rfl⟩, rfl, rfl, rfl, by decide, by decide, rfl,
    by decide, rfl, by decide, by decide, ⟨inT (tickAt 0 .master), inTick _ _, rfl, rfl, rfl⟩, ⟨inT (tickAt 0 .standalone), rfl, rfl⟩,
    ⟨run, fun h => absurd h.1 (by decide +kernel)⟩⟩

/-- The words of a message for tick 0. -/
def pz : PW2 := ⟨pair 0, pair 0⟩
def rep0 : Report := { tick := pz, edge := pz, vf := of8 pz, va := of8 pz, abort := of8 none }
def ver0 : VerdictMsg := { tick := pz, edge := pz, vf := of8 pz, va := of8 pz, decide := of8 .goOn, partStop := of8 none
                           release := of8 none }
theorem forTick0 (p : Option PW2) (h : p = none ∨ p = some pz) : ForTick pz (pz :: of8 pz ++ of8 pz) p 0 :=
  ⟨by unfold Carries; decide, by decide, by rintro q rfl; rcases h with h | h <;> cases h; exact ⟨0, by unfold Carries; decide⟩⟩
/-- A master and a member whose child is chip 7, in tick 0. -/
def group (r : Role) : State := inT { tickAt 0 r with children := Vector.replicate 8 (pair (7 + 2 ^ 16)) }
theorem witness_MessagesOfTheTick_accepted : Report.wf rep0 = true ∧ VerdictMsg.wf ver0 = true ∧
    (∀ r ∈ [Role.master, .member], InTick (group r).tick ∧ (∃ c, ((group r).core c).running = true) ∧ Names (group r).tick 7) ∧
    ForTick rep0.tick (rep0.edge :: rep0.vf ++ rep0.va) rep0.proof (group .master).tick.number ∧
    (group .member).tick.role = .member ∧ (group .member).tick.verdict = none ∧
    ForTick ver0.tick (ver0.edge :: ver0.vf ++ ver0.va) ver0.proof (group .member).tick.number := by
  refine ⟨rfl, rfl, ?_, forTick0 _ (.inl rfl), rfl, rfl, forTick0 _ (.inl rfl)⟩
  intro r h
  simp only [List.mem_cons, List.not_mem_nil, or_false] at h
  rcases h with rfl | rfl
  · exact ⟨inTick 0 .master, ⟨0, rfl⟩, .inr rfl, 0, by decide +kernel, by decide +kernel⟩
  · exact ⟨inTick 0 .member, ⟨0, rfl⟩, .inl rfl, 0, by decide +kernel, by decide +kernel⟩
/-- A word that is no valid pair; another tick's number; a chip that no register names; a chip that decides; a second
verdict. -/
theorem witness_MessagesOfTheTick_refused :
    NotForTick rep0.tick ({ rep0.edge with lo := 0 } :: rep0.vf ++ rep0.va) rep0.proof 0 ∧
    NotForTick ver0.tick (ver0.edge :: ver0.vf ++ ver0.va) ver0.proof 1 ∧ ¬ Names (group .master).tick 8 ∧
    (group .master).tick.role ≠ .member ∧ (∃ s : State, s.tick.verdict ≠ none) ∧ ¬ InTick State.reset.tick :=
  ⟨.inr (by decide), .inl (by decide), by unfold Names; decide +kernel, by decide, ⟨inT { tickAt 0 .member with verdict := some ver0 }, by decide⟩,
    by unfold InTick; decide +kernel⟩
/-- Chip 0 with port 0 up, the fabric calm: a message to chip 1 leaves by it; with the port down it is lost. -/
def toward (st : PortState) : State :=
  { inT (tickAt 0 .master) with ports := Vector.ofFn fun i => if i = 0 then { state := st, logical := 0, credMgmt := 1 } else {} }
theorem witness_MessagesOfTheTick_routes :
    (let s := toward .upData;
      (1 : Half).toNat / 64 ≤ s.fabric.rowRacks ∧ (1 : Half).toNat < 4096 ∧
      routePort s.chip (s.fabric.rowRacks + 1) (1 : Half).toNat 0 = some (0, false) ∧ s.outPort 0 0 = some 0 ∧
      (∀ p, (s.port p).outq = [] ∧ (s.port p).owedVc0 = 0 ∧ (s.port p).owedVc1 = 0 ∧ (s.port p).owedMgmt = 0) ∧
      s.fabric.stopping = false ∧ 0 < (s.port 0).credMgmt) ∧
    (let s := toward .idle;
      routePort s.chip (s.fabric.rowRacks + 1) (1 : Half).toNat 0 = some (0, false) ∧ s.outPort 0 0 = none) := by decide +kernel
/-- Alignment: a first message; later ones 40 ns (72 cc) and 73 cc away, either side. -/
theorem witness_MessagesOfTheTick_alignment : (∃ s : State, s.tick.run = true ∧ s.tick.role = .member ∧ s.tick.waitAlign = true) ∧
    (let s := group .member; s.tick.run = true ∧ s.tick.role = .member ∧ s.tick.waitAlign = false) ∧
    (100 + 0 ≤ 172 ∧ 72 = 172 - (100 + 0) ∧ 5 * 72 ≤ 9 * 40) ∧ (28 < 100 + 1 ∧ 73 = 100 + 1 - 28 ∧ 9 * 40 < 5 * 73) ∧
    State.reset.tick.run = false ∧ (group .master).tick.role ≠ .member :=
  ⟨⟨inT { tickAt 0 .member with waitAlign := true }, rfl, rfl, rfl⟩, ⟨rfl, rfl, rfl⟩, by decide, by decide, by decide +kernel, by decide⟩

/-- The last bytes of core 127's windows and their first byte; a bank held; what the V12 protects; a fenced window. -/
theorem witness_WindowAccesses_served : (127 : CoreId).val < run.logicalCores ∧ 0 < 1 ∧ run.chip < 4096 ∧
    (run.coreFenced (127 : CoreId).val = false) ∧ spmSize - 1 + 1 ≤ spmSize ∧
    (accSize - 1 + 1 ≤ accSize ∧ (run.core 127).banks &&& bankMask (accSize - 1) 1 = 0) ∧ run.mem.wf = true ∧
    run.spmGuarded 127 0 1 = false ∧ run.spmGuarded 127 0x7FF580 8 = true ∧
    (let s : State := { run with cores := run.cores.set 127 { bq := { cmds := [{ op := .burinMm, seq := 0, started := true, banks := 1 }] } } };
      s.coreFenced (127 : CoreId).val = false ∧ (s.core 127).banks &&& bankMask 0 1 ≠ 0) ∧
    ∃ s : State, (127 : CoreId).val < s.logicalCores ∧ s.coreFenced (127 : CoreId).val = true ∧ s.chip < 4096 :=
  ⟨by decide +kernel, by decide, by decide +kernel, by decide +kernel, by decide, by decide +kernel, by decide +kernel, by decide +kernel,
    by decide +kernel, by decide +kernel, { run with recov := { current := some { kind := .cluster, index := 15, trigger := 0, phase := .draining } } },
    by decide +kernel, by decide +kernel, by decide +kernel⟩
/-- Addresses that are refused: bits [63:60], each reserved region at its ends, past the end of a window; another chip. -/
theorem witness_WindowAccesses_refused : (2 ^ 60 / 2 ^ 60 % 16 ≠ 0) ∧ (let a : Access := ⟨.host, 2 ^ 48, 1, none⟩;
      0 < a.len ∧ Access.wf a = true ∧ a.addr / 2 ^ 60 % 16 = 0 ∧ a.addr / 2 ^ 48 ≠ run.chip) ∧
    (∀ off ∈ [hbmEnd, spmBase - 1, accOf 128, regBase - 1, regEnd, flashBase - 1, flashEnd, 2 ^ 48 - 1],
      off < 2 ^ 48 ∧ (hbmEnd ≤ off ∧ off < spmBase ∨ accOf 128 ≤ off ∧ off < regBase ∨ regEnd ≤ off ∧ off < flashBase ∨ flashEnd ≤ off)) ∧
    (0 : Nat) / 2 ^ 48 = run.chip ∧ (spmSize - 1 < spmSize ∧ spmSize < spmSize - 1 + 2) ∧ (accSize - 1 < accSize ∧ accSize < accSize - 1 + 2) := by
  decide +kernel
theorem witness_WindowAccesses_answers : run.proof.errEn = false ∧ Status.fenced ≠ .integrity := by decide +kernel
theorem witness_RegisterWrites : run.tick.run = false ∧ (36000 : Word).toNat % 2 ^ 26 = 36000 ∧
    (36000000 : Word).toNat % 2 ^ 26 = 36000000 ∧ (35999 : Word).toNat % 2 ^ 26 ≠ run.tick.period ∧
    (36000001 : Word).toNat % 2 ^ 26 ≠ run.tick.period ∧ (∃ s : State, s.tick.run = true ∧ (50 : Word).toNat % 2 ^ 7 ≠ s.tick.slack) ∧
    (regBase - 1 < regBase) ∧ (regBase + 4) % 8 ≠ 0 :=
  ⟨by decide +kernel, by decide, by decide, by decide +kernel, by decide +kernel, ⟨group .member, by decide +kernel⟩, by decide, by decide⟩
theorem witness_WatchReleases : (∃ s : State, s.tick.role ≠ .member ∧ (s.part 7).held = true) ∧ (run.part 7).held = false ∧
    ∃ s : State, s.tick.role = .member :=
  ⟨⟨{ State.reset with parts := State.reset.parts.set 7 { held := true } }, by decide +kernel⟩, by decide +kernel, group .member, rfl⟩

/-! ## Witnesses: QCP -/

/-- Boot done, QCP ready, the endpoint idle. -/
def up : State := { State.reset with boot := { booted := true, powered := true }, qcp := { ready := true }, chipId := pair 0 }
def req (body : List Byte) : QcpReq := { body := body }
theorem taken (b : List Byte) : Taken up (req b) := by
  refine ⟨rfl, ?_, rfl, rfl, rfl, .inr rfl, rfl, rfl, rfl, rfl, rfl⟩
  intro k h; exact absurd h List.not_mem_nil
theorem admitted (b : List Byte) : Admitted up (req b) := ⟨taken b, rfl, rfl⟩

/-- HELLO from 1 to 2, of version 1 alone, and of no version that is implemented; reads before readiness, of a register that
no block has, and beyond the identity region; a write. -/
theorem witness_QcpRegisterRequests : (∀ b ∈ [[1, 2, 0, 0, 0, 0, 0, 0], [1, 1, 0, 0, 0, 0, 0, 0], [3, 9, 0, 0, 0, 0, 0, 0], []],
      Taken up (req b)) ∧ (2 < (3 : Byte).toNat) ∧ regBase < 2 ^ 48 ∧
    (let n : Nat := 16; Taken up (req (bytesLE 8 regBase ++ bytesLE 4 n ++ [0, 0, 0, 0])) ∧ up.qcp.ready = true ∧
      ∀ i : Fin n, (up.readReg (regBase + 8 * i.val)).isSome = true) ∧
    (let u : State := { up with qcp := {} }; Taken u (req (bytesLE 8 regBase ++ bytesLE 4 1 ++ [0, 0, 0, 0])) ∧ u.qcp.ready = false ∧
      u.proof.errEn = false ∧ regBase ≤ regBase + 0xFF8 ∧ regBase + 0xFF8 + 8 * 1 ≤ regBase + 0x1000 ∧ regBase + 0x1000 ≤ regBase + 0x1000 ∧
      (∀ i < 1, u.readReg (regBase + 0x1000 + 8 * i) ≠ none) ∧ ∃ i < 1, u.readReg (0 + 8 * i) = none) ∧
    (up.regAt (regBase + 0x1008)).isSome = true ∧
    Admitted up (req (bytesLE 8 (regBase + 0x1008) ++ bytesLE 4 1 ++ [0, 0, 0, 0] ++ bytesLE 8 (36000 : Word).toNat)) :=
  ⟨fun b _ => taken b, by decide, by decide, ⟨taken _, rfl, by decide +kernel⟩,
    ⟨⟨rfl, fun k h => absurd h List.not_mem_nil, rfl, rfl, rfl, .inr rfl, rfl, rfl, rfl, rfl, rfl⟩, rfl, rfl, by decide, by decide, by decide,
      by decide +kernel, by decide +kernel⟩, by decide +kernel, admitted _⟩
theorem witness_QueuePairRequests : Admitted up (req ([1, 63, 7, 31] ++ bytesLE 4 (2 ^ 24 - 1) ++ bytesLE 4 0 ++ [8, 0, 0, 0] ++
      List.replicate 16 1 ++ bytesLE 8 64)) ∧ (7 : Byte).toNat < 8 ∧ (31 : Byte).toNat < 32 ∧ (8 : Byte).toNat ≤ 8 ∧
    2 ^ 24 - 1 < 2 ^ 24 ∧ (List.replicate 16 (1 : Byte)).length = 16 ∧ 64 < 2 ^ 48 ∧ 64 % 64 = 0 ∧ (up.qp 1 63).state ≠ .ready ∧
    Admitted up (req [1, 63, 0, 0, 0, 0, 0, 0]) :=
  ⟨admitted _, by decide, by decide, by decide, by decide, by decide, by decide, by decide, by decide +kernel, admitted _⟩
/-- A window that ends at the top of HBM, a closed one; a ring of the largest size. -/
theorem witness_WindowAndRingRequests : Admitted up (req ([15, 3, 0, 0, 0, 0, 0, 0] ++ bytesLE 8 (hbmEnd - 64) ++ bytesLE 8 64)) ∧
    (3 : Byte).toNat < 4 ∧ hbmEnd - 64 < 2 ^ 48 ∧ (hbmEnd - 64) % 64 = 0 ∧
    ¬ ((64 : Nat) ≠ 0 ∧ (hbmEnd - 64 < regEnd ∧ regBase < hbmEnd - 64 + 64 ∨ hbmEnd - 64 < flashEnd ∧ flashBase < hbmEnd - 64 + 64)) ∧
    Admitted up (req ([0, 0, 0, 0, 0, 0, 0, 0] ++ bytesLE 8 regBase ++ bytesLE 8 0)) ∧
    ((64 : Nat) ≠ 0 ∧ (regEnd - 64 < regEnd ∧ regBase < regEnd - 64 + 64) ∧ flashEnd - 64 < flashEnd ∧ flashBase < flashEnd - 64 + 64) ∧
    Admitted up (req ([0, 0, 0, 0, 0, 0, 0, 0] ++ bytesLE 8 (regEnd - 64) ++ bytesLE 8 64)) ∧ up.proof.errEn = false ∧
    Admitted up (req ([15, 1, 63, 16, 255, 0, 0, 0] ++ bytesLE 4 (2 ^ 32 - 1) ++ [0, 0, 0, 0] ++ bytesLE 8 (2 ^ 64 - 64) ++ bytesLE 8 0)) ∧
    (16 : Byte).toNat ≤ 16 ∧ (2 ^ 64 - 64) % 64 = 0 ∧ (up.ring 15).backlog = [] ∧ (up.ring 15).unacked = [] :=
  ⟨admitted _, by decide, by decide, by decide, by decide, admitted _, by decide, admitted _, rfl, admitted _, by decide, by decide,
    by decide +kernel, by decide +kernel⟩
/-- Contexts: an idle partition with an image; a pending start; a running context. -/
def parted (p : Part) : State := { up with parts := up.parts.set 0 { p with enable := true, image := some image } }
theorem admitted_parted (p : Part) (b : List Byte) : Admitted (parted p) (req b) := admitted b
theorem witness_ContextRequests : (∀ p b, Admitted (parted p) (req b)) ∧
    (∀ t ∈ [2, 2 ^ 48 - 1], ¬ t < (if (parted {}).tick.run then (parted {}).tick.number else 0) + 2) ∧
    (1 < (if (parted {}).tick.run then (parted {}).tick.number else 0) + 2) ∧ (parted {}).proof.errEn = false ∧ (up.part 0).image = none ∧
    (let s := parted {};      (s.part 0).state = .idle ∧ (s.part 0).enable = true ∧
      (s.part 0).image.isSome = true ∧ (s.part 0).resumeValid = false) ∧
    ((parted { state := .startPending }).part 0).state = .startPending ∧
    (let s := parted { state := .running };
      (s.part 0).active = true ∧ (s.part 0).state = .running ∧ (s.part 0).reserved = false ∧
      s.saveAreaOk 0 (((s.part 0).image.map State.saveSize).getD 0) = true) :=
  ⟨admitted_parted, by decide +kernel, by decide +kernel, rfl, by decide +kernel, by decide +kernel, by decide +kernel, by decide +kernel⟩
/-- A program request, and a context that saves. -/
theorem witness_LoadsAndSaves_request : Admitted (parted {}) (req ([0, 0, 0, 0, 0, 0, 0, 0] ++ bytesLE 8 0)) ∧
    ((parted {}).part 0).enable = true ∧ ((parted {}).part 0).active = false ∧
    ((parted { state := .saving }).part 0).state = .saving ∧ ((parted { state := .saving }).part 0).image = some image ∧
    (parted { state := .saving }).qcp.waiting = [] :=
  ⟨admitted_parted _ _, by decide +kernel, by decide +kernel, by decide +kernel, by decide +kernel, rfl⟩
theorem witness_ProofTriggers : Admitted up (req ([0, 0, 0, 0, 0, 0, 0, 0] ++ pairBytes 0 ++ pairBytes 0)) ∧
    (Status.allocFault ≠ .ok ∧ statusCode .allocFault ≤ 14 ∧ Status.allocFault ≠ .integrity) ∧
    (∀ a ∈ [true, false], ∃ x : Proof, x.errEn = true ∧ x.errMask.getLsbD (statusCode .allocFault) = true ∧ x.errBcast = false ∧
      x.armed = a) ∧ ({ errEn := false } : Proof).errEn = false ∧ up.proof.qcpEn = true ∧ up.proof.armed = true ∧ ({ armed := false } : Proof).armed = false ∧ ({ qcpEn := false } : Proof).qcpEn = false ∧
    Admitted up (req ([1, 1, 0, 0, 0, 0, 0, 0] ++ pairBytes 3 ++ pairBytes 0)) ∧ up.tick.number + 3 ≤ 3 ∧ 2 < up.tick.number + 3 ∧ up.proof.errEn = false ∧
    (req []).version = 2 :=
  ⟨admitted _, by decide, fun a _ => ⟨{ errEn := true, errMask := BitVec.allOnes 16, armed := a }, rfl, (by decide : (BitVec.allOnes 16).getLsbD (statusCode .allocFault) = true), rfl, rfl⟩, rfl, rfl, rfl, rfl, rfl, admitted _, by decide +kernel, by decide +kernel, rfl, rfl⟩
theorem witness_ResetRequests : ∃ s : State, Taken s (req [5, 11, 0, 0, 0, 0, 0, 0]) ∧ s.recov.current = none ∧
    (s.stack 11).cause ≠ .thermal ∧ s.recov.crashValid = true ∧ Taken s (req [0, 0, 0, 0, 0, 0, 0, 0]) ∧
    (∀ i, (s.stack i).fusing = false) ∧ s.mem.wf = true ∧
    (∃ v : State, Taken v (req [0, 0, 0, 0, 0, 0, 0, 0]) ∧ ∃ i, (v.stack i).fusing = true) ∧
    ∃ u : State, u.qcp.current = some ⟨.reset, req []⟩ ∧ u.qcp.waiting = [] :=
  ⟨{ up with recov := { crashValid := true } }, taken _, rfl, by decide +kernel, rfl, taken _, by decide +kernel, by decide +kernel,
    ⟨{ up with hbmStacks := Vector.replicate 12 { busy := some ⟨5, 0, 0⟩ } }, taken _, 11, by decide +kernel⟩,
    { up with qcp := { ready := true, current := some ⟨.reset, req []⟩ } }, rfl, rfl⟩
theorem witness_QcpRefusals : up.boot.booted = true ∧ (List.replicate 31 (0 : Byte)).length < 32 ∧
    (List.replicate 32 (0 : Byte)).take 4 ≠ [0x51, 0x43, 0x50, 0x4D] ∧
    ((([((0 : Word), (0 : Word32), ([] : List Byte))] : List _).find? fun k => k.1 == (req []).src && k.2.1 == (req []).tag) =
      some ((req []).src, (req []).tag, [])) ∧
    (∃ s : State, Taken s (req (List.replicate 8 0)) ∧ s.proof.errEn = false ∧ s.qcp.ready = false) ∧
    ∃ s : State, Taken s (req (List.replicate 8 0)) ∧ s.proof.errEn = false ∧ s.qcp.ready = true ∧ (req []).epoch ≠ s.recov.epoch :=
  ⟨rfl, by decide, by decide, rfl, ⟨{ up with qcp := {} }, taken _, rfl, rfl⟩,
    ⟨{ up with recov := { epoch := 1 } }, taken _, rfl, rfl, by decide⟩⟩

/-! ## Witnesses: HBM and commands in progress -/

/-- Every stack serves. -/
def hbm : State := { State.reset with hbmStacks := Vector.replicate 12 { ready := true } }
/-- The codeword at 0 is stored with one, and with five, symbol errors. -/
def one : Pattern := [(3, 7)]
def five : Pattern := [(0, 1), (1, 1), (2, 1), (3, 1), (4, 1)]

theorem witness_HbmAccesses : NoTrigger hbm ∧ Serves hbm (hbmEnd - 64) 64 ∧ hasDamage hbm (hbmEnd - 64) 64 = false ∧
    hbm.damageOf 0 = [] ∧ Serves hbm 0 64 ∧ (11 : StackId).val = (hbmMap (hbmEnd - 64)).1 ∧
    patternAdd [] (patternOf [⟨3, 7⟩]) = one ∧ rsDecode 72 8 4 one = some one ∧ one ≠ [] ∧ OffFrames hbm 0 64 ∧ hbm.mem.wf = true ∧
    (let s := { hbm with damage := [(0, one)] };
      Serves s 0 64 ∧ hasDamage s 0 64 = true) ∧
    (∃ s : State, NoTrigger s ∧ s.hbmGuarded 0 64 = false ∧ s.hbmRefuses 0 64 = some .fenced) ∧
    (hbmEnd - 1 < hbmEnd ∧ hbmEnd < hbmEnd - 1 + 2) ∧ ∃ s : State, NoTrigger s ∧ s.hbmGuarded 0 1 = true :=
  ⟨rfl, by unfold Serves; decide +kernel, by decide +kernel, by decide +kernel, by unfold Serves; decide +kernel, by decide +kernel,
    by decide +kernel, by decide +kernel, by decide, .inl rfl, by decide +kernel, ⟨by unfold Serves; decide +kernel, by decide +kernel⟩,
    ⟨State.reset, rfl, by decide +kernel, by decide +kernel⟩, by decide, { hbm with coll := { run := true } }, rfl, by decide +kernel⟩
/-- An error that the decoder cannot correct (found by search: five symbols). -/
theorem witness_HbmAccesses_uncorrectable : rsDecode 72 8 4 five = none ∧ five ≠ [] ∧
    patternAdd [] (patternOf [⟨0, 1⟩, ⟨1, 1⟩, ⟨2, 1⟩, ⟨3, 1⟩, ⟨4, 1⟩]) = five := by decide +kernel
theorem witness_CodewordsAndScrub : rsDecode 72 8 4 one = some one ∧
    (let s : State := { hbm with damage := [(hbmUnmap 11 31 0, one)] };
      (s.stack 11).scrubEn = true ∧ (s.stack 11).ready = true ∧ s.damageOf (hbmUnmap 11 31 ((s.stack 11).scrubAt[(31 : Fin 32)])) = one ∧
      s.mem.wf = true) ∧
    (let s : State := { hbm with damage := [(hbmUnmap 11 31 0, five)] };
      s.damageOf (hbmUnmap 11 31 ((s.stack 11).scrubAt[(31 : Fin 32)])) = five) ∧
    (hbm.damageOf (hbmUnmap 11 31 ((hbm.stack 11).scrubAt[(31 : Fin 32)])) = []) ∧
    (∃ x : Stack, x.scrubEn = false) := by
  refine ⟨by decide +kernel, by decide +kernel, by decide +kernel, by decide +kernel, ⟨{ scrubEn := false }, rfl⟩⟩
/-- A stack with power that has not trained; one that is ready; one without power. Each temperature at which a band begins. -/
theorem witness_StackServices : (let s : State := { State.reset with power := { on := 0xFFFFFFF } };
      (s.stack 11).ready = false ∧ s.stackResetting 11 = false ∧ s.phyOn 11 = true ∧ (s.stack 11).fusedLanes = [] ∧
      (s.stack 11).retestLane = none ∧ (s.stack 11).retestRow = none) ∧
    ((hbm.stack 11).ready = true ∧ hbm.stackResetting 11 = false) ∧ State.reset.phyOn 11 = false ∧
    ((State.reset.stack 11).band ≠ 3 ∧ (105 : Byte).toNat ≤ 105 ∧ 105 < (106 : Byte).toNat ∧ 95 < (96 : Byte).toNat) ∧
    ({ band := 3 } : Stack).band = 3 := by decide +kernel
/-- A stack in maintenance, with debug unlock, whose mailbox is free, busy, or holds arguments that are no paired words. -/
theorem witness_StackServices_repairs : let m (x : Stack) : State := { State.reset with hbmStacks := Vector.replicate 12 x, sec := { perms := 1 } };
    (State.reset.tick.run = false ∧ (State.reset.stack 11).maintReq = false ∧ (State.reset.stack 11).busy = none) ∧
    (∃ s : State, s.tick.run = true ∧ (s.stack 11).maintReq = false) ∧
    (let s := m { maint := true, arg0 := pair 0, arg1 := pair 0 };
      (s.stack 11).busy = none ∧ (s.stack 11).maint = true ∧ s.sec.perms % 2 = 1 ∧ (s.stack 11).arg0 = pair 0 ∧ (s.stack 11).arg1 = pair 0 ∧
      mboxArgs 1 0 0 = true ∧ mboxArgs 2 (2 ^ 32 - 1) 0 = false) ∧
    (((m { maint := true, arg0 := 0 }).stack 11).maint = true ∧ pairOk ((m { maint := true, arg0 := 0 }).stack 11).arg0 = false) ∧
    (State.reset.stack 11).maint = false ∧ State.reset.sec.perms % 2 = 0 ∧
    ∀ hard : Bool, ((m { busy := some ⟨if hard then 3 else 2, 0, 0⟩ }).stack 11).busy = some ⟨if hard then 3 else 2, 0, 0⟩ ∧
      (m {}).recov.current = none :=
  ⟨by decide +kernel, ⟨{ State.reset with tick := { run := true } }, by decide +kernel⟩, by decide +kernel, by decide +kernel, by decide +kernel,
    by decide +kernel, by decide +kernel⟩

/-- Core 0 has one command; core 1 runs its frame. -/
def one0 (k : QCmd) (banks : Word := 0) : State :=
  let q : Queue := { cmds := [k], next := k.seq + 1 };
  let hold : Queue := if banks = 0 then {} else { cmds := [{ op := .burinMm, seq := 0, started := true, banks := banks }], next := 1 };
  { State.reset with cores := (State.reset.cores.set 0 (if k.op.queue = .sq then { running := true, sq := q, bq := hold }
      else if k.op.queue = .bq then { running := true, bq := q } else { running := true, hq := q, bq := hold })).set 1 { running := true } }
theorem witness_CommandProgress_start : let k : QCmd := { op := .hatchRun, seq := 0, banks := 1 };
    OthersRun (one0 k) 0 ∧ (((one0 k).core 0).queue .hq).cmds.head? = some k ∧ ((one0 k).core 0).gateFailed k = none ∧
    k.banks &&& ((one0 k).core 0).otherBanks .hq = 0 ∧ k.banks &&& ((one0 k 1).core 0).otherBanks .hq ≠ 0 ∧ OthersRun (one0 k 1) 0 ∧
    (((one0 k).core 0).queue .bq).cmds = [] :=
  ⟨⟨1, by decide, by decide +kernel⟩, by decide +kernel, by decide +kernel, by decide +kernel, by decide +kernel,
    ⟨1, by decide, by decide +kernel⟩, by decide +kernel⟩
/-- The work of a command that succeeds, or fails, as a check can decide it. -/
theorem exec_ok {α : Type} [DecidableEq α] {m : Eng α} {s u : State} {a : α}
    (h : (match m.exec s with | (.ok b, t) => decide (b = a) && decide (t = u) | _ => false) = true) : m.exec s = (.ok a, u) := by
  split at h
  · rename_i b t e
    simp only [Bool.and_eq_true, decide_eq_true_eq] at h
    rw [e, h.1, h.2]
  · exact absurd h (by decide)
theorem exec_error {α : Type} {m : Eng α} {s u : State} {st : Status}
    (h : (match m.exec s with | (.error e, t) => decide (e = st) && decide (t = u) | _ => false) = true) : m.exec s = (.error st, u) := by
  split at h
  · rename_i b t e
    simp only [Bool.and_eq_true, decide_eq_true_eq] at h
    rw [e, h.1, h.2]
  · exact absurd h (by decide)
theorem others0 (k : QCmd) : OthersRun (one0 k) 0 := ⟨1, by decide, rfl⟩
/-- A HATCH.RUN whose start goes on, and a HOST.POST without a ring, whose start ends it. -/
theorem witness_CommandProgress_starts : (let k : QCmd := { op := .hatchRun, seq := 0 }; let j : QCmd := { k with started := true, waits := 0 };
      ¬ IsFolio k ∧ k.op ≠ .attn ∧ k.op.queue = .hq ∧ (startCmd 0 j).exec ((one0 k).putCmd 0 j) = (.ok j, (one0 k).putCmd 0 j) ∧
      OthersRun ((one0 k).putCmd 0 j) 0) ∧
    (let k : QCmd := { op := .hostPost, seq := 0 }; let j : QCmd := { k with started := true, waits := 0 };
      ¬ IsFolio k ∧ (((one0 k).core 0).queue .sq).cmds.head? = some k ∧
      (startCmd 0 j).exec ((one0 k).putCmd 0 j) = (.error .fenced, (one0 k).putCmd 0 j) ∧ Only ((one0 k).putCmd 0 j) 0 j ∧
      OthersRun ((one0 k).putCmd 0 j) 0 ∧ ((one0 k).putCmd 0 j).mem.wf = true) ∧
    ((one0 { op := .stencilRun, seq := 0 }).core 0).otherBanks .hq = 0 :=
  ⟨⟨by unfold IsFolio; decide, by decide, rfl, exec_ok (by decide +kernel), 1, by decide, by decide +kernel⟩,
    ⟨by unfold IsFolio; decide, by decide +kernel, exec_error (by decide +kernel), by unfold Only; decide +kernel, ⟨1, by decide, by decide +kernel⟩,
      by decide +kernel⟩, by decide +kernel⟩
/-- A STRM.COPY with nothing more to deliver, and a FOLIO.PROMOTE that has succeeded; no command, and one that has not
started. -/
theorem witness_CommandProgress_piece : (let k : QCmd := { op := .strmCopy, seq := 0, started := true };
      OthersRun (one0 k) 0 ∧ Only (one0 k) 0 k ∧ k.op.queue = .sq ∧ (deliverCmd 0 k).exec (one0 k) = (.ok k, one0 k)) ∧
    (let k : QCmd := { op := .folioPromote, seq := 0, started := true, result := some .ok, ctr := some 31 };
      OthersRun (one0 k) 0 ∧ Only (one0 k) 0 k ∧ ((one0 k).core 0).stall = none ∧ ((one0 k).core 0).stopped = false ∧
      (((one0 k).core 0).tok[31]).toNat < 65535) ∧
    ((one0 { op := .hatchRun, seq := 0 }).core 0).sq.cmds = [] ∧
    ∃ j, ((one0 { op := .hostPost, seq := 0 }).core 0).sq.cmds.head? = some j ∧ j.started = false :=
  ⟨⟨others0 _, by unfold Only; decide +kernel, rfl, exec_ok (by decide +kernel)⟩,
    ⟨others0 _, by unfold Only; decide +kernel, by decide +kernel, by decide +kernel, by decide +kernel⟩, by decide +kernel,
    { op := .hostPost, seq := 0 }, by decide +kernel⟩
/-- A BURIN.MM over an empty output, and a FOLIO command with its result. -/
theorem witness_CommandProgress_folio : let k : QCmd := { op := .folioFlush, seq := 0, started := true, result := some .timeout };
    OthersRun (one0 k) 0 ∧ (one0 k).mem.wf = true ∧ Only (one0 k) 0 k ∧ IsFolio k ∧ k.ctr = none :=
  ⟨⟨1, by decide, by decide +kernel⟩, by decide +kernel, by unfold Only; decide +kernel, .inr (.inr rfl), rfl⟩

/-- An image of 320 bytes for one core: header, core table at 256, frame table at 288, code at 304, data at 312. -/
def imageBytes : List Byte :=
  let w (l : List Word) : List Byte := l.flatMap fun x => bytesLE 8 x.toNat
  let head := imageMagic ++ w [pair 2, pair 0, pair 1, pair 1, pair 1, pair 0, pair 0, pair 0, pair 0, pair 0, pair 256, pair 320]
  let tail := List.replicate 148 0 ++ w [304, 288, 8, 312] ++
    [0, 0, 0, 0, 0xFF, 0xFF, 0xFF, 0xFF, 0xFF, 0xFF, 0xFF, 0xFF, 1, 0, 0, 0] ++ List.replicate 16 0
  head ++ bytesLE 4 (crc32c (head ++ [0, 0, 0, 0] ++ tail)).toNat ++ tail
/-- That image at the start of HBM; the check of a PROGRAM_LOAD of it is under way. -/
def loading : State :=
  { parted {} with
    hbmStacks := hbm.hbmStacks, mem := ⟨((enumFrom 0 imageBytes).map fun e => (e.1, e.2)).filter fun e => e.2 != 0, []⟩
    qcp := { ready := true, current := some ⟨.programLoad, req ([0, 0, 0, 0, 0, 0, 0, 0] ++ bytesLE 8 0)⟩ } }
/-- The check accepts it (R60), and leaves the state as it is. -/
theorem witness_LoadsAndSaves_image : ∃ im img, (readImage 0).exec loading = (.ok (im, img), loading) ∧
    im.cores ≤ 8 * ((loading.part 0).count + 1) ∧ loading.qcp.waiting = [] := by
  have h : (match (readImage 0).exec loading with
    | (.ok (im, _), t) => decide (im.cores = 1) && decide (t = loading)
    | _ => false) = true := by decide +kernel
  split at h
  · rename_i im img t e
    simp only [Bool.and_eq_true, decide_eq_true_eq] at h
    exact ⟨im, img, by rw [e, h.2], by rw [h.1]; decide +kernel, rfl⟩
  · exact absurd h (by decide)
/-- A context of one core that saves at the top of HBM, with its ring set and that ring's queue pair ready; one that does
not save. -/
def saves : State :=
  { up with
    hbmStacks := hbm.hbmStacks
    parts := up.parts.set 7 { enable := true, image := some image, state := .saving, ring := 15, saveOff := hbmEnd - 65536 - 9437184 }
    rings := State.reset.rings.set 15 { set := true, port := 1, qp := 63 }
    eth := Vector.replicate 2 { qps := Vector.replicate 64 { state := .ready } } }
theorem witness_LoadsAndSaves_save : (saves.part 7).state = .saving ∧ (saves.part 7).image = some image ∧ saves.qcp.waiting = [] ∧
    saves.mem.wf = true ∧ (∀ i, (saves.stack i).refuses = none) ∧ saves.damage = [] ∧ saves.folio.run = false ∧ saves.coll.run = false ∧
    saves.folio.t1Count = 0 ∧ (saves.part 7).saveOff + 65536 + 9437184 * image.cores ≤ hbmEnd ∧
    (let g := saves.ring (saves.part 7).ring; g.set = true ∧ (saves.qp g.port g.qp).state = .ready ∧ g.backlog.length < 64) ∧
    (up.part 7).state ≠ .saving := by decide +kernel
/-- Work that ends the command, that leaves it under way, and that fails. -/
theorem witness_CommandProgress_end :
    (let k : QCmd := { op := .kvPage, seq := 0, started := true, block := zeros 192, descs := List.replicate 5 none };
      OthersRun (one0 k) 0 ∧ (one0 k).mem.wf = true ∧ Only (one0 k) 0 k ∧ (finishCmd 0 k).exec ((one0 k).atTime 0) = (.ok (k, true), one0 k)) ∧
    (let k : QCmd := { op := .hostPost, seq := 0, started := true };
      Only (one0 k) 0 k ∧ (finishCmd 0 k).exec ((one0 k).atTime 0) = (.ok (k, false), one0 k)) ∧
    (let k : QCmd := { op := .hatchRun, seq := 0, started := true };
      Only (one0 k) 0 k ∧ (finishCmd 0 k).exec ((one0 k).atTime 0) = (.error .decode, one0 k)) ∧
    ∃ k : QCmd, IsFolio k ∧ k.started = true ∧ k.result = none ∧ Only (one0 k) 0 k :=
  ⟨⟨others0 _, by decide +kernel, by unfold Only; decide +kernel, exec_ok (by decide +kernel)⟩,
    ⟨by unfold Only; decide +kernel, exec_ok (by decide +kernel)⟩, ⟨by unfold Only; decide +kernel, exec_error (by decide +kernel)⟩,
    { op := .folioEvict, seq := 0, started := true }, .inr (.inl rfl), rfl, rfl, by unfold Only; decide +kernel⟩

/-! ## Witnesses: Folio, flash, Crosshatch, collectives -/

/-- A pool of 1 GiB of HBM with 16,384 slots, running; local table at 0. -/
def pool (f : Folio := {}) : State :=
  { hbm with folio := { f with run := true, share := 1, dir := 1, t1Count := 1, spillUnits := 1, spillBase := 7 }, chipId := pair 0 }
/-- The same with the entry of slot 0 and a payload of 64 bytes of zeros in frame 0. -/
def entry0 (st : Nat) : DirEntry := ⟨st, false, 0, 1, 64, 0, 0, (crc32c (List.replicate 64 0)).toNat⟩
def cellsOf (a : Nat) (l : List Byte) : List Host.Cell :=
  ((enumFrom 0 l).map fun e => (a + e.1, e.2)).filter fun e => e.2 != 0
def slot0 (st : Nat) (f : Folio := {}) : State :=
  { pool f with mem := ⟨cellsOf ((pool f).slotOff 0) (entry0 st).bytes, []⟩ }

/-- Every stack of the states below serves. -/
theorem serves {s : State} (h : s.hbmStacks = Vector.replicate 12 { ready := true }) : ∀ i, (s.stack i).refuses = none := by
  have : ∀ v : Vector Stack 12, v = Vector.replicate 12 { ready := true } → ∀ i : StackId, v[i].refuses = none := by
    rintro _ rfl; decide +kernel
  exact this _ h
theorem healthy_slot0 (st : Nat) (f : Folio) (h : (slot0 st f).mem.wf = true) : Healthy (slot0 st f) :=
  ⟨rfl, serves rfl, h⟩

/-- A pool that runs; one to start, to start empty and to stop; what is still under way when it is asked to stop. -/
theorem witness_PoolControl : (∃ s : State, s.folio.run = true) ∧ (hbm.folio.run = false ∧ hbm.folio.starting = none) ∧
    (∃ s : State, s.folio.starting = some true ∧ Healthy s) ∧
    (∃ s : State, s.folio.stopping = true ∧ s.folio.transfers = [] ∧ s.folio.serving = [] ∧ s.folio.spilling = [] ∧ s.folio.writing = []) ∧
    hbm.folio.stopping = false ∧ ∃ s : State, s.folio.spilling ≠ [] :=
  ⟨⟨pool, rfl⟩, by decide +kernel, ⟨{ hbm with folio := { starting := some true } }, rfl, rfl, serves rfl, by decide +kernel⟩,
    ⟨{ hbm with folio := { stopping := true } }, rfl, rfl, rfl, rfl, rfl⟩, rfl, pool { spilling := [(0, 7)] }, by decide⟩
theorem witness_FolioHomes : ∃ f : Folio, f.serving = [(3, 0)] ∧
    Healthy (slot0 1 f) ∧ (slot0 1 f).folio.run = true ∧ Entry (slot0 1 f) 0 (entry0 1) ∧ (entry0 1).state = 1 ∧ (entry0 1).size ≤ 65536 ∧
    (entry0 1).loc < (slot0 1 f).folio.frameCount ∧
    (crc32c ((slot0 1 f).peek ((slot0 1 f).folio.frameOff (entry0 1).loc) (entry0 1).size)).toNat = (entry0 1).check ∧
    ((3 : Half), 0) ∈ (slot0 1 f).folio.serving ∧ (entry0 1).state ≠ 0 :=
  ⟨{ serving := [(3, 0)] }, rfl, healthy_slot0 _ _ (by decide +kernel), rfl,
    by unfold Entry; exact ⟨by decide, by decide +kernel, by decide +kernel⟩, rfl, by decide, by decide +kernel, by decide +kernel, by decide, by decide⟩
/-- A write-back of the largest payload; an absent slot; the first slot beyond the directory. -/
theorem witness_FolioHomes_writeBack : Healthy (slot0 0 {}) ∧ Entry (slot0 0 {}) 0 (entry0 0) ∧ (entry0 0).state < 3 ∧ (entry0 0).pins = 0 ∧
    (∀ w ∈ (slot0 0 {}).folio.writing, w.slot ≠ 0) ∧ (List.replicate 65536 (0 : Byte)).length ≤ 65536 ∧
    ((true || (entry0 1).keep && (entry0 1).state != 0) = true ∧ (entry0 1).state = 1 ∧ (entry0 1).loc < (slot0 1 {}).folio.frameCount) ∧
    (slot0 0 {}).folio.frames.Pairwise (· < ·) ∧ (∀ f ∈ (slot0 0 {}).folio.frames, f < (slot0 0 {}).folio.frameCount) ∧
    (slot0 0 {}).folio.frames.length < (slot0 0 {}).folio.frameCount ∧ (entry0 0).state = 0 ∧ (slot0 0 {}).folio.dirSlots ≤ 16384 :=
  ⟨healthy_slot0 _ _ (by decide +kernel), by unfold Entry; exact ⟨by decide, by decide +kernel, by decide +kernel⟩, by decide, rfl,
    fun _ h => absurd h List.not_mem_nil, Nat.le_of_eq List.length_replicate, by decide +kernel, List.Pairwise.nil, fun _ h => absurd h List.not_mem_nil,
    by decide +kernel, rfl, by decide +kernel⟩
/-- A write-back to a slot that a promotion pins. -/
theorem witness_FolioHomes_pinned : let e : DirEntry := { entry0 1 with pins := 1 };
    let s : State := { pool {} with mem := ⟨cellsOf ((pool {}).slotOff 0) e.bytes, []⟩ };
    Healthy s ∧ s.folio.run = true ∧ Entry s 0 e ∧ e.state < 3 ∧ e.pins ≠ 0 :=
  ⟨⟨rfl, serves rfl, by decide +kernel⟩, rfl, by unfold Entry; exact ⟨by decide, by decide +kernel, by decide +kernel⟩, by decide, by decide⟩
/-- Every slot but slot 0 reads as zeros, which is no entry. -/
theorem no_entry (st : Nat) (f : Folio) (n : Nat) (h : 0 < n) : parseDir ((slot0 st f).peek ((slot0 st f).slotOff n) 64) = none := by
  have hz : (slot0 st f).peek ((slot0 st f).slotOff n) 64 = List.replicate 64 0 := by
    apply List.ext_getElem
    · simp [State.peek, Memory.bytes]
    · intro i h1 h2
      simp only [State.peek, Memory.bytes, List.getElem_map, List.getElem_range, List.getElem_replicate]
      apply Memory.byte_unlisted _ rfl
      intro c hc
      simp only [slot0, cellsOf, List.mem_filter, List.mem_map] at hc
      obtain ⟨⟨e, he, rfl⟩, -⟩ := hc
      have hk : e.1 < 64 := by
        have : ∀ (l : List Byte) (k : Nat) (e : Nat × Byte), e ∈ enumFrom k l → e.1 < k + l.length := by
          intro l; induction l with
          | nil => intro k e he; exact absurd he List.not_mem_nil
          | cons b l ih =>
            intro k e he
            rcases List.mem_cons.mp he with rfl | he
            · simp
            · have := ih _ _ he; simp; omega
        have h3 := this _ _ _ he
        have : (entry0 st).bytes.length = 64 := by simp [DirEntry.bytes, entry0, pairBytes, pw2Bytes, le, bytesLE]
        omega
      show (slot0 st f).folio.poolBase + 64 * n + i ≠ (pool f).folio.poolBase + 64 * 0 + e.1
      have : (slot0 st f).folio.poolBase = (pool f).folio.poolBase := rfl
      omega
  rw [hz]; decide +kernel
/-- Where no slot but slot 0 has an entry, slot 0 is the folio to spill if it is RESIDENT, unpinned, not KEEP and not passed over;
in no other state is there one. (`dirAt` is a variable while anything is reduced, so that the kernel does not run it.) -/
theorem victim {s : State} {o : Option DirEntry} (k : Nat) (hs : s.folio.dirSlots = k + 1) (h0 : s.dirAt 0 = (o, s))
    (hn : ∀ n, 0 < n → s.dirAt n = (none, s)) : s.spillVictim.1 = match o with
      | some e => if e.state = 1 ∧ e.pins = 0 ∧ e.keep = false ∧ ¬ s.folio.passed.contains 0 then some (0, e) else none
      | none => none := by
  have hk {β : Type} : ∀ (l : List Nat) (g : β → Nat → β) (b c : β), b = c → (∀ n ∈ l, g c n = c) → l.foldl g b = c := by
    intro l g; induction l with
    | nil => intro b c h _; exact h
    | cons n l ih =>
      rintro b c rfl hl
      rw [List.foldl_cons]
      exact ih _ _ (hl n (List.mem_cons_self ..)) fun m hm => hl m (List.mem_cons_of_mem _ hm)
  unfold State.spillVictim
  rw [hs]
  obtain ⟨d, hd⟩ : ∃ d, d = State.dirAt := ⟨_, rfl⟩
  rw [← hd] at h0 hn ⊢
  rw [List.range_succ_eq_map, List.foldl_cons]
  cases o with
  | none =>
    rw [hk _ _ _ (none, s) (by simp only [h0])]
    intro n hm
    obtain ⟨m, -, rfl⟩ := List.mem_map.mp hm
    simp only [hn _ (Nat.succ_pos m)]
  | some e =>
    rw [hk _ _ _ ((if e.state = 1 ∧ e.pins = 0 ∧ e.keep = false ∧ ¬ s.folio.passed.contains 0 then some (0, e) else none), s)
      (by simp only [h0]; exact (apply_ite (fun v => (v, s)) _ _ _).symm)]
    intro n hm
    obtain ⟨m, -, rfl⟩ := List.mem_map.mp hm
    simp only [hn _ (Nat.succ_pos m)]
theorem victim_slot0 (st : Nat) (f : Folio) (h : parseDir ((slot0 st f).peek ((slot0 st f).slotOff 0) 64) = some (entry0 st))
    (p : f.passed = []) : (slot0 st f).spillVictim.1 = if st = 1 then some (0, entry0 st) else none := by
  have d (n : Nat) : (slot0 st f).dirAt n = (parseDir ((slot0 st f).peek ((slot0 st f).slotOff n) 64), slot0 st f) := by
    unfold State.dirAt
    rw [hbmRead_clean (State.hbmRefuses_none (serves rfl) _ _) (hasDamage_nil rfl _ _)]
  have e := victim (s := slot0 st f) 16383 rfl ((d 0).trans (by rw [h])) fun n hn => (d n).trans (by rw [no_entry st f n hn])
  have q : (slot0 st f).folio.passed = [] := p
  rw [e, q]
  simp [entry0]
/-- Frames to spare; a folio to spill into a free unit, and with none free; none to spill; a spill under way, and none. -/
theorem witness_FolioHomes_spills : (pool.folio.freeFrames ≠ 0 ∧ pool.folio.lowater ≤ pool.folio.freeFrames) ∧
    (∃ f : Folio, Healthy (slot0 1 f) ∧ (slot0 1 f).folio.run = true ∧ (slot0 1 f).folio.freeFrames < (slot0 1 f).folio.lowater ∧
      (slot0 1 f).spillVictim.1 = some (0, entry0 1) ∧ (slot0 1 f).folio.units.Pairwise (· < ·) ∧
      (slot0 1 f).folio.areaUsed.length < (slot0 1 f).folio.spillUnits) ∧
    (∃ f : Folio, (slot0 1 f).spillVictim.1 = some (0, entry0 1) ∧ (slot0 1 f).folio.spillUnits ≤ (slot0 1 f).folio.areaUsed.length) ∧
    (∃ f : Folio, (slot0 0 f).folio.run = true ∧ (slot0 0 f).spillVictim.1 = none) ∧
    (∃ f : Folio, (slot0 3 f).folio.spilling.find? (fun x => x.1 == 0) = some (0, 7) ∧ Entry (slot0 3 f) 0 (entry0 3)) ∧
    pool.folio.spilling.find? (fun x => x.1 == 0) = none := by
  refine ⟨by decide +kernel, ⟨{ lowater := 20000 }, healthy_slot0 _ _ (by decide +kernel), rfl, by decide +kernel, ?_,
    List.Pairwise.nil, by decide +kernel⟩, ⟨{ units := [7] }, ?_, by decide +kernel⟩, ⟨{}, rfl, ?_⟩,
    ⟨{ spilling := [(0, 7)] }, by decide +kernel, ?_⟩, by decide +kernel⟩
  · rw [victim_slot0 1 _ (by decide +kernel) rfl]; rfl
  · rw [victim_slot0 1 _ (by decide +kernel) rfl]; rfl
  · rw [victim_slot0 0 _ (by decide +kernel) rfl]; rfl
  · unfold Entry; exact ⟨by decide, by decide +kernel, by decide +kernel⟩

/-- A transfer of each kind that waits for its home, on local frame 0; none on frame 1. -/
theorem witness_FolioRequester : ∀ kind ∈ [FolioKind.promote, .new 9 5 0 65536 false, .evict],
    let x : LocalEntry := ⟨1, false, false, 5, 9, 0, 0⟩;
    let s : State := { pool { transfers := [(0, kind)] } with mem := ⟨cellsOf 0 (LocalEntry.bytes x), []⟩ };
    s.mem.wf = true ∧ Healthy s ∧ s.folio.transfers.find? (fun e => e.1 == 0) = some (0, kind) ∧
    parseLocal (s.peek (s.folio.tableOff + 64 * 0) 64) = .ok x ∧ 0 < s.folio.t1Count ∧ s.folioWaiters 0 4 = [] ∧
    x.cancel = false ∧ s.folio.touched.contains 0 = false ∧ s.folio.transfers.find? (fun e => e.1 == 1) = none := by
  intro kind h x s
  have := (by decide +kernel : ∀ kind ∈ [FolioKind.promote, .new 9 5 0 65536 false, .evict],
    let x : LocalEntry := ⟨1, false, false, 5, 9, 0, 0⟩;
    let s : State := { pool { transfers := [(0, kind)] } with mem := ⟨cellsOf 0 (LocalEntry.bytes x), []⟩ };
    s.mem.wf = true ∧ (parseLocal (s.peek (s.folio.tableOff + 64 * 0) 64)).toOption = some x ∧
    s.folio.transfers.find? (fun e => e.1 == 0) = some (0, kind) ∧ 0 < s.folio.t1Count ∧ s.folioWaiters 0 4 = [] ∧
    x.cancel = false ∧ s.folio.touched.contains 0 = false ∧ s.folio.transfers.find? (fun e => e.1 == 1) = none) kind h
  exact ⟨this.1, ⟨rfl, serves rfl, this.1⟩, this.2.2.1, ok_of this.2.1, this.2.2.2⟩
theorem witness_FolioRequester_timeout : let k : QCmd := { op := .folioFlush, seq := 0, started := true, waits := 16 };
    ((one0 k).core 0).sq.cmds.head? = some k ∧ Only (one0 k) 0 k ∧ OthersRun (one0 k) 0 ∧ IsFolio k ∧ k.result = none ∧ k.await ≠ 1 ∧
    (one0 k).folio.timeout ≤ k.waits ∧ ({ k with waits := 15 } : QCmd).waits < (one0 k).folio.timeout ∧ (one0 k).mem.wf = true :=
  ⟨by decide +kernel, by unfold Only; decide +kernel, others0 _, .inr (.inr rfl), rfl, by decide, by decide +kernel, by decide +kernel,
    by decide +kernel⟩
/-- The last bytes of the first unit; no capacity beyond it; a write that waits for the commit of its record. -/
theorem witness_FlashLayer : ∃ f : Ftl, let s : State := { hbm with ftl := f };
    NoTrigger s ∧ s.nand.wf = true ∧ (∀ w ∈ s.ftl.waiting, ∃ r ∈ s.ftl.pendingRecs, r.seq < w.seq) ∧ s.ftl.waiting ≠ [] ∧
    (∀ w ∈ s.ftl.waiting, w.back = none) ∧ (∀ c, s.flashWaiter c (flashBase + 65535) 1 = none) ∧
    65535 / 65536 = (65535 + 1 - 1) / 65536 ∧ flashBase + 65535 + 1 ≤ flashEnd ∧ 65535 + 1 ≤ s.ftl.capacity * 65536 ∧
    s.ftl.ready = true ∧ s.ftl.readOnly = false ∧ s.ftl.newBlock = some 2 ∧ Healthy s ∧
    OffFrames s (s.ftl.mapBase.toNat * 65536 + 4 * (65535 / 65536)) 4 ∧
    mapFind s.ftl.current (65535 / 65536) = some 1 ∧ (s.ftl.block 1).reads + 1 ≠ s.ftl.rdLimit * 1000 :=
  ⟨{ ready := true, capacity := 1, good := 3, checkpoint := [(0, 0)], pendingRecs := [⟨0, 0, 1⟩], nextSeq := 1, waiting := [⟨1, none⟩] }, rfl,
    by decide +kernel, by decide, by decide, by decide, by decide +kernel, by decide, by decide, by decide, rfl, rfl, by decide +kernel,
    ⟨rfl, serves rfl, by decide +kernel⟩, .inl rfl, by decide +kernel, by decide +kernel⟩
/-- A STRM.FLASH that awaits the first 64 bytes of flash. -/
theorem witness_FlashLayer_waiter : let k : QCmd := { op := .strmFlash, seq := 0, started := true, await := 1
                                                      descs := [some ((td flashBase 1 [32] 64).flatMap fun w => bytesLE 8 w.toNat)] };
    let s : State := { one0 k with
      ftl := { ready := true, capacity := 1, good := 3, checkpoint := [(0, 1)] }, chipId := pair 0 };
    NoTrigger s ∧ s.nand.wf = true ∧ (∀ c' : CoreId, c'.val < (0 : CoreId).val → s.flashWaiter c' (flashBase + 0) 64 = none) ∧
    s.flashWaiter 0 (flashBase + 0) 64 = some k ∧ mapFind s.ftl.current (0 / 65536) = some 1 ∧
    (s.ftl.block 1).reads + 1 ≠ s.ftl.rdLimit * 1000 ∧ flashBase + 0 ≤ flashBase ∧ flashBase % 64 = 0 ∧ flashBase + 64 ≤ flashBase + 0 + 64 :=
  ⟨rfl, by decide +kernel, fun c' h => absurd h (Nat.not_lt_zero _), by decide +kernel, by decide +kernel, by decide +kernel, by decide, by decide,
    by decide⟩
theorem witness_FlashLayer_start : hbm.ftl.ready = false ∧ ({ hbm with cfg := { ftl := 1 } } : State).cfg.ftl ≠ 0 ∧ hbm.cfg.ftl = 0 ∧
    ({ readOnly := true } : Ftl).readOnly = true := by decide +kernel

theorem witness_StrokeRoundTrip : HdrOk { dest := 4095, kind := 6, vc := 1, run := 3, spread := 11, cred := 255, cpool := 2 } ∧
    (zeros 512).length = 512 := by unfold HdrOk; decide +kernel
/-- Chip 0 with ports up; a stroke of its row for chip 1 leaves by port 0. -/
def linked (l : List PortId) : State :=
  { up with ports := Vector.ofFn fun i => if i ∈ l then { state := .upData, logical := i.val, credVc0 := 1, credVc1 := 1 } else {} }
def hdr (dest kind run : Nat) : Hdr := { dest := dest, kind := kind, run := run }
/-- The stroke of header `hdr 1 4 2` and a body of zeros, whose check bytes are zeros; an idle stroke; and the 8 header bytes and
24 check bytes of the packet below. -/
def blankStroke : List Byte := [0, 0, 0, 136, 1, 0, 172, 37] ++ zeros 536
def idleStroke2 : List Byte := [0, 16, 0, 0, 0, 0, 215, 199] ++ zeros 536
def packetHead : List Byte := [0, 0, 0, 128, 0, 0, 211, 83]
def packetCheck : List Byte :=
  [76, 163, 4, 253, 12, 116, 6, 226, 129, 52, 216, 231, 196, 24, 198, 116, 163, 66, 142, 89, 67, 189, 119, 209]
theorem witness_StrokesAtPorts : Reads blankStroke (hdr 1 4 2) (zeros 512) ∧ HdrOk (hdr 1 4 2) ∧
    Up (linked [0, 3]) 3 ∧ ¬ Up (linked [0]) 3 ∧ Calm (linked [0, 3]) ∧
    routePort (linked [0, 3]).chip ((linked [0, 3]).fabric.rowRacks + 1) 1 0 = some (0, false) ∧
    (linked [0, 3]).outPort 0 0 = some 0 ∧ (linked [0, 3]).classOf 3 = (linked [0, 3]).classOf 0 ∧
    0 < ((linked [0, 3]).port 0).credits 0 ∧ ((linked [0, 3]).port 0).open0 = none ∧ ((linked [0, 3]).port 0).open1 = none ∧
    (∀ l leaves, routePort (linked [3]).chip ((linked [3]).fabric.rowRacks + 1) 1 0 = some (l, leaves) → (linked [3]).outPort l 0 = none) := by
  refine ⟨?_, ?_, ?_, ?_, ?_, by decide +kernel, by decide +kernel, by decide +kernel, by decide +kernel, by decide +kernel,
    by decide +kernel, ?_⟩
  · refine ⟨by decide +kernel, by decide +kernel, ?_, by decide +kernel⟩
    have hz : slice blankStroke 8 512 = zeros 512 := by decide +kernel
    have hw (w : Nat) (h : w < 4) : bodyWord (zeros 512) w = zeros 128 := by
      rw [bodyWord_eq _ h]
      have (n : Nat) : byteAt (zeros 512) n = 0 := by
        simp only [byteAt, zeros, List.getD, List.getElem?_replicate]; split <;> rfl
      simp only [this, List.map_const', List.length_range]; rfl
    have hc : rsDecode 134 6 3 (wordPattern (zeros 128 ++ zeros 6)) = some [] := by decide +kernel
    have hs : ∀ w < 4, slice blankStroke (520 + 6 * w) 6 = zeros 6 := by decide +kernel
    exact (readBody_clean _ fun w h => by rw [hz, hw w h, hs w h, hc]).trans (congrArg some hz)
  · unfold HdrOk; decide
  · unfold Up; decide +kernel
  · unfold Up; decide +kernel
  · unfold Calm; decide +kernel
  · intro l leaves h
    have e : routePort (linked [3]).chip ((linked [3]).fabric.rowRacks + 1) 1 0 = some (0, false) := by decide +kernel
    rw [e] at h; cases h; decide +kernel
/-- A header that cannot be read; a stroke whose KIND goes no further and one that a management-only port does not carry; a port
with no credit left, between ports of two classes. -/
def broken : List Byte := [1, 2, 4, 8, 16, 32, 64, 128] ++ zeros 536
theorem witness_StrokesAtPorts_others : readHeader broken = none ∧ (hdr 1 6 0).kind = 6 ∧
    (({ state := .upMgmt } : Port).carries (hdr 1 4 2) = false ∧ ({ state := .upMgmt } : Port).carries { hdr 1 5 2 with vc := 1 } = true) ∧
    (let s : State := { linked [0, 3] with ports := (linked [0, 3]).ports.set 0 { state := .upData, cls := 1, logical := 0 } };
      s.outPort 0 0 = some 0 ∧ s.classOf 3 ≠ s.classOf 0 ∧ Calm s ∧ Up s 3 ∧ ¬ 0 < (s.port 0).credits 0) := by
  unfold Calm Up; decide +kernel
theorem witness_StrokesAtPorts_idle : readHeader idleStroke2 =
    some ({ dest := 0, kind := 0, cpool := 2 }, false) ∧ ((linked [3]).port 3).windowBytes < 2 ^ 32 ∧
    readHeader blankStroke = some (hdr 1 4 2, false) ∧ (hdr 1 4 2).kind ≠ 0 ∧ Up (linked [3]) 3 ∧ Calm (linked [3]) := by
  unfold Calm Up; decide +kernel

/-- A write request of seven units to the top of HBM. -/
def trans (epoch : Nat) : Trans := { src := 1, dest := 0, op := 1, units := 7, addr := hbmEnd - 448, epoch := epoch }
def packet (epoch : Nat) : List Byte := (trans epoch).bytes ++ zeros 448
theorem witness_PacketsAndTimeouts : let s : State := { linked [3] with hbmStacks := hbm.hbmStacks, cores := run.cores };
    Reads (packetHead ++ packet 0 ++ packetCheck) (hdr 0 4 0) (packet 0) ∧ HdrOk (hdr 0 4 0) ∧ (hdr 0 4 0).dest = s.chip ∧ Up s 3 ∧ Calm s ∧
    s.allDone = false ∧ readTrans (packet 0) = some (trans 0) ∧ readTrans (packet 1) = some (trans 1) ∧ (trans 0).dest = s.chip ∧
    (trans 0).epoch = s.epoch.toNat ∧ (trans 1).epoch ≠ s.epoch.toNat ∧ Healthy s ∧ (trans 0).addr + 64 * 7 ≤ hbmEnd ∧
    s.hbmGuarded (trans 0).addr (64 * 7) = false ∧ NoTrigger s ∧ OffFrames s (trans 0).addr (64 * 7) := by
  refine ⟨?_, ?_, by decide +kernel, ?_, ?_, by decide +kernel, by decide +kernel, by decide +kernel, by decide +kernel, by decide +kernel,
    by decide +kernel, ⟨rfl, serves rfl, by decide +kernel⟩, by decide +kernel, by decide +kernel, rfl, .inl rfl⟩
  · refine ⟨by decide +kernel, by decide +kernel, ?_, by decide +kernel⟩
    have hz : slice (packetHead ++ packet 0 ++ packetCheck) 8 512 = packet 0 := by decide +kernel
    have hw (w : Nat) (h : w < 4) : bodyWord (packet 0) w =
        ((List.range 16).map fun j => byteAt (trans 0).bytes (16 * (j / 4) + 4 * w + j % 4)) ++ zeros 112 := by
      have hl : (trans 0).bytes.length = 64 := by decide +kernel
      rw [bodyWord_eq _ h]
      apply List.ext_getElem
      · simp [zeros]
      · intro i h1 h2
        simp only [List.getElem_map, List.getElem_range, packet, byteAt, List.getD, List.getElem_append, List.length_map,
          List.length_range]
        by_cases hi : i < 16
        · rw [dif_pos hi, List.getElem?_append_left (by rw [hl]; omega)]
        · rw [dif_neg hi, List.getElem?_append_right (by rw [hl]; omega)]
          simp only [zeros, List.getElem?_replicate, List.getElem_replicate]; split <;> rfl
    have hc : ∀ w < 4, rsDecode 134 6 3 (wordPattern (((List.range 16).map fun j =>
        byteAt (trans 0).bytes (16 * (j / 4) + 4 * w + j % 4)) ++ zeros 112 ++ slice packetCheck (6 * w) 6)) = some [] := by decide +kernel
    have hs : ∀ w < 4, slice (packetHead ++ packet 0 ++ packetCheck) (520 + 6 * w) 6 = slice packetCheck (6 * w) 6 := by decide +kernel
    exact (readBody_clean _ fun w h => by rw [hz, hw w h, hs w h, hc w h]).trans (congrArg some hz)
  · unfold HdrOk; decide
  · unfold Up; decide +kernel
  · unfold Calm; decide +kernel
/-- A request of a running STRM.COPY that times out, one whose command has gone, and a tag that nothing awaits. -/
theorem witness_PacketsAndTimeouts_timeout : let o : Outstanding := { tag := 7, core := 0, seq := 0, item := 0, epoch := 0, read := true };
    let k : QCmd := { op := .strmCopy, seq := 0, started := true, await := 1 };
    let s : State := { one0 k with fabric := { outstanding := [o] } };
    let g : State := { run with fabric := { outstanding := [o] }, cores := run.cores.set 1 { running := true } };
    NoTrigger s ∧ s.fabric.outstanding.find? (fun x => x.tag == (7 : BitVec 24).toNat) = some o ∧ OthersRun s o.core ∧ Only s o.core k ∧
    o.queue = .sq ∧ o.seq = k.seq ∧ k.result = none ∧
    (g.fabric.outstanding.find? (fun x => x.tag == (7 : BitVec 24).toNat) = some o ∧ OthersRun g o.core ∧ (g.core o.core).allCmds = []) ∧
    s.fabric.outstanding.find? (fun x => x.tag == (8 : BitVec 24).toNat) = none :=
  ⟨rfl, by decide +kernel, ⟨1, by decide, by decide +kernel⟩, by unfold Only; decide +kernel, rfl, rfl, rfl,
    ⟨by decide +kernel, ⟨1, by decide, by decide +kernel⟩, by decide +kernel⟩, by decide +kernel⟩

/-! ## Witnesses: training, fabric control, collectives -/

def inPort (st : PortState) (att : Nat := 0) (m : Nat := 1) : State :=
  { up with ports := Vector.replicate 36 { state := st, attempts := att, expect := pair 7, mode := m }, fabric := { run := true, permitted := true },
            power := { on := 0xFFFFFFF } }
theorem witness_TrainingStages : ((inPort .equalise).port 35).state = .equalise ∧ ((inPort .idle).port 35).state ≠ .equalise ∧
    ((inPort .errorTest 31).port 0).state = .errorTest ∧ ((inPort .idle).port 0).state ≠ .errorTest ∧
    (∀ m ∈ [1, 2], let s := inPort .identity 0 m
      (s.port 35).state = .identity ∧ (s.port 35).level < 4 ∧ (s.port 35).cls < 4 ∧ (s.port 35).expect = pair 7 ∧
      (s.port 35).peerPort = 0 ∧ s.boot.abi < 2 ^ 26 ∧ ((s.port 35).mode = 1 ∨ (s.port 35).mode = 2)) ∧
    (let s : State := { up with ports := Vector.replicate 36 { state := .identity, identityMode := some 2 } };
      (s.port 35).state = .identity ∧ (s.port 35).identityMode = some 2 ∧ (s.port 35).cause = .none) ∧
    ((inPort .idle).port 0).state ≠ .identity ∧ (zeros 64).length = 64 ∧ (List.replicate 63 0).length < 64 := by decide +kernel
/-- An identity body of invalid words, and one of valid words with another tag than a member's (which is zeros without a
key). -/
theorem witness_TrainingStages_refused : (64 ≤ (zeros 64).length ∧ ∃ i < 6, pairOk (w64At (zeros 64) (8 * i)) = false) ∧
    (let b : List Byte := (List.replicate 6 (pairBytes 0)).flatten ++ List.replicate 16 1;
      64 ≤ b.length ∧ (∀ i < 6, pairOk (w64At b (8 * i)) = true) ∧ slice b 0x30 16 ≠ (inPort .identity).memberTag b) := by
  refine ⟨by decide +kernel, by decide +kernel, by decide +kernel, ?_⟩
  show _ ≠ zeros 16
  decide +kernel
/-- Ports that train at once, and ones that find no room; a slot that opens; a port that does not train; a fabric that does not
run, and one to stop, with packets begun and without. -/
theorem witness_FabricControl : let s := inPort .upData;
    (s.fabric.run = true ∧ (s.port 35).trains = true ∧ s.fabric.permitted = true ∧ s.linkDieOn 35 = true ∧ s.slotsUsed (dieOfPort 35) < 9 ∧
      Up s 35) ∧
    (let n := inPort .equalise; (n.port 35).trains = true ∧ ¬ n.slotsUsed (dieOfPort 35) < 9 ∧ ¬ Up n 35) ∧
    (((inPort .backOff).port 35).state = .backOff ∧ ((inPort .backOff).port 35).waiting = false ∧
      (inPort .backOff).slotsUsed (dieOfPort 35) < 9) ∧
    (let u : State := { s with ports := s.ports.set 18 { mode := 2, waiting := true } };
      (u.port 18).waiting = true ∧ (∀ q : PortId, q < 18 → dieOfPort q.val = dieOfPort 18 → (u.port q).waiting = false) ∧
      u.slotsUsed (dieOfPort 18) < 9 ∧ (u.port 18).trains = true) ∧
    ((inPort .idle 0 0).port 0).trains = false ∧ State.reset.fabric.run = false ∧ State.reset.cfg.nextKey = none ∧
    (up.boot.booted = true ∧ up.cfg.applied = false) ∧ (∃ a : State, a.boot.booted = true ∧ a.cfg.applied = true) ∧
    up.fabric.run = false ∧ s.tick.run = false ∧ (∃ u : State, u.tick.run = true) ∧
    (∃ u : State, u.fabric.run = true ∧ u.fabric.stopping = true ∧ ∀ q, (u.port q).open0 = none ∧ (u.port q).open1 = none) ∧
    ∃ u : State, ∃ q, (u.port q).open0 ≠ none ∨ (u.port q).open1 ≠ none := by
  refine ⟨⟨?_, ?_, ?_, ?_, ?_, .inl ?_⟩, ⟨?_, ?_, ?_⟩, ?_, ?_, rfl, rfl, rfl, ⟨rfl, rfl⟩,
    ⟨{ up with cfg := { applied := true } }, rfl, rfl⟩, rfl, rfl, ⟨{ up with tick := { run := true } }, rfl⟩,
    ⟨{ up with fabric := { run := true, stopping := true } }, rfl, rfl, ?_⟩,
    { up with ports := Vector.replicate 36 { open0 := some none } }, 35, .inl ?_⟩ <;>
    first | decide +kernel | (unfold Up; decide +kernel)

def grantMsg (e : Half) : GrantMsg := { chip := 0, core := 0, group := 255, gid := 0, seq := 0, step := 0, piece := 0, epoch := e }
def abortMsg (g : Fin 256) (q : Word32) (e : Half) : AbortMsg := { group := g, seq := q, status := .timeout, origin := 0, epoch := e }
theorem witness_CollectiveEvents : up.mem.wf = true ∧ (grantMsg 1).epoch ≠ up.epoch ∧ (grantMsg 0).epoch = up.epoch ∧ up.runningXh 0 = none ∧
    (abortMsg 255 0 1).epoch ≠ up.epoch ∧ (abortMsg 255 0 0).epoch = up.epoch ∧
    up.coll.abortSeen (abortMsg 255 0 0).group.val (abortMsg 255 0 0).seq.toNat = false ∧
    ({ aborted := [{ group := 255, seq := 0, status := .timeout }] } : Coll).abortSeen 255 0 = true ∧ Healthy hbm ∧
    (abortMsg 255 0 0).status ≠ .ok ∧ run.allDone = false ∧ (∀ c, run.runningXh c = none) ∧ run.coll.run = false ∧
    (∃ s : State, s.coll.run = true) ∧
    (∃ s : State, s.coll.stopping = true ∧ ∀ c, ∀ k ∈ (s.core c).sq.cmds, k.op.isXh = false) :=
  ⟨by decide +kernel, by decide, by decide, by decide +kernel, by decide, by decide, rfl, by decide, ⟨rfl, serves rfl, by decide +kernel⟩, by decide, by decide +kernel, by decide +kernel, rfl,
    ⟨{ up with coll := { run := true } }, rfl⟩, { up with coll := { stopping := true } }, rfl, by decide +kernel⟩
/-- A running XH command: an abort of its collective, and its wait limit. -/
theorem witness_CollectiveEvents_running :
    let k : QCmd := { op := .xhStep, seq := 0, started := true, waits := 2, block := pairBytes 255, xh := { seq := 9 } };
    (one0 k).mem.wf = true ∧ (abortMsg 255 9 0).epoch = (one0 k).epoch ∧ OthersRun (one0 k) 0 ∧ Only (one0 k) 0 k ∧
    (one0 k).runningXh 0 = some k ∧ (∀ d, d ≠ 0 → (one0 k).runningXh d = none) ∧ (xhBlk k.block).group = (abortMsg 255 9 0).group.val ∧
    k.xh.seq = (abortMsg 255 9 0).seq.toNat ∧ 1 ≤ (one0 k).coll.waitLimit ∧ (one0 k).coll.waitLimit ≤ k.waits ∧
    ({ k with waits := 1 } : QCmd).waits < (one0 k).coll.waitLimit :=
  ⟨by decide +kernel, by decide +kernel, ⟨1, by decide, by decide +kernel⟩, by unfold Only; decide +kernel, by decide +kernel,
    by decide +kernel, by decide +kernel, by decide, by decide, by decide, by decide⟩
/-- A running step that a grant wakes. -/
theorem witness_CollectiveEvents_grant :
    let k : QCmd := { op := .xhStep, seq := 0, started := true, waits := 2, block := pairBytes 255, xh := { seq := 9 } };
    let s := one0 k;
    let j : QCmd := { k with waits := 0 };
    let t := ({ s with coll := { s.coll with grants := s.coll.grants ++ [grantMsg 0] } } : State).putCmd 0 j;
    (grantMsg 0).epoch = s.epoch ∧ s.runningXh (grantMsg 0).core = some k ∧ (pumpXh 0 j).exec t = (.ok j, t) ∧ Only t 0 j ∧ OthersRun t 0 :=
  ⟨by decide +kernel, by decide +kernel, exec_ok (by decide +kernel), by unfold Only; decide +kernel, 1, by decide, by decide +kernel⟩

/-! ## Witnesses: Intaglio -/

def pairsOf (l : List Nat) : List Byte := l.flatMap fun n => pairBytes n
/-- An AV1 4:2:0 session of 64 × 64 pictures at 8 bits; surfaces of 6,144 bytes; on encode, mini-GOPs of 2^gop pictures. -/
def conf (dir : Nat) (gop : Nat := 0) : SessCfg :=
  ⟨pairsOf [dir * 2 ^ 28 + 2 ^ 24, 64 * 65536 + 64, 31, 2 ^ 20, 0, 2 ^ 30, 0, if dir = 2 then 2 ^ 16 + 2 ^ 12 + 2 ^ 10 * gop else 0, 0, 0, 60, 0]
    ++ zeros 32⟩
/-- Its fields are all in order, so that the level alone decides. -/
theorem conf_formed : (conf 1).formed = Config.levelOk (conf 1).bytes := by
  have a : ((conf 1).dir == 1 || (conf 1).dir == 2) = true := by decide +kernel
  have b : (conf 1).supported = true := by decide +kernel
  have c : (decide ((conf 1).iofmt < 2)) = true := by decide +kernel
  have d : ((conf 1).w 0 % 2 ^ 19 == 0) = true := by decide +kernel
  have e : (conf 1).sizeOk = true := by decide +kernel
  have f : (decide ((conf 1).w 0x10 < 32)) = true := by decide +kernel
  have g : allZero (slice (conf 1).bytes 0x60 32) = true := by decide +kernel
  have h : (if (conf 1).dir = 1 then (conf 1).w 0x38 == 0 else (conf 1).encodeOk) = true := by decide +kernel
  simp only [SessCfg.formed, a, b, c, d, e, f, g, h, Bool.true_and, Bool.and_true]
/-- Job 0 of a KIND in session 15: input at 64 KiB, output at 128 KiB. -/
def job (kind inp size out osize : Nat) : Job :=
  { n := 0, entry := pairsOf [kind * 2 ^ 28 + 15 * 2 ^ 20, 0, 0, inp, 0, size, out, 0, osize, 0, 0] ++ zeros 40 }
/-- Engine 7 with jobs and a session 15, and the dies on. -/
def media (x : Engine) (o : Option Session) (m : List Host.Cell := []) : State :=
  { hbm with
    engines := State.reset.engines.set 7 { x with run := true, sessions := x.sessions.set 15 o }, mem := ⟨m, []⟩
    power := { on := 0xFFFFFFF }, chipId := pair 0 }
theorem healthy_media (x : Engine) (o : Option Session) (m : List Host.Cell) (h : (⟨m, []⟩ : Memory).wf = true) : Healthy (media x o m) :=
  ⟨rfl, serves rfl, h⟩

/-- A PROD of 1 at the ring's base; job 0 of the ring opens session 15. -/
theorem witness_MediaRings : ∃ (s : State) (j : Job), Healthy s ∧ RingFree s 7 ∧ NoTrigger s ∧ (s.engine 7).run = true ∧
    (s.engine 7).stopping = false ∧ (s.engine 7).cons < 2 ^ 32 ∧
    s.peek64 (s.engine 7).base = pair 1 ∧ 1 = ((s.engine 7).cons + 1) % 2 ^ 32 ∧ (s.engine 7).jobs.length < 64 ∧
    j = { n := (s.engine 7).cons, entry := s.peek ((s.engine 7).entryOff (s.engine 7).cons) 128 } ∧
    (jobChecks 7 j).exec (s.modEngine 7 fun x => { x with prod := 1 }) = (.ok (), s.modEngine 7 fun x => { x with prod := 1 }) ∧
    s.engineFenced 7 = false ∧ j.kind ≠ 1 ∧ (∀ i ∈ (s.engine 7).jobs, i.session = j.session → i.kind ≠ 1 ∨ i.unit.isSome = true) :=
  let m := cellsOf 0 (pairBytes 1 ++ zeros 56 ++ (job 4 65536 0 0 0).entry)
  ⟨media {} none m, job 4 65536 0 0 0, healthy_media _ _ _ (by decide +kernel), by unfold RingFree OffFrames; decide +kernel, rfl,
    by decide +kernel, by decide +kernel, by decide +kernel, by decide +kernel, by decide +kernel, by decide +kernel, by decide +kernel,
    exec_ok (by decide +kernel), by decide +kernel, by decide, by decide +kernel⟩
/-- PROD one further ahead than the ring is long; no paired word where PROD was CONS; PROD equal to CONS; an engine at rest. -/
theorem witness_MediaRings_fault : (let s := media {} none (cellsOf 0 (pairBytes 17));
      Healthy s ∧ RingFree s 7 ∧ NoTrigger s ∧ (s.engine 7).run = true ∧ (s.engine 7).stopping = false ∧ s.peek64 (s.engine 7).base = pair 17 ∧
      (s.engine 7).entries < (17 + 2 ^ 32 - (s.engine 7).cons) % 2 ^ 32) ∧
    (let s := media {} none; (s.engine 7).prod = (s.engine 7).cons ∧ pairOk (s.peek64 (s.engine 7).base) = false) ∧
    (let s := media {} none (cellsOf 0 (pairBytes 0)); s.peek64 (s.engine 7).base = pair 0 ∧ 0 = (s.engine 7).cons) ∧
    (let s := hbm; Healthy s ∧ RingFree s 7 ∧ NoTrigger s ∧ (s.engine 7).run = false) :=
  ⟨⟨healthy_media _ _ _ (by decide +kernel), by unfold RingFree OffFrames; decide +kernel, rfl, by decide +kernel, by decide +kernel,
      by decide +kernel, by decide +kernel⟩, by decide +kernel, by decide +kernel, ⟨rfl, serves rfl, by decide +kernel⟩,
    by unfold RingFree OffFrames; decide +kernel, rfl, by decide +kernel⟩
theorem witness_MediaRings_ends : let j : Job := { job 4 65536 0 0 0 with served := true, status := some .ok };
    let s := media { jobs := [j] } none;
    Healthy s ∧ RingFree s 7 ∧ (s.engine 7).jobs.find? (fun i => i.n == 0) = some j ∧ j.served = true ∧ j.status = some .ok ∧
    (s.engine 7).jobs.find? (fun i => i.n == 1) = none ∧ (s.engine 7).jobs ≠ [] ∧
    (∃ u, Healthy u ∧ RingFree u 7 ∧ NoTrigger u ∧ (u.engine 7).run = false ∧ u.peek64 ((u.engine 7).base + 8) = pair 0) ∧
    ∃ u, Healthy u ∧ RingFree u 7 ∧ NoTrigger u ∧ (u.engine 7).run = true ∧ (u.engine 7).stopping = true ∧ (u.engine 7).jobs = [] :=
  ⟨healthy_media _ _ _ (by decide +kernel), by unfold RingFree OffFrames; decide +kernel, by decide +kernel, rfl, rfl, by decide +kernel,
    by decide +kernel, ⟨{ hbm with mem := ⟨cellsOf 8 (pairBytes 0), []⟩ }, ⟨rfl, serves rfl, by decide +kernel⟩,
      by unfold RingFree OffFrames; decide +kernel, rfl, by decide +kernel, by decide +kernel⟩,
    media { stopping := true } none, healthy_media _ _ _ (by decide +kernel), by unfold RingFree OffFrames; decide +kernel, rfl, by decide +kernel,
    by decide +kernel, by decide +kernel⟩

/-- Each KIND is served next, in a session whose configuration stands at 64 KiB. -/
theorem witness_MediaSessions_open : let j := job 4 65536 0 0 0; let s := media { jobs := [j] } none (cellsOf 65536 (conf 1).bytes);
    Healthy s ∧ Next s 7 0 4 j ∧ s.engineFenced 7 = false ∧ (s.engine 7).session j.session = none ∧ ConfAt s j (conf 1) ∧
    AreasFree s (conf 1) ∧ (s.engine 7).waiting j.session [0] = [] := by
  refine ⟨healthy_media _ _ _ (by decide +kernel), ?_, by decide +kernel, by decide +kernel,
    ⟨by decide +kernel, by decide +kernel, by decide +kernel, by decide +kernel, conf_formed, by decide +kernel, by decide +kernel⟩,
    by unfold AreasFree; decide +kernel, by decide +kernel⟩
  unfold Next; decide +kernel
theorem witness_MediaSessions_reconfigure : let j := job 5 65536 0 0 0; let x : Session := { cfg := (conf 1).bytes };
    let s := media { jobs := [j] } (some x) (cellsOf 65536 (conf 1).bytes);
    Healthy s ∧ Next s 7 0 5 j ∧ (openSession 7 j).exec s = (.ok x, s) ∧ j.session < 16 ∧ (s.engine 7).session j.session = some x ∧
    ConfAt s j (conf 1) ∧ (conf 1).dir = x.conf.dir ∧ (conf 1).codec = x.conf.codec ∧ (conf 1).frames = x.conf.frames ∧
    (conf 1).frameBase = x.conf.frameBase := by
  refine ⟨healthy_media _ _ _ (by decide +kernel), ?_, exec_ok (by decide +kernel), by decide +kernel, by decide +kernel,
    ⟨by decide +kernel, by decide +kernel, by decide +kernel, by decide +kernel, conf_formed, by decide +kernel, by decide +kernel⟩,
    rfl, rfl, rfl, rfl⟩
  unfold Next; decide +kernel
theorem witness_MediaSessions_close : let j := job 6 0 0 0 0; let x : Session := { cfg := (conf 1).bytes };
    let s := media { jobs := [j] } (some x);
    Healthy s ∧ Next s 7 0 6 j ∧ (openSession 7 j).exec s = (.ok x, s) := by
  refine ⟨healthy_media _ _ _ (by decide +kernel), ?_, exec_ok (by decide +kernel)⟩
  unfold Next; decide +kernel
/-- A flush; another job number; an engine with no job. -/
theorem witness_MediaSessions_flush : let j := job 3 0 0 131072 0; let x : Session := { cfg := (conf 1).bytes };
    let s := media { jobs := [j] } (some x);
    Healthy s ∧ Next s 7 0 3 j ∧ (openSession 7 j).exec s = (.ok x, s) ∧ (s.engine 7).session j.session = some x ∧ x.queue = [] ∧
    AreasFree s x.conf ∧ (s.engine 7).chosen = some j ∧ j.n ≠ 1 ∧ (hbm.engine 7).chosen = none := by
  refine ⟨healthy_media _ _ _ (by decide +kernel), ?_, exec_ok (by decide +kernel), by decide +kernel, rfl,
    by unfold AreasFree; decide +kernel, by decide +kernel, by decide, by decide +kernel⟩
  unfold Next; decide +kernel
theorem witness_MediaPictures_decode : let j : Job := { job 1 65536 64 131072 0 with unit := some 0 };
    let x : Session := { cfg := (conf 1).bytes, pics := [{ data := zeros 64 }] };
    let s := (media { jobs := [j] } (some x)).atTime 0;
    Healthy s ∧ (openSession 7 j).exec s = (.ok x, s) ∧ (s.engine 7).session j.session = some x ∧ j.session < 16 ∧ AreasFree s x.conf ∧
    x.bufs.length < x.conf.frames ∧ Next s 7 0 1 j ∧ j.unit = some 0 ∧ 0 < x.pics.length ∧ (x.pic 0).failed = none ∧ 1 ≤ j.inSize ∧
    s.hbmGuarded (j.inAddr % 2 ^ 48) j.inSize = false := by
  refine ⟨healthy_media _ _ _ (by decide +kernel), exec_ok (by decide +kernel), by decide +kernel, by decide +kernel,
    by unfold AreasFree; decide +kernel, by decide +kernel, ?_, rfl, by decide, rfl, by decide +kernel, by decide +kernel⟩
  unfold Next; decide +kernel
/-- A picture that its mini-GOP of four holds, and one that is a mini-GOP of its own. -/
theorem witness_MediaPictures_encode : ∀ gop ∈ [0, 2], let j := job 2 65536 0 131072 64;
    let x : Session := { cfg := (conf 2 gop).bytes, keyNext := false };
    let s := (media { jobs := [j] } (some x)).atTime 0;
    let key := x.keyNext || j.bit 4 || decide (x.conf.keyInterval ≤ x.sinceKey);
    Healthy s ∧ (openSession 7 j).exec s = (.ok x, s) ∧ (s.engine 7).session j.session = some x ∧ j.session < 16 ∧ AreasFree s x.conf ∧
    Next s 7 0 2 j ∧ j.stAddr = 0 ∧ x.queue = [] ∧ x.encoded ≤ x.pics.length ∧ (∀ b ∈ x.bufs, b.1 < x.conf.frames) ∧
    1 ≤ x.conf.surfaceSize ∧ s.hbmGuarded (j.inAddr % 2 ^ 48) x.conf.surfaceSize = false ∧
    (if key then 0 else x.longRefs) + (if j.bit 5 then 1 else 0) ≤ 2 ∧
    ((held x key j).length < x.conf.miniGop ∧ (∀ i ∈ held x key j, i.key = false ∧ i.eos = false) ↔ gop = 2) ∧
    (x.conf.miniGop ≤ (held x key j).length ↔ gop = 0) ∧ x.bufs.length + (held x key j).length ≤ x.conf.frames ∧
    s.hbmGuarded (j.outAddr % 2 ^ 48) j.outSize = false ∧ OffFrames s (j.outAddr % 2 ^ 48) j.outSize := by
  intro gop h
  rcases List.mem_cons.mp h with rfl | h
  · refine ⟨healthy_media _ _ _ (by decide +kernel), exec_ok (by decide +kernel), by decide +kernel, by decide +kernel,
      by unfold AreasFree; decide +kernel, by unfold Next; decide +kernel, by unfold OffFrames; decide +kernel⟩
  · cases List.mem_singleton.mp h
    refine ⟨healthy_media _ _ _ (by decide +kernel), exec_ok (by decide +kernel), by decide +kernel, by decide +kernel,
      by unfold AreasFree; decide +kernel, by unfold Next; decide +kernel, by unfold OffFrames; decide +kernel⟩

/-! ## Witnesses: the host's RDMA, records and frames -/

/-- Both Ethernet ports up, queue pair 63 of port 1 ready, window 15 over the last 64 bytes of HBM, ring 15 on that queue pair. -/
def host (x : Qp := {}) (g : Ring := {}) : State :=
  { hbm with
    boot := { booted := true, powered := true }
    eth := Vector.replicate 2 { up := true, qps := Vector.replicate 64 { x with state := .ready } }
    windows := Vector.replicate 16 { open_ := true, base := hbmEnd - 64, length := 64, read := true, write := true }
    rings := State.reset.rings.set 15 { g with set := true, port := 1, qp := 63 } }
def rdma : RdmaReq := { port := 1, qp := 63, rkey := 0xF0000000, va := BitVec.ofNat 64 (hbmEnd - 64), ecn := true, now := 0 }
theorem witness_HostAccesses : (zeros 64).length = 64 ∧ up.qpTakes 1 63 = false ∧ host.qpTakes rdma.port rdma.qp = true ∧
    Healthy host ∧ rdma.va.toNat + 64 ≤ hbmEnd ∧ host.hbmGuarded rdma.va.toNat 64 = false ∧ OffFrames host rdma.va.toNat 64 ∧
    host.windowFor rdma.rkey rdma.va.toNat 64 true = true ∧ host.windowFor rdma.rkey rdma.va.toNat 64 false = true ∧
    host.windowFor 0 0 64 true = false ∧ host.windowFor 0 0 64 false = false ∧
    (let s : State := { host with coll := { run := true }, windows := Vector.replicate 16 { open_ := true, length := 64, read := true, write := true } };
      NoTrigger s ∧ 0 + 64 ≤ hbmEnd ∧ s.hbmGuarded 0 64 = true ∧ s.qpTakes 1 63 = true) :=
  ⟨by decide, by decide +kernel, by decide +kernel, ⟨rfl, serves rfl, by decide +kernel⟩, by decide +kernel, by decide +kernel, .inl rfl,
    by decide +kernel, by decide +kernel, by decide +kernel, by decide +kernel, ⟨rfl, by decide, by decide +kernel, by decide +kernel⟩⟩
/-- RX_CONS of 0 at 0: the last free slot of two, and a full area; the longest message, and one byte more. -/
theorem witness_HostAccesses_send : ∀ n ∈ [1, 2], let s : State := { host { rxK := 1, rxCount := n } with mem := ⟨cellsOf 0 (pairBytes 0), []⟩ };
    let x := s.qp 1 63;
    Healthy s ∧ s.qpTakes 1 63 = true ∧ (zeros 4032).length ≤ 4032 ∧ 4032 < (zeros 4033).length ∧
    s.hbmGuarded x.rxBase (64 + 4096 * 2 ^ x.rxK) = false ∧ OffFrames s x.rxBase (64 + 4096 * 2 ^ x.rxK) ∧
    x.rxBase + (64 + 4096 * 2 ^ x.rxK) ≤ hbmEnd ∧ 0 < 2 ^ 32 ∧ x.rxCount < 2 ^ 32 ∧ s.peek64 x.rxBase = pair 0 ∧
    ((x.rxCount + 2 ^ 32 - 0) % 2 ^ 32 < 2 ^ x.rxK ↔ n = 1) ∧ (2 ^ x.rxK ≤ (x.rxCount + 2 ^ 32 - 0) % 2 ^ 32 ↔ n = 2) := by
  intro n h
  have w : (⟨cellsOf 0 (pairBytes 0), []⟩ : Memory).wf = true := by decide +kernel
  refine ⟨⟨rfl, serves rfl, w⟩, ?_⟩
  revert n
  unfold OffFrames
  decide +kernel
def record : Rec := { type := 1, code := 0, tick := 0, body := zeros 40 }
theorem witness_QueuePairsAndRecords : up.qpTakes 1 63 = false ∧ (up.qp 1 63).state ≠ .ready ∧ (host.qp 0 63).state = .ready ∧
    host.qpTakes 0 63 = true ∧ (∀ r, (host.ring r).set = true → (host.ring r).port ≠ 0 ∨ (host.ring r).qp ≠ 63) ∧
    (host.ring 15).backlog = [] ∧ ((host {} { unacked := [(7, none)] }).ring 15).unacked.find? (fun u => u.1 == 7) = some (7, none) ∧
    (host.ring 15).unacked.find? (fun u => u.1 == 7) = none := by decide +kernel
/-- A ring of two slots that appears full, with CONS of 0 (still full) and of 1 (a slot free) at 0 of HBM; one with a slot free. -/
theorem witness_QueuePairsAndRecords_full : ∀ c ∈ [0, 1],
    let s : State := { host {} { backlog := [record], log2 := 1, seq := 2 } with mem := ⟨cellsOf 0 (pairBytes c), []⟩ };
    let g := s.ring 15;
    Healthy s ∧ g.full = true ∧ c < 2 ^ 32 ∧ g.consOff + 8 ≤ hbmEnd ∧ s.hbmGuarded g.consOff 8 = false ∧ s.peek64 g.consOff = pair c ∧
    g.backlog = record :: [] ∧ s.ringSends 15 = true ∧ s.proof.traceEn = false ∧ s.ringFull 15 = (c == 0, s.setRing 15 { g with cons := c }) := by
  intro c h
  have := (by decide +kernel : ∀ c ∈ [0, 1],
    let s : State := { host {} { backlog := [record], log2 := 1, seq := 2 } with mem := ⟨cellsOf 0 (pairBytes c), []⟩ };
    let g := s.ring 15;
    s.mem.wf = true ∧ g.full = true ∧ c < 2 ^ 32 ∧ g.consOff + 8 ≤ hbmEnd ∧ s.hbmGuarded g.consOff 8 = false ∧ s.peek64 g.consOff = pair c ∧
    g.backlog = record :: [] ∧ s.ringSends 15 = true ∧ s.proof.traceEn = false ∧
    s.ringFull 15 = (c == 0, s.setRing 15 { g with cons := c })) c h
  exact ⟨⟨rfl, serves rfl, this.1⟩, this.2⟩
theorem witness_QueuePairsAndRecords_free : let s := host {} { backlog := [record], log2 := 1, seq := 1 };
    (s.ring 15).full = false ∧ (s.ring 15).backlog = record :: [] ∧ s.ringSends 15 = true ∧ s.ringFull 15 = (false, s) := by decide +kernel
/-- A HOST.POST of core 0 whose record awaits its acknowledgement. -/
theorem witness_QueuePairsAndRecords_post : let k : QCmd := { op := .hostPost, seq := 0, started := true };
    let s : State := { one0 k with rings := State.reset.rings.set 15 { unacked := [(7, some (0, 0))] } };
    (s.ring 15).unacked.find? (fun u => u.1 == 7) = some (7, some (0, k.seq)) ∧ k.op = .hostPost ∧ Only s 0 k ∧ OthersRun s 0 ∧
    s.mem.wf = true :=
  ⟨by decide +kernel, rfl, by unfold Only; decide +kernel, ⟨1, by decide, by decide +kernel⟩, by decide +kernel⟩
/-- A port that is down; addresses configured, and the default configuration's link-local one; rings of the other port. -/
theorem witness_EthernetFrames : (up.boot.booted = true ∧ up.eth[(1 : Fin 2)].up = false) ∧ State.reset.boot.booted = false ∧
    (let s : State := { host with eth := host.eth.map fun x => { x with ipv4 := 1, ipv6 := 1 } };
      s.boot.booted = true ∧ s.eth[(1 : Fin 2)].up = true ∧ s.cfg.defaulted = false ∧ (1 : Word32) ≠ 0 ∧ (1 : Word32) = s.eth[(1 : Fin 2)].ipv4 ∧
      (2 : Word32) ≠ s.eth[(1 : Fin 2)].ipv4 ∧ (1 : BitVec 128) ≠ 0 ∧ (1 : BitVec 128) = s.eth[(1 : Fin 2)].ipv6 ∧
      (2 : BitVec 128) ≠ s.eth[(1 : Fin 2)].ipv6 ∧ (3 : BitVec 3).toNat = s.eth[(1 : Fin 2)].prio ∧
      (4 : BitVec 3).toNat ≠ s.eth[(1 : Fin 2)].prio ∧ (∀ r, (s.ring r).set = true → (s.ring r).port ≠ 0) ∧
      (s.ring 15).set = true ∧ (s.ring 15).port = 1) ∧
    (let s : State := { host with cfg := { defaulted := true } };
      s.boot.booted = true ∧ s.eth[(1 : Fin 2)].up = true ∧ s.cfg.defaulted = true ∧ 0 ≠ s.linkLocal 1) := by decide +kernel

/-! ## Witnesses: recovery, power, resets -/

/-- A count at its limit for the device, whose Easel does not answer; for one stack alone; and one below the limit. -/
theorem witness_HeartbeatsAndRecovery : let s : State := { up with recov := { missed := Vector.replicate 96 3 } };
    NoTrigger s ∧ s.tick.edgeChecked = false ∧ missedAfter s { easel := false } 0 = max 1 s.recov.hbLimit ∧ NoFusing s ∧
    (∀ n, missedAfter up { easel := false } n ≠ max 1 up.recov.hbLimit) ∧
    (∀ m, missedAfter s { hbmStacks := 0x7FF } m = max 1 s.recov.hbLimit ↔ m = 80) ∧ domOfNumber 80 = some (.stack, 11) ∧
    DomKind.stack ≠ .device ∧ s.recov.current = none := by
  refine ⟨rfl, rfl, by decide +kernel, by unfold NoFusing; decide +kernel, by decide +kernel, by decide +kernel, rfl, by decide, rfl⟩
/-- A recovery of stack 11, whose group of three is powered when `on` says so. -/
def recovers (p : RecPhase) (x : Stack := { retrained := true }) (on : BitVec 28 := -1) : State :=
  { run with
    recov := { current := some { kind := .stack, index := 11, trigger := 0, phase := p } }
    hbmStacks := State.reset.hbmStacks.set 11 x
    power := { on := on } }
theorem witness_HeartbeatsAndRecovery_steps :
    ((recovers .draining).recov.current = some { kind := .stack, index := (11 : StackId).val, trigger := 0, phase := .draining } ∧
      (recovers .draining).tick.run = false) ∧
    (let s : State := { recovers .draining with tick := { run := true }, parts := State.reset.parts };
      s.tick.lost = false ∧ s.allDone = false ∧ s.activeParts = []) ∧
    (let s : State := { recovers .draining with tick := { run := true, lost := true } }; s.tick.run = true ∧ s.tick.lost = true) ∧
    RecPhase.awaitEpoch ≠ .draining ∧ (recovers .draining).qcp.waiting = [] ∧ RecPhase.draining ≠ .resetting ∧
    ((recovers .resetting { busy := some ⟨3, 0, 0⟩ }).stack 11).fusing = true ∧
    ((recovers .resetting {}).phyOn 11 = true ∧ ((recovers .resetting {}).stack 11).retrained = false) ∧
    (∀ c ∈ [FenceCause.none, .training], let s := recovers .resetting { retrained := true, cause := c, fenced := c != .none };
      (s.stack 11).fusing = false ∧ (s.stack 11).retrained = true ∧ s.recov.waiting = [] ∧ s.qcp.current = none ∧
        s.qcp.waiting = [] ∧ (s.stack 11).cause = c) := by
  decide +kernel

/-- Every domain on, with partition 0 over the clusters or with no partition. -/
def powered (parts : Vector Part 8) (t : Tick := {}) : State := { up with power := { on := -1 }, parts := parts, tick := t }
def noParts : Vector Part 8 := Vector.replicate 8 {}
/-- PWR_DOMAIN: a wrong code, a change while the tick runs, a missing requirement, a cluster in use; no change while it runs;
from nothing to nothing, and from everything to nothing with no partition. -/
theorem witness_PowerAndResets_domains :
    (2 ^ 28 : Word).toNat / 2 ^ 28 % 4 ≠ 3 ∧
    ((powered noParts { run := true }).tick.run = true ∧ BitVec.ofNat 28 (3 * 2 ^ 28 : Word).toNat ≠ (powered noParts).power.on ∧
      BitVec.ofNat 28 (4 * 2 ^ 28 - 1 : Word).toNat = (powered noParts).power.on ∧ (4 * 2 ^ 28 - 1 : Word).toNat / 2 ^ 28 % 4 = 3) ∧
    (up.tick.run = false ∧ domainsOk ((3 * 2 ^ 28 + 1 : Word).toNat % 2 ^ 28) = false) ∧
    (let s := powered State.reset.parts; s.tick.run = false ∧ domainsOk ((4 * 2 ^ 28 - 2 : Word).toNat % 2 ^ 28) = true ∧
      ∃ i < 16, s.power.on.getLsbD i = true ∧ (BitVec.ofNat 28 (4 * 2 ^ 28 - 2 : Word).toNat).getLsbD i = false ∧
        s.domainUsed i = true) ∧
    (let s := powered noParts; s.tick.run = false ∧ domainsOk ((3 * 2 ^ 28 : Word).toNat % 2 ^ 28) = true ∧
      ¬ ∃ i < 16, s.power.on.getLsbD i = true ∧ (BitVec.ofNat 28 (3 * 2 ^ 28 : Word).toNat).getLsbD i = false ∧
        s.domainUsed i = true) ∧
    (BitVec.ofNat 28 (3 * 2 ^ 28 : Word).toNat &&& up.power.on = up.power.on ∧ up.tick.run = false) := by
  refine ⟨by decide, by decide +kernel, by decide +kernel, ⟨rfl, by decide +kernel, 0, by decide, by decide +kernel⟩,
    ⟨rfl, by decide +kernel, ?_⟩, by decide +kernel⟩
  rintro ⟨i, hi, -, -, h⟩
  revert h; revert i; decide +kernel
theorem witness_PowerAndResets :
    ((∃ s : State, s.power.raising = (27 : Fin 30) :: []) ∧ up.power.raising.head? ≠ some 27) ∧
    (let s : State := { up with tick := { run := true }, power := { quiet := 0, window := 2, samples := [65535] } };
      let l := (s.power.samples ++ [(65535 : Half).toNat]).drop (s.power.samples.length + 1 - max 1 s.power.window);
      s.tick.run = true ∧ (if s.tick.stepsAt ≠ none ∧ s.tick.stepsAt ≠ s.power.quietFor then max 1 s.power.window else s.power.quiet - 1) = 0 ∧
        s.capWatts < l.sum / l.length) ∧
    (let s : State := { up with power := { quiet := 2 } };
      (if s.tick.stepsAt ≠ none ∧ s.tick.stepsAt ≠ s.power.quietFor then max 1 s.power.window else s.power.quiet - 1) ≠ 0) ∧
    up.tick.run = false ∧ 0 ≤ up.capWatts ∧
    (110 < (111 : Byte).toNat ∧ up.power.dieBand[(12 : Fin 13)] ≠ .stop ∧ ∃ s : State, s.tick.run = true) ∧
    (95 < (96 : Byte).toNat ∧ (95 : Byte).toNat ≤ 95) ∧
    (125 < (126 : Byte).toNat ∧ (125 : Byte).toNat ≤ 125 ∧ 115 < (116 : Byte).toNat ∧ (115 : Byte).toNat ≤ 115 ∧ up.power.tripped = false) ∧
    ∃ s : State, s.power.tripped = true :=
  ⟨⟨⟨{ up with power := { raising := [27] } }, rfl⟩, by decide +kernel⟩, by decide +kernel, by decide +kernel, rfl, Nat.zero_le _,
    ⟨by decide, by decide +kernel, ⟨{ up with tick := { run := true } }, rfl⟩⟩, by decide, by decide, { up with power := { tripped := true } }, rfl⟩
/-- Pulses at and below their limits, with no stack that blows a fuse and with one. -/
theorem witness_PowerAndResets_pulses : 999999 < 1000000 ∧ 1999 < 2000 ∧ 999 < 1000 ∧ 9999 < 10000 ∧
    (∀ ns ∈ [1000000], ∀ e ∈ [(Instr.coldResetN ns, 1000000), (.powerGoodLoss ns, 2000), (.refclkLoss ns, 1000)], e.2 ≤ ns) ∧
    NoFusing up ∧ ¬ NoFusing (recovers .resetting { busy := some ⟨3, 0, 0⟩ }) :=
  ⟨by decide, by decide, by decide, by decide, by simp, by unfold NoFusing; decide +kernel, by unfold NoFusing; decide +kernel⟩

/-! ## Witnesses: start-up and security

The clauses of StartUp and SecurityCommands about a slot, an image or a token that passes rest on the signatures and hashes of
`Config`, which nothing evaluates; `checkFirmware_ok` and `checkToken_ok` say when such an image or token is accepted. -/

/-- A configuration copy of all defaults that is valid: chip 7, 600 W over 16 ticks. -/
def copyHead : List Byte :=
  cfgMagic ++ pairsOf [1, 5, 7, 0, 16 * 65536 + 600, 0, 0, 0, 0] ++ zeros 48 ++ zeros 128 ++
    (List.replicate 36 (zeros 8 ++ pairBytes 0)).flatten ++ zeros 3260
/-- With its CHECK, the CRC-32C of what precedes it. -/
def copyBytes : List Byte := copyHead ++ bytesLE 4 3693799651
theorem test_copy_valid : copyBytes.length = 4096 ∧ cfgReason copyBytes = 0 := by decide +kernel

theorem witness_StartUp : State.reset.boot.powered = false ∧ up.boot.powered = true ∧ up.boot.booted = true ∧
    (∃ s : State, s.boot.failed = 3) ∧
    (let s : State := { State.reset with boot := { powered := true } };
      s.boot.booted = false ∧ s.boot.failed = 0 ∧ s.slotPasses 0 = false ∧ s.slotPasses 1 = false ∧
      cfgReason (s.cfgCopy 0) ≠ 0 ∧ cfgReason (s.cfgCopy 1) ≠ 0) ∧
    (up.cfg.applied = false ∧ up.cfg.defaulted = false ∧ up.fabric.permitted = false) ∧
    (∃ s : State, s.cfg.defaulted = true ∧ s.cfg.applied = false ∧ s.boot.booted = true) ∧
    (let s : State := { hbm with boot := { booted := true }, cfg := { applied := true }, fabric := { permitted := true } };
      ∀ i, (s.stack i).ready = true ∨ (s.stack i).fenced = true) ∧
    (∃ i, (up.stack i).ready = false ∧ (up.stack i).fenced = false) :=
  ⟨rfl, rfl, rfl, ⟨{ up with boot := { failed := 3 } }, rfl⟩, by decide +kernel, ⟨rfl, rfl, rfl⟩,
    ⟨{ up with cfg := { defaulted := true } }, rfl, rfl, rfl⟩, by decide +kernel, 0, by decide +kernel⟩
theorem copy_valid_of {s : State} {k : Nat} {b : List Byte} (h : s.bootFlash.bytes (0x1000 * k) 0x1000 = b) (v : cfgReason b = 0) :
    cfgReason (s.cfgCopy k) = 0 := by
  have e : s.cfgCopy k = b := h
  rw [e]; exact v
theorem two_copies : ∃ m : Memory, m.bytes (0x1000 * 0) 0x1000 = copyBytes ∧ m.bytes (0x1000 * 1) 0x1000 = copyBytes := by
  have l : copyBytes.length = 4096 := test_copy_valid.1
  have w : State.reset.bootFlash.wf = true := by decide +kernel
  let m0 := State.reset.bootFlash.setBytes 0 copyBytes
  have w0 : m0.wf = true := Memory.wf_setBytes _ _ _ w
  have e1 := Memory.bytes_setBytes m0 4096 copyBytes w0
  have e0 := Memory.bytes_setBytes State.reset.bootFlash 0 copyBytes w
  rw [l] at e0 e1
  refine ⟨m0.setBytes 4096 copyBytes, ?_, e1⟩
  refine Eq.trans ?_ e0
  refine List.map_congr_left fun i hi => ?_
  have := List.mem_range.mp hi
  exact Memory.byte_setBytes_out m0 4096 _ copyBytes w0 (.inl (by omega))
/-- Both copies of the configuration block, at the start of boot flash, are the one above. -/
theorem witness_StartUp_copies : ∃ s : State, s.boot.powered = true ∧ s.boot.booted = false ∧ s.boot.failed = 0 ∧
    cfgReason (s.cfgCopy 0) = 0 ∧ cfgReason (s.cfgCopy 1) = 0 := by
  obtain ⟨m, e0, e1⟩ := two_copies
  exact ⟨{ State.reset with boot := { powered := true }, bootFlash := m }, rfl, rfl, rfl, copy_valid_of e0 test_copy_valid.2,
    copy_valid_of e1 test_copy_valid.2⟩
theorem one_copy (k : Nat) : ∃ m : Memory, m.bytes (0x1000 * k) 0x1000 = copyBytes ∧
    (k < 2 → m.bytes (0x1000 * (1 - k)) 0x1000 = State.reset.bootFlash.bytes (0x1000 * (1 - k)) 0x1000) := by
  have l : copyBytes.length = 4096 := test_copy_valid.1
  have w : State.reset.bootFlash.wf = true := by decide +kernel
  have e := Memory.bytes_setBytes State.reset.bootFlash (0x1000 * k) copyBytes w
  rw [l] at e
  refine ⟨_, e, fun hk => List.map_congr_left fun i hi => ?_⟩
  have := List.mem_range.mp hi
  exact Memory.byte_setBytes_out State.reset.bootFlash (0x1000 * k) _ copyBytes w (by omega)
/-- One copy is the one above, the other blank. -/
theorem witness_StartUp_copy : ∀ k < 2, ∃ s : State, s.boot.powered = true ∧ s.boot.booted = false ∧ s.boot.failed = 0 ∧
    cfgReason (s.cfgCopy k) = 0 ∧ cfgReason (s.cfgCopy (1 - k)) ≠ 0 := by
  intro k hk
  obtain ⟨m, e, o⟩ := one_copy k
  have b : ∀ k < 2, cfgReason (State.reset.bootFlash.bytes (0x1000 * (1 - k)) 0x1000) ≠ 0 := by decide +kernel
  refine ⟨{ State.reset with boot := { powered := true }, bootFlash := m }, rfl, rfl, rfl, copy_valid_of e test_copy_valid.2, ?_⟩
  exact (congrArg cfgReason (o hk)).symm ▸ b k hk
/-- The security processor, with its argument at 64 KiB. -/
def secured (x : Sec) : State := { hbm with boot := { booted := true, powered := true }, sec := { x with arg := 65536 } }
theorem witness_SecurityStarts : (secured {}).bootFlash.wf = true ∧ (secured {}).sec.busy = none ∧ (secured {}).boot.booted = true ∧
    (secured { busy := some 1 }).sec.busy.isSome = true ∧ hbm.boot.booted = false ∧ secArea 2 = 0 ∧
    (∀ n ∈ [1, 2, 3, 4, 5, 6, 7], (secured {}).plainHbm (secured {}).sec.arg.toNat (secArea n) = true) ∧
    (let s : State := { secured {} with sec := { arg := BitVec.ofNat 48 (hbmEnd - 0x4FFF) } };
      s.plainHbm s.sec.arg.toNat (secArea 1) = false) := by decide +kernel
/-- CFG_WRITE of the copy above. -/
theorem witness_SecurityStarts_copy : ∃ s : State, s.bootFlash.wf = true ∧ s.sec.busy = none ∧ s.boot.booted = true ∧
    s.plainHbm 65536 4096 = true ∧ s.sec.arg.toNat = 65536 ∧ (secRead 65536 4096).exec (secBusy s 6) = (.ok copyBytes, secBusy s 6) ∧
    ((checkCopy copyBytes).exec s).1 = .ok () := by
  have l : copyBytes.length = 4096 := test_copy_valid.1
  obtain ⟨m, e⟩ : ∃ m : Memory, m.bytes 65536 4096 = copyBytes := by
    have := Memory.bytes_setBytes State.reset.mem 65536 copyBytes (by decide +kernel)
    rw [l] at this; exact ⟨_, this⟩
  let s : State := { secured {} with mem := m }
  have p (t : State) (h : t.folio.share = 0) : t.plainHbm 65536 4096 = true := by
    unfold State.plainHbm Folio.poolBase; rw [h]; decide
  have g (t : State) (h : t.folio.run = false) (h' : t.coll.run = false) : t.hbmGuarded 65536 4096 = false := by
    unfold State.hbmGuarded; rw [h, h']; rfl
  refine ⟨s, ?_, rfl, rfl, p s rfl, rfl, ?_, ?_⟩
  · show State.reset.bootFlash.wf = true
    decide +kernel
  · rw [secRead_hbm (s := secBusy s 6) (p _ rfl) (serves rfl) rfl (by decide) (by decide) (g _ rfl rfl)]
    exact congrArg (fun b => (Except.ok b, secBusy s 6)) e
  · have v := test_copy_valid.2
    simp only [cfgReason] at v
    repeat' split at v
    all_goals first | exact absurd v (by decide) | skip
    have q : pw copyBytes 8 = 1 := by decide +kernel
    simp_all [checkCopy, Eng.exec_bind, Eng.exec_need]
/-- An end of each command; a token that reads as zeros is refused, and 128 bytes whose generation is 7 are wrapped. -/
theorem witness_SecurityEnds : NoTrigger (secured {}) ∧ (secured {}).bootFlash.wf = true ∧ Healthy (secured {}) ∧
    (secured {}).sec.busy = none ∧
    (∀ n ∈ [1, 2, 4, 5, 6, 7], (secured { busy := some n, outcome := statusCode .allocFault }).sec.busy = some n ∧ n ≠ 3) ∧
    (∀ n ∈ [1, 2, 3, 4, 5, 6, 7], let s := secured { busy := some n, stage := bytesLE 6 65536 };
      s.sec.outcome = 0 ∧ s.sec.busy = some n ∧ s.sec.stage = bytesLE 6 65536 ∧
      ∀ l ∈ [17408, 128, 65536], 65536 + l ≤ hbmEnd ∧ s.plainHbm 65536 l = true ∧ s.hbmGuarded 65536 l = false ∧ OffFrames s 65536 l) ∧
    (let s : State := { secured { busy := some 5, stage := bytesLE 6 65536 } with mem := ⟨cellsOf 65536 (pairBytes 7), []⟩ };
      s.peek64 65536 = pair 7 ∧ s.mem.bytes (65536 + 8) 24 = List.replicate 24 0 ∧ s.mem.wf = true) :=
  ⟨rfl, by decide +kernel, ⟨rfl, serves rfl, by decide +kernel⟩, rfl, by decide, by unfold OffFrames; decide +kernel, by decide +kernel⟩
theorem witness_SecurityEnds_token : let s := secured { busy := some 3, stage := bytesLE 6 65536 };
    (checkToken 65536).exec s = (.error .decode, s) := by
  intro s
  have r : (secRead 65536 0x4160).exec s = (.ok (s.mem.bytes 65536 0x4160), s) :=
    secRead_hbm (by decide +kernel) (serves rfl) rfl (by decide) (by decide) (by decide +kernel)
  have f : ((s.mem.bytes 65536 0x4160).take 8 == [0x4F, 0x5A, 0x44, 0x58, 0x44, 0x42, 0x47, 0x54]) = false := by decide +kernel
  simp only [checkToken, Eng.exec_bind, Eng.exec_need, r, f]
  rfl

/-! ## Witnesses: trace, test port, sideband; the block -/

def entry : TraceEntry := { type := 1, code := 0, core := 0, tag := 0, value := 0, tick := 0, cc := 0 }
/-- A trace ring with room, one that wraps at its end, one that is full. -/
theorem witness_DebugAccess : (∃ s : State, s.proof.traceEn = true) ∧ up.proof.traceEn = false ∧ up.proof.queue = [] ∧
    (∀ w ∈ [(true, 0), (true, 2047), (false, 0), (false, 2047)],
      let s : State := { hbm with proof := { queue := [entry], next := w.2, accepted := w.2, traceWrap := w.1 } };
      let a := s.proof.traceBase.toNat * 65536 + 32 * (s.proof.next % 2 ^ s.proof.log2);
      s.proof.queue = entry :: [] ∧
      ((s.proof.full = true ∨ s.proof.traceWrap = false ∧ 2 ^ s.proof.log2 ≤ s.proof.accepted + 1) ↔ w = (false, 2047)) ∧
      a + 32 ≤ hbmEnd ∧ s.hbmGuarded a 32 = false ∧ OffFrames s a 32) ∧ Healthy hbm := by
  refine ⟨⟨{ up with proof := { traceEn := true } }, rfl⟩, rfl, rfl, ?_, rfl, serves rfl, by decide +kernel⟩
  unfold OffFrames; decide +kernel
/-- A register that the test port reads, one that no register answers, and CAP, which it writes. -/
theorem witness_DebugAccess_port : up.sec.perms / 2 % 2 = 0 ∧
    (let s : State := { up with sec := { perms := 2 } };
      s.sec.perms / 2 % 2 = 1 ∧ (BitVec.ofNat 128 (regBase * 2 ^ 64)).getLsbD 127 = false ∧ NoTrigger s ∧
      (s.readReg ((BitVec.ofNat 128 (regBase * 2 ^ 64)).toNat / 2 ^ 64 % 2 ^ 48)).isSome = true ∧
      s.readReg ((0 : BitVec 128).toNat / 2 ^ 64 % 2 ^ 48) = none ∧
      (BitVec.ofNat 128 (2 ^ 127 + 0x020007001010 * 2 ^ 64)).getLsbD 127 = true ∧
      (s.writeReg ((BitVec.ofNat 128 (2 ^ 127 + 0x020007001010 * 2 ^ 64)).toNat / 2 ^ 64 % 2 ^ 48) 0).isSome = true) ∧
    State.reset.boot.powered = false ∧ up.boot.powered = true ∧ up.i3c.offset = none ∧ (zeros 6).length = 6 ∧ (zeros 5).length ≠ 6 ∧
    (∃ s : State, s.boot.powered = true ∧ s.i3c.offset = some 0x020007001010) :=
  ⟨by decide, ⟨by decide, by decide +kernel, rfl, by decide +kernel, by decide +kernel, by decide +kernel, by decide +kernel⟩, rfl, rfl, rfl,
    rfl, by decide, { up with i3c := { offset := some 0x020007001010 } }, rfl, rfl⟩
theorem witness_WellFormedNeverStops : (Instr.powerOn).wf = true ∧ (zeros 543).length ≠ 544 ∧ (zeros 63).length < 64 ∧ [0, 0, 0].length ≠ 4 ∧
    Report.wf (rep [] (of8 pz) (of8 none)) = false ∧ VerdictMsg.wf (ver [] (of8 pz) (of8 .goOn) (of8 none) (of8 none)) = false := by decide +kernel
theorem witness_EveryStepKeeps : ∃ s t : State, step s = .next t ∧ s.memOk = true ∧ s.pending = [] ∧ step s = .next s :=
  ⟨State.reset, State.reset, rfl, by decide +kernel, rfl, rfl⟩


end Sys2Proof.Tests
end

section
/-! ## Little-endian bytes (R7) -/

namespace Sys2Proof.Machine

@[simp] theorem bytesLE_length (n v : Nat) : (bytesLE n v).length = n := by
  induction n generalizing v with
  | zero => rfl
  | succ n ih => simp [bytesLE, ih]

@[simp] theorem le_length (n v : Nat) : (le n v).length = n := bytesLE_length n v

theorem bytesLE_getElem (n v k : Nat) (h : k < (bytesLE n v).length) :
    (bytesLE n v)[k] = BitVec.ofNat 8 (v / 256 ^ k) := by
  induction n generalizing v k with
  | zero => cases h
  | succ n ih =>
    cases k with
    | zero => simp [bytesLE]
    | succ k =>
      simp only [bytesLE, List.getElem_cons_succ]
      rw [ih, Nat.div_div_eq_div_mul, Nat.pow_succ']

theorem leNat_lt (bs : List Byte) : leNat bs < 256 ^ bs.length := by
  induction bs with
  | nil => simp [leNat]
  | cons b bs ih =>
    have hb : b.toNat < 256 := b.isLt
    simp only [leNat, List.length_cons, Nat.pow_succ]
    omega

/-- The number of a byte string has its bytes for base-256 digits. -/
theorem leNat_digit (bs : List Byte) (k : Nat) (h : k < bs.length) : BitVec.ofNat 8 (leNat bs / 256 ^ k) = bs[k] := by
  induction bs generalizing k with
  | nil => cases h
  | cons b bs ih =>
    have hb : b.toNat < 256 := b.isLt
    cases k with
    | zero =>
      apply BitVec.eq_of_toNat_eq
      simpa [leNat] using hb
    | succ k =>
      have e : leNat (b :: bs) / 256 ^ (k + 1) = leNat bs / 256 ^ k := by
        rw [Nat.pow_succ', ← Nat.div_div_eq_div_mul]
        congr 1
        simp only [leNat]
        omega
      simp only [e, List.getElem_cons_succ]
      exact ih k (by simpa using h)

theorem leNat_bytesLE (n v : Nat) : leNat (bytesLE n v) = v % 256 ^ n := by
  induction n generalizing v with
  | zero => simp [bytesLE, leNat, Nat.mod_one]
  | succ n ih =>
    simp only [bytesLE, leNat, ih, BitVec.toNat_ofNat]
    exact (Nat.pow_succ' ▸ Nat.mod_mul).symm

/-- A byte string read where it stands whole. -/
theorem slice_of_le {bs : List Byte} {o n : Nat} (h : o + n ≤ bs.length) : slice bs o n = (bs.drop o).take n := by
  have : ((bs.drop o).take n).length = n := by simp; omega
  simp [slice, this]

theorem slice_self (bs : List Byte) : slice bs 0 bs.length = bs := by
  rw [slice_of_le (by omega)]; simp

theorem slice_getElem {bs : List Byte} {o n k : Nat} (h : o + n ≤ bs.length) (hk : k < (slice bs o n).length) :
    (slice bs o n)[k] = bs[o + k]'(by rw [slice_length] at hk; omega) := by
  simp [slice_of_le h]

@[simp] theorem Memory.bytes_length (m : Memory) (a n : Nat) : (m.bytes a n).length = n := by simp [Memory.bytes]

theorem Memory.bytes_getElem (m : Memory) (a n k : Nat) (h : k < (m.bytes a n).length) :
    (m.bytes a n)[k] = m.byte (a + k) := by simp [Memory.bytes]

end Sys2Proof.Machine

/-! ## Bytes of words (R7, R10) -/

namespace Sys2Proof.Claims
open Sys2Proof.Machine

theorem byteOf_ofNat (v k : Nat) (h : k < 8) : byteOf (BitVec.ofNat 64 v) k = BitVec.ofNat 8 (v / 256 ^ k) := by
  apply BitVec.eq_of_toNat_eq
  have e : (2 : Nat) ^ 64 = 2 ^ (8 * k) * 2 ^ (64 - 8 * k) := by rw [← Nat.pow_add]; congr 1; omega
  have d : (2 : Nat) ^ 8 ∣ 2 ^ (64 - 8 * k) := Nat.pow_dvd_pow 2 (by omega)
  have p : (256 : Nat) ^ k = 2 ^ (8 * k) := by rw [Nat.pow_mul]
  simp only [byteOf, BitVec.extractLsb'_toNat, BitVec.toNat_ofNat, Nat.shiftRight_eq_div_pow, p]
  rw [e, Nat.mod_mul_right_div_self, Nat.mod_mod_of_dvd _ d]

theorem byteOf_eq (w : Word) (k : Nat) (h : k < 8) : byteOf w k = BitVec.ofNat 8 (w.toNat / 256 ^ k) := by
  simpa using byteOf_ofNat w.toNat k h

theorem byteOf_getLsbD (w : Word) (k i : Nat) (hi : i < 8) : (byteOf w k).getLsbD i = w.getLsbD (8 * k + i) := by
  simp [byteOf, hi]

/-- A word is its eight bytes. -/
theorem eq_of_byteOf {a b : Word} (h : ∀ k < 8, byteOf a k = byteOf b k) : a = b := by
  apply BitVec.eq_of_getLsbD_eq
  intro i hi
  have e : 8 * (i / 8) + i % 8 = i := Nat.div_add_mod i 8
  have := congrArg (fun v : BitVec 8 => v.getLsbD (i % 8)) (h (i / 8) (by omega))
  simpa only [byteOf_getLsbD _ _ _ (Nat.mod_lt i (by decide)), e] using this

/-- A byte of the word that up to eight bytes make, zero-extended. -/
theorem byteOf_leNat (bs : List Byte) (k : Nat) (hk : k < 8) : byteOf (BitVec.ofNat 64 (leNat bs)) k = bs.getD k 0 := by
  rw [byteOf_ofNat _ _ hk]
  by_cases h : k < bs.length
  · rw [leNat_digit _ _ h]; simp [List.getD, h]
  · have : leNat bs < 256 ^ k := Nat.lt_of_lt_of_le (leNat_lt bs) (Nat.pow_le_pow_right (by decide) (by omega))
    rw [Nat.div_eq_of_lt this]
    simp [List.getD, List.getElem?_eq_none (Nat.le_of_not_lt h)]

theorem byteOf_w64At {bs : List Byte} {o : Nat} (h : o + 8 ≤ bs.length) (k : Nat) (hk : k < 8) :
    byteOf (w64At bs o) k = bs[o + k] := by
  rw [w64At, byteOf_leNat _ _ hk]
  simp [List.getD, hk, slice_getElem h]

/-- A word's bytes make the word. -/
theorem leNat_le (w : Word) : leNat (le 8 w.toNat) = w.toNat := by
  rw [le, leNat_bytesLE]
  exact Nat.mod_eq_of_lt w.isLt

theorem w64At_le (w : Word) : w64At (le 8 w.toNat) 0 = w := by
  have h := slice_self (le 8 w.toNat)
  rw [le_length] at h
  rw [w64At, h, leNat_le, BitVec.ofNat_toNat, BitVec.setWidth_eq]

theorem le_getElem (w : Word) (n k : Nat) (h : k < (le n w.toNat).length) (hk : k < 8) :
    (le n w.toNat)[k] = byteOf w k := by
  rw [byteOf_eq w k hk]; exact bytesLE_getElem _ _ _ h

end Sys2Proof.Claims
end

section
/-! ## Where a location lies (R21, R23) -/

namespace Sys2Proof.Machine

theorem State.logicalCores_le (s : State) : s.logicalCores ≤ 128 := by unfold State.logicalCores; split <;> decide

/-- The bounds of the local address map (R21). -/
theorem addressMap : hbmEnd = 0x009000000000 ∧ spmBase = 0x010000000000 ∧ spmSize = 0x800000 ∧ accBase = 0x010100000000 ∧
    accSize = 0x100000 ∧ regBase = 0x020000000000 ∧ regEnd = 0x02000A000000 := ⟨rfl, rfl, rfl, rfl, rfl, rfl, rfl⟩

theorem State.locate_spm (s : State) {d o n : Nat} (hd : d < s.logicalCores) (hn : 0 < n) (h : o + n ≤ spmSize) :
    s.locate (spmOf d + o) n = some (.spm d o) := by
  obtain ⟨h1, h2, h3, -⟩ := addressMap
  have hc := s.logicalCores_le
  rw [h3] at h
  have e1 : (spmOf d + o - spmBase) / spmSize = d := by rw [spmOf, h2, h3]; omega
  have e2 : (spmOf d + o - spmBase) % spmSize = o := by rw [spmOf, h2, h3]; omega
  unfold State.locate
  rw [if_neg (by rw [spmOf]; omega), if_pos (by rw [spmOf, h3]; omega)]
  simp only [e1, e2]
  rw [if_pos (by omega)]

theorem State.locate_acc (s : State) {d o n : Nat} (hd : d < s.logicalCores) (hn : 0 < n) (h : o + n ≤ accSize) :
    s.locate (accOf d + o) n = some (.acc d o) := by
  obtain ⟨h1, h2, h3, h4, h5, -⟩ := addressMap
  have hc := s.logicalCores_le
  rw [h5] at h
  have e1 : (accOf d + o - accBase) / accSize = d := by rw [accOf, h4, h5]; omega
  have e2 : (accOf d + o - accBase) % accSize = o := by rw [accOf, h4, h5]; omega
  unfold State.locate
  rw [if_neg (by rw [accOf]; omega), if_neg (by rw [accOf, h3]; omega), if_pos (by rw [accOf, h5]; omega)]
  simp only [e1, e2]
  rw [if_pos (by omega)]

/-- A location in register space lies there whole, or runs past its end. -/
theorem State.locate_register (s : State) {off : Nat} (h : regBase ≤ off) (h' : off < regEnd) (n : Nat) :
    s.locate off n = if off + n ≤ regEnd then some .reg else none := by
  obtain ⟨h1, h2, h3, h4, h5, h6, h7⟩ := addressMap
  have hc := s.logicalCores_le
  unfold State.locate
  rw [if_neg (by omega), if_neg (by rw [h3]; omega), if_neg (by rw [h5]; omega), if_pos ⟨h, h'⟩]

end Sys2Proof.Machine

/-! ## Loads and stores of the Stylus (R261, R262) -/

namespace Sys2Proof.Claims
open Sys2Proof.Machine

theorem ownOffset_own {s : State} {addr : Word} {off m : Nat} (ha : addr.toNat = s.chip * 2 ^ 48 + off) (ho : off < 2 ^ 48)
    (hm : m ∣ 2 ^ 48) (hz : off % m = 0) : Eng.exec (ownOffset addr m) s = (.ok off, s) := by
  have hq : addr.toNat / 2 ^ 48 = s.chip := by omega
  have hr : addr.toNat % 2 ^ 48 = off := by omega
  have hd : addr.toNat % m = 0 :=
    Nat.mod_eq_zero_of_dvd (ha ▸ Nat.dvd_add (Nat.dvd_mul_left_of_dvd hm _) (Nat.dvd_of_mod_eq_zero hz))
  have hk : ¬ (addr.toNat / 2 ^ 48 ≠ s.chip ∨ addr.toNat % m ≠ 0) := by simp only [hq, hd, ne_eq, not_true_eq_false, or_self,
    not_false_eq_true]
  simp only [ownOffset, Eng.exec_bind, Eng.exec_get, if_neg hk, Eng.exec_pure, hr]

/-- An access to another chip, or not aligned, is refused (R18, R71, R261). -/
theorem ownOffset_refused {s : State} {addr : Word} {m : Nat} (h : addr.toNat / 2 ^ 48 ≠ s.chip ∨ addr.toNat % m ≠ 0) :
    Eng.exec (ownOffset addr m) s = (.error .allocFault, s) := by
  simp only [ownOffset, Eng.exec_bind, Eng.exec_get, if_pos h, Eng.exec_throw]

theorem scalarLoad_refused {s : State} {addr : Word} {n m : Nat} {regs : Bool}
    (h : addr.toNat / 2 ^ 48 ≠ s.chip ∨ addr.toNat % m ≠ 0) : Eng.exec (scalarLoad addr n m regs) s = (.error .allocFault, s) :=
  Eng.exec_bind_error (ownOffset_refused h)

theorem scalarStore_refused {s : State} {addr : Word} {m : Nat} {data : List Byte}
    (h : addr.toNat / 2 ^ 48 ≠ s.chip ∨ addr.toNat % m ≠ 0) : Eng.exec (scalarStore addr m data) s = (.error .allocFault, s) :=
  Eng.exec_bind_error (ownOffset_refused h)

/-- The banks of a range that no command holds are free to any requester (R25). -/
theorem accCheck_free {s : State} {d o n : Nat} (h : (s.cores.toList.getD d {}).banks &&& bankMask o n = 0) :
    Eng.exec (accCheck .window d o n) s = (.ok (), s) := by
  simp only [accCheck, Eng.exec_bind, Eng.exec_get, h, bne_self_eq_false, Bool.and_false, Bool.false_eq_true, if_false,
    Eng.exec_pure]

/-- A served read answers the bytes that stand there and changes nothing. -/
theorem memRead_loadable {s : State} {off n : Nat} (hn : 0 < n) (h : Loadable s off n) :
    Eng.exec (memRead .window off n) s = (.ok (s.mem.bytes off n), s) := by
  have h0 : n ≠ 0 := Nat.pos_iff_ne_zero.mp hn
  rcases h with ⟨he, hg, hr, hd⟩ | ⟨d, o, ⟨hc, hf⟩, rfl, ho⟩ | ⟨d, o, ⟨hc, hf⟩, rfl, ho, hb⟩
  · have hl := s.locate_hbm (Nat.lt_of_lt_of_le (Nat.lt_add_of_pos_right hn) he) he
    simp only [memRead, h0, if_false, Eng.exec_bind, Eng.exec_get, hl, hg, Bool.false_eq_true]
    exact hbmRead_clean hr hd
  · simp [-bind_pure_comp, memRead, h0, Eng.exec_bind, s.locate_spm hc hn ho, Requester.isOwn, hf, State.peek]
  · simp [-bind_pure_comp, memRead, h0, Eng.exec_bind, s.locate_acc hc hn ho, Requester.isOwn, hf, accCheck_free hb, State.peek]

/-- A served write stores its bytes and changes nothing else. -/
theorem memWrite_storable {s : State} {off : Nat} {data : List Byte} (hn : 0 < data.length) (h : Storable s off data.length) :
    Eng.exec (memWrite .window off data) s = (.ok (), s.poke off data) := by
  have h0 : data.isEmpty = false := by cases data <;> simp_all
  rcases h with ⟨he, hg, hr, hd, hfr⟩ | ⟨d, o, ⟨hc, hf⟩, rfl, ho, hg⟩ | ⟨d, o, ⟨hc, hf⟩, rfl, ho, hb⟩
  · have hl := s.locate_hbm (Nat.lt_of_lt_of_le (Nat.lt_add_of_pos_right hn) he) he
    simp only [memWrite, h0, if_false, Eng.exec_bind, Eng.exec_get, hl, hg, Bool.false_eq_true, hbmWrite_clean hr hd,
      Eng.exec_modify]
    exact congrArg (Prod.mk _) (State.markDirty_off (s := s.poke off data) hfr)
  · simp [memWrite, h0, Eng.exec_bind, s.locate_spm hc hn ho, Requester.isOwn, hf, hg]
  · simp [memWrite, h0, Eng.exec_bind, s.locate_acc hc hn ho, Requester.isOwn, hf, accCheck_free hb]

/-- Where a served load lies, no register and no flash lies. -/
theorem Loadable.locate {s : State} {off n : Nat} (hn : 0 < n) (h : Loadable s off n) :
    s.locate off n = some .hbm ∨ (∃ d o, s.locate off n = some (.spm d o)) ∨ ∃ d o, s.locate off n = some (.acc d o) := by
  rcases h with ⟨he, -⟩ | ⟨d, o, ⟨hc, -⟩, rfl, ho⟩ | ⟨d, o, ⟨hc, -⟩, rfl, ho, -⟩
  · exact .inl (s.locate_hbm (Nat.lt_of_lt_of_le (Nat.lt_add_of_pos_right hn) he) he)
  · exact .inr (.inl ⟨d, o, s.locate_spm hc hn ho⟩)
  · exact .inr (.inr ⟨d, o, s.locate_acc hc hn ho⟩)

section
variable {s : State} {c : CoreId} {f : FmtM} {m off : Nat} (hm : m ∣ 2 ^ 48) (ho : OwnAt s c f m off)
include hm ho

theorem ownOffset_ownAt : Eng.exec (ownOffset ((s.core c).addrM f) m) s = (.ok off, s) := by
  obtain ⟨ha, hlt, hz⟩ := ho
  exact ownOffset_own ha hlt hm hz

theorem scalarLoad_loadable {n : Nat} {regs : Bool} (hn : 0 < n) (h : Loadable s off n) :
    Eng.exec (scalarLoad ((s.core c).addrM f) n m regs) s = (.ok (s.mem.bytes off n), s) := by
  refine (Eng.exec_bind_ok (ownOffset_ownAt hm ho)).trans ((Eng.exec_bind_ok (Eng.exec_get s)).trans ?_)
  rcases h.locate hn with hl | ⟨d, o, hl⟩ | ⟨d, o, hl⟩ <;> rw [hl] <;> exact memRead_loadable hn h

theorem scalarStore_storable {data : List Byte} (hn : 0 < data.length) (h : Storable s off data.length) :
    Eng.exec (scalarStore ((s.core c).addrM f) m data) s = (.ok (), s.poke off data) :=
  (Eng.exec_bind_ok (ownOffset_ownAt hm ho)).trans (memWrite_storable hn h)

/-- A load of 8 bytes reads a register (R262). -/
theorem scalarLoad_register {w : Word} (h : regBase ≤ off) (h' : off + 8 ≤ regEnd) (hr : s.readReg off = some w) :
    Eng.exec (scalarLoad ((s.core c).addrM f) 8 m true) s = (.ok (le 8 w.toNat), s) := by
  refine (Eng.exec_bind_ok (ownOffset_ownAt hm ho)).trans ((Eng.exec_bind_ok (Eng.exec_get s)).trans ?_)
  rw [s.locate_register h (by omega), if_pos h']
  simp [hr]

/-- Any other load of register space is refused: at a reserved offset, of fewer bytes, of a descriptor (R23, R262). -/
theorem scalarLoad_register_refused {n : Nat} {regs : Bool} (h : regBase ≤ off) (h' : off < regEnd)
    (hr : regs = false ∨ n ≠ 8 ∨ s.readReg off = none) :
    Eng.exec (scalarLoad ((s.core c).addrM f) n m regs) s = (.error .allocFault, s) := by
  refine (Eng.exec_bind_ok (ownOffset_ownAt hm ho)).trans ((Eng.exec_bind_ok (Eng.exec_get s)).trans ?_)
  rw [s.locate_register h h']
  by_cases he : off + n ≤ regEnd
  · rw [if_pos he]
    by_cases hreg : regs = true ∧ n = 8
    · have hnone : s.readReg off = none := by
        rcases hr with hr | hr | hr
        · simp [hreg.1] at hr
        · exact absurd hreg.2 hr
        · exact hr
      simp only [hreg, and_self, if_true, hnone, Eng.exec_throw]
    · simp only [if_neg hreg, Eng.exec_throw]
  · simp only [if_neg he, Eng.exec_throw]

/-- No store reaches register space (R23, R262). -/
theorem scalarStore_register {data : List Byte} (hn : 0 < data.length) (h : regBase ≤ off) (h' : off < regEnd) :
    Eng.exec (scalarStore ((s.core c).addrM f) m data) s = (.error .allocFault, s) := by
  refine (Eng.exec_bind_ok (ownOffset_ownAt hm ho)).trans ?_
  have h0 : data.isEmpty = false := by cases data <;> simp_all
  simp only [memWrite, h0, if_false, Bool.false_eq_true, Eng.exec_bind, Eng.exec_get, s.locate_register h h']
  by_cases hfit : off + data.length ≤ regEnd
  · rw [if_pos hfit]; rfl
  · rw [if_neg hfit]; rfl
end

end Sys2Proof.Claims
end

section
/-! ## One memory instruction (R253, R261) -/

namespace Sys2Proof.Claims
open Sys2Proof.Machine

/-- An instruction that executes and goes on leaves its body's state, one word further. -/
theorem scalar_next {s t : State} {c : CoreId} {pre : Pre} {formed : Bool} {body : Eng Flow} (hx : Executes s c pre)
    (hf : formed = true) (hb : Eng.exec body s = (.ok .step, t)) (hr : (t.core c).running = true) :
    scalar c pre formed body s = t.modCore c advance := by
  obtain ⟨⟨hi, ha, hp⟩, hg⟩ := hx
  rw [scalar, stylus_executes hi ha hp hf hg hb, State.flow_step]
  exact State.tryReport_of_running _ c (by simpa using hr)

/-- An instruction whose body is refused is a Stylus fault. -/
theorem scalar_fault {s : State} {c : CoreId} {pre : Pre} {formed : Bool} {body : Eng Flow} {st : Status}
    (hx : Executes s c pre) (hf : formed = true) (hb : Eng.exec body s = (.error st, s)) :
    scalar c pre formed body s = (s.stylusFault c st).tryReport := by
  obtain ⟨⟨hi, ha, hp⟩, hg⟩ := hx
  rw [scalar, stylus_faults hi ha hp hf hg hb]

theorem Executes.running {s : State} {c : CoreId} {pre : Pre} (hx : Executes s c pre) : (s.core c).running = true :=
  s.running_of_issues c hx.1.1

theorem PlainPre.form {p : Pre} (h : PlainPre p) : Machine.plainPre p = true := by
  obtain ⟨hs, hg⟩ := h
  cases hv : p.ginv <;> simp_all [Machine.plainPre, guardForm]

theorem PlainM.form {f : FmtM} (h : PlainM f) : formM asS f = true := by
  obtain ⟨hp, hr⟩ := h
  simp [formM, hp.form, asS, unused, hr]

theorem PlainM.form_asA {f : FmtM} (h : PlainM f) (ha : NamesA f.rd) : formM asA f = true := by
  obtain ⟨hp, hr⟩ := h
  have hb : f.rd.getLsbD 4 = false := by
    rw [BitVec.getLsbD, Nat.testBit_eq_decide_div_mod_eq, Nat.div_eq_of_lt ha]; rfl
  simp only [formM, hp.form, asA, unused, hr, hb, Bool.not_false, Bool.and_self, beq_self_eq_true]

/-- The widths that SIZE names divide a chip's address range. -/
theorem sizeBytes_dvd (z : BitVec 2) : 2 ^ z.toNat ∣ 2 ^ 48 := Nat.pow_dvd_pow 2 (by omega)

theorem sizeBytes_le (z : BitVec 2) : 2 ^ z.toNat ≤ 8 := 
  Nat.pow_le_pow_right (j := 3) (by decide) (by omega)

/-! ## The words that loads make (R258) -/

theorem byteOf_signExtend {w : Nat} (x : BitVec w) (k : Nat) (hk : k < 8) (n : Nat) (hw : w = 8 * n) :
    byteOf (x.signExtend 64) k = if k < n then x.extractLsb' (8 * k) 8 else if x.msb then 0xFF else 0 := by
  apply BitVec.eq_of_getLsbD_eq
  intro i hi
  have h64 : 8 * k + i < 64 := by omega
  rw [byteOf_getLsbD _ _ _ hi, BitVec.getLsbD_signExtend, decide_eq_true h64, Bool.true_and]
  by_cases hkn : k < n
  · rw [if_pos hkn, if_pos (by omega)]
    simp [hi]
  · rw [if_neg hkn, if_neg (by omega)]
    cases x.msb
    · simp
    · have : ∀ j < 8, (0xFF : Byte).getLsbD j = true := by decide
      exact (this i hi).symm

/-- The two's complement value of n bytes. -/
theorem signed_eq_toInt {w v : Nat} (hw : 0 < w) (h : v < 2 ^ w) : signed w v = (BitVec.ofNat w v).toInt := by
  have e : 2 ^ w = 2 * 2 ^ (w - 1) := by rw [← Nat.pow_succ']; congr 1; omega
  have c : v < 2 ^ (w - 1) ↔ 2 * v < 2 ^ w := by omega
  simp only [BitVec.toInt_eq_toNat_cond, BitVec.toNat_ofNat, Nat.mod_eq_of_lt h, signed, c, Int.natCast_pow]
  rfl

/-- Byte k of the word that n bytes make, sign-extended. -/
theorem byteOf_signed (bs : List Byte) {n : Nat} (h : bs.length = n) (hn : 0 < n) (k : Nat) (hk : k < 8) :
    byteOf (BitVec.ofInt 64 (signed (8 * n) (leNat bs))) k =
      if k < n then bs.getD k 0 else if (bs.getD (n - 1) 0).msb then 0xFF else 0 := by
  have hlt : leNat bs < 2 ^ (8 * n) := by
    have := leNat_lt bs
    rwa [h, show (256 : Nat) = 2 ^ 8 from rfl, ← Nat.pow_mul] at this
  have digit : ∀ j < n, (BitVec.ofNat (8 * n) (leNat bs)).extractLsb' (8 * j) 8 = bs.getD j 0 := by
    intro j hj
    apply BitVec.eq_of_toNat_eq
    have hb := congrArg BitVec.toNat (leNat_digit bs j (by omega))
    rw [BitVec.toNat_ofNat, show (256 : Nat) = 2 ^ 8 from rfl, ← Nat.pow_mul] at hb
    have hj' : j < bs.length := by omega
    simp [Nat.mod_eq_of_lt hlt, Nat.shiftRight_eq_div_pow, hb, List.getD, hj']
  have top : (BitVec.ofNat (8 * n) (leNat bs)).msb = (bs.getD (n - 1) 0).msb := by
    rw [← digit (n - 1) (by omega), BitVec.msb_eq_getLsbD_last, BitVec.msb_eq_getLsbD_last, BitVec.getLsbD_extractLsb']
    simp only [show 8 * (n - 1) + (8 - 1) = 8 * n - 1 by omega]
    rfl
  rw [signed_eq_toInt (by omega) hlt]
  have := byteOf_signExtend (BitVec.ofNat (8 * n) (leNat bs)) k hk n rfl
  rw [top] at this
  rw [show BitVec.ofInt 64 (BitVec.ofNat (8 * n) (leNat bs)).toInt = (BitVec.ofNat (8 * n) (leNat bs)).signExtend 64 from rfl,
    this]
  by_cases h1 : k < n
  · exact (if_pos h1).trans ((digit k h1).trans (if_pos h1).symm)
  · exact (if_neg h1).trans (if_neg h1).symm

theorem Memory.bytes_getD (m : Memory) (a n k : Nat) (h : k < n) : (m.bytes a n).getD k 0 = m.byte (a + k) := by
  simp [List.getD, Memory.bytes, h]

/-! ## Paired words (R10) -/

theorem toNat_pairWord (hi lo : Word32) : (hi ++ lo : BitVec 64).toNat = hi.toNat * 2 ^ 32 + lo.toNat := by
  rw [BitVec.toNat_append, Nat.shiftLeft_eq, Nat.mul_comm, Nat.two_pow_add_eq_or_of_lt lo.isLt, Nat.mul_comm]

theorem pairOk_iff (hi lo : Word32) : pairOk (hi ++ lo : BitVec 64) = true ↔ hi = ~~~lo := by
  have h1 := hi.isLt
  have h2 := lo.isLt
  rw [pairOk, decide_eq_true_eq, toNat_pairWord, ← BitVec.toNat_inj, BitVec.toNat_not]
  omega

theorem pairVal_pairWord (hi lo : Word32) : pairVal (hi ++ lo : BitVec 64) = lo.toNat := by
  have := lo.isLt
  rw [pairVal, toNat_pairWord]; omega

theorem ofNat_pairVal (w : Word) : BitVec.ofNat 64 (pairVal w) = (w.setWidth 32).setWidth 64 := by
  apply BitVec.eq_of_toNat_eq
  simp only [pairVal, BitVec.toNat_ofNat, BitVec.toNat_setWidth]
  
/-- The paired word of a 32-bit value is its complement above it. -/
theorem pair_eq (lo : Word32) : pair lo.toNat = (~~~lo ++ lo : BitVec 64) := by
  have := lo.isLt
  apply BitVec.eq_of_toNat_eq
  have hb : lo.toNat + (2 ^ 32 - 1 - lo.toNat) * 2 ^ 32 < 2 ^ 64 := by omega
  rw [toNat_pairWord, BitVec.toNat_not, pair, BitVec.toNat_ofNat, Nat.mod_eq_of_lt this, Nat.mod_eq_of_lt hb]
  omega

/-! ## Loads (R258, R261) -/

section
variable {s : State} {c : CoreId} {f : FmtM} {n off : Nat} (hx : Executes s c f.pre) (hp : PlainM f)
include hx hp

/-- A load that is served writes RD by its extension of the bytes. -/
theorem loadM_served {ext : Nat → List Byte → Word} {bs : List Byte}
    (hb : Eng.exec (scalarLoad ((s.core c).addrM f) (2 ^ f.size.toNat) (2 ^ f.size.toNat) true) s = (.ok bs, s)) :
    Host.Outcome.next (loadM c f ext s) = regsTo s c (fun x => x.setS f.rd.toNat (ext (2 ^ f.size.toNat) bs)) := by
  have body : Eng.exec (do
      let t ← get
      let n := sizeBytes f.size
      let bs ← scalarLoad ((t.core c).addrM f) n n true
      regsStep c fun x => x.setS f.rd.toNat (ext n bs)) s =
      (.ok .step, s.modCore c fun x => x.setS f.rd.toNat (ext (2 ^ f.size.toNat) bs)) :=
    (Eng.exec_bind_ok (Eng.exec_get s)).trans (Eng.exec_bind_ok hb)
  rw [loadM, scalar_next hx hp.form body (by simpa using hx.running), State.modCore_modCore]
  rfl

theorem loadM_fault {ext : Nat → List Byte → Word} {st : Status}
    (hb : Eng.exec (scalarLoad ((s.core c).addrM f) (2 ^ f.size.toNat) (2 ^ f.size.toNat) true) s = (.error st, s)) :
    Host.Outcome.next (ρ := Refusal) (φ := Fault) (loadM c f ext s) = .next ((s.stylusFault c st).tryReport) := by
  rw [loadM, scalar_fault hx hp.form ((Eng.exec_bind_ok (Eng.exec_get s)).trans (Eng.exec_bind_error hb))]

theorem ldP_served {bs : List Byte} (hz : f.size = 3) (hb : Eng.exec (scalarLoad ((s.core c).addrM f) 8 8 true) s = (.ok bs, s))
    (ok : pairOk (w64At bs 0) = true) :
    exec (.ldP c f) s = regsTo s c (fun x => x.setS f.rd.toNat (((w64At bs 0).setWidth 32).setWidth 64)) := by
  have body : Eng.exec (do
      let t ← get
      let bs ← scalarLoad ((t.core c).addrM f) 8 8 true
      let v ← getPair (w64At bs 0)
      regsStep c fun x => x.setS f.rd.toNat (BitVec.ofNat 64 v)) s =
      (.ok .step, s.modCore c fun x => x.setS f.rd.toNat (BitVec.ofNat 64 (pairVal (w64At bs 0)))) := by
    refine (Eng.exec_bind_ok (Eng.exec_get s)).trans ((Eng.exec_bind_ok hb).trans (Eng.exec_bind_ok ?_))
    rw [Eng.exec_getPair, ok]; rfl
  refine congrArg Host.Outcome.next ((scalar_next hx (by simp [hp.form, hz]) body (by simpa using hx.running)).trans ?_)
  rw [State.modCore_modCore, ofNat_pairVal]

theorem ldP_invalid {bs : List Byte} (hz : f.size = 3) (hb : Eng.exec (scalarLoad ((s.core c).addrM f) 8 8 true) s = (.ok bs, s))
    (bad : pairOk (w64At bs 0) = false) : exec (.ldP c f) s = .next ((s.stylusFault c .integrity).tryReport) := by
  refine congrArg Host.Outcome.next (scalar_fault hx (by simp [hp.form, hz]) ?_)
  refine (Eng.exec_bind_ok (Eng.exec_get s)).trans ((Eng.exec_bind_ok hb).trans (Eng.exec_bind_error ?_))
  rw [Eng.exec_getPair, bad]; rfl

theorem ldP_fault {st : Status} (hz : f.size = 3) (hb : Eng.exec (scalarLoad ((s.core c).addrM f) 8 8 true) s = (.error st, s)) :
    exec (.ldP c f) s = .next ((s.stylusFault c st).tryReport) :=
  congrArg Host.Outcome.next (scalar_fault hx (by simp [hp.form, hz])
    ((Eng.exec_bind_ok (Eng.exec_get s)).trans (Eng.exec_bind_error hb)))

theorem tdLd_served {bs : List Byte} (hz : f.size = 3) (ha : NamesA f.rd)
    (hb : Eng.exec (scalarLoad ((s.core c).addrM f) 128 64 false) s = (.ok bs, s)) :
    exec (.tdLd c f) s = regsTo s c (fun x => x.setTd f.rd.toNat (tdOfBytes bs)) := by
  have body : Eng.exec (do
      let t ← get
      let bs ← scalarLoad ((t.core c).addrM f) 128 64 false
      regsStep c fun x => x.setTd f.rd.toNat (tdOfBytes bs)) s =
      (.ok .step, s.modCore c fun x => x.setTd f.rd.toNat (tdOfBytes bs)) :=
    (Eng.exec_bind_ok (Eng.exec_get s)).trans (Eng.exec_bind_ok hb)
  refine congrArg Host.Outcome.next ((scalar_next hx (by simp [hp.form_asA ha, hz]) body (by simpa using hx.running)).trans ?_)
  rw [State.modCore_modCore]

theorem tdLd_fault {st : Status} (hz : f.size = 3) (ha : NamesA f.rd)
    (hb : Eng.exec (scalarLoad ((s.core c).addrM f) 128 64 false) s = (.error st, s)) :
    exec (.tdLd c f) s = .next ((s.stylusFault c st).tryReport) :=
  congrArg Host.Outcome.next (scalar_fault hx (by simp [hp.form_asA ha, hz])
    ((Eng.exec_bind_ok (Eng.exec_get s)).trans (Eng.exec_bind_error hb)))
end

theorem loadResults : LoadResults := by
  rintro c f s n off rfl hx hp ho hl
  have hn : 0 < 2 ^ f.size.toNat := Nat.two_pow_pos _
  have hb := scalarLoad_loadable (sizeBytes_dvd f.size) ho (regs := true) hn hl
  refine ⟨⟨_, loadM_served hx hp hb, fun k hk => ?_⟩, ⟨_, loadM_served hx hp hb, fun k hk => ?_⟩⟩
  · rw [byteOf_leNat _ _ hk]
    by_cases h : k < 2 ^ f.size.toNat
    · exact (Memory.bytes_getD _ _ _ _ h).trans (if_pos h).symm
    · rw [if_neg h, List.getD, List.getElem?_eq_none (by simpa using h)]
      rfl
  · rw [byteOf_signed _ (Memory.bytes_length ..) hn k hk, Memory.bytes_getD _ _ _ (2 ^ f.size.toNat - 1) (by omega),
      ← Nat.add_sub_assoc hn]
    by_cases h : k < 2 ^ f.size.toNat
    · exact (if_pos h).trans ((Memory.bytes_getD _ _ _ _ h).trans (if_pos h).symm)
    · exact (if_neg h).trans (if_neg h).symm

/-- The word that eight bytes of memory make. -/
theorem w64At_memory {m : Memory} {a : Nat} {w : Word} (h : ∀ k < 8, byteOf w k = m.byte (a + k)) : w64At (m.bytes a 8) 0 = w :=
  eq_of_byteOf fun k hk => by
    rw [h k hk, byteOf_w64At (by simp) k hk, Memory.bytes_getElem, Nat.zero_add]

theorem pairedLoadResults : PairedLoadResults := by
  intro c f s off lo hi hx hp hz ho hl hw
  have hb := scalarLoad_loadable (m := 8) (by decide) ho (regs := true) (by decide) hl
  have e := w64At_memory hw
  constructor
  · intro h
    rw [ldP_served hx hp hz hb (by rw [e]; exact (pairOk_iff hi lo).2 h), e, ← ofNat_pairVal, pairVal_pairWord,
      BitVec.ofNat_toNat]
  · intro h
    exact ldP_invalid hx hp hz hb (by rw [e]; exact Bool.eq_false_iff.2 fun t => h ((pairOk_iff hi lo).1 t))

/-- Settles O10: a served load answers the bytes that stand there, and its body writes RD by the extension. -/
theorem loads : Obligations.Loads := ⟨loadResults, pairedLoadResults⟩

end Sys2Proof.Claims
end

section
/-! ## Descriptors, and loads of register space (R262) -/

namespace Sys2Proof.Claims
open Sys2Proof.Machine

theorem descriptorLoadResults : DescriptorLoadResults := by
  intro c f s off hx hp hz ha ho hl
  have hb := scalarLoad_loadable (m := 64) (by decide) ho (regs := false) (by decide) hl
  refine ⟨_, tdLd_served hx hp hz ha hb, fun i k hk => ?_⟩
  have hi : 8 * i.val + 8 ≤ (s.mem.bytes off 128).length := by rw [Memory.bytes_length]; omega
  simp only [tdOfBytes, Fin.getElem_fin, Vector.getElem_ofFn]
  rw [byteOf_w64At hi k hk, Memory.bytes_getElem, Nat.add_assoc]

theorem readReg_lds (w : Word) : BitVec.ofInt 64 (signed (8 * 8) (leNat (le 8 w.toNat))) = w := by
  rw [leNat_le, signed_eq_toInt (by decide) w.isLt, BitVec.ofNat_toNat, BitVec.setWidth_eq, BitVec.ofInt_toInt]

section
variable {s : State} {c : CoreId} {f : FmtM} {off : Nat} (hx : Executes s c f.pre) (hp : PlainM f) (h : regBase ≤ off)
  (h' : off < regEnd)
include hx hp h h'

/-- The 8-byte loads at a register read it. -/
theorem registerLoads_read {w : Word} (hz : f.size = 3) (ho : OwnAt s c f 8 off) (hr : s.readReg off = some w) :
    exec (.ld c f) s = regsTo s c (fun x => x.setS f.rd.toNat w) ∧
    exec (.lds c f) s = regsTo s c (fun x => x.setS f.rd.toNat w) ∧
    (pairOk w = true → exec (.ldP c f) s = regsTo s c (fun x => x.setS f.rd.toNat ((w.setWidth 32).setWidth 64))) ∧
    (pairOk w = false → exec (.ldP c f) s = .next ((s.stylusFault c .integrity).tryReport)) := by
  obtain ⟨-, -, -, -, -, h6, h7⟩ := addressMap
  have hfit : off + 8 ≤ regEnd := by have := ho.2.2; omega
  have hb := scalarLoad_register (m := 8) (by decide) ho h hfit hr
  have hsz : 2 ^ f.size.toNat = 8 := by rw [hz]; rfl
  have hb' : Eng.exec (scalarLoad ((s.core c).addrM f) (2 ^ f.size.toNat) (2 ^ f.size.toNat) true) s = (.ok (le 8 w.toNat), s) := by
    rw [hsz]; exact hb
  have e := w64At_le w
  refine ⟨?_, ?_, fun ok => ?_, fun bad => ?_⟩
  · refine (loadM_served hx hp hb').trans ?_
    rw [leNat_le, BitVec.ofNat_toNat, BitVec.setWidth_eq]
  · refine (loadM_served hx hp hb').trans ?_
    rw [hsz, readReg_lds]
  · have := ldP_served hx hp hz hb (by rw [e]; exact ok)
    rwa [e] at this
  · exact ldP_invalid hx hp hz hb (by rw [e]; exact bad)

/-- LD and LDS of register space that read no register (R23, R262). -/
theorem registerLoads_refused (ho : OwnAt s c f (2 ^ f.size.toNat) off) (hr : 2 ^ f.size.toNat ≠ 8 ∨ s.readReg off = none) :
    exec (.ld c f) s = .next ((s.stylusFault c .allocFault).tryReport) ∧
    exec (.lds c f) s = .next ((s.stylusFault c .allocFault).tryReport) := by
  have hb := scalarLoad_register_refused (regs := true) (sizeBytes_dvd f.size) ho h h' (.inr hr)
  exact ⟨loadM_fault hx hp hb, loadM_fault hx hp hb⟩
end

/-! ## Stores (R258, R261) -/

section
variable {s : State} {c : CoreId} {f : FmtM} {m : Nat} {formed : Bool} {data : Core → List Byte} (hx : Executes s c f.pre)
  (hf : formed = true)
include hx hf

/-- A store that is served writes its bytes and goes on. -/
theorem store_served {off : Nat}
    (hb : Eng.exec (scalarStore ((s.core c).addrM f) m (data (s.core c))) s = (.ok (), s.poke off (data (s.core c)))) :
    Host.Outcome.next (ρ := Refusal) (φ := Fault) (scalar c f.pre formed (do
      let t ← get
      let x := t.core c
      scalarStore (x.addrM f) m (data x)
      pure .step) s) = .next ((s.poke off (data (s.core c))).modCore c advance) :=
  congrArg Host.Outcome.next (scalar_next hx hf
    ((Eng.exec_bind_ok (Eng.exec_get s)).trans (Eng.exec_bind_ok hb)) hx.running)

theorem store_fault {st : Status} (hb : Eng.exec (scalarStore ((s.core c).addrM f) m (data (s.core c))) s = (.error st, s)) :
    Host.Outcome.next (ρ := Refusal) (φ := Fault) (scalar c f.pre formed (do
      let t ← get
      let x := t.core c
      scalarStore (x.addrM f) m (data x)
      pure .step) s) = .next ((s.stylusFault c st).tryReport) :=
  congrArg Host.Outcome.next (scalar_fault hx hf
    ((Eng.exec_bind_ok (Eng.exec_get s)).trans (Eng.exec_bind_error hb)))
end

/-- What ST, ST.P and TD.ST write. -/
def stData (f : FmtM) (x : Core) : List Byte := le (sizeBytes f.size) (x.sreg f.rd.toNat).toNat
def stPData (f : FmtM) (x : Core) : List Byte := pairBytes ((x.sreg f.rd.toNat).toNat % 2 ^ 32)
def tdStData (f : FmtM) (x : Core) : List Byte := x.tdBytes f.rd.toNat

theorem execSt_eq (c : CoreId) (f : FmtM) (s : State) : exec (.st c f) s = .next (scalar c f.pre (formM asS f) (do
    let t ← get
    let x := t.core c
    scalarStore (x.addrM f) (2 ^ f.size.toNat) (stData f x)
    pure .step) s) := rfl
theorem execStP_eq (c : CoreId) (f : FmtM) (s : State) : exec (.stP c f) s = .next (scalar c f.pre (formM asS f && f.size == 3) (do
    let t ← get
    let x := t.core c
    scalarStore (x.addrM f) 8 (stPData f x)
    pure .step) s) := rfl
theorem execTdSt_eq (c : CoreId) (f : FmtM) (s : State) : exec (.tdSt c f) s = .next (scalar c f.pre (formM asA f && f.size == 3) (do
    let t ← get
    let x := t.core c
    scalarStore (x.addrM f) 64 (tdStData f x)
    pure .step) s) := rfl

@[simp] theorem stData_length (f : FmtM) (x : Core) : (stData f x).length = 2 ^ f.size.toNat := le_length _ _
@[simp] theorem stPData_length (f : FmtM) (x : Core) : (stPData f x).length = 8 := bytesLE_length _ _

/-- The bytes of a list of words. -/
theorem flatMap_le_length (l : List Word) : (l.flatMap fun w => le 8 w.toNat).length = 8 * l.length := by
  induction l with
  | nil => rfl
  | cons w l ih => simp [ih]; omega

theorem flatMap_le_getElem (l : List Word) (k : Nat) (h : k < (l.flatMap fun w => le 8 w.toNat).length) :
    (l.flatMap fun w => le 8 w.toNat)[k] = byteOf (l.getD (k / 8) 0) (k % 8) := by
  induction l generalizing k with
  | nil => simp at h
  | cons w l ih =>
    simp only [List.flatMap_cons]
    by_cases hk : k < 8
    · rw [List.getElem_append_left (by simpa using hk), le_getElem _ _ _ _ hk, Nat.div_eq_of_lt hk, Nat.mod_eq_of_lt hk]
      rfl
    · obtain ⟨j, rfl⟩ := Nat.exists_eq_add_of_le' (Nat.le_of_not_lt hk)
      rw [List.getElem_append_right (by simp)]
      simp only [le_length, Nat.add_sub_cancel, Nat.add_mod_right, Nat.add_div_right j (by decide : 0 < 8), List.getD_cons_succ]
      exact ih j _

@[simp] theorem tdStData_length (f : FmtM) (x : Core) : (tdStData f x).length = 128 := by
  rw [tdStData, Core.tdBytes, flatMap_le_length]; simp

/-- A store that is served does as `Stored` says. -/
theorem stored_poke {s : State} {c : CoreId} {off n : Nat} {v : Nat → Byte} {data : List Byte} {o : Host.Outcome State Fault Refusal}
    (hm : s.mem.wf = true) (hl : data.length = n) (hv : ∀ k, (h : k < data.length) → data[k] = v k)
    (ho : o = .next ((s.poke off data).modCore c advance)) : Stored s c off n v o := by
  refine ⟨_, ho, rfl, fun k hk => ?_, fun a ha => ?_⟩
  · rw [State.modCore_mem, State.poke, Memory.byte_setBytes_in _ _ _ _ hm (by omega)]
    exact hv k _
  · rw [State.modCore_mem, State.poke, Memory.byte_setBytes_out _ _ _ _ hm (by omega)]

theorem stPData_byte (f : FmtM) (x : Core) (k : Nat) (h : k < (stPData f x).length) : (stPData f x)[k] =
    byteOf ((~~~(x.sreg f.rd.toNat).setWidth 32 : BitVec 32) ++ ((x.sreg f.rd.toNat).setWidth 32 : BitVec 32)) k := by
  have hv : (x.sreg f.rd.toNat).toNat % 2 ^ 32 = ((x.sreg f.rd.toNat).setWidth 32 : BitVec 32).toNat := by simp
  rw [← pair_eq, ← hv]
  exact le_getElem _ 8 k h (by simpa using h)

theorem storeResults : StoreResults := by
  intro c f s off hx hp hw
  refine ⟨?_, fun hz ho hs => ?_, fun hz ha ho hs => ?_⟩
  · rintro n rfl ho hs
    rw [← stData_length f (s.core c)] at hs
    have hb := scalarStore_storable (sizeBytes_dvd f.size) ho (stData_length f (s.core c) ▸ Nat.two_pow_pos _) hs
    refine stored_poke hw (stData_length f (s.core c)) (fun k hk => ?_) ((execSt_eq c f s).trans (store_served hx hp.form hb))
    exact le_getElem _ _ _ hk (Nat.lt_of_lt_of_le hk (stData_length f (s.core c) ▸ sizeBytes_le f.size))
  · rw [← stPData_length f (s.core c)] at hs
    have hb := scalarStore_storable (m := 8) (by decide) ho (by simp) hs
    exact stored_poke hw (stPData_length f (s.core c)) (stPData_byte f (s.core c))
      ((execStP_eq c f s).trans (store_served hx (by simp [hp.form, hz]) hb))
  · rw [← tdStData_length f (s.core c)] at hs
    have hb := scalarStore_storable (m := 64) (by decide) ho (by simp) hs
    exact stored_poke hw (tdStData_length f (s.core c)) (flatMap_le_getElem _)
      ((execTdSt_eq c f s).trans (store_served hx (by simp [hp.form_asA ha, hz]) hb))

/-! ## Refused accesses (R18, R71, R262) -/

theorem registerLoads : RegisterLoads := by
  intro c f s off hx hp h h'
  refine ⟨fun hz ho => ⟨fun w => registerLoads_read hx hp h h' hz ho, fun hr => ?_, ?_⟩, ?_, fun hz ha ho => ⟨?_, ?_⟩⟩
  · have hsz : 2 ^ f.size.toNat = 8 := by rw [hz]; rfl
    obtain ⟨hld, hlds⟩ := registerLoads_refused hx hp h h' (by rw [hsz]; exact ho) (.inr hr)
    exact ⟨hld, hlds, ldP_fault hx hp hz
      (scalarLoad_register_refused (m := 8) (by decide) ho h h' (.inr (.inr hr)))⟩
  · exact (execStP_eq c f s).trans (store_fault hx (by simp [hp.form, hz])
      (scalarStore_register (m := 8) (by decide) ho (by simp) h h'))
  · rintro n rfl ho
    exact ⟨fun hn => registerLoads_refused hx hp h h' ho (.inl hn), (execSt_eq c f s).trans (store_fault hx hp.form
      (scalarStore_register (sizeBytes_dvd f.size) ho (stData_length f (s.core c) ▸ Nat.two_pow_pos _) h h'))⟩
  · exact tdLd_fault hx hp hz ha (scalarLoad_register_refused (m := 64) (by decide) ho h h' (.inl rfl))
  · exact (execTdSt_eq c f s).trans (store_fault hx (by simp [hp.form_asA ha, hz])
      (scalarStore_register (m := 64) (by decide) ho (by simp) h h'))

theorem misalignedAccesses : MisalignedAccesses := by
  intro c f s hx hp
  refine ⟨fun hbad => ⟨?_, ?_, ?_⟩, fun hz hbad => ⟨?_, ?_⟩, fun hz ha hbad => ⟨?_, ?_⟩⟩
  · exact loadM_fault hx hp (scalarLoad_refused hbad)
  · exact loadM_fault hx hp (scalarLoad_refused hbad)
  · exact (execSt_eq c f s).trans (store_fault hx hp.form (scalarStore_refused hbad))
  · exact ldP_fault hx hp hz (scalarLoad_refused hbad)
  · exact (execStP_eq c f s).trans (store_fault hx (by simp [hp.form, hz]) (scalarStore_refused hbad))
  · exact tdLd_fault hx hp hz ha (scalarLoad_refused hbad)
  · exact (execTdSt_eq c f s).trans (store_fault hx (by simp [hp.form_asA ha, hz]) (scalarStore_refused hbad))

/-- Settles O11: a descriptor is the words of its bytes; in register space an 8-byte load reads the register at its offset,
and everything else there is refused. -/
theorem descriptorAndRegisterLoads : Obligations.DescriptorAndRegisterLoads := ⟨descriptorLoadResults, registerLoads⟩

/-- Settles O12: a served store pokes its bytes, whose reading rules are memory's; an access that is not the chip's own or
not aligned is refused before anything is read or written. -/
theorem stores : Obligations.Stores := ⟨storeResults, misalignedAccesses⟩

end Sys2Proof.Claims
end

section
/-! ## The machine right after reset -/

namespace Sys2Proof.Claims
open Sys2Proof.Machine

theorem reset_core (c : CoreId) : State.reset.core c = {} := Vector.getElem_replicate c.isLt
theorem reset_stack (i : StackId) : State.reset.stack i = {} := Vector.getElem_replicate i.isLt
theorem reset_ring (r : RingId) : State.reset.ring r = {} := Vector.getElem_replicate r.isLt
theorem reset_qp (p : Fin 2) (q : Fin 64) : State.reset.qp p q = {} := by
  simp [State.qp, State.reset]
theorem reset_port (p : PortId) : State.reset.port p = { level := portLevel p.val, logical := 0 } :=
  Vector.getElem_ofFn p.isLt
/-- Partition 0 alone is enabled, over all sixteen clusters of eight cores (R474). -/
theorem reset_part (p : PartId) : State.reset.part p = if p.val = 0 then { enable := true, count := 15 } else {} :=
  Vector.getElem_ofFn p.isLt

/-- Settles O60: every indexed unit is at its reset value by the lemma of its kind, the rest by what reset is. -/
theorem resetState : Obligations.ResetState := by
  refine ⟨rfl, rfl, rfl, rfl, rfl, fun c => ?_, fun i => ?_, fun p => ?_, rfl, rfl, fun p hp => ?_, fun p q => ?_, fun r => ?_,
    rfl, rfl, rfl, rfl, rfl, rfl, rfl⟩
  · rw [reset_core]; exact ⟨rfl, rfl⟩
  · rw [reset_stack]; exact ⟨rfl, rfl, rfl⟩
  · rw [reset_port]; exact ⟨rfl, rfl⟩
  · have hv : p.val ≠ 0 := fun h => hp (Fin.ext h)
    rw [reset_part, if_neg hv]
  · rw [reset_qp]
  · rw [reset_ring]

end Sys2Proof.Claims
end

section
/-! ## Register writes (R8, R47) -/

namespace Sys2Proof.Claims
open Sys2Proof.Machine

/-- A write where register space lies is its register's write. -/
theorem registerWrite_at {s : State} {off : Nat} {v : Word} {w : Word} (h : s.regAt off = some (some w)) :
    exec (.registerWrite off v) s = .next (s.storeReg off v) := by
  have : s.writeReg off v = some (s.storeReg off v) := by simp only [State.writeReg, h]
  simp only [exec, execRegisterWrite, this]

/-- A write of a register none of whose fields are writable takes nothing. -/
theorem registerWrite_readOnly {s : State} {off : Nat} {v : Word} {w : Word} (h : s.regAt off = some (some w))
    (hs : s.storeReg off v = s) : exec (.registerWrite off v) s = .next s := by rw [registerWrite_at h, hs]

/-- No register space lies off it, beyond it, or at an offset that is no multiple of 8 (R23). -/
theorem regAt_none (s : State) {off : Nat} (h : off < regBase ∨ regEnd ≤ off ∨ off % 8 ≠ 0) : s.regAt off = none := by
  obtain ⟨-, -, -, -, -, h6, h7⟩ := addressMap
  unfold State.regAt
  by_cases hb : off % 8 ≠ 0 ∨ off < regBase
  · rw [if_pos hb]
  · rw [if_neg hb, if_neg (by omega), if_neg (by omega), if_neg (by omega), if_neg (by omega), if_neg (by omega),
      if_neg (by omega), if_neg (by omega), if_neg (by omega), if_neg (by omega)]

/-- Core 0, which every part has, answers at the offsets of its registers. -/
theorem regAt_core0 (s : State) {o : Nat} (ho : o < 0x10000) (h8 : o % 8 = 0) :
    s.regAt (regBase + (0x1000000 + o)) = some (s.readCore 0 o) := by
  have hc : 0 < s.logicalCores := by unfold State.logicalCores; split <;> decide
  have e : regBase + (0x1000000 + o) - regBase = 0x1000000 + o := Nat.add_sub_cancel_left _ _
  have e2 : (0x1000000 + o - 0x1000000) / 0x10000 = 0 := by omega
  have e3 : (0x1000000 + o) % 0x10000 = o := by omega
  obtain ⟨-, -, -, -, -, h6, h7⟩ := addressMap
  unfold State.regAt
  rw [if_neg (by omega)]
  simp only [e, e2, e3]
  rw [if_neg (by omega), if_pos (by omega), dif_pos (by decide), if_pos hc]
  rfl

/-- TICK_PERIOD by the period written (R56). -/
theorem registerWrite_tickPeriod {s : State} {v : Word} {p : Nat} (hp : p = v.toNat % 2 ^ 26) :
    exec (.registerWrite (regBase + 0x1008) v) s = .next (if p = s.tick.period then s
      else if s.tick.run ∨ p < 36000 ∨ p > 36000000 then s.badWrite
      else { s with tick := { s.tick with period := p, effective := p } }) := by
  subst hp
  exact registerWrite_at rfl

/-- TICK_SLACK by what locks it (R47, R56). -/
theorem registerWrite_tickSlack (s : State) (v : Word) :
    exec (.registerWrite (regBase + 0x1010) v) s = .next (s.whenFree s.tick.run (decide (v.toNat % 2 ^ 7 = s.tick.slack))
      { s with tick := { s.tick with slack := v.toNat % 2 ^ 7 } }) := registerWrite_at rfl

theorem registerWrite_tickStatus (s : State) (v : Word) :
    exec (.registerWrite (regBase + 0x1030) v) s = .next { s with tick := s.tick.clear v } := registerWrite_at rfl

theorem w1c_iff (f b : Bool) : w1c f b = true ↔ f = true ∧ b = false := by simp [w1c]

/-- The read-only registers of the device, the tick unit and the partitions. -/
theorem configReadOnly (s : State) (v : Word) : ∀ o ∈ [0x0, 0x8, 0x10, 0x18, 0x20, 0x400, 0x1018, 0x1020, 0x1028, 0x1038,
    0x1040, 0x1050, 0x1100, 0x1208, 0x1228, 0x1340], exec (.registerWrite (regBase + o) v) s = .next s := by
  simp only [List.forall_mem_cons]
  exact ⟨registerWrite_readOnly rfl rfl, registerWrite_readOnly rfl rfl, registerWrite_readOnly rfl rfl,
    registerWrite_readOnly rfl rfl, registerWrite_readOnly rfl rfl, registerWrite_readOnly rfl rfl,
    registerWrite_readOnly rfl rfl, registerWrite_readOnly rfl rfl, registerWrite_readOnly rfl rfl,
    registerWrite_readOnly rfl rfl, registerWrite_readOnly rfl rfl, registerWrite_readOnly rfl rfl,
    registerWrite_readOnly rfl rfl, registerWrite_readOnly rfl rfl, registerWrite_readOnly rfl rfl,
    registerWrite_readOnly rfl rfl, List.forall_mem_nil _⟩

/-- Those of core 0. -/
theorem coreReadOnly (s : State) (v : Word) : ∀ o ∈ [0x1000008, 0x1000018, 0x1000100],
    exec (.registerWrite (regBase + o) v) s = .next s := by
  simp only [List.forall_mem_cons]
  exact ⟨registerWrite_readOnly (regAt_core0 s (o := 8) (by decide) (by decide)) rfl,
    registerWrite_readOnly (regAt_core0 s (o := 0x18) (by decide) (by decide)) rfl,
    registerWrite_readOnly (regAt_core0 s (o := 0x100) (by decide) (by decide)) rfl, List.forall_mem_nil _⟩

/-- Those of a stack, a port, Folio, an engine, Easel, the host interface and the trace. -/
theorem unitReadOnly (s : State) (v : Word) : ∀ o ∈ [0x2000010, 0x2000018, 0x3000018, 0x3000030, 0x4000030, 0x5000008,
    0x7000008, 0x7001010, 0x8000018, 0x8100000, 0x8100100, 0x9000008, 0x9000110],
    exec (.registerWrite (regBase + o) v) s = .next s := by
  simp only [List.forall_mem_cons]
  exact ⟨registerWrite_readOnly rfl rfl, registerWrite_readOnly rfl rfl, registerWrite_readOnly rfl rfl,
    registerWrite_readOnly rfl rfl, registerWrite_readOnly rfl rfl, registerWrite_readOnly rfl rfl,
    registerWrite_readOnly rfl rfl, registerWrite_readOnly rfl rfl, registerWrite_readOnly rfl rfl,
    registerWrite_readOnly rfl rfl, registerWrite_readOnly rfl rfl, registerWrite_readOnly rfl rfl,
    registerWrite_readOnly rfl rfl, List.forall_mem_nil _⟩

theorem registerWrites : RegisterWrites := by
  intro s v
  refine ⟨fun p hp hr h1 h2 => ?_, fun p hp hne h => ?_, fun hr => ?_, fun hr hne => ?_, ?_, fun o ho => ?_, fun off h => ?_⟩
  · have hfree : ¬ (s.tick.run = true ∨ p < 36000 ∨ p > 36000000) := by simp [hr, h1, h2]
    rw [registerWrite_tickPeriod hp, if_neg hfree]
  · rw [registerWrite_tickPeriod hp, if_neg hne, if_pos h]; rfl
  · rw [registerWrite_tickSlack, State.whenFree, hr]; rfl
  · rw [registerWrite_tickSlack, State.whenFree, hr, decide_eq_false hne]; rfl
  · refine ⟨_, registerWrite_tickStatus s v, rfl, ?_⟩
    simp only [List.forall_mem_cons]
    exact ⟨w1c_iff _ _, w1c_iff _ _, w1c_iff _ _, w1c_iff _ _, w1c_iff _ _, w1c_iff _ _, w1c_iff _ _, w1c_iff _ _,
      List.forall_mem_nil _⟩
  · have all := List.forall_mem_append.2 ⟨configReadOnly s v, List.forall_mem_append.2 ⟨coreReadOnly s v, unitReadOnly s v⟩⟩
    exact all o ho
  · have : s.writeReg off v = none := by simp only [State.writeReg, regAt_none s h]
    simp only [exec, execRegisterWrite, this]

theorem watchReleases : WatchReleases := by
  intro s p
  constructor
  · intro hr hh
    have hd : s.tick.decides = true := by
      unfold Tick.decides
      split
      · contradiction
      · rfl
    constructor <;> simp [exec, execWatchCtrlRetry, execWatchCtrlSkip, State.watchCtrl, hd, hh]
  · intro h
    have hk : ¬ s.tick.decides = true ∨ ¬ (s.part p).held = true := by
      rcases h with h | h
      · simp [Tick.decides, h]
      · simp [h]
    constructor <;> rcases hk with hk | hk <;> simp [exec, execWatchCtrlRetry, execWatchCtrlSkip, State.watchCtrl, hk]

/-- Settles O27: each register of the statement by what a write where it lies stores there, and RETRY and SKIP by what the
watch asks of them. -/
theorem registerWritesAndReleases : Obligations.RegisterWritesAndReleases := ⟨registerWrites, watchReleases⟩

end Sys2Proof.Claims
end

section
/-! ## Messages of the tick (R10, R27, R31, R32) -/

namespace Sys2Proof.Claims
open Sys2Proof.Machine

theorem toNat_pair (v : Nat) : (pair v).toNat = v % 2 ^ 32 + ((2 ^ 32 - 1) - v % 2 ^ 32) * 2 ^ 32 := by
  rw [pair, BitVec.toNat_ofNat, Nat.mod_eq_of_lt]
  have := Nat.mod_lt v (Nat.two_pow_pos 32)
  omega

@[simp] theorem pairOk_pair (v : Nat) : pairOk (pair v) = true := by
  have := Nat.mod_lt v (Nat.two_pow_pos 32)
  rw [pairOk, decide_eq_true_eq, toNat_pair]
  omega

@[simp] theorem pairVal_pair (v : Nat) : pairVal (pair v) = v % 2 ^ 32 := by
  rw [pairVal, toNat_pair, Nat.add_mul_mod_self_right, Nat.mod_mod]

theorem live_iff (t : Tick) : t.live = true ↔ InTick t := by
  simp only [Tick.live, InTick, Bool.and_eq_true, Bool.not_eq_true', and_assoc]

/-- The children are the chips that TICK_CHILD registers name. -/
theorem mem_validChildren (t : Tick) (child : Half) : child ∈ t.validChildren ↔ Names t child := by
  have hrole : ¬ (t.role = .standalone ∨ t.role = .reserved) ↔ (t.role = .member ∨ t.role = .master) := by
    cases t.role <;> simp
  have hword : ∀ w : Word, (decide (pairVal w / 65536 % 2 = 1) = true ∧ half (pairVal w % 65536) = child) ↔
      pairVal w % 2 ^ 17 = child.toNat + 2 ^ 16 := by
    intro w
    have hc := child.isLt
    rw [decide_eq_true_eq, half, ← BitVec.toNat_inj, BitVec.toNat_ofNat]
    omega
  unfold Tick.validChildren Names
  by_cases h : t.role = .standalone ∨ t.role = .reserved
  · rw [if_pos h]
    simp [← hrole, h]
  · rw [if_neg h]
    simp only [List.mem_map, List.mem_filter, Vector.mem_toList_iff, Bool.and_eq_true, and_assoc, hword]
    refine ⟨fun ⟨w, hw, ok, hv⟩ => ⟨hrole.1 h, ?_⟩, fun ⟨_, i, ok, hv⟩ => ⟨_, Vector.getElem_mem i.isLt, ok, hv⟩⟩
    obtain ⟨i, hi, rfl⟩ := Vector.mem_iff_getElem.1 hw
    exact ⟨⟨i, hi⟩, ok, hv⟩

/-- Every paired word of a message is valid: what `Report.valid` and `VerdictMsg.valid` ask. -/
def wordsOk (tick edge : PW2) (vf va : List PW2) (proof : Option PW2) : Bool := tickOk tick && PW2.ok edge && pairsOk vf va proof

theorem Carries.tickOk {w : PW2} {n : Nat} (h : Carries w n) : tickOk w = true := by
  obtain ⟨hn, rfl⟩ := h
  simp only [Machine.tickOk, PW2.ok, pairOk_pair, pairVal_pair, Bool.and_self, Bool.true_and, decide_eq_true_eq]
  omega

theorem Carries.val {w : PW2} {n : Nat} (h : Carries w n) : PW2.val w = n := by
  obtain ⟨hn, rfl⟩ := h
  simp only [PW2.val, pairVal_pair]
  omega

theorem wordsOk_of_forTick {tick edge : PW2} {vf va : List PW2} {proof : Option PW2} {n : Nat}
    (h : ForTick tick (edge :: vf ++ va) proof n) : wordsOk tick edge vf va proof = true ∧ PW2.val tick = n := by
  obtain ⟨hc, hw, hp⟩ := h
  have ok : ∀ w ∈ edge :: vf ++ va, PW2.ok w = true := fun w m => by simp [PW2.ok, hw w m]
  refine ⟨?_, hc.val⟩
  simp only [wordsOk, pairsOk, Bool.and_eq_true, List.all_eq_true]
  refine ⟨⟨hc.tickOk, ok edge (by simp)⟩, ⟨fun w m => ok w (by simp [m]), fun w m => ok w (by simp [m])⟩, ?_⟩
  cases proof with
  | none => rfl
  | some p => obtain ⟨k, hk⟩ := hp p rfl; exact hk.tickOk

theorem wordsOk_of_notForTick {tick edge : PW2} {vf va : List PW2} {proof : Option PW2} {n : Nat}
    (h : NotForTick tick (edge :: vf ++ va) proof n) : ¬ (wordsOk tick edge vf va proof = true ∧ PW2.val tick = n) := by
  rintro ⟨hk, hv⟩
  simp only [wordsOk, pairsOk, Machine.tickOk, Bool.and_eq_true, List.all_eq_true] at hk
  obtain ⟨⟨⟨htick, -⟩, hedge⟩, ⟨hvf, hva⟩, hproof⟩ := hk
  obtain hne | ⟨w, hw, hbad⟩ := h
  · exact hne hv
  · have ok : PW2.ok w = true := by
      simp only [List.cons_append, List.mem_cons, List.mem_append, Option.mem_toList] at hw
      rcases hw with rfl | rfl | (hw | hw) | hw
      · exact htick
      · exact hedge
      · exact hvf w hw
      · exact hva w hw
      · subst hw
        simp only [Bool.and_eq_true] at hproof
        exact hproof.1
    rw [PW2.ok, Bool.and_eq_true] at ok
    rcases hbad with hbad | hbad <;> simp [hbad] at ok

theorem tryReportNow_of_running (s : State) (c : CoreId) (h : (s.core c).running = true) : s.tryReportNow = s := by
  simp [State.tryReportNow, State.tryReportAt, s.allDone_of_running c h]

theorem execTickReport_eq {child : Half} {r : Report} {now : Nat} {s : State} (h : Report.wf r = true) :
    exec (.tickReport child r now) s = .next (s.tickReport child r now) := by
  simp only [Report.wf, eight, Bool.and_eq_true, beq_iff_eq] at h
  simp [exec, execTickReport, h]

theorem execVerdict_eq {v : VerdictMsg} {now : Nat} {s : State} (h : VerdictMsg.wf v = true) :
    exec (.verdict v now) s = .next (s.takeVerdict v now) := by
  simp only [VerdictMsg.wf, eight, Bool.and_eq_true, beq_iff_eq] at h
  simp [exec, execVerdict, h]

/-- When a report is kept. -/
def takesReport (t : Tick) (child : Half) (r : Report) : Prop :=
  InTick t ∧ (wordsOk r.tick r.edge r.vf r.va r.proof = true ∧ PW2.val r.tick = t.number) ∧ Names t child

theorem tickReport_taken {s : State} {child : Half} {r : Report} {now : Nat} (h : takesReport s.tick child r) :
    s.tickReport child r now = State.tryReportNow { s with tick := { s.tick with
      time := max s.tick.time now, got := s.tick.got.filter (fun g => g.1 != child) ++ [(child, r)] } } := by
  obtain ⟨hl, ⟨hw, hv⟩, hn⟩ := h
  have hc : (s.tick.live && wordsOk r.tick r.edge r.vf r.va r.proof && decide (PW2.val r.tick = s.tick.number) &&
      s.tick.validChildren.contains child) = true := by
    rw [(live_iff _).2 hl, hw, decide_eq_true hv, List.contains_iff_mem.2 ((mem_validChildren _ _).2 hn)]; rfl
  exact if_pos hc

theorem tickReport_ignored {s : State} {child : Half} {r : Report} {now : Nat} (h : ¬ takesReport s.tick child r) :
    s.tickReport child r now = s.atTime now := by
  have hc : ¬ (s.tick.live && wordsOk r.tick r.edge r.vf r.va r.proof && decide (PW2.val r.tick = s.tick.number) &&
      s.tick.validChildren.contains child) = true := by
    simp only [Bool.and_eq_true, decide_eq_true_eq, List.contains_iff_mem, live_iff, mem_validChildren]
    rintro ⟨⟨⟨hl, hw⟩, hv⟩, hn⟩
    exact h ⟨hl, ⟨hw, hv⟩, hn⟩
  exact if_neg hc

/-- When a verdict is kept. -/
def takesVerdict (t : Tick) (v : VerdictMsg) : Prop :=
  InTick t ∧ t.role = .member ∧ (wordsOk v.tick v.edge v.vf v.va v.proof = true ∧ PW2.val v.tick = t.number) ∧ t.verdict = none

theorem decides_iff (t : Tick) : t.decides = true ↔ t.role ≠ .member := by unfold Tick.decides; cases t.role <;> simp

theorem takeVerdict_taken {s : State} {v : VerdictMsg} {now : Nat} (h : takesVerdict s.tick v) :
    s.takeVerdict v now = ({ s with tick := { s.tick with time := max s.tick.time now, verdict := some v } }).tellAll (.verdict v)
      s.tick.validChildren := by
  obtain ⟨hl, hr, ⟨hw, hv⟩, hn⟩ := h
  have hd : s.tick.decides = false := Bool.eq_false_iff.2 fun d => (decides_iff _).1 d hr
  have hc : (s.tick.live && !s.tick.decides && wordsOk v.tick v.edge v.vf v.va v.proof && s.tick.verdict.isNone &&
      decide (PW2.val v.tick = s.tick.number)) = true := by
    rw [(live_iff _).2 hl, hd, hw, decide_eq_true hv, hn]; rfl
  exact if_pos hc

theorem takeVerdict_ignored {s : State} {v : VerdictMsg} {now : Nat} (h : ¬ takesVerdict s.tick v) :
    s.takeVerdict v now = s.atTime now := by
  have hc : ¬ (s.tick.live && !s.tick.decides && wordsOk v.tick v.edge v.vf v.va v.proof && s.tick.verdict.isNone &&
      decide (PW2.val v.tick = s.tick.number)) = true := by
    simp only [Bool.and_eq_true, decide_eq_true_eq, live_iff, Bool.not_eq_true', Option.isNone_iff_eq_none]
    rintro ⟨⟨⟨⟨hl, hd⟩, hw⟩, hn⟩, hv⟩
    refine h ⟨hl, Decidable.not_not.1 fun hr => ?_, ⟨hw, hv⟩, hn⟩
    rw [(decides_iff _).2 hr] at hd
    cases hd
  exact if_neg hc

theorem reportsAndVerdicts : ReportsAndVerdicts := by
  intro s now child r v hr hv
  rw [execTickReport_eq hr, execVerdict_eq hv]
  refine ⟨fun hl ⟨c, hc⟩ hf hn => ?_, fun hl hf hm hnone => ?_, fun h => ?_, fun h => ?_⟩
  · rw [tickReport_taken ⟨hl, wordsOk_of_forTick hf, hn⟩]
    exact congrArg Host.Outcome.next (tryReportNow_of_running _ c hc)
  · rw [takeVerdict_taken ⟨hl, hm, wordsOk_of_forTick hf, hnone⟩]
  · rw [tickReport_ignored]
    rintro ⟨hl, hw, hn⟩
    rcases h with h | h | h
    · exact h hl
    · exact wordsOk_of_notForTick h hw
    · exact h hn
  · rw [takeVerdict_ignored]
    rintro ⟨hl, hm, hw, hn⟩
    rcases h with h | h | h | h
    · exact h hl
    · exact wordsOk_of_notForTick h hw
    · exact h hm
    · exact h hn

/-! ## Alignment messages (R43, R44, R48) -/

theorem alignmentMessages : AlignmentMessages := by
  intro s m d now
  refine ⟨fun hr hm hw => ?_, fun hr hm hw err he => ?_, fun h => ?_⟩
  · have hk : ¬ (¬ s.tick.run = true ∨ s.tick.decides = true) := by simp [hr, decides_iff, hm]
    simp only [exec, execAlignmentMessage, State.align]
    rw [if_neg hk, if_pos hw]
  · have hk : ¬ (¬ s.tick.run = true ∨ s.tick.decides = true) := by simp [hr, decides_iff, hm]
    have herr : (if m + d ≤ now then now - (m + d) else m + d - now) = err := by split <;> omega
    simp only [exec, execAlignmentMessage, State.align]
    rw [if_neg hk, if_neg (by simp [hw]), herr]
    exact ⟨_, rfl, rfl, by simp, by simp⟩
  · have hk : ¬ s.tick.run = true ∨ s.tick.decides = true := by
      rcases h with h | h
      · simp [h]
      · exact .inr ((decides_iff _).2 h)
    simp only [exec, execAlignmentMessage, State.align]
    rw [if_pos hk]

end Sys2Proof.Claims
end

section
/-! ## How a management message leaves (R354, R358, R361, R366) -/

namespace Sys2Proof.Machine

theorem gfAddPoly_length (a b : List Byte) : (gfAddPoly a b).length = max a.length b.length := by
  induction a generalizing b with
  | nil => simp [gfAddPoly]
  | cons x a ih =>
    cases b with
    | nil => simp [gfAddPoly]
    | cons y b => simp only [gfAddPoly, List.length_cons, ih]; omega

theorem gfScalePoly_length (x : Byte) (a : List Byte) : (gfScalePoly x a).length = a.length := List.length_map _

theorem rsRemainder_length (data : List Byte) : (rsRemainder 2 data).length = 2 := by
  have hg : (rsGen 2).length = 2 := by decide
  have step : ∀ (l : List Byte) (rem : List Byte), rem.length = 2 → (l.foldl (fun (rem : List Byte) b =>
      gfAddPoly (rem.drop 1 ++ [0]) (gfScalePoly (b ^^^ rem.headD 0) (rsGen 2))) rem).length = 2 := by
    intro l
    induction l with
    | nil => exact fun rem h => h
    | cons b l ih => exact fun rem h => ih _ (by simp [gfAddPoly_length, gfScalePoly_length, hg, h])
  exact step data _ rfl

theorem slice_append_left (a b : List Byte) {n : Nat} (h : a.length = n) : slice (a ++ b) 0 n = a := by
  subst h
  rw [slice_of_le (by simp)]; simp

theorem slice_append_right (a b : List Byte) {o n : Nat} (h : a.length = o) (h' : b.length = n) : slice (a ++ b) o n = b := by
  subst h h'
  rw [slice_of_le (by simp)]; simp

theorem setPort_setPort (s : State) (q : PortId) (x y : Port) : (s.setPort q x).setPort q y = s.setPort q y := by
  simp [State.setPort]

/-- A fold over the indices of a unit, none of which changes anything, changes nothing. -/
theorem overFin_id {n : Nat} {f : Fin n → State → State} {s : State} (h : ∀ i, f i s = s) : overFin n f s = s := by
  unfold overFin
  induction List.finRange n with
  | nil => rfl
  | cons i l ih => rw [List.foldl_cons, h i, ih]

/-- No credit is owed at a port. -/
def Port.owesNothing (x : Port) : Prop := x.owedVc0 = 0 ∧ x.owedVc1 = 0 ∧ x.owedMgmt = 0

theorem returnCredits_none {s : State} {q : PortId} (h : (s.port q).owesNothing) (n : Nat) : State.returnCredits q n s = s := by
  obtain ⟨h0, h1, h2⟩ := h
  cases n with
  | zero => rfl
  | succ n => simp only [State.returnCredits, h0, h1, h2, Nat.add_zero, true_or, if_true]

theorem payAll_none {s : State} (h : ∀ p, (s.port p).owesNothing) : s.payAll = s :=
  overFin_id fun p => returnCredits_none (h p) 3

/-- The header of a management stroke that returns no credit, as a number (R354). -/
def mgmtHeader (dest vc : Nat) : Nat := dest * 2 ^ 32 + 5 * 2 ^ 29 + vc * 2 ^ 28

theorem hdrBytes_mgmt (dest vc : Nat) : Hdr.bytes { dest := dest, kind := 5, vc := vc } = le 6 (mgmtHeader dest vc) := by
  have h : place dest 32 + place 5 29 + place vc 28 + place 0 26 + place (b2n false) 25 + place 0 21 + place 0 13 +
      place 0 11 = mgmtHeader dest vc := by
    simp only [place, Nat.shiftLeft_eq, mgmtHeader, b2n, Bool.false_eq_true, if_false]
    omega
  rw [← h, Hdr.bytes]

theorem mgmtHeader_low {dest vc : Nat} (hd : dest < 4096) (hv : vc ≤ 1) :
    mgmtHeader dest vc % 256 ^ 6 / 2 ^ 21 * 2 ^ 21 = mgmtHeader dest vc := by
  unfold mgmtHeader; omega

theorem transBytes_length (t : Trans) : t.bytes.length = 64 := by simp [Trans.bytes, pairBytes, zeros]

/-- The transaction header of a management stroke of this chip (R355). -/
def State.mgmtTrans (s : State) (dest : Nat) : Trans := { src := s.chip, dest := dest, op := 7, epoch := s.epoch.toNat }

theorem mgmtBytes_eq (s : State) (dest vc : Nat) : s.mgmtBytes dest vc =
    le 6 (mgmtHeader dest vc) ++ rsRemainder 2 (le 6 (mgmtHeader dest vc)) ++ (s.mgmtTrans dest).bytes := by
  simp only [State.mgmtBytes, hdrBytes_mgmt, State.mgmtTrans]

theorem mgmtBytes_header (s : State) {dest vc : Nat} (hd : dest < 4096) (hv : vc ≤ 1) :
    leNat (slice (s.mgmtBytes dest vc) 0 6) / 2 ^ 21 * 2 ^ 21 = mgmtHeader dest vc := by
  rw [mgmtBytes_eq, List.append_assoc, slice_append_left _ _ (le_length _ _), le, leNat_bytesLE, mgmtHeader_low hd hv]

theorem mgmtBytes_trans (s : State) (dest vc : Nat) : slice (s.mgmtBytes dest vc) 8 64 = (s.mgmtTrans dest).bytes := by
  have hl : (le 6 (mgmtHeader dest vc) ++ rsRemainder 2 (le 6 (mgmtHeader dest vc))).length = 8 := by
    rw [List.length_append, le_length, rsRemainder_length]
  rw [mgmtBytes_eq, slice_append_right _ _ hl (transBytes_length _)]

/-- A header whose CRED and CPOOL are 0. -/
theorem noCredit (n : Nat) : n + place 0 13 + place 0 11 = n := by simp [place]

/-- What a port that returns no credit sends of a management stroke is the stroke as it was queued (R354). -/
theorem mgmtBytes_sent (s : State) {dest vc : Nat} (hd : dest < 4096) (hv : vc ≤ 1) :
    le 6 (leNat (slice (s.mgmtBytes dest vc) 0 6) / 2 ^ 21 * 2 ^ 21 + place 0 13 + place 0 11) ++
      rsRemainder 2 (le 6 (leNat (slice (s.mgmtBytes dest vc) 0 6) / 2 ^ 21 * 2 ^ 21 + place 0 13 + place 0 11)) ++
      slice (s.mgmtBytes dest vc) 8 64 = s.mgmtBytes dest vc := by
  rw [mgmtBytes_header s hd hv, noCredit, mgmtBytes_trans, mgmtBytes_eq]

theorem Port.payBack_none {x : Port} (h : x.owesNothing) : x.payBack = ((0, 0), x) := by
  obtain ⟨h0, h1, h2⟩ := h
  simp [Port.payBack, h0, h1, h2]

/-- A port with one management stroke of this chip, a credit for it and no credit to return sends it. -/
theorem sendOne_mgmt {s : State} {q : PortId} {o : OutStroke} {m : Mgmt} (hq : (s.port q).outq = [o])
    (hp : (s.port q).owesNothing) (hc : 0 < (s.port q).credMgmt) (hs : s.fabric.stopping = false)
    (ho : o.pool = 2) (hsrc : o.src = none) (hm : o.msg = some m) {b : List Byte}
    (hb : le 6 (leNat (slice o.bytes 0 6) / 2 ^ 21 * 2 ^ 21 + place 0 13 + place 0 11) ++
      rsRemainder 2 (le 6 (leNat (slice o.bytes 0 6) / 2 ^ 21 * 2 ^ 21 + place 0 13 + place 0 11)) ++ slice o.bytes 8 64 = b) :
    s.sendOne q = some ((s.setPort q { s.port q with outq := [], credMgmt := (s.port q).credMgmt - 1 }).emit (.mgmt q.val b m)) := by
  have hgo : s.mayGo (s.port q) o = true := by simp [State.mayGo, ho, Port.credits, hc, hs]
  have hpick : s.pick (s.port q) = some (o, []) := by simp [State.pick, hq, takeFirst, ho, hgo]
  have hpay : Port.payBack { s.port q with outq := [], credMgmt := (s.port q).credMgmt - 1 } =
      ((0, 0), { s.port q with outq := [], credMgmt := (s.port q).credMgmt - 1 }) := Port.payBack_none hp
  simp only [State.sendOne, hpick, Option.map_some, ho, Port.takeCredit, Port.served, hpay, hm, hsrc, hb]

/-- A management stroke that joins an idle port's queue leaves at once, and nothing else changes. -/
theorem queueStroke_mgmt {s : State} {q : PortId} {o : OutStroke} {m : Mgmt}
    (hidle : ∀ p, (s.port p).outq = [] ∧ (s.port p).owesNothing) (hc : 0 < (s.port q).credMgmt)
    (hs : s.fabric.stopping = false) (ho : o.pool = 2) (hsrc : o.src = none) (hm : o.msg = some m) {b : List Byte}
    (hb : le 6 (leNat (slice o.bytes 0 6) / 2 ^ 21 * 2 ^ 21 + place 0 13 + place 0 11) ++
      rsRemainder 2 (le 6 (leNat (slice o.bytes 0 6) / 2 ^ 21 * 2 ^ 21 + place 0 13 + place 0 11)) ++ slice o.bytes 8 64 = b) :
    s.queueStroke q o = (s.modPort q fun x => { x with credMgmt := x.credMgmt - 1 }).emit (.mgmt q.val b m) := by
  obtain ⟨hq, howe⟩ := hidle q
  have hport : (s.modPort q fun x => { x with outq := x.outq ++ [o] }).port q = { s.port q with outq := [o] } := by
    rw [State.port_modPort, hq]; rfl
  have hsame : ({ s.port q with outq := [], credMgmt := (s.port q).credMgmt - 1 } : Port) =
      { s.port q with credMgmt := (s.port q).credMgmt - 1 } := by rw [← hq]
  have hsend := sendOne_mgmt (s := s.modPort q fun x => { x with outq := x.outq ++ [o] }) (q := q) (o := o) (m := m)
    (by rw [hport]) (by rw [hport]; exact howe) (by rw [hport]; exact hc) hs ho hsrc hm hb
  rw [hport] at hsend
  have hset : (s.modPort q fun x => { x with outq := x.outq ++ [o] }).setPort q
      { s.port q with outq := [], credMgmt := (s.port q).credMgmt - 1 } =
      s.modPort q fun x => { x with credMgmt := x.credMgmt - 1 } := by
    rw [State.modPort, setPort_setPort, hsame]; rfl
  have hdrain : State.drainPort q ((s.modPort q fun x => { x with outq := x.outq ++ [o] }).port q).outq.length
      (s.modPort q fun x => { x with outq := x.outq ++ [o] }) =
      (s.modPort q fun x => { x with credMgmt := x.credMgmt - 1 }).emit (.mgmt q.val b m) := by
    rw [hport]
    simp only [List.length_cons, List.length_nil, State.drainPort, hsend, ← hset]
  rw [State.queueStroke, State.pump, hdrain]
  refine payAll_none fun p => ?_
  have hport' : ((s.modPort q fun x => { x with credMgmt := x.credMgmt - 1 }).port p).owesNothing := by
    by_cases hpq : p = q
    · subst hpq
      rw [State.port_modPort]
      exact (hidle p).2
    · rw [State.port_modPort_ne _ _ _ _ hpq]
      exact (hidle p).2
  exact hport'

end Sys2Proof.Machine

namespace Sys2Proof.Claims
open Sys2Proof.Machine

theorem managementMessages : ManagementMessages := by
  refine fun s => ⟨fun child => mem_validChildren s.tick child, fun m dst => ⟨?_, fun h => ?_⟩⟩
  · intro l leaves q hrow hd hroute hport hidle hs hc
    have hin : s.inRow dst.toNat = true := by
      rw [State.inRow, decide_eq_true (Nat.lt_succ_of_le hrow), decide_eq_true hd]; rfl
    have hv : s.vcTo dst.toNat leaves ≤ 1 := by unfold State.vcTo; split <;> decide
    simp only [State.tell, hin, Bool.not_true, Bool.false_eq_true, if_false, hroute, hport]
    exact queueStroke_mgmt (fun p => hidle p) hc hs rfl rfl rfl (mgmtBytes_sent s hd hv)
  · cases hin : s.inRow dst.toNat with
    | false => simp only [State.tell, hin, Bool.not_false, if_true]
    | true =>
      rcases h with h | ⟨l, leaves, h, ho⟩
      · simp only [State.tell, hin, h, Bool.not_true, Bool.false_eq_true, if_false]
      · simp only [State.tell, hin, h, ho, Bool.not_true, Bool.false_eq_true, if_false]

/-- Settles O25: reports and verdicts by when they are taken, alignment by the error against the master's time, and a message
by the one stroke that an idle port sends for it. -/
theorem messagesOfTheTick : Obligations.MessagesOfTheTick := ⟨reportsAndVerdicts, managementMessages, alignmentMessages⟩

end Sys2Proof.Claims
end

section
/-! ## QCP: requests as they arrive, and their responses (R441 to R447) -/

namespace Sys2Proof.Machine

theorem take_append_of_length {α : Type} {a b : List α} {n : Nat} (h : a.length = n) : (a ++ b).take n = a := by
  subst h; exact List.take_left
theorem drop_append_of_length {α : Type} {a b : List α} {n : Nat} (h : a.length = n) : (a ++ b).drop n = b := by
  subst h; exact List.drop_left

/-- A field of a byte string between what stands before and behind it. -/
theorem slice_mid (a b c : List Byte) {o n : Nat} (h : a.length = o) (h' : b.length = n) : slice (a ++ b ++ c) o n = b := by
  rw [slice_of_le (by simp; omega), List.append_assoc, drop_append_of_length h, take_append_of_length h']

theorem overlay_mid (a b v c : List Byte) {o : Nat} (h : a.length = o) (h' : b.length = v.length) :
    overlay (a ++ b ++ c) o v = a ++ v ++ c := by
  have hd : (a ++ b ++ c).drop (o + v.length) = c := drop_append_of_length (by simp [h, h'])
  rw [overlay, hd, List.append_assoc a b c, take_append_of_length h]

theorem zeroed_mid (a b c : List Byte) {o n : Nat} (h : a.length = o) (h' : b.length = n) :
    zeroed (a ++ b ++ c) o n = a ++ List.replicate n 0 ++ c := by
  have hd : (a ++ b ++ c).drop (o + n) = c := drop_append_of_length (by simp [h, h'])
  rw [zeroed, hd, List.append_assoc a b c, take_append_of_length h]

theorem ofNat_leNat_bytesLE (n v : Nat) : BitVec.ofNat (8 * n) (leNat (bytesLE n v)) = BitVec.ofNat (8 * n) v := by
  apply BitVec.eq_of_toNat_eq
  rw [leNat_bytesLE, BitVec.toNat_ofNat, BitVec.toNat_ofNat, Nat.pow_mul, Nat.mod_mod]

end Sys2Proof.Machine

namespace Sys2Proof.Claims
open Sys2Proof.Machine

/-- The first 20 bytes of a response (table "QCP header"). -/
def responseHead (s : State) (cmd : QcpCmd) (r : QcpReq) (st : Status) (len : Nat) : List Byte :=
  qcpMagic ++ [r.version, 1] ++ le 2 cmd.code ++ le 4 r.tag.toNat ++ le 4 len ++ le 2 s.recov.epoch.toNat
    ++ le 1 (statusCode st) ++ [0]

theorem responseHead_length (s : State) (cmd : QcpCmd) (r : QcpReq) (st : Status) (len : Nat) :
    (responseHead s cmd r st len).length = 20 := by simp [responseHead, qcpMagic]

/-- A response with its CHECK still zero. -/
def unchecked (s : State) (cmd : QcpCmd) (r : QcpReq) (st : Status) (retry : Nat) (body : List Byte) : List Byte :=
  responseHead s cmd r st body.length ++ (le 2 retry ++ zeros 6) ++ zeros 4 ++ body

/-- A response is its head, RETRY_AFTER, zeros, its CHECK and its body. -/
theorem responseBytes_eq (s : State) (cmd : QcpCmd) (r : QcpReq) (st : Status) (retry : Nat) (body : List Byte) :
    s.responseBytes cmd r st retry body = responseHead s cmd r st body.length ++ (le 2 retry ++ zeros 6) ++
      le 4 (crc32c (unchecked s cmd r st retry body)).toNat ++ body := by
  have hm : qcpMagic ++ [r.version, 1] ++ le 2 cmd.code ++ le 4 r.tag.toNat ++ le 4 body.length ++ le 2 s.recov.epoch.toNat
      ++ le 1 (statusCode st) ++ [0] ++ le 2 retry ++ zeros 10 ++ body = unchecked s cmd r st retry body := by
    simp only [unchecked, responseHead, show zeros 10 = zeros 6 ++ zeros 4 from rfl, List.append_assoc]
  simp only [State.responseBytes, hm]
  exact overlay_mid _ _ _ _ (by simp [responseHead_length, zeros]) (by simp [zeros])

theorem length_responseBytes (s : State) (cmd : QcpCmd) (r : QcpReq) (st : Status) (retry : Nat) (body : List Byte) :
    (s.responseBytes cmd r st retry body).length = 32 + body.length := by
  simp [responseBytes_eq, responseHead_length, zeros]; omega

theorem head_responseBytes (s : State) (cmd : QcpCmd) (r : QcpReq) (st : Status) (retry : Nat) (body : List Byte) :
    (s.responseBytes cmd r st retry body).take 20 = responseHead s cmd r st body.length := by
  rw [responseBytes_eq]
  simp only [List.append_assoc]
  exact take_append_of_length (responseHead_length ..)

theorem retry_responseBytes (s : State) (cmd : QcpCmd) (r : QcpReq) (st : Status) (retry : Nat) (body : List Byte) :
    slice (s.responseBytes cmd r st retry body) 0x14 2 = le 2 retry := by
  rw [responseBytes_eq, ← List.append_assoc (responseHead s cmd r st body.length), List.append_assoc, List.append_assoc]
  exact slice_mid _ _ _ (responseHead_length ..) (le_length ..)

theorem rsv_responseBytes (s : State) (cmd : QcpCmd) (r : QcpReq) (st : Status) (retry : Nat) (body : List Byte) :
    slice (s.responseBytes cmd r st retry body) 0x16 6 = zeros 6 := by
  rw [responseBytes_eq, ← List.append_assoc (responseHead s cmd r st body.length), List.append_assoc (_ ++ zeros 6)]
  exact slice_mid _ _ _ (by simp [responseHead_length]) (by simp [zeros])

theorem body_responseBytes (s : State) (cmd : QcpCmd) (r : QcpReq) (st : Status) (retry : Nat) (body : List Byte) :
    (s.responseBytes cmd r st retry body).drop 32 = body := by
  rw [responseBytes_eq]
  exact drop_append_of_length (by simp [responseHead_length, zeros])

/-- CHECK is the CRC-32C of the message with CHECK zero (R441). -/
theorem check_responseBytes (s : State) (cmd : QcpCmd) (r : QcpReq) (st : Status) (retry : Nat) (body : List Byte) :
    w32At (s.responseBytes cmd r st retry body) 0x1C = crc32c (zeroed (s.responseBytes cmd r st retry body) 0x1C 4) := by
  have hp : (responseHead s cmd r st body.length ++ (le 2 retry ++ zeros 6)).length = 0x1C := by
    simp [responseHead_length, zeros]
  rw [responseBytes_eq, zeroed_mid _ _ _ hp (le_length ..), w32At, slice_mid _ _ _ hp (le_length ..)]
  exact (ofNat_leNat_bytesLE 4 _).trans (by rw [BitVec.ofNat_toNat, BitVec.setWidth_eq]; rfl)

/-- An answer is the response of R441 and R442. -/
theorem answer_answers (s : State) (cmd : QcpCmd) (r : QcpReq) (st : Status) (body : List Byte) :
    Answers s (s.answer cmd r st body) r cmd.code st body := by
  refine ⟨_, rfl, rfl, length_responseBytes .., head_responseBytes .., fun hst => ?_, rsv_responseBytes ..,
    check_responseBytes .., body_responseBytes ..⟩
  rw [retry_responseBytes, if_neg hst]
  rfl

/-- An answer changes nothing but the output and the kept responses, where no request executes. -/
theorem answer_onlyAnswered {s : State} (h : s.qcp.current = none) (cmd : QcpCmd) (r : QcpReq) (st : Status) (body : List Byte) :
    OnlyAnswered s (s.answer cmd r st body) := by
  rw [OnlyAnswered, State.answer, State.emit]
  simp only
  rw [← h]

/-- The endpoint is idle. -/
theorem Taken.idle {s : State} {r : QcpReq} (h : Taken s r) : s.qcp.current = none ∧ s.qcp.waiting = [] := by
  obtain ⟨-, -, hc, hw, -⟩ := h
  exact ⟨hc, hw⟩

/-- An arrival that is neither a repetition nor ignored goes on to its command. -/
theorem Taken.arrives {s : State} {r : QcpReq} (h : Taken s r) : ¬ (¬ s.boot.booted = true ∨ r.flags.getLsbD 0 = true) ∧
    (s.qcp.kept.find? fun k => k.1 == r.src && k.2.1 == r.tag) = none ∧
    ((s.qcp.current.toList ++ s.qcp.waiting ++ s.qcp.aside).any fun k => sameReq k.req r) = false := by
  obtain ⟨hb, hk, hc, hw, ha, -, hf, -⟩ := h
  refine ⟨by simp [hb, hf], List.find?_eq_none.2 fun k hm => ?_, by simp [hc, hw, ha]⟩
  rcases hk k hm with h | h <;> simp [h]

theorem Taken.arrive_hello {s : State} {r : QcpReq} (h : Taken s r) : s.arrive .hello r =
    ((runHello r).outcome s).2.answer .hello r ((runHello r).outcome s).1 (((runHello r).outcome s).2.helloBody r.body).2 := by
  obtain ⟨h1, h2, h3⟩ := h.arrives
  simp only [State.arrive, if_neg h1, h2, h3, Bool.false_eq_true, if_false]

theorem Taken.arrive_status {s t : State} {r : QcpReq} (h : Taken s r) (hx : Eng.exec (checkHeader .status r) s = (.ok (), t)) :
    s.arrive .status r = t.answer .status r .ok t.statusBody := by
  obtain ⟨h1, h2, h3⟩ := h.arrives
  simp only [State.arrive, if_neg h1, h2, h3, Bool.false_eq_true, if_false, Eng.outcome_ok hx, if_true]

theorem Taken.arrive_regRead {s t : State} {r : QcpReq} {b : List Byte} (h : Taken s r) (hx : Eng.exec (runRegRead r) s = (.ok b, t)) :
    s.arrive .regRead r = t.answer .regRead r .ok b := by
  obtain ⟨h1, h2, h3⟩ := h.arrives
  simp only [State.arrive, if_neg h1, h2, h3, Bool.false_eq_true, if_false, hx]

theorem Taken.arrive_regRead_failed {s t : State} {r : QcpReq} {st : Status} (h : Taken s r)
    (hx : Eng.exec (runRegRead r) s = (.error st, t)) : s.arrive .regRead r = (t.answer .regRead r st []).endRequest st := by
  obtain ⟨h1, h2, h3⟩ := h.arrives
  simp only [State.arrive, if_neg h1, h2, h3, Bool.false_eq_true, if_false, hx]

/-- A REG_WRITE begins at once where the endpoint is idle (R447). -/
theorem Taken.arrive_regWrite {s : State} {r : QcpReq} (h : Taken s r) :
    s.arrive .regWrite r = (s.beginQcp ⟨.regWrite, r⟩).nextQcp := by
  obtain ⟨h1, h2, h3⟩ := h.arrives
  have hc : s.qcp.current.isNone = true := by rw [h.idle.1]; rfl
  have ho : s.overtakes ⟨.regWrite, r⟩ = false := rfl
  have hl : s.cutsLoad ⟨.regWrite, r⟩ = false := rfl
  simp only [State.arrive, if_neg h1, h2, h3, Bool.false_eq_true, if_false, ho, hl, hc, if_true]

/-- A request whose header is right passes the header's checks. -/
theorem Taken.checkHeader {s t : State} {r : QcpReq} {c : QcpCmd} (h : Taken s r) (hc : ∀ n, c ≠ .other n)
    (hl : c.lengthOk r.body = true) (hr : c.waitsReady = true → t.qcp.ready = true ∧ r.epoch = t.recov.epoch) :
    Eng.exec (Machine.checkHeader c r) t = (.ok (), t) := by
  obtain ⟨-, -, -, -, -, hv, hf, hs, h13, hra, h16⟩ := h
  have hver : (c == .hello || r.version == 1 || r.version == 2) = true := by rcases hv with hv | hv <;> simp [hv]
  have hready : (!c.waitsReady || t.qcp.ready) = true := by
    cases hw : c.waitsReady with
    | false => rfl
    | true => simp [(hr hw).1]
  have hepoch : (!c.checksEpoch || r.epoch == t.epoch) = true := by
    cases hw : c.checksEpoch with
    | false => rfl
    | true => simp [(hr hw).2, State.epoch]
  unfold Machine.checkHeader
  refine (Eng.exec_bind_ok (Eng.exec_get t)).trans (Eng.need_then ?_ (Eng.need_then hver (Eng.need_then ?_
    (Eng.need_then hready ?_))))
  · cases c with
    | other n => exact absurd rfl (hc n)
    | _ => rfl
  · simp [hl, hf, hs, h13, hra, h16]
  · rw [Eng.exec_need, hepoch]; rfl

/-! ### HELLO and STATUS -/

theorem helloBody_eq (s : State) (lo hi : Byte) (rest : List Byte) (v : Nat)
    (h : v = if lo.toNat ≤ 2 ∧ 2 ≤ hi.toNat then 2 else if lo.toNat ≤ 1 ∧ 1 ≤ hi.toNat then 1 else 0) :
    s.helloBody (lo :: hi :: rest) = (v, le 1 v ++ [0] ++ le 2 6 ++ le 2 s.boot.version ++ zeros 2 ++ pairBytes s.boot.abi
      ++ le 8 s.deviceId.toNat ++ le 8 s.chipId.toNat) := by
  subst h; rfl

/-- HELLO is answered with the version it chooses, or with DECODE where it chooses none (R446). -/
theorem hello_answered {s : State} {r : QcpReq} (h : Taken s r) {lo hi : Byte} (hb : r.body = [lo, hi, 0, 0, 0, 0, 0, 0]) :
    exec (.hello r) s = .next (s.answer .hello r (if (s.helloBody r.body).1 = 0 then .decode else .ok) (s.helloBody r.body).2) := by
  have hhead : Eng.exec (Machine.checkHeader .hello r) s = (.ok (), s) :=
    h.checkHeader (fun n => by simp) (by rw [hb]; rfl) (by intro hw; cases hw)
  have hzero : allZero (slice r.body 2 6) = true := by rw [hb]; rfl
  have hrun : Eng.exec (runHello r) s = Eng.exec (need ((s.helloBody r.body).1 != 0) .decode) s :=
    (Eng.exec_bind_ok hhead).trans (Eng.need_then hzero (Eng.exec_bind_ok (Eng.exec_get s)))
  have hout : (runHello r).outcome s = (if (s.helloBody r.body).1 = 0 then .decode else .ok, s) := by
    by_cases hv : (s.helloBody r.body).1 = 0
    · rw [if_pos hv]; exact Eng.outcome_error (by rw [hrun, Eng.exec_need, hv]; rfl)
    · rw [if_neg hv]; exact Eng.outcome_ok (by rw [hrun, Eng.exec_need, bne_iff_ne.2 hv]; rfl)
  simp only [exec, execHello, h.arrive_hello, hout]

theorem parts_flatMap (s : State) (f : Part → List Byte) :
    s.parts.toList.flatMap f = (List.finRange 8).flatMap fun p => f (s.part p) := by
  have : s.parts.toList = (List.finRange 8).map s.part := by
    apply List.ext_getElem
    · simp
    · intro i h1 h2; simp [State.part]
  rw [this, List.flatMap_map]

theorem status_answered {s : State} {r : QcpReq} (h : Taken s r) (hb : r.body = []) :
    exec (.status r) s = .next (s.answer .status r .ok s.statusBody) := by
  have hhead : Eng.exec (Machine.checkHeader .status r) s = (.ok (), s) :=
    h.checkHeader (fun n => by simp) (by rw [hb]; rfl) (by intro hw; cases hw)
  simp only [exec, execStatus, h.arrive_status hhead]

/-! ### REG_READ and REG_WRITE -/

/-- The bodies of REG_READ and REG_WRITE: offset, count, zeros, data (R444). -/
def regBody (off n : Nat) (data : List Byte) : List Byte := bytesLE 8 off ++ bytesLE 4 n ++ [0, 0, 0, 0] ++ data

theorem regBody_offset {off : Nat} (n : Nat) (data : List Byte) (h : off < 2 ^ 48) : offAt (regBody off n data) 0 = off := by
  have e : slice (regBody off n data) 0 8 = bytesLE 8 off := by
    simp only [regBody, List.append_assoc]
    exact slice_append_left _ _ (bytesLE_length ..)
  rw [offAt, w64At, e, leNat_bytesLE, BitVec.toNat_ofNat]
  omega

theorem regBody_count {n : Nat} (off : Nat) (data : List Byte) (h : n ≤ 16) : (w32At (regBody off n data) 8).toNat = n := by
  have e : slice (regBody off n data) 8 4 = bytesLE 4 n := by
    simp only [regBody, List.append_assoc (bytesLE 8 off ++ bytesLE 4 n)]
    exact slice_mid _ _ _ (bytesLE_length ..) (bytesLE_length ..)
  rw [w32At, e, leNat_bytesLE, BitVec.toNat_ofNat]
  omega

theorem regBody_rsv (off n : Nat) (data : List Byte) : slice (regBody off n data) 12 4 = [0, 0, 0, 0] :=
  slice_mid _ _ _ (by simp) rfl

theorem regBody_data (off n : Nat) (v : Word) : w64At (regBody off n (bytesLE 8 v.toNat)) 16 = v := by
  have e : slice (regBody off n (bytesLE 8 v.toNat)) 16 8 = bytesLE 8 v.toNat := slice_append_right _ _ (by simp) (by simp)
  rw [w64At, e]
  exact (ofNat_leNat_bytesLE 8 _).trans (by rw [BitVec.ofNat_toNat]; exact BitVec.setWidth_eq v)

/-- The offsets of n registers. -/
def regOffsets (off n : Nat) : List Nat := (List.range n).map fun i => off + 8 * i

section
variable {off n : Nat} (data : List Byte) {s : State} (h : off < 2 ^ 48) (h1 : 1 ≤ n) (h2 : n ≤ 16)
include h h1 h2

theorem regBody_formed : (offOk (regBody off n data) 0 && decide (1 ≤ (w32At (regBody off n data) 8).toNat) &&
    decide ((w32At (regBody off n data) 8).toNat ≤ 16) && allZero (slice (regBody off n data) 12 4)) = true := by
  rw [offOk, regBody_offset n data h, regBody_rsv, regBody_count off data h2, decide_eq_true h, decide_eq_true h1,
    decide_eq_true h2]
  rfl

theorem regRange_listed (hr : ∀ i < n, (s.regAt (off + 8 * i)).isSome = true) :
    Eng.exec (regRange (regBody off n data)) s = (.ok (regOffsets off n), s) := by
  have hall : ((regOffsets off n).all fun o => (s.regAt o).isSome) = true := by
    simpa [regOffsets, List.all_eq_true] using hr
  unfold regRange
  rw [regBody_offset n data h, regBody_count off data h2]
  refine Eng.need_then ?_ ((Eng.exec_bind_ok (Eng.exec_get s)).trans (Eng.need_then hall rfl))
  simpa only [regBody_count off data h2] using regBody_formed data h h1 h2

theorem regRange_unlisted (hr : ∃ i < n, (s.regAt (off + 8 * i)).isSome = false) :
    Eng.exec (regRange (regBody off n data)) s = (.error .allocFault, s) := by
  have hall : ((regOffsets off n).all fun o => (s.regAt o).isSome) = false := by
    obtain ⟨i, hi, hn⟩ := hr
    exact List.all_eq_false.2 ⟨off + 8 * i, List.mem_map.2 ⟨i, List.mem_range.2 hi, rfl⟩, by simp [hn]⟩
  unfold regRange
  rw [regBody_offset n data h, regBody_count off data h2]
  refine Eng.need_then ?_ ((Eng.exec_bind_ok (Eng.exec_get s)).trans (Eng.exec_bind_error ?_))
  · simpa only [regBody_count off data h2] using regBody_formed data h h1 h2
  · rw [Eng.exec_need]
    simp only [regOffsets] at hall
    rw [hall]
    rfl
end

end Sys2Proof.Claims
end

section
/-! ## The requests that are answered at once (R443 to R446) -/

namespace Sys2Proof.Claims
open Sys2Proof.Machine

theorem regAt_isSome_iff (s : State) (o : Nat) : (s.regAt o).isSome = true ↔ s.readReg o ≠ none := by
  rw [State.readReg]; cases s.regAt o <;> simp

section
variable {s : State} {r : QcpReq} {off n : Nat} (h : Taken s r) (hb : r.body = regBody off n []) (ho : off < 2 ^ 48) (h1 : 1 ≤ n)
  (h2 : n ≤ 16)
include h hb

theorem regRead_header : Eng.exec (Machine.checkHeader .regRead r) s = (.ok (), s) :=
  h.checkHeader (fun n => by simp) (by rw [hb]; simp [QcpCmd.lengthOk, regBody]) (by intro hw; cases hw)

include ho h1 h2

/-- A read of registers that may be read answers their words. -/
theorem runRegRead_ok (hr : ∀ i < n, s.readReg (off + 8 * i) ≠ none)
    (hz : s.qcp.ready = true ∨ regBase ≤ off ∧ off + 8 * n ≤ regBase + 0x1000) :
    Eng.exec (runRegRead r) s = (.ok ((regOffsets off n).flatMap fun o => le 8 ((s.readReg o).getD 0).toNat), s) := by
  have hrange := regRange_listed [] ho h1 h2 fun i hi => (regAt_isSome_iff s _).2 (hr i hi)
  have hzone : (s.qcp.ready || (regOffsets off n).all inIdentity) = true := by
    rcases hz with hz | ⟨hlo, hhi⟩
    · simp [hz]
    · have : (regOffsets off n).all inIdentity = true := by
        simp only [regOffsets, List.all_map, List.all_eq_true, List.mem_range, Function.comp, inIdentity, Bool.and_eq_true,
          decide_eq_true_eq]
        omega
      simp [this]
  unfold runRegRead
  rw [hb]
  exact (Eng.exec_bind_ok (regRead_header h hb)).trans ((Eng.exec_bind_ok hrange).trans
    ((Eng.exec_bind_ok (Eng.exec_get s)).trans (Eng.need_then hzone rfl)))

theorem runRegRead_reserved (hr : ∃ i < n, s.readReg (off + 8 * i) = none) :
    Eng.exec (runRegRead r) s = (.error .allocFault, s) := by
  obtain ⟨i, hi, hnone⟩ := hr
  have hrange := regRange_unlisted [] ho h1 h2 (s := s) ⟨i, hi, Bool.eq_false_iff.2 fun t => (regAt_isSome_iff s _).1 t hnone⟩
  unfold runRegRead
  rw [hb]
  exact (Eng.exec_bind_ok (regRead_header h hb)).trans (Eng.exec_bind_error hrange)

/-- Before readiness, registers outside the identity region wait (R443, R445). -/
theorem runRegRead_early (hr : ∀ i < n, s.readReg (off + 8 * i) ≠ none) (hz : s.qcp.ready = false)
    (hi : regBase + 0x1000 ≤ off) : Eng.exec (runRegRead r) s = (.error .notReady, s) := by
  have hrange := regRange_listed [] ho h1 h2 fun i hi => (regAt_isSome_iff s _).2 (hr i hi)
  have hzone : (s.qcp.ready || (regOffsets off n).all inIdentity) = false := by
    rw [hz, Bool.false_or]
    refine List.all_eq_false.2 ⟨off + 8 * 0, List.mem_map.2 ⟨0, List.mem_range.2 h1, rfl⟩, ?_⟩
    simp only [inIdentity, Bool.and_eq_true, decide_eq_true_eq]
    omega
  unfold runRegRead
  rw [hb]
  refine (Eng.exec_bind_ok (regRead_header h hb)).trans ((Eng.exec_bind_ok hrange).trans
    ((Eng.exec_bind_ok (Eng.exec_get s)).trans (Eng.exec_bind_error ?_)))
  rw [Eng.exec_need, hzone]
  rfl
end

/-- With the error trigger off, a request that ends with a status other than INTEGRITY leaves no more than its answer. -/
theorem endRequest_quiet {s : State} {st : Status} (h : s.proof.errEn = false) (hst : st ≠ .integrity) : s.endRequest st = s := by
  simp [State.endRequest, State.countIntegrity, hst, h]

/-- The words of n registers in one body. -/
theorem regOffsets_words {s : State} {off n : Nat} {w : Fin n → Word} (h : ∀ i : Fin n, s.readReg (off + 8 * i.val) = some (w i)) :
    ((regOffsets off n).flatMap fun o => le 8 ((s.readReg o).getD 0).toNat) = (List.ofFn w).flatMap fun w => bytesLE 8 w.toNat := by
  have hw : List.ofFn w = (List.finRange n).map w := by rw [List.finRange, List.map_ofFn]; rfl
  have hr : List.range n = (List.finRange n).map Fin.val :=
    List.ext_getElem (by simp) fun i h1 h2 => by simp
  rw [hw, regOffsets, hr]
  simp only [List.flatMap_map, h, Option.getD_some, le]

theorem qcpReads : QcpReads := by
  intro r s h
  have hcur := h.idle.1
  refine ⟨fun lo hi v st hb hv => ⟨_, hello_answered h hb, answer_onlyAnswered hcur .., ?_⟩,
    fun hb => ⟨_, status_answered h hb, answer_onlyAnswered hcur .., ?_⟩, fun off n hb ho h1 h2 => ⟨fun w hz hw => ?_, ?_, ?_⟩⟩
  · have hbody : s.helloBody r.body = (v.toNat, le 1 v.toNat ++ [0] ++ le 2 6 ++ le 2 s.boot.version ++ zeros 2 ++
        pairBytes s.boot.abi ++ le 8 s.deviceId.toNat ++ le 8 s.chipId.toNat) := by
      rw [hb]
      refine helloBody_eq s lo hi _ v.toNat ?_
      rcases hv with ⟨h1, h2, rfl, -⟩ | ⟨h1, h2, rfl, -⟩ | ⟨h1, rfl, -⟩
      · rw [if_pos ⟨h1, h2⟩]; rfl
      · rw [if_neg (by omega), if_pos (by omega)]; rfl
      · rw [if_neg (by omega), if_neg (by omega)]; rfl
    have hst : (if v.toNat = 0 then Status.decode else .ok) = st := by
      rcases hv with ⟨-, -, rfl, rfl⟩ | ⟨-, -, rfl, rfl⟩ | ⟨-, rfl, rfl⟩ <;> rfl
    have hone : le 1 v.toNat = [v] := by simp [le, bytesLE]
    have ans := answer_answers s .hello r st (s.helloBody r.body).2
    rw [hbody] at ans ⊢
    simp only [hst]
    rw [hone] at ans ⊢
    exact ans
  · have ans := answer_answers s .status r .ok s.statusBody
    have hbody : s.statusBody = bytesLE 8 s.qcpStatus.toNat ++ pairBytes (s.tick.number % 2 ^ 32) ++
        pairBytes (s.tick.number / 2 ^ 32) ++ bytesLE 8 s.tick.ctrlWord.toNat ++ (List.finRange 8).flatMap fun p =>
          bytesLE 8 (s.part p).statusWord.toNat ++ bytesLE 8 (((s.part p).image.map (·.base)).getD 0) := by
      rw [State.statusBody, parts_flatMap]
      simp only [pw2Bytes, List.append_assoc, le]
    rwa [hbody] at ans ⊢
  all_goals have hb' : r.body = regBody off n [] := by rw [hb, regBody, List.append_nil]
  · have hr : ∀ i < n, s.readReg (off + 8 * i) ≠ none := fun i hi => by rw [hw ⟨i, hi⟩]; simp
    refine ⟨_, congrArg Host.Outcome.next (h.arrive_regRead (runRegRead_ok h hb' ho h1 h2 hr hz)), answer_onlyAnswered hcur .., ?_⟩
    rw [regOffsets_words hw]
    exact answer_answers s .regRead r .ok _
  · intro he hr
    have hrun := (h.arrive_regRead_failed (runRegRead_reserved h hb' ho h1 h2 hr)).trans (endRequest_quiet he (by simp))
    exact ⟨_, congrArg Host.Outcome.next hrun, answer_onlyAnswered hcur .., answer_answers s .regRead r .allocFault []⟩
  · intro he hz hi hr
    have hrun := (h.arrive_regRead_failed (runRegRead_early h hb' ho h1 h2 hr hz hi)).trans (endRequest_quiet he (by simp))
    exact ⟨_, congrArg Host.Outcome.next hrun, answer_onlyAnswered hcur .., answer_answers s .regRead r .notReady []⟩

end Sys2Proof.Claims
end

section
/-! ## Requests in execution: what a register write leaves of them (R447)

A register write may stop the tick, train ports, end jobs and start a security command; none of that ends or begins a
request of the endpoint. Each operation that such a write reaches is shown to leave `State.requests` as it is. -/

namespace Sys2Proof.Machine

/-- The request in execution, and those behind it. -/
def State.requests (s : State) : Option QcpJob × List QcpJob := (s.qcp.current, s.qcp.waiting)

/-- A program of `Eng` that leaves the endpoint's requests as they are. -/
def KeepsRequests {α : Type} (m : Eng α) : Prop := ∀ s, (Eng.exec m s).2.requests = s.requests

theorem keepsRequests_pure {α : Type} (a : α) : KeepsRequests (pure a) := fun _ => rfl
theorem keepsRequests_throw {α : Type} (e : Status) : KeepsRequests (throw e : Eng α) := fun _ => rfl
/-- What follows a status does not run. -/
theorem keepsRequests_throw_bind {α β : Type} (e : Status) (f : α → Eng β) : KeepsRequests (throw e >>= f) := fun _ => rfl
theorem keepsRequests_get : KeepsRequests get := fun _ => rfl
theorem keepsRequests_need (b : Bool) (e : Status) : KeepsRequests (need b e) := fun s => by rw [Eng.exec_need]
theorem keepsRequests_modify {f : State → State} (h : ∀ s, (f s).requests = s.requests) : KeepsRequests (modify f) := h

theorem KeepsRequests.bind {α β : Type} {x : Eng α} {f : α → Eng β} (hx : KeepsRequests x) (hf : ∀ a, KeepsRequests (f a)) :
    KeepsRequests (x >>= f) := by
  intro s
  have h := hx s
  rw [Eng.exec_bind]
  cases hr : Eng.exec x s with
  | mk r t =>
    rw [hr] at h
    cases r with
    | error e => exact h
    | ok a => exact (hf a t).trans h

/-- A program that begins by reading the state may use it in what it writes. -/
theorem keepsRequests_get_bind {α : Type} {f : State → Eng α} (h : ∀ s, (Eng.exec (f s) s).2.requests = s.requests) :
    KeepsRequests (get >>= f) := h

theorem keepsRequests_forM {α : Type} {f : α → Eng Unit} (h : ∀ a, KeepsRequests (f a)) (l : List α) : KeepsRequests (l.forM f) := by
  induction l with
  | nil => exact keepsRequests_pure ()
  | cons a l ih => exact (h a).bind fun _ => ih

theorem keepsRequests_mapM {α β : Type} {f : α → Eng β} (h : ∀ a, KeepsRequests (f a)) (l : List α) : KeepsRequests (l.mapM f) := by
  induction l with
  | nil => exact keepsRequests_pure []
  | cons a l ih =>
    rw [List.mapM_cons]
    exact (h a).bind fun _ => ih.bind fun _ => keepsRequests_pure _

theorem foldl_requests {α : Type} {f : State → α → State} (h : ∀ s a, (f s a).requests = s.requests) (l : List α) (s : State) :
    (l.foldl f s).requests = s.requests := by
  induction l generalizing s with
  | nil => rfl
  | cons a l ih => rw [List.foldl_cons, ih, h]

theorem overFin_requests {n : Nat} {f : Fin n → State → State} (h : ∀ i s, (f i s).requests = s.requests) (s : State) :
    (overFin n f s).requests = s.requests := foldl_requests (fun s i => h i s) _ s

/-- Where both sides of a choice leave the requests as they are, so does the choice. -/
theorem ite_requests {c : Prop} [Decidable c] {s t u : State} (ht : t.requests = u.requests) (hs : s.requests = u.requests) :
    (if c then t else s).requests = u.requests := by
  split
  · exact ht
  · exact hs

theorem keepsRequests_ite {α : Type} {c : Prop} [Decidable c] {x y : Eng α} (hx : KeepsRequests x) (hy : KeepsRequests y) :
    KeepsRequests (if c then x else y) := by
  split
  · exact hx
  · exact hy

/-! ### Shared operations -/

theorem post_requests (s : State) (r : RingId) (x : Rec) : (s.post r x).requests = s.requests := by
  unfold State.post; exact ite_requests rfl (ite_requests rfl (ite_requests rfl rfl))

theorem trigger_requests (s : State) (src code : Nat) : (s.trigger src code).requests = s.requests := by
  exact ite_requests rfl rfl

theorem triggerError_requests (s : State) (code : Nat) : (s.triggerError code).requests = s.requests := by
  unfold State.triggerError
  exact ite_requests (trigger_requests s 2 code) (trigger_requests s 2 code)

theorem countIntegrity_requests (s : State) (st : Status) : (s.countIntegrity st).requests = s.requests := by
  exact ite_requests rfl rfl

theorem endRequest_requests (s : State) (st : Status) : (s.endRequest st).requests = s.requests := by
  unfold State.endRequest
  refine ite_requests ?_ (countIntegrity_requests s st)
  rw [triggerError_requests, countIntegrity_requests]

/-! ### Memory -/

theorem keepsRequests_readLine (line : Nat) : KeepsRequests (readLine line) := by
  refine keepsRequests_get_bind fun s => ?_
  dsimp only
  split
  · rfl
  · split
    · rfl
    · split <;> rfl

theorem keepsRequests_writeLine (off : Nat) (data : List Byte) : KeepsRequests (writeLine off data) := by
  unfold writeLine
  refine keepsRequests_ite ?_ ?_
  · exact (keepsRequests_readLine _).bind fun _ => keepsRequests_modify fun _ => rfl
  · exact keepsRequests_modify fun _ => rfl

theorem keepsRequests_hbmRead (off n : Nat) : KeepsRequests (hbmRead off n) := by
  refine keepsRequests_get.bind fun s => ?_
  dsimp only
  split
  · exact keepsRequests_throw_bind _ _
  · refine keepsRequests_ite ?_ (keepsRequests_pure _)
    exact (keepsRequests_mapM keepsRequests_readLine _).bind fun _ => keepsRequests_pure _

theorem keepsRequests_hbmWrite (off : Nat) (data : List Byte) : KeepsRequests (hbmWrite off data) := by
  refine keepsRequests_get.bind fun s => ?_
  dsimp only
  split
  · exact keepsRequests_throw_bind _ _
  · refine keepsRequests_ite ?_ (keepsRequests_modify fun _ => rfl)
    exact keepsRequests_forM (fun x => keepsRequests_writeLine _ _) _

theorem keepsRequests_fenced {α : Type} : KeepsRequests (fenced : Eng α) := fun _ => rfl
theorem keepsRequests_fenced_bind {α β : Type} (f : α → Eng β) : KeepsRequests (fenced >>= f) := fun _ => rfl

theorem keepsRequests_accCheck (r : Requester) (c o n : Nat) : KeepsRequests (accCheck r c o n) := by
  refine keepsRequests_get.bind fun s => ?_
  exact keepsRequests_ite (keepsRequests_throw _) (keepsRequests_pure _)

theorem keepsRequests_memRead (r : Requester) (off n : Nat) : KeepsRequests (memRead r off n) := by
  unfold memRead
  refine keepsRequests_ite (keepsRequests_pure _) (keepsRequests_get.bind fun s => ?_)
  dsimp only
  split
  · exact keepsRequests_ite (keepsRequests_throw_bind _ _) (keepsRequests_hbmRead _ _)
  · exact keepsRequests_ite keepsRequests_fenced (keepsRequests_pure _)
  · refine keepsRequests_ite (keepsRequests_fenced_bind _) ?_
    exact (keepsRequests_accCheck _ _ _ _).bind fun _ => keepsRequests_pure _
  · exact keepsRequests_throw _

theorem keepsRequests_dirtyOne (h : Nat) : KeepsRequests (dirtyOne h) := by
  refine keepsRequests_get.bind fun s => (keepsRequests_hbmRead _ _).bind fun bs => ?_
  dsimp only
  refine keepsRequests_ite ((keepsRequests_hbmWrite _ _).bind fun _ => ?_) (keepsRequests_pure _)
  exact keepsRequests_ite (keepsRequests_modify fun _ => rfl) (keepsRequests_pure _)

theorem markDirty_requests (s : State) (off n : Nat) : (s.markDirty off n).requests = s.requests := by
  unfold State.markDirty
  refine ite_requests rfl (foldl_requests (fun t i => ?_) _ s)
  exact keepsRequests_dirtyOne _ t

theorem keepsRequests_memWrite (r : Requester) (off : Nat) (data : List Byte) : KeepsRequests (memWrite r off data) := by
  have poke : KeepsRequests (modify fun s => s.poke off data) := keepsRequests_modify fun _ => rfl
  unfold memWrite
  refine keepsRequests_ite (keepsRequests_pure _) (keepsRequests_get.bind fun s => ?_)
  dsimp only
  split
  · refine keepsRequests_ite (keepsRequests_throw_bind _ _) ((keepsRequests_hbmWrite _ _).bind fun _ => ?_)
    exact keepsRequests_modify fun t => markDirty_requests t _ _
  · refine keepsRequests_ite (keepsRequests_fenced_bind _) (keepsRequests_ite ?_ poke)
    exact fun _ => rfl
  · refine keepsRequests_ite (keepsRequests_fenced_bind _) ?_
    exact (keepsRequests_accCheck _ _ _ _).bind fun _ => poke
  · exact keepsRequests_throw _

end Sys2Proof.Machine
end

section
/-! ## Register writes leave the requests as they are, one part of the chip after the other -/

namespace Sys2Proof.Machine

/-! ### Single fields -/

theorem requests_of_qcp {s t : State} (h : t.qcp = s.qcp) : t.requests = s.requests := by
  unfold State.requests; rw [h]

theorem modPort_requests (s : State) (p : PortId) (f : Port → Port) : (s.modPort p f).requests = s.requests := rfl
theorem setPort_requests (s : State) (p : PortId) (x : Port) : (s.setPort p x).requests = s.requests := rfl
theorem modEngine_requests (s : State) (e : EngineId) (f : Engine → Engine) : (s.modEngine e f).requests = s.requests := rfl
theorem forgetCore_requests (s : State) (n : Nat) : (s.forgetCore n).requests = s.requests := rfl

/-! ### Writes under a lock, and the tick unit -/

theorem whenFree_requests {s t : State} {locked same : Bool} (h : t.requests = s.requests) :
    (s.whenFree locked same t).requests = s.requests := by
  unfold State.whenFree
  exact ite_requests (ite_requests rfl rfl) h

theorem tickStart_requests (s : State) : s.tickStart.requests = s.requests := by
  unfold State.tickStart; exact ite_requests rfl (ite_requests rfl rfl)

theorem halt_requests (s : State) : s.halt.requests = s.requests := by
  unfold State.halt
  refine (overFin_requests ?_ _).trans ?_
  · exact fun _ _ => rfl
  · rfl

theorem tickStop_requests (s : State) : s.tickStop.requests = s.requests := by
  unfold State.tickStop
  exact ite_requests rfl (ite_requests (halt_requests s) (ite_requests rfl rfl))

theorem writeTickCtrl_requests (s : State) (v : Word) : (s.writeTickCtrl v).requests = s.requests := by
  have h1 := whenFree_requests (s := s) (locked := s.tick.run)
    (same := decide (Role.ofCode (field v 2 1) = s.tick.role) && decide (field v 15 8 = s.tick.lead))
    (t := { s with tick := { s.tick with role := Role.ofCode (field v 2 1), lead := field v 15 8 } }) rfl
  have h2 := ite_requests (c := flag v 5) (t := State.stretchReq _) h1 h1
  have h3 := ite_requests (c := flag v 4 ∧ s.tick.run) ((tickStop_requests _).trans h2) h2
  exact ite_requests ((tickStart_requests _).trans h3) h3

theorem writeTickPeriod_requests (s : State) (v : Word) : (s.writeTickPeriod v).requests = s.requests := by
  exact ite_requests rfl (ite_requests rfl rfl)

theorem watchCtrl_requests (s : State) (p : PartId) (retry skip : Bool) : (s.watchCtrl p retry skip).requests = s.requests := by
  exact ite_requests rfl rfl

theorem writePartCfg_requests (s : State) (p : PartId) (v : Word) : (s.writePartCfg p v).requests = s.requests := by
  exact ite_requests rfl (ite_requests rfl (ite_requests rfl (ite_requests rfl rfl)))

/-! ### Ports and the fabric -/

theorem sendOne_requests {s t : State} {q : PortId} (h : s.sendOne q = some t) : t.requests = s.requests := by
  unfold State.sendOne at h
  obtain ⟨⟨o, rest⟩, -, rfl⟩ := Option.map_eq_some_iff.1 h
  dsimp only
  split <;> rfl

theorem drainPort_requests (q : PortId) (n : Nat) (s : State) : (State.drainPort q n s).requests = s.requests := by
  induction n generalizing s with
  | zero => rfl
  | succ n ih =>
    unfold State.drainPort
    split
    next t ht => rw [ih, sendOne_requests ht]
    next => rfl

theorem returnCredits_requests (q : PortId) (n : Nat) (s : State) : (State.returnCredits q n s).requests = s.requests := by
  induction n generalizing s with
  | zero => rfl
  | succ n ih =>
    unfold State.returnCredits
    dsimp only
    split
    · rfl
    · rw [ih]; rfl

theorem pumpAll_requests (s : State) : s.pumpAll.requests = s.requests := by
  unfold State.pumpAll State.payAll
  refine (overFin_requests ?_ _).trans (overFin_requests ?_ s)
  · exact fun p s => returnCredits_requests p 3 s
  · exact fun q s => drainPort_requests q _ s

theorem flushPort_requests (s : State) (p : PortId) : (s.flushPort p).requests = s.requests := by
  unfold State.flushPort
  dsimp only
  rw [pumpAll_requests]
  refine (foldl_requests (fun s o => ?_) _ _).trans (overFin_requests ?_ s)
  · split
    · split <;> rfl
    · rfl
  · exact fun _ _ => rfl

theorem beginTraining_requests (s : State) (p : PortId) : (s.beginTraining p).requests = s.requests := by
  unfold State.beginTraining
  dsimp only
  refine ite_requests ?_ (ite_requests ?_ ?_)
  · rw [setPort_requests, flushPort_requests]
  · rw [setPort_requests, flushPort_requests]
  · rw [setPort_requests, flushPort_requests]

theorem retrain_requests (s : State) (p : PortId) : (s.retrain p).requests = s.requests :=
  ite_requests (beginTraining_requests _ p) rfl

theorem retrainAll_requests (s : State) : s.retrainAll.requests = s.requests :=
  overFin_requests (fun p s => retrain_requests s p) s

theorem xhStart_requests (s : State) : s.xhStart.requests = s.requests := by
  unfold State.xhStart
  refine ite_requests rfl ((overFin_requests (fun p s => beginTraining_requests s p) _).trans ((overFin_requests ?_ _).trans ?_))
  · exact fun _ _ => rfl
  · rfl

theorem xhStop_requests (s : State) : s.xhStop.requests = s.requests := ite_requests rfl rfl

theorem writeXhCtrl_requests (s : State) (v : Word) : (s.writeXhCtrl v).requests = s.requests := by
  have h1 := whenFree_requests (s := s) (locked := s.fabric.run)
    (same := decide (field v 31 24 = s.fabric.reqTimeout) && decide (field v 13 8 = s.fabric.rowRacks))
    (t := { s with fabric := { s.fabric with reqTimeout := field v 31 24, rowRacks := field v 13 8 } }) rfl
  have h2 := ite_requests (c := flag v 2) ((xhStop_requests _).trans h1) h1
  have h3 := ite_requests (c := flag v 1 ∧ ¬ s.fabric.run) ((xhStart_requests _).trans h2) h2
  exact ite_requests ((retrainAll_requests _).trans h3) h3

theorem writePort_requests (s : State) (p : PortId) (o : Nat) (v : Word) : (s.writePort p o v).requests = s.requests := by
  unfold State.writePort
  dsimp only
  split
  · exact ite_requests (retrain_requests _ p) rfl
  · exact whenFree_requests rfl
  · exact whenFree_requests rfl
  · rfl

/-! ### Collectives and the configuration region -/

theorem collStart_requests (s : State) : s.collStart.requests = s.requests := ite_requests rfl rfl
theorem collStop_requests (s : State) : s.collStop.requests = s.requests := ite_requests rfl rfl

theorem writeCollCtrl_requests (s : State) (v : Word) : (s.writeCollCtrl v).requests = s.requests := by
  have h1 := whenFree_requests (s := s) (locked := s.coll.run) (same := decide (field v 9 8 = s.coll.waitLimit))
    (t := { s with coll := { s.coll with waitLimit := field v 9 8 } }) rfl
  have h2 := ite_requests (c := flag v 2) ((collStop_requests _).trans h1) h1
  exact ite_requests ((collStart_requests _).trans h2) h2

theorem writeConfig_requests (s : State) (o : Nat) (v : Word) : (s.writeConfig o v).requests = s.requests := by
  unfold State.writeConfig
  dsimp only
  split
  · exact writeTickCtrl_requests s v
  · exact writeTickPeriod_requests s v
  · exact whenFree_requests rfl
  · rfl
  · exact whenFree_requests rfl
  · exact whenFree_requests (requests_of_qcp rfl)
  · exact writeXhCtrl_requests s v
  · exact whenFree_requests rfl
  · exact writeCollCtrl_requests s v
  · rfl
  · refine ite_requests ?_ (ite_requests ?_ (ite_requests ?_ (ite_requests ?_ (ite_requests ?_ ?_))))
    · exact whenFree_requests (requests_of_qcp rfl)
    · rfl
    · exact watchCtrl_requests s _ _ _
    · exact writePartCfg_requests s _ v
    · rfl
    · rfl

/-! ### Stacks and the pool -/

theorem setMaint_requests (s : State) (i : StackId) (on : Bool) : (s.setMaint i on).requests = s.requests := by
  exact ite_requests (ite_requests rfl (ite_requests rfl rfl)) rfl

theorem mbox_requests (s : State) (i : StackId) (code : Nat) : (s.mbox i code).requests = s.requests := by
  exact ite_requests rfl (ite_requests rfl (ite_requests rfl rfl))

theorem writeStack_requests (s : State) (i : StackId) (o : Nat) (v : Word) : (s.writeStack i o v).requests = s.requests := by
  unfold State.writeStack
  dsimp only
  split
  · rfl
  · exact (setMaint_requests _ i _).trans (whenFree_requests rfl)
  · rfl
  · rfl
  · exact mbox_requests s i _
  · rfl
  · rfl
  · rfl

theorem poolStop_requests (s : State) : s.poolStop.requests = s.requests := ite_requests rfl rfl
theorem poolStart_requests (s : State) (clear : Bool) : (s.poolStart clear).requests = s.requests := ite_requests rfl rfl

theorem writePoolCtrl_requests (s : State) (v : Word) : (s.writePoolCtrl v).requests = s.requests := by
  have h := ite_requests (c := flag v 3) (poolStop_requests s) rfl
  exact ite_requests ((poolStart_requests _ _).trans h) h

theorem writePoolShare_requests (s : State) (v : Word) : (s.writePoolShare v).requests = s.requests := by
  exact ite_requests rfl (ite_requests rfl rfl)

theorem writeFolio_requests (s : State) (o : Nat) (v : Word) : (s.writeFolio o v).requests = s.requests := by
  unfold State.writeFolio
  dsimp only
  split
  · exact writePoolCtrl_requests s v
  · exact writePoolShare_requests s v
  · exact whenFree_requests rfl
  · exact whenFree_requests rfl
  · exact whenFree_requests rfl
  · rfl
  · rfl
  · exact ite_requests rfl rfl
  · exact ite_requests rfl rfl
  · rfl

/-! ### Media engines -/

theorem keepsRequests_ringRead (off n : Nat) : KeepsRequests (ringRead off n) :=
  keepsRequests_get.bind fun _ => (keepsRequests_need _ _).bind fun _ => keepsRequests_memRead _ _ _

theorem keepsRequests_ringWrite (off : Nat) (data : List Byte) : KeepsRequests (ringWrite off data) :=
  keepsRequests_get.bind fun _ => (keepsRequests_need _ _).bind fun _ => keepsRequests_memWrite _ _ _

theorem mediaStart_requests (s : State) (e : EngineId) : (s.mediaStart e).requests = s.requests := by
  unfold State.mediaStart
  extract_lets x
  have h := keepsRequests_ringRead (x.base + 8) 8 s
  refine ite_requests rfl ?_
  cases hr : Eng.exec (ringRead (x.base + 8) 8) s with
  | mk r t => rw [hr] at h; exact (modEngine_requests t e _).trans h

theorem mediaStop_requests (s : State) (e : EngineId) : (s.mediaStop e).requests = s.requests := rfl

theorem writeMediaCtrl_requests (s : State) (e : EngineId) (v : Word) : (s.writeMediaCtrl e v).requests = s.requests := by
  have h1 := whenFree_requests (s := s) (locked := (s.engine e).run)
    (same := decide (field v 15 8 = (s.engine e).thresh) && flag v 4 == (s.engine e).mode)
    (t := s.setEngine e { s.engine e with thresh := field v 15 8, mode := flag v 4 }) rfl
  have h2 := ite_requests (c := flag v 2) ((mediaStop_requests _ e).trans h1) h1
  exact ite_requests ((mediaStart_requests _ e).trans h2) h2

theorem writeEngine_requests (s : State) (e : EngineId) (o : Nat) (v : Word) : (s.writeEngine e o v).requests = s.requests := by
  unfold State.writeEngine
  dsimp only
  split
  · exact writeMediaCtrl_requests s e v
  · exact whenFree_requests rfl
  · exact ite_requests (whenFree_requests rfl) rfl
  · rfl

theorem endJob_requests (s : State) (e : EngineId) (j : Job) (st : Status) : (s.endJob e j st).requests = s.requests := by
  have h := keepsRequests_ringWrite ((s.engine e).entryOff j.n + 0x58)
    (le 8 (j.statusWord st).toNat ++ le 8 j.resultWord.toNat) s
  unfold State.endJob State.mediaRecord
  dsimp only
  rw [endRequest_requests]
  refine ite_requests ?_ ?_
  · rw [post_requests, modEngine_requests, h]
  · rw [modEngine_requests, h]

theorem endJobs_requests (s : State) (e : EngineId) (st : Status) : (s.endJobs e st).requests = s.requests :=
  foldl_requests (fun t _ => endJob_requests t e _ st) _ s

/-! ### Easel: recovery, power domains and the security mailbox -/

theorem writeRecovery_requests (s : State) (v : Word) : (s.writeRecovery v).requests = s.requests := by
  have h := whenFree_requests (s := s) (locked := s.tick.run)
    (same := decide (field v 15 8 = s.recov.drain) && decide (field v 3 0 = s.recov.hbLimit))
    (t := { s with recov := { s.recov with drain := field v 15 8, hbLimit := field v 3 0 } }) rfl
  exact ite_requests (t := State.clearSuspects _) h h

theorem domainOff_requests (s : State) (i : Nat) : (s.domainOff i).requests = s.requests := by
  unfold State.domainOff
  refine ite_requests ?_ (ite_requests ?_ (ite_requests ?_ (ite_requests ?_ rfl)))
  · exact foldl_requests forgetCore_requests _ s
  · refine foldl_requests ?_ _ s
    exact fun _ _ => rfl
  · refine overFin_requests (fun p s => ite_requests ?_ rfl) s
    rw [modPort_requests, flushPort_requests]
  · refine overFin_requests (fun e s => ite_requests ?_ rfl) s
    rw [modEngine_requests, endJobs_requests]

theorem writeDomains_requests (s : State) (v : Word) : (s.writeDomains v).requests = s.requests := by
  unfold State.writeDomains
  refine ite_requests rfl (ite_requests (ite_requests rfl rfl) (ite_requests rfl (ite_requests rfl ?_)))
  exact foldl_requests domainOff_requests _ s

theorem keepsRequests_secRead (off n : Nat) : KeepsRequests (secRead off n) :=
  keepsRequests_get.bind fun _ => (keepsRequests_need _ _).bind fun _ => keepsRequests_memRead _ _ _

theorem keepsRequests_checkFirmware (off : Nat) : KeepsRequests (checkFirmware off) :=
  (keepsRequests_secRead _ _).bind fun _ => (keepsRequests_need _ _).bind fun _ => (keepsRequests_need _ _).bind fun _ =>
  (keepsRequests_need _ _).bind fun _ => keepsRequests_get.bind fun _ => (keepsRequests_need _ _).bind fun _ =>
  (keepsRequests_need _ _).bind fun _ => (keepsRequests_need _ _).bind fun _ => (keepsRequests_secRead _ _).bind fun _ =>
  (keepsRequests_need _ _).bind fun _ => keepsRequests_pure _

theorem keepsRequests_checkCopy (b : List Byte) : KeepsRequests (checkCopy b) :=
  (keepsRequests_need _ _).bind fun _ => (keepsRequests_need _ _).bind fun _ => (keepsRequests_need _ _).bind fun _ =>
  keepsRequests_need _ _

theorem setSec_requests (s : State) (x : Sec) : ({ s with sec := x } : State).requests = s.requests := rfl
theorem eraseBoot_requests (s : State) (o n : Nat) : (s.eraseBoot o n).requests = s.requests := rfl
theorem writeBoot_requests (s : State) (o : Nat) (bs : List Byte) : (s.writeBoot o bs).requests = s.requests := rfl

theorem keepsRequests_secBegin (code off : Nat) : KeepsRequests (secBegin code off) := by
  unfold secBegin
  split
  · exact (keepsRequests_checkFirmware off).bind fun _ => keepsRequests_modify fun s =>
      (setSec_requests (State.writeBoot _ _ _) _).trans ((writeBoot_requests _ _ _).trans (eraseBoot_requests s _ _))
  · exact keepsRequests_modify fun s => setSec_requests s _
  · exact (keepsRequests_secRead _ _).bind fun b => (keepsRequests_checkCopy b).bind fun _ =>
      keepsRequests_modify fun s => (setSec_requests (State.eraseBoot _ _ _) _).trans (eraseBoot_requests s _ _)
  · exact keepsRequests_pure _
  · exact keepsRequests_pure _
  · exact keepsRequests_pure _
  · exact keepsRequests_pure _
  · exact keepsRequests_throw _

/-- What a program's outcome leaves is what its run leaves. -/
theorem KeepsRequests.outcome {m : Eng Unit} (h : KeepsRequests m) (s : State) : (m.outcome s).2.requests = s.requests := by
  have := h s
  unfold Eng.outcome
  split
  next t ht => rw [ht] at this; exact this
  next e t ht => rw [ht] at this; exact this

theorem secStart_requests (s : State) (code : Nat) : (s.secStart code).requests = s.requests := by
  unfold State.secStart
  refine ite_requests rfl (KeepsRequests.outcome ?_ _)
  exact keepsRequests_get.bind fun _ => (keepsRequests_need _ _).bind fun _ => keepsRequests_secBegin _ _

theorem writeEasel_requests (s : State) (o : Nat) (v : Word) : (s.writeEasel o v).requests = s.requests := by
  unfold State.writeEasel
  dsimp only
  split
  · exact writeRecovery_requests s v
  · exact whenFree_requests rfl
  · exact ite_requests rfl rfl
  · exact whenFree_requests rfl
  · exact writeDomains_requests s v
  · exact secStart_requests s _
  · rfl
  · rfl

/-! ### Host interface, Proof and trace -/

theorem writeHost_requests (s : State) (o : Nat) (v : Word) : (s.writeHost o v).requests = s.requests := by
  unfold State.writeHost
  dsimp only
  refine ite_requests ?_ ?_
  · split
    · rfl
    · exact whenFree_requests rfl
    · rfl
  · split <;> rfl

theorem traceOn_requests (s : State) : s.traceOn.requests = s.requests := ite_requests rfl rfl

theorem writeTraceCtrl_requests (s : State) (v : Word) : (s.writeTraceCtrl v).requests = s.requests := by
  have h := whenFree_requests (s := s) (locked := s.proof.traceEn) (same := decide (field v 15 11 = s.proof.traceLog2))
    (t := { s with proof := { s.proof with traceLog2 := field v 15 11 } }) rfl
  exact ite_requests ((traceOn_requests _).trans h) h

theorem arm_requests (s : State) : s.arm.requests = s.requests := rfl

theorem writeProof_requests (s : State) (o : Nat) (v : Word) : (s.writeProof o v).requests = s.requests := by
  unfold State.writeProof
  dsimp only
  split
  · refine ite_requests ?_ (requests_of_qcp rfl)
    rw [arm_requests]; exact requests_of_qcp rfl
  · exact requests_of_qcp rfl
  · exact requests_of_qcp rfl
  · exact requests_of_qcp rfl
  · exact writeTraceCtrl_requests s v
  · exact whenFree_requests (requests_of_qcp rfl)
  · exact requests_of_qcp rfl
  · exact requests_of_qcp rfl
  · rfl

/-! ### The whole register space -/

theorem storeReg_requests (s : State) (off : Nat) (v : Word) : (s.storeReg off v).requests = s.requests := by
  unfold State.storeReg
  dsimp only
  refine ite_requests ?_ (ite_requests ?_ (ite_requests ?_ (ite_requests ?_ (ite_requests ?_ (ite_requests ?_
    (ite_requests ?_ (ite_requests ?_ ?_)))))))
  · exact writeConfig_requests s _ v
  · exact ite_requests rfl rfl
  · exact writeStack_requests s _ _ v
  · exact writePort_requests s _ _ v
  · exact writeFolio_requests s _ v
  · exact writeEngine_requests s _ _ v
  · exact writeEasel_requests s _ v
  · exact writeHost_requests s _ v
  · exact writeProof_requests s _ v

/-- A register write leaves the requests as they are (R447). -/
theorem writeReg_requests {s t : State} {off : Nat} {v : Word} (h : s.writeReg off v = some t) : t.requests = s.requests := by
  unfold State.writeReg at h
  split at h
  · exact absurd h (by simp)
  · exact congrArg State.requests (Option.some.inj h).symm
  · obtain rfl := Option.some.inj h
    exact storeReg_requests s off v

end Sys2Proof.Machine
end

section
/-! ## REG_WRITE (R443, R444) -/

namespace Sys2Proof.Claims
open Sys2Proof.Machine

/-- Which offsets hold a register block depends on the fuses alone. -/
theorem regAt_isSome_congr {s t : State} (h : t.logicalCores = s.logicalCores) (off : Nat) :
    (t.regAt off).isSome = (s.regAt off).isSome := by
  simp only [State.regAt, h, apply_ite Option.isSome, apply_dite Option.isSome, Option.isSome_some, Option.isSome_none]

theorem executing_logicalCores (s : State) (c : QcpCmd) (r : QcpReq) : (executing s c r).logicalCores = s.logicalCores := rfl

/-- The state after a write where a register block lies. -/
theorem registerWrite_listed {s : State} {off : Nat} (v : Word) (h : (s.regAt off).isSome = true) :
    ∃ u, s.writeReg off v = some u ∧ exec (.registerWrite off v) s = .next u := by
  obtain ⟨u, hu⟩ : ∃ u, s.writeReg off v = some u := by
    unfold State.writeReg
    split
    next hn => rw [hn] at h; cases h
    next => exact ⟨_, rfl⟩
    next => exact ⟨_, rfl⟩
  exact ⟨u, hu, by simp only [exec, execRegisterWrite, hu]⟩

/-- A REG_WRITE of one register runs that register's write. -/
theorem runRegWrite_one {s u : State} {off : Nat} {v : Word} (ho : off < 2 ^ 48) (hu : s.writeReg off v = some u)
    (hr : (s.regAt off).isSome = true) : Eng.exec (runRegWrite (regBody off 1 (bytesLE 8 v.toNat))) s = (.ok (), u) := by
  have hrange := regRange_listed (bytesLE 8 v.toNat) ho (n := 1) (by omega) (by omega) fun i hi => by
    obtain rfl : i = 0 := by omega
    exact hr
  unfold runRegWrite
  refine (Eng.exec_bind_ok hrange).trans ?_
  show ((Except.ok () : Except Status Unit), (s.writeReg off (w64At (regBody off 1 (bytesLE 8 v.toNat)) 16)).getD s) = _
  rw [regBody_data, hu]
  rfl

/-- The next request begins only where one waits. -/
theorem nextQcp_of_none {s : State} (h : s.qcp.waiting = []) : s.nextQcp = s := by
  unfold State.nextQcp State.runWaiting
  rw [h]
  split <;> simp_all

/-- A REG_WRITE as the request in execution: its header is right, and its register is written. -/
theorem runQcp_regWrite {s u : State} {r : QcpReq} {off : Nat} {v : Word} (h : Admitted s r) (ho : off < 2 ^ 48)
    (hb : r.body = regBody off 1 (bytesLE 8 v.toNat)) (hr : ((executing s .regWrite r).regAt off).isSome = true)
    (hu : (executing s .regWrite r).writeReg off v = some u) :
    Eng.exec (runQcp ⟨.regWrite, r⟩) (executing s .regWrite r) = (.ok (.done []), u) := by
  obtain ⟨ht, hready, hepoch⟩ := h
  have hlen : QcpCmd.regWrite.lengthOk r.body = true := by
    rw [hb, QcpCmd.lengthOk, regBody_count off _ (by omega)]
    simp [regBody]
  have hhead : Eng.exec (Machine.checkHeader .regWrite r) (executing s .regWrite r) = (.ok (), executing s .regWrite r) :=
    ht.checkHeader (fun n => by simp) hlen fun _ => ⟨hready, hepoch⟩
  have hrun : Eng.exec (runRegWrite r.body) (executing s .regWrite r) = (.ok (), u) := by rw [hb]; exact runRegWrite_one ho hu hr
  exact (Eng.exec_bind_ok hhead).trans (Eng.exec_bind_ok hrun)

/-- A request in execution that ends is answered, and with none behind it the endpoint is idle. -/
theorem finishQcp_nextQcp {u : State} {j : QcpJob} (h : u.requests = (some j, [])) (st : Status) (body : List Byte) :
    (u.finishQcp st body).nextQcp = { u with qcp := { u.qcp with current := none } }.answer j.cmd j.req st body := by
  obtain ⟨hc, hw⟩ := Prod.mk.inj h
  have hf : u.finishQcp st body = { u with qcp := { u.qcp with current := none } }.answer j.cmd j.req st body := by
    simp only [State.finishQcp, hc]
  rw [hf]
  exact nextQcp_of_none hw

theorem qcpRegisterWrite : QcpRegisterWrite := by
  intro r s off v h ho hr hb
  have ht : Taken s r := h.1
  have hr' : ((executing s .regWrite r).regAt off).isSome = true := by
    rw [regAt_isSome_congr (executing_logicalCores s .regWrite r)]; exact hr
  obtain ⟨u, hu, hexec⟩ := registerWrite_listed v hr'
  have hreq : u.requests = (some ⟨.regWrite, r⟩, []) := (writeReg_requests hu).trans (Prod.ext rfl ht.idle.2)
  have hbegin : s.beginQcp ⟨.regWrite, r⟩ = u.finishQcp .ok [] := by
    have hrun := runQcp_regWrite h ho hb hr' hu
    unfold State.beginQcp
    rw [executing] at hrun
    simp only [hrun]
  refine ⟨_, u, congrArg Host.Outcome.next ?_, hexec, ?_,
    answer_answers { u with qcp := { u.qcp with current := none } } .regWrite r .ok []⟩
  · rw [ht.arrive_regWrite, hbegin]
    exact finishQcp_nextQcp hreq .ok []
  · rfl

/-- Settles O28: what answers a read changes nothing else, and a REG_WRITE is its register's write, which leaves the request in
execution to be answered with OK. -/
theorem qcpRegisterRequests : Obligations.QcpRegisterRequests := ⟨qcpReads, qcpRegisterWrite⟩

end Sys2Proof.Claims
end

section
/-! ## Codewords stored with errors (R286 to R289) -/

namespace Sys2Proof.Machine

/-- An entry put into a list in order is found there by a test that it alone passes. -/
theorem find?_insertBy {α : Type} {le : α → α → Bool} {p : α → Bool} {x : α} {l : List α} (hx : p x = true)
    (hl : ∀ y ∈ l, p y = false) : (insertBy le x l).find? p = some x := by
  induction l with
  | nil => exact List.find?_cons_of_pos hx
  | cons y l ih =>
    obtain ⟨hy, hl⟩ := List.forall_mem_cons.1 hl
    unfold insertBy
    split
    · exact List.find?_cons_of_pos hx
    · rw [List.find?_cons_of_neg (by simp [hy]), ih hl]

theorem mem_insertBy_self {α : Type} (le : α → α → Bool) (x : α) (l : List α) : x ∈ insertBy le x l := by
  induction l with
  | nil => exact List.mem_cons_self ..
  | cons y l ih =>
    unfold insertBy
    split
    · exact List.mem_cons_self ..
    · exact List.mem_cons_of_mem _ ih

/-- The pattern stored with a line is the one set there. -/
theorem State.damageOf_setDamage (s : State) (line : Nat) (e : Pattern) : (s.setDamage line e).damageOf line = e := by
  have hrest : ∀ y ∈ s.damage.filter (fun x => x.1 != line), (y.1 == line) = false := fun y hy => by
    simpa using (List.mem_filter.1 hy).2
  unfold State.damageOf
  cases e with
  | nil =>
    have hnone : (s.setDamage line []).damage.find? (fun x => x.1 == line) = none :=
      List.find?_eq_none.2 fun y hy => Bool.eq_false_iff.1 (hrest y hy)
    rw [hnone]; rfl
  | cons a e =>
    have hsome : (s.setDamage line (a :: e)).damage.find? (fun x => x.1 == line) = some (line, a :: e) :=
      find?_insertBy (beq_self_eq_true line) hrest
    rw [hsome]; rfl

/-- A line stored with an error shows in a request for it. -/
theorem hasDamage_setDamage (s : State) (line : Nat) {e : Pattern} (he : e ≠ []) : hasDamage (s.setDamage line e) line 64 = true := by
  have hmem : (line, e) ∈ (s.setDamage line e).damage := by
    cases e with
    | nil => exact absurd rfl he
    | cons a e => exact mem_insertBy_self ..
  exact List.any_eq_true.2 ⟨_, hmem, by simp⟩

/-- One aligned codeword is one line. -/
theorem linesOf_codeword {off : Nat} (h : off % 64 = 0) : linesOf off 64 = [off] := by
  have h1 : (off + 64 - 1) / 64 - off / 64 + 1 = 1 := by omega
  have h2 : (off / 64 + 0) * 64 = off := by omega
  rw [linesOf, if_neg (by decide), h1, List.range_one, List.map_singleton, h2]

theorem splitLines_codeword {off : Nat} {data : List Byte} (h : off % 64 = 0) (hl : data.length = 64) (k : Nat) :
    splitLines (k + 2) off data = [(off, data)] := by
  cases data with
  | nil => cases hl
  | cons b bs =>
    have hd : (b :: bs).drop 64 = [] := List.drop_eq_nil_of_le (Nat.le_of_eq hl)
    have ht : (b :: bs).take 64 = b :: bs := List.take_of_length_le (Nat.le_of_eq hl)
    simp only [splitLines, h, Nat.sub_zero, hd, ht]

theorem State.stackAt_eq {s : State} {n : Nat} {i : StackId} (h : i.val = n) (f : Stack → Stack) : s.stackAt n f = s.modStack i f := by
  subst h
  exact congrArg (s.modStack · f) (Fin.ext (Nat.mod_eq_of_lt i.isLt))

/-- The candidate list is apart from the counters and the recorded addresses. -/
theorem Stack.listRow_counts (x : Stack) (r : RowRef) : (x.listRow r).corrected = x.corrected ∧ (x.listRow r).ce = x.ce ∧
    (x.listRow r).uncorrected = x.uncorrected ∧ (x.listRow r).ue = x.ue := by
  unfold Stack.listRow
  dsimp only
  split
  · exact ⟨rfl, rfl, rfl, rfl⟩
  · split <;> exact ⟨rfl, rfl, rfl, rfl⟩

/-- A correction counts one and records its line and how many symbols it changed (R288). -/
theorem Stack.correct_counts (x : Stack) (line pc p n : Nat) : (x.correct line pc p n).corrected = satAdd 32 x.corrected 1 ∧
    (x.correct line pc p n).ce = ⟨true, n, line⟩ ∧ (x.correct line pc p n).uncorrected = x.uncorrected ∧
    (x.correct line pc p n).ue = x.ue := by
  unfold Stack.correct
  dsimp only
  split
  · exact Stack.listRow_counts ..
  · exact ⟨rfl, rfl, rfl, rfl⟩

/-- A stack after an uncorrectable codeword (R288). -/
def Stack.failed (x : Stack) (line : Nat) : Stack :=
  { x with uncorrected := satAdd 16 x.uncorrected 1, ue := ⟨true, 0, line⟩ }

/-- What a read of a line stored with an error answers: where the decoder finds no codeword, DATA_ECC (R287, R288). -/
theorem readLine_uncorrectable {s : State} {line : Nat} (hne : s.damageOf line ≠ [])
    (hd : rsDecode 72 8 4 (s.damageOf line) = none) :
    Eng.exec (readLine line) s = (.error .dataEcc, s.stackAt (hbmMap line).1 (Stack.failed · line)) := by
  refine (Eng.exec_bind_ok (Eng.exec_get s)).trans ?_
  split
  next hp => exact absurd hp hne
  next => rw [hd]; rfl

/-- Where it finds one that differs, the corrected bytes. -/
theorem readLine_correctable {s : State} {line : Nat} {f : Pattern} (hne : s.damageOf line ≠ [])
    (hd : rsDecode 72 8 4 (s.damageOf line) = some f) (hf : f ≠ []) :
    Eng.exec (readLine line) s = (.ok (residual (s.peek line 64) (s.damageOf line) f),
      s.stackAt (hbmMap line).1 fun x => x.correct line (hbmMap line).2.1 (hbmMap line).2.2 f.length) := by
  refine (Eng.exec_bind_ok (Eng.exec_get s)).trans ?_
  split
  next hp => exact absurd hp hne
  next =>
    rw [hd]
    dsimp only
    rw [if_pos (by simpa using hf)]
    rfl

end Sys2Proof.Machine
end

section
/-! ## Requests of HBM (R25, R288, R289, R293, R305, R379) -/

namespace Sys2Proof.Machine

theorem isEmpty_of_length {α : Type} {l : List α} (h : 0 < l.length) : l.isEmpty = false := by
  rw [List.isEmpty_eq_false_iff]; exact List.length_pos_iff.1 h

section
variable {s : State} {off : Nat}

/-- A read of HBM outside the guarded tables is a read of the stacks. -/
theorem memRead_of_hbm {n : Nat} (r : Requester) (hn : 0 < n) (he : off + n ≤ hbmEnd) (hg : s.hbmGuarded off n = false) :
    Eng.exec (memRead r off n) s = Eng.exec (hbmRead off n) s := by
  have hl := s.locate_hbm (by omega) he
  simp only [memRead, Nat.pos_iff_ne_zero.1 hn, if_false, Eng.exec_bind, Eng.exec_get, hl, hg, Bool.false_eq_true]

/-- A request of a guarded table is refused (R305, R379). -/
theorem memRead_guarded {n : Nat} (r : Requester) (hn : 0 < n) (he : off + n ≤ hbmEnd) (hg : s.hbmGuarded off n = true) :
    Eng.exec (memRead r off n) s = (.error .allocFault, s) := by
  have hl := s.locate_hbm (by omega) he
  simp only [memRead, Nat.pos_iff_ne_zero.1 hn, if_false, Eng.exec_bind, Eng.exec_get, hl, hg, if_true, Eng.exec_throw]

section
variable {data : List Byte} (r : Requester) (hn : 0 < data.length) (he : off + data.length ≤ hbmEnd)
include hn he

theorem memWrite_guarded (hg : s.hbmGuarded off data.length = true) : Eng.exec (memWrite r off data) s = (.error .allocFault, s) := by
  have hl := s.locate_hbm (by omega) he
  simp only [memWrite, isEmpty_of_length hn, if_false, Bool.false_eq_true, Eng.exec_bind, Eng.exec_get, hl, hg, if_true, Eng.exec_throw]

/-- A write of HBM outside the guarded tables that the stacks refuse. -/
theorem memWrite_of_hbm_error {st : Status} {t : State} (hg : s.hbmGuarded off data.length = false)
    (hw : Eng.exec (hbmWrite off data) s = (.error st, t)) : Eng.exec (memWrite r off data) s = (.error st, t) := by
  have hl := s.locate_hbm (by omega) he
  simp only [memWrite, isEmpty_of_length hn, if_false, Bool.false_eq_true, Eng.exec_bind, Eng.exec_get, hl, hg, hw]

/-- One that they serve, then marks the local frames that it lands in (R311). -/
theorem memWrite_of_hbm_ok {t : State} (hg : s.hbmGuarded off data.length = false)
    (hw : Eng.exec (hbmWrite off data) s = (.ok (), t)) :
    Eng.exec (memWrite r off data) s = (.ok (), t.markDirty off data.length) := by
  have hl := s.locate_hbm (by omega) he
  simp only [memWrite, isEmpty_of_length hn, if_false, Bool.false_eq_true, Eng.exec_bind, Eng.exec_get, hl, hg, hw, Eng.exec_modify]
end

section
variable (h64 : off % 64 = 0) (hr : s.hbmRefuses off 64 = none) (hd : hasDamage s off 64 = true)
include h64 hr hd

/-- A read of one codeword that may be in error is the read of its line. -/
theorem hbmRead_codeword : Eng.exec (hbmRead off 64) s =
    Eng.exec (readLine off >>= fun b => pure (slice [b].flatten (off % 64) 64)) s := by
  simp only [hbmRead, Eng.exec_bind, Eng.exec_get, hr, hd, if_true, linesOf_codeword h64, List.mapM_cons, List.mapM_nil,
    Eng.exec_pure]
  cases Eng.exec (readLine off) s with
  | mk r t => cases r <;> rfl

/-- A write of a whole codeword stores it clean, whatever stood there (R289). -/
theorem hbmWrite_codeword {data : List Byte} (hlen : data.length = 64) :
    Eng.exec (hbmWrite off data) s = (.ok (), (s.setDamage off []).poke off data) := by
  have hline : off / 64 * 64 = off := by omega
  have hw : Eng.exec (writeLine off data) s = (.ok (), (s.setDamage off []).poke off data) := by
    unfold writeLine
    dsimp only
    rw [if_neg (by omega), hline]
    rfl
  simp only [hbmWrite, Eng.exec_bind, Eng.exec_get, hlen, hr, hd, if_true, splitLines_codeword h64 hlen, Eng.exec_forM_cons, hw,
    Eng.exec_forM_nil]
end
end

/-- A request that fits in HBM ends with its program's status; one that does not, with ALLOC_FAULT (R25). -/
theorem hbmRequest_fits {m : Eng Unit} {off n : Nat} {s t : State} {st : Status} (h : off + n ≤ hbmEnd) (hm : m.outcome s = (st, t)) :
    hbmRequest m off n s = t.endRequest st := by
  have : Eng.exec (need (decide (off + n ≤ hbmEnd)) .allocFault >>= fun _ => m) s = Eng.exec m s :=
    Eng.need_then (decide_eq_true h) rfl
  unfold hbmRequest
  simp only [Eng.outcome, this] at hm ⊢
  rw [hm]

theorem hbmRequest_beyond {off n : Nat} (h : hbmEnd < off + n) (m : Eng Unit) (s : State) :
    hbmRequest m off n s = s.endRequest .allocFault := by
  have : Eng.exec (need (decide (off + n ≤ hbmEnd)) .allocFault >>= fun _ => m) s = (.error .allocFault, s) := by
    refine Eng.exec_bind_error ?_
    rw [Eng.exec_need, decide_eq_false (by omega)]; rfl
  unfold hbmRequest
  simp only [Eng.outcome_error this]

end Sys2Proof.Machine

namespace Sys2Proof.Claims
open Sys2Proof.Machine

/-! ## HBM_READ and HBM_WRITE, with the error trigger off (R288, R289, R531) -/

/-- The status that a program ends with. -/
def ended {α : Type} : Except Status α → Status
  | .ok _ => .ok
  | .error st => st

theorem outcome_ended {α : Type} {m : Eng α} {s t : State} {r : Except Status α} (h : Eng.exec m s = (r, t)) :
    m.outcome s = (ended r, t) := by
  cases r with
  | ok a => exact Eng.outcome_ok h
  | error st => exact Eng.outcome_error h

/-- A read leaves what its program leaves: the bytes go to no agent of the model. -/
theorem hbmRead_next {s t : State} {off n : Nat} {err : List SymbolError} {r : Except Status (List Byte)} (hfit : off + n ≤ hbmEnd)
    (hm : Eng.exec (memRead .window off n) (s.addDamage (off / 64 * 64) err) = (r, t)) (ht : NoTrigger t)
    (hi : ended r ≠ .integrity) : exec (.hbmRead off n err) s = .next t := by
  have hout : (memRead .window off n >>= fun _ => pure PUnit.unit).outcome (s.addDamage (off / 64 * 64) err) = (ended r, t) := by
    cases r with
    | error st => exact Eng.outcome_error (Eng.exec_bind_error hm)
    | ok b => exact Eng.outcome_ok (Eng.exec_bind_ok hm)
  exact congrArg Host.Outcome.next ((hbmRequest_fits hfit hout).trans (endRequest_quiet ht hi))

theorem hbmWrite_next {s t : State} {off : Nat} {data : List Byte} {r : Except Status Unit} (hfit : off + data.length ≤ hbmEnd)
    (hm : Eng.exec (memWrite .window off data) s = (r, t)) (ht : NoTrigger t) (hi : ended r ≠ .integrity) :
    exec (.hbmWrite off data []) s = .next t :=
  congrArg Host.Outcome.next ((hbmRequest_fits hfit (outcome_ended hm)).trans (endRequest_quiet ht hi))

/-- A read of one clean codeword that shows errors: they are stored with it, and the decoder sees them (R288). -/
theorem hbmRead_errors {s t : State} {off : Nat} {err : List SymbolError} {r : Except Status (List Byte)}
    (hs : Serves s off 64) (h64 : off % 64 = 0) (hclean : s.damageOf off = []) (herr : err ≠ [])
    (he : patternAdd [] (patternOf err) ≠ [])
    (hl : Eng.exec (readLine off) (s.setDamage off (patternAdd [] (patternOf err))) = (r, t)) (ht : NoTrigger t)
    (hi : ended r ≠ .integrity) : exec (.hbmRead off 64 err) s = .next t := by
  obtain ⟨hn, hfit, hg, hr⟩ := hs
  have hline : off / 64 * 64 = off := by omega
  have hadd : s.addDamage (off / 64 * 64) err = s.setDamage off (patternAdd [] (patternOf err)) := by
    have hne : ¬ err.isEmpty = true := by simpa using herr
    rw [State.addDamage, if_neg hne, hline, hclean]
  have hread := (memRead_of_hbm .window hn hfit (s := s.setDamage off _) hg).trans
    (hbmRead_codeword h64 hr (hasDamage_setDamage s off he))
  rw [← hadd] at hread
  cases r with
  | error st => exact hbmRead_next hfit (hread.trans (by rw [hadd]; exact Eng.exec_bind_error hl)) ht hi
  | ok b =>
    exact hbmRead_next (r := .ok (slice [b].flatten (off % 64) 64)) hfit
      (hread.trans (by rw [hadd]; exact Eng.exec_bind_ok hl)) ht hi

/-- An update of the stack of a line, after errors were stored with the line. -/
theorem onlyStack_modStack (s : State) (line : Nat) (e : Pattern) (i : StackId) (f : Stack → Stack) :
    OnlyStack s ((s.setDamage line e).modStack i f) i :=
  ⟨rfl, fun _ h => State.stack_modStack_ne _ _ _ _ h⟩

theorem satAdd_one (w n : Nat) : satAdd w n 1 = min (2 ^ w - 1) (n + 1) := Nat.min_comm ..

/-- A codeword that shows errors the decoder can correct (R288). -/
theorem hbmRead_correctable {s : State} {off : Nat} {err : List SymbolError} {i : StackId} {e f : Pattern} (hq : NoTrigger s)
    (hs : Serves s off 64) (h64 : off % 64 = 0) (hclean : s.damageOf off = []) (herr : err ≠ []) (hi : i.val = (hbmMap off).1)
    (hdef : e = patternAdd [] (patternOf err)) (he : e ≠ []) (hf : rsDecode 72 8 4 e = some f) (hne : f ≠ []) :
    ∃ t, exec (.hbmRead off 64 err) s = .next t ∧ OnlyStack s t i ∧
      (t.stack i).corrected = min (2 ^ 32 - 1) ((s.stack i).corrected + 1) ∧ (t.stack i).ce = ⟨true, f.length, off⟩ ∧
      (t.stack i).uncorrected = (s.stack i).uncorrected ∧ (t.stack i).ue = (s.stack i).ue ∧ t.damageOf off = e := by
  subst hdef
  have hd := s.damageOf_setDamage off (patternAdd [] (patternOf err))
  have hl := readLine_correctable (by rw [hd]; exact he) (by rw [hd]; exact hf) hne
  rw [State.stackAt_eq hi] at hl
  refine ⟨_, hbmRead_errors hs h64 hclean herr he hl hq nofun, onlyStack_modStack .., ?_⟩
  rw [State.stack_modStack]
  obtain ⟨hc, hce, hu, hue⟩ := Stack.correct_counts (s.stack i) off (hbmMap off).2.1 (hbmMap off).2.2 f.length
  exact ⟨hc.trans (satAdd_one ..), hce, hu, hue, hd⟩

/-- One that shows errors it cannot. -/
theorem hbmRead_uncorrectable {s : State} {off : Nat} {err : List SymbolError} {i : StackId} {e : Pattern} (hq : NoTrigger s)
    (hs : Serves s off 64) (h64 : off % 64 = 0) (hclean : s.damageOf off = []) (herr : err ≠ []) (hi : i.val = (hbmMap off).1)
    (hdef : e = patternAdd [] (patternOf err)) (he : e ≠ []) (hnone : rsDecode 72 8 4 e = none) :
    ∃ t, exec (.hbmRead off 64 err) s = .next t ∧ OnlyStack s t i ∧
      (t.stack i).uncorrected = min (2 ^ 16 - 1) ((s.stack i).uncorrected + 1) ∧ (t.stack i).ue = ⟨true, 0, off⟩ ∧
      (t.stack i).corrected = (s.stack i).corrected ∧ (t.stack i).ce = (s.stack i).ce ∧ t.damageOf off = e := by
  subst hdef
  have hd := s.damageOf_setDamage off (patternAdd [] (patternOf err))
  have hl := readLine_uncorrectable (by rw [hd]; exact he) (by rw [hd]; exact hnone)
  rw [State.stackAt_eq hi] at hl
  refine ⟨_, hbmRead_errors hs h64 hclean herr he hl hq nofun, onlyStack_modStack .., ?_⟩
  rw [State.stack_modStack]
  exact ⟨satAdd_one .., rfl, rfl, rfl, hd⟩

/-- What a program that is refused leaves: a read and a write of the same range, with a status other than INTEGRITY. -/
theorem hbm_refused {s : State} {off : Nat} {data : List Byte} {st : Status} (hq : NoTrigger s) (hst : st ≠ .integrity)
    (hfit : off + data.length ≤ hbmEnd) (hr : Eng.exec (memRead .window off data.length) s = (.error st, s))
    (hw : Eng.exec (memWrite .window off data) s = (.error st, s)) :
    exec (.hbmRead off data.length []) s = .next s ∧ exec (.hbmWrite off data []) s = .next s :=
  ⟨hbmRead_next hfit hr hq hst, hbmWrite_next hfit hw hq hst⟩

theorem hbm_beyond {s : State} {off : Nat} {data : List Byte} (hq : NoTrigger s) (h : hbmEnd < off + data.length) :
    exec (.hbmRead off data.length []) s = .next s ∧ exec (.hbmWrite off data []) s = .next s := by
  have hquiet : s.endRequest .allocFault = s := endRequest_quiet hq (by decide)
  exact ⟨congrArg Host.Outcome.next ((hbmRequest_beyond h _ s).trans hquiet),
    congrArg Host.Outcome.next ((hbmRequest_beyond h _ s).trans hquiet)⟩

/-- Settles O36: a read goes to the codeword's decoder where errors stand, and answers the bytes where none do; a write that is
served pokes its bytes; what is refused leaves the state. -/
theorem hbmAccesses : Obligations.HbmAccesses := by
  intro s off n hq
  refine ⟨fun ⟨hn, hfit, hg, hr⟩ hclean => ?_, fun hs h64 hclean err i herr hi he => ?_,
    fun data hlen ⟨hn, hfit, hg, hr⟩ hfr hw => ?_, fun st data hlen hn hfit hg hr hst => ?_, fun data hlen hn hoff h => ?_⟩
  · exact hbmRead_next hfit ((memRead_of_hbm .window hn hfit hg).trans (hbmRead_clean hr hclean)) hq nofun
  · exact ⟨fun f hf hne => hbmRead_correctable hq hs h64 hclean herr hi rfl he hf hne,
      fun hnone => hbmRead_uncorrectable hq hs h64 hclean herr hi rfl he hnone⟩
  · subst hlen
    have hin := fun k (hk : k < data.length) => Memory.byte_setBytes_in s.mem off k data hw hk
    have hout := fun a ha => Memory.byte_setBytes_out s.mem off a data hw ha
    refine ⟨fun hclean => ?_, fun hd h64 hn64 => ?_⟩
    · have hwrite := memWrite_storable hn (.inl ⟨hfit, hg, hr, hclean, hfr⟩)
      exact ⟨_, hbmWrite_next hfit hwrite hq nofun, rfl, hin, hout⟩
    · have hwrite := memWrite_of_hbm_ok .window hn hfit hg (hbmWrite_codeword h64 (hn64 ▸ hr) (hn64 ▸ hd) hn64)
      rw [State.markDirty_off (s := (s.setDamage off []).poke off data) hfr] at hwrite
      exact ⟨_, hbmWrite_next hfit hwrite hq nofun, rfl, s.damageOf_setDamage off [], hin, hout⟩
  · subst hlen
    exact hbm_refused hq hst hfit ((memRead_of_hbm .window hn hfit hg).trans (hbmRead_refused hr))
      (memWrite_of_hbm_error .window hn hfit hg (hbmWrite_refused hr))
  · subst hlen
    by_cases hfit : off + data.length ≤ hbmEnd
    · have hg : s.hbmGuarded off data.length = true := h.resolve_right (by omega)
      exact hbm_refused hq (by decide) hfit (memRead_guarded .window hn hfit hg) (memWrite_guarded .window hn hfit hg)
    · exact hbm_beyond hq (Nat.lt_of_not_le hfit)

end Sys2Proof.Claims
end

section
/-! ## Accesses of other agents to windows (R18, R19, R23 to R25, R196, R336, R381, R496) -/

namespace Sys2Proof.Machine

/-- What an access that is served here runs: a read, or a write of its data. -/
def windowProgram (off n : Nat) : Option (List Byte) → Eng (List Byte)
  | none => memRead .window off n
  | some d => do
    memWrite .window off d
    pure []

/-- A location that is none of HBM, registers and flash: a window, or reserved (R21, R23). -/
def State.windowOrNone (s : State) (off n : Nat) : Prop :=
  (∃ d o, s.locate off n = some (.spm d o)) ∨ (∃ d o, s.locate off n = some (.acc d o)) ∨ s.locate off n = none

/-- An access to a window or a reserved range of this chip is its program, and the program's answer. -/
theorem windowAccess_here {s : State} {a : Access} (hn : 0 < a.len) (h : a.addr / 2 ^ 60 % 16 = 0) (hc : a.addr / 2 ^ 48 = s.chip)
    (hl : s.windowOrNone (a.addr % 2 ^ 48) a.len) :
    s.windowAccess a = match Eng.exec (windowProgram (a.addr % 2 ^ 48) a.len a.data) s with
      | (.ok d, t) => t.emit (.access .ok d)
      | (.error st, t) => t.answerAccess st [] := by
  have hmax : max 1 a.len = a.len := Nat.max_eq_right hn
  unfold State.windowAccess
  dsimp only
  rw [if_neg (by omega), if_neg (by omega), hmax]
  rcases hl with ⟨d, o, hl⟩ | ⟨d, o, hl⟩ | hl <;> rw [hl] <;> rfl

/-! ### What the windows refuse -/

section
variable {s : State} {off n : Nat} {data : List Byte}

/-- A reserved location is refused (R23). -/
theorem memRead_reserved (hn : 0 < n) (hl : s.locate off n = none) : Eng.exec (memRead .window off n) s = (.error .allocFault, s) := by
  simp only [memRead, Nat.pos_iff_ne_zero.1 hn, if_false, Eng.exec_bind, Eng.exec_get, hl, Eng.exec_throw]

theorem memWrite_reserved (hn : 0 < data.length) (hl : s.locate off data.length = none) :
    Eng.exec (memWrite .window off data) s = (.error .allocFault, s) := by
  simp only [memWrite, isEmpty_of_length hn, Bool.false_eq_true, if_false, Eng.exec_bind, Eng.exec_get, hl, Eng.exec_throw]

/-- A window that is fenced or off is refused, and the refusal counted (R483, R496). -/
theorem memRead_fenced {d o : Nat} (hn : 0 < n) (hl : s.locate off n = some (.spm d o) ∨ s.locate off n = some (.acc d o))
    (hf : s.coreFenced d = true) : Eng.exec (memRead .window off n) s = (.error .fenced, countFence s) := by
  rcases hl with hl | hl <;>
    simp only [memRead, Nat.pos_iff_ne_zero.1 hn, if_false, Eng.exec_bind, Eng.exec_get, hl, Requester.isOwn, hf, Bool.not_false,
      Bool.and_self, if_true] <;> rfl

theorem memWrite_fenced {d o : Nat} (hn : 0 < data.length)
    (hl : s.locate off data.length = some (.spm d o) ∨ s.locate off data.length = some (.acc d o)) (hf : s.coreFenced d = true) :
    Eng.exec (memWrite .window off data) s = (.error .fenced, countFence s) := by
  rcases hl with hl | hl <;>
    simp only [memWrite, isEmpty_of_length hn, Bool.false_eq_true, if_false, Eng.exec_bind, Eng.exec_get, hl, Requester.isOwn, hf,
      Bool.not_false, Bool.and_self, if_true] <;> rfl

theorem toList_getD_core (s : State) (d : CoreId) : s.cores.toList.getD d.val {} = s.core d := by simp [State.core]

/-- A bank that a command holds refuses any requester but its own core (R25). -/
theorem accCheck_held {d : CoreId} {o : Nat} (h : (s.core d).banks &&& bankMask o n ≠ 0) :
    Eng.exec (accCheck .window d.val o n) s = (.error .allocFault, s) := by
  have hb : (s.cores.toList.getD d.val {}).banks &&& bankMask o n ≠ 0 := by rwa [toList_getD_core]
  simp only [accCheck, Eng.exec_bind, Eng.exec_get, Requester.isOwn, Bool.not_false, Bool.true_and, bne_iff_ne.2 hb, if_true,
    Eng.exec_throw]

theorem memRead_held {d : CoreId} {o : Nat} (hn : 0 < n) (hl : s.locate off n = some (.acc d.val o)) (hf : s.coreFenced d = false)
    (h : (s.core d).banks &&& bankMask o n ≠ 0) : Eng.exec (memRead .window off n) s = (.error .allocFault, s) := by
  simp only [memRead, Nat.pos_iff_ne_zero.1 hn, if_false, Eng.exec_bind, Eng.exec_get, hl, hf, Bool.and_false, Bool.false_eq_true,
    accCheck_held h]

theorem memWrite_held {d : CoreId} {o : Nat} (hn : 0 < data.length) (hl : s.locate off data.length = some (.acc d.val o))
    (hf : s.coreFenced d = false) (h : (s.core d).banks &&& bankMask o data.length ≠ 0) :
    Eng.exec (memWrite .window off data) s = (.error .allocFault, s) := by
  simp only [memWrite, isEmpty_of_length hn, if_false, Eng.exec_bind, Eng.exec_get, hl, hf, Bool.and_false, Bool.false_eq_true,
    accCheck_held h]

/-- A write to what R196, R336 and R381 protect is refused and counted. -/
theorem memWrite_protected {d : CoreId} {o : Nat} (hn : 0 < data.length) (hl : s.locate off data.length = some (.spm d.val o))
    (hf : s.coreFenced d = false) (hg : s.spmGuarded d o data.length = true) :
    Eng.exec (memWrite .window off data) s =
      (.error .allocFault, s.modCore d fun x => { x with tableFaults := satAdd 16 x.tableFaults 1 }) := by
  have hd : (⟨d.val % 128, Nat.mod_lt _ (by decide)⟩ : CoreId) = d := Fin.ext (Nat.mod_eq_of_lt d.isLt)
  simp only [memWrite, isEmpty_of_length hn, if_false, Eng.exec_bind, Eng.exec_get, hl, hf, Bool.and_false, Bool.false_eq_true,
    hg, if_true, Eng.exec_modify, Eng.exec_throw, hd]
end

/-! ### What lies between the regions (R21, R23) -/

/-- Nothing lies outside the regions of the local map. -/
theorem State.locate_outside (s : State) {off : Nat} (n : Nat) (hh : hbmEnd ≤ off)
    (hs : ¬ (spmBase ≤ off ∧ off < spmBase + s.logicalCores * spmSize))
    (ha : ¬ (accBase ≤ off ∧ off < accBase + s.logicalCores * accSize))
    (hr : ¬ (regBase ≤ off ∧ off < regEnd)) (hf : ¬ (flashBase ≤ off ∧ off < flashEnd)) : s.locate off n = none := by
  unfold State.locate
  rw [if_neg (Nat.not_lt.2 hh), if_neg hs, if_neg ha, if_neg hr, if_neg hf]

/-- Nothing lies past the end of a scratchpad window. -/
theorem State.locate_pastSpm (s : State) {d o n : Nat} (hd : d < 128) (ho : o < spmSize) (h : spmSize < o + n) :
    s.locate (spmOf d + o) n = none := by
  obtain ⟨h1, h2, h3, h4, h5, h6, h7⟩ := addressMap
  have hf : flashBase = 0x100000000000 := rfl
  have hc := s.logicalCores_le
  rw [h3] at ho h
  by_cases hin : d < s.logicalCores
  · have e : (spmOf d + o - spmBase) % spmSize = o := by rw [spmOf, h2, h3]; omega
    unfold State.locate
    rw [if_neg (by rw [spmOf]; omega), if_pos (by rw [spmOf, h3]; omega)]
    simp only [e]
    rw [if_neg (by omega)]
  · rw [spmOf]
    exact s.locate_outside n (by omega) (by rw [h3]; omega) (by rw [h3]; omega) (by rw [h3]; omega) (by rw [h3]; omega)

/-- Nor past the end of an accumulator window. -/
theorem State.locate_pastAcc (s : State) {d o n : Nat} (hd : d < 128) (ho : o < accSize) (h : accSize < o + n) :
    s.locate (accOf d + o) n = none := by
  obtain ⟨h1, h2, h3, h4, h5, h6, h7⟩ := addressMap
  have hf : flashBase = 0x100000000000 := rfl
  have hc := s.logicalCores_le
  rw [h5] at ho h
  by_cases hin : d < s.logicalCores
  · have e : (accOf d + o - accBase) % accSize = o := by rw [accOf, h4, h5]; omega
    unfold State.locate
    rw [if_neg (by rw [accOf]; omega), if_neg (by rw [accOf, h3]; omega), if_pos (by rw [accOf, h5]; omega)]
    simp only [e]
    rw [if_neg (by omega)]
  · rw [accOf]
    exact s.locate_outside n (by omega) (by rw [h3, h5]; omega) (by rw [h5]; omega) (by rw [h5]; omega) (by rw [h5]; omega)

/-- Nor in the reserved ranges of the local map. -/
theorem State.locate_reserved (s : State) {off : Nat} (n : Nat)
    (h : hbmEnd ≤ off ∧ off < spmBase ∨ accOf 128 ≤ off ∧ off < regBase ∨ regEnd ≤ off ∧ off < flashBase ∨ flashEnd ≤ off) : s.locate off n = none := by
  obtain ⟨h1, h2, h3, h4, h5, h6, h7⟩ := addressMap
  have h8 : flashBase = 0x100000000000 ∧ flashEnd = 0x500000000000 := ⟨rfl, rfl⟩
  have hc := s.logicalCores_le
  rw [accOf, h5] at h
  exact s.locate_outside n (by omega) (by rw [h3]; omega) (by rw [h5]; omega) (by omega) (by omega)

end Sys2Proof.Machine

namespace Sys2Proof.Claims
open Sys2Proof.Machine

/-- [o, o + n) of core d's scratchpad window, at local offset off; and of its accumulator window. -/
def InSpm (d o n off : Nat) : Prop := off = spmOf d + o ∧ o + n ≤ spmSize
def InAcc (d o n off : Nat) : Prop := off = accOf d + o ∧ o + n ≤ accSize

/-- The accumulator banks of a range are free. -/
def FreeBanks (s : State) (d : CoreId) (o n : Nat) : Prop := (s.core d).banks &&& bankMask o n = 0

section
variable {s : State} {d : CoreId} {o n off : Nat} (hd : d.val < s.logicalCores) (hn : 0 < n)
include hd hn

theorem InSpm.locate (h : InSpm d o n off) : s.locate off n = some (.spm d o) := by
  obtain ⟨rfl, h⟩ := h
  exact s.locate_spm hd hn h

theorem InAcc.locate (h : InAcc d o n off) : s.locate off n = some (.acc d o) := by
  obtain ⟨rfl, h⟩ := h
  exact s.locate_acc hd hn h

theorem locate_window (h : InSpm d o n off ∨ InAcc d o n off) :
    s.locate off n = some (.spm d o) ∨ s.locate off n = some (.acc d o) :=
  h.imp (InSpm.locate hd hn) (InAcc.locate hd hn)

end

/-- Every window lies in the local map. -/
theorem window_offset_lt {d : CoreId} {o n off : Nat} (hn : 0 < n) (h : InSpm d o n off ∨ InAcc d o n off) : off < 2 ^ 48 := by
  obtain ⟨h1, h2, h3, h4, h5, h6, h7⟩ := addressMap
  have hd := d.isLt
  rcases h with ⟨rfl, h⟩ | ⟨rfl, h⟩
  · rw [spmOf, h2, h3]; rw [h3] at h; omega
  · rw [accOf, h4, h5]; rw [h5] at h; omega

section
variable {s : State} {d : CoreId} {o n off : Nat} (hd : d.val < s.logicalCores) (hf : s.coreFenced d = false)
  (h : InSpm d o n off ∨ InAcc d o n off ∧ FreeBanks s d o n)
include hd hf h

/-- A window that is neither fenced nor held can be read. -/
theorem loadable_window : Loadable s off n := by
  rcases h with ⟨e, h⟩ | ⟨⟨e, h⟩, hb⟩
  · exact .inr (.inl ⟨d, o, ⟨hd, hf⟩, e, h⟩)
  · exact .inr (.inr ⟨d, o, ⟨hd, hf⟩, e, h, by rwa [toList_getD_core]⟩)

/-- And, outside what is protected, written. -/
theorem storable_window (hg : InSpm d o n off → s.spmGuarded d o n = false) : Storable s off n := by
  rcases h with h | ⟨⟨e, h⟩, hb⟩
  · exact .inr (.inl ⟨d, o, ⟨hd, hf⟩, h.1, h.2, hg h⟩)
  · exact .inr (.inr ⟨d, o, ⟨hd, hf⟩, e, h, by rwa [toList_getD_core]⟩)
end

/-! ### Accesses to windows of this chip -/

section
variable {s : State} {ag : Agent} {d : CoreId} {o n off : Nat} {data : Option (List Byte)} (hd : d.val < s.logicalCores) (hn : 0 < n)
  (hc : s.chip < 4096) (hw : InSpm d o n off ∨ InAcc d o n off)
include hd hn hc hw

/-- An access to a window of this chip is its program, and the program's answer. -/
theorem exec_windowAccess : exec (.windowAccess ⟨ag, s.chip * 2 ^ 48 + off, n, data⟩) s = .next (
    match Eng.exec (windowProgram off n data) s with
      | (.ok d, t) => t.emit (.access .ok d)
      | (.error st, t) => t.answerAccess st []) := by
  have hoff := window_offset_lt hn hw
  have hl : s.windowOrNone off n := (locate_window hd hn hw).elim (fun h => .inl ⟨d, o, h⟩) fun h => .inr (.inl ⟨d, o, h⟩)
  have e : (s.chip * 2 ^ 48 + off) % 2 ^ 48 = off := by omega
  have := windowAccess_here (s := s) (a := ⟨ag, s.chip * 2 ^ 48 + off, n, data⟩) hn (by dsimp only; omega) (by dsimp only; omega)
    (by dsimp only; rwa [e])
  dsimp only at this
  rw [e] at this
  exact congrArg Host.Outcome.next this

theorem exec_windowAccess_ok {t : State} {b : List Byte} (hx : Eng.exec (windowProgram off n data) s = (.ok b, t)) :
    exec (.windowAccess ⟨ag, s.chip * 2 ^ 48 + off, n, data⟩) s = .next (t.emit (.access .ok b)) := by
  rw [exec_windowAccess hd hn hc hw, hx]

theorem exec_windowAccess_error {t : State} {st : Status} (hx : Eng.exec (windowProgram off n data) s = (.error st, t)) :
    exec (.windowAccess ⟨ag, s.chip * 2 ^ 48 + off, n, data⟩) s = .next (t.answerAccess st []) := by
  rw [exec_windowAccess hd hn hc hw, hx]
end

/-- What another agent reads of a window that serves it, and what its write leaves (R24). -/
theorem windowAccess_served {s : State} (ag : Agent) {d : CoreId} {o n off : Nat} (hd : d.val < s.logicalCores) (hn : 0 < n)
    (hc : s.chip < 4096) (hf : s.coreFenced d = false) (hw : InSpm d o n off ∨ InAcc d o n off ∧ FreeBanks s d o n) :
    exec (.windowAccess ⟨ag, s.chip * 2 ^ 48 + off, n, none⟩) s = .next (s.emit (.access .ok (s.mem.bytes off n))) ∧
    ∀ data : List Byte, data.length = n → (InSpm d o n off → s.spmGuarded d o n = false) →
      exec (.windowAccess ⟨ag, s.chip * 2 ^ 48 + off, n, some data⟩) s = .next ((s.poke off data).emit (.access .ok [])) := by
  have hwin := hw.imp id And.left
  refine ⟨exec_windowAccess_ok hd hn hc hwin (memRead_loadable hn (loadable_window hd hf hw)), fun data hlen hg => ?_⟩
  subst hlen
  exact exec_windowAccess_ok hd hn hc hwin (Eng.exec_bind_ok (memWrite_storable hn (storable_window hd hf hw hg)))

theorem windowsServe : WindowsServe := by
  intro s ag d o n off hd hn hc read write spm acc free
  refine ⟨fun hf hw => ?_, fun hf hw hg data hlen => ?_, fun hf hw hb => ⟨?_, fun data hlen => ?_⟩, fun hf hw i hi => ?_⟩
  · obtain ⟨hread, hwrite⟩ := windowAccess_served ag hd hn hc hf hw
    refine ⟨hread, fun data hlen hm hg => ⟨_, hwrite data hlen hg, rfl, fun k hk => ?_, fun a ha => ?_⟩⟩
    · exact Memory.byte_setBytes_in _ _ _ _ hm hk
    · exact Memory.byte_setBytes_out _ _ _ _ hm (by rwa [hlen])
  · subst hlen
    have hx := memWrite_protected hn (InSpm.locate hd hn hw) hf hg
    simp only [satAdd_one] at hx
    exact exec_windowAccess_error hd hn hc (.inl hw) (Eng.exec_bind_error hx)
  · exact exec_windowAccess_error hd hn hc (.inr hw) (memRead_held hn (InAcc.locate hd hn hw) hf hb)
  · subst hlen
    exact exec_windowAccess_error hd hn hc (.inr hw) (Eng.exec_bind_error (memWrite_held hn (InAcc.locate hd hn hw) hf hb))
  · have hcount : countFence s = { s with recov := { s.recov with fenceRefused := min (2 ^ 16 - 1) (s.recov.fenceRefused + 1) } } := by
      rw [countFence, satAdd_one]
    rw [← hcount]
    have hl := locate_window hd hn hw
    rcases hi with rfl | ⟨data, rfl, rfl⟩
    · exact exec_windowAccess_error hd hn hc hw (memRead_fenced hn hl hf)
    · exact exec_windowAccess_error hd hn hc hw (Eng.exec_bind_error (memWrite_fenced hn hl hf))

/-! ### Accesses that no window serves -/

/-- An access to a reserved location, or past the end of a window, is refused. -/
theorem windowProgram_reserved {s : State} {off n : Nat} {data : Option (List Byte)} (hn : 0 < n) (hl : s.locate off n = none)
    (hd : ∀ d, data = some d → d.length = n) : Eng.exec (windowProgram off n data) s = (.error .allocFault, s) := by
  cases data with
  | none => exact memRead_reserved hn hl
  | some d =>
    obtain rfl := hd d rfl
    exact Eng.exec_bind_error (memWrite_reserved hn hl)

theorem windowsRefuse : WindowsRefuse := by
  intro s a hn hw off
  refine ⟨fun h => ?_, fun h hc => ?_, fun h hc hoff => ?_⟩
  · exact congrArg Host.Outcome.next (if_pos h)
  · refine congrArg Host.Outcome.next ?_
    unfold State.windowAccess
    dsimp only
    rw [if_neg (by omega), if_pos hc]
  · have hl : s.locate off a.len = none := by
      rcases hoff with h | h | h | h | ⟨d, o, hd, e, ho, hp⟩ | ⟨d, o, hd, e, ho, hp⟩
      · exact s.locate_reserved _ (.inl h)
      · exact s.locate_reserved _ (.inr (.inl h))
      · exact s.locate_reserved _ (.inr (.inr (.inl h)))
      · exact s.locate_reserved _ (.inr (.inr (.inr h)))
      · rw [e]; exact s.locate_pastSpm hd ho hp
      · rw [e]; exact s.locate_pastAcc hd ho hp
    have hdata : ∀ d, a.data = some d → d.length = a.len := fun d e => by simpa [Access.wf, e] using hw
    refine congrArg Host.Outcome.next ((windowAccess_here hn h hc (.inr (.inr hl))).trans ?_)
    rw [windowProgram_reserved hn hl hdata]

theorem answersLeave : AnswersLeave := by
  intro s st d he hst
  rw [State.answerAccess, endRequest_quiet he hst]; rfl

/-- Settles O26: an access is a read or a write of what lies at its location, and its answer; each refusal is the one check that
it meets. -/
theorem windowAccesses : Obligations.WindowAccesses := ⟨windowsServe, windowsRefuse, answersLeave⟩

end Sys2Proof.Claims
end

section
/-! ## What pumping and flushing ports leave (R366, R367, R375)

A stroke that goes out, a credit that is returned and a port that loses its buffers change the ports' buffers, credits and turns,
and append to the outputs. Everything else about a port is its link, and everything else about the chip is the same. -/

namespace Sys2Proof.Machine

/-! ### Folds over units -/

/-- What every turn of a fold over a unit keeps, the fold keeps. -/
theorem overFin_keeps {n : Nat} {f : Fin n → State → State} {P : State → Prop} (h : ∀ i s, P s → P (f i s)) {s : State}
    (hs : P s) : P (overFin n f s) := List.foldlRecOn _ _ hs fun t ht i _ => h i t ht

/-- Of a fold over the indices of a unit, what is seen of index q alone is what its own turn makes of it, in a state that the
other turns may have changed otherwise. -/
theorem overFin_at {α : Type} {n : Nat} {f : Fin n → State → State} {I : State → Prop} {g : State → α} (q : Fin n)
    (hI : ∀ i s, I s → I (f i s)) (hg : ∀ i s, I s → i ≠ q → g (f i s) = g s) {s : State} (hs : I s) :
    ∃ u, I u ∧ g u = g s ∧ g (overFin n f s) = g (f q u) := by
  have keep : ∀ (l : List (Fin n)), q ∉ l → ∀ t, I t →
      I (l.foldl (fun t i => f i t) t) ∧ g (l.foldl (fun t i => f i t) t) = g t := by
    intro l hq t ht
    induction l generalizing t with
    | nil => exact ⟨ht, rfl⟩
    | cons i l ih =>
      obtain ⟨hne, hq⟩ := not_or.1 (mt List.mem_cons.2 hq)
      obtain ⟨h1, h2⟩ := ih hq (f i t) (hI i t ht)
      exact ⟨h1, h2.trans (hg i t ht fun e => hne e.symm)⟩
  obtain ⟨l1, l2, hl⟩ := List.append_of_mem (List.mem_finRange q)
  have hnd := hl ▸ List.nodup_finRange n
  obtain ⟨-, hnd2, hdis⟩ := List.nodup_append.1 hnd
  have hq1 : q ∉ l1 := fun h => hdis q h q (List.mem_cons_self ..) rfl
  obtain ⟨h1, h2⟩ := keep l1 hq1 s hs
  obtain ⟨-, h3⟩ := keep l2 (List.nodup_cons.1 hnd2).1 _ (hI q _ h1)
  refine ⟨_, h1, h2, ?_⟩
  rw [overFin, hl, List.foldl_append, List.foldl_cons]
  exact h3

/-- A change of every port by itself. -/
theorem overFin_modPort (f : PortId → Port → Port) (s : State) :
    overFin 36 (fun p s => s.modPort p (f p)) s = { s with ports := (overFin 36 (fun p s => s.modPort p (f p)) s).ports } ∧
    ∀ q, (overFin 36 (fun p s => s.modPort p (f p)) s).port q = f q (s.port q) := by
  refine ⟨overFin_keeps (P := fun t => t = { s with ports := t.ports }) (fun p t ht => ?_) rfl, fun q => ?_⟩
  · have h := congrArg (fun u : State => ({ u with ports := (t.modPort p (f p)).ports } : State)) ht
    exact h
  · obtain ⟨u, -, hu, h⟩ := overFin_at (I := fun _ => True) (g := fun t => t.port q) (f := fun p s => s.modPort p (f p)) q
      (fun _ _ _ => trivial) (fun i t _ hne => State.port_modPort_ne _ _ _ _ hne.symm) (s := s) trivial
    exact h.trans ((State.port_modPort ..).trans (congrArg (f q) hu))

/-! ### The link of a port, apart from its buffers -/

/-- A port without its buffers, credits and turns: its link. -/
def Port.link (x : Port) : Port := { x.flush with lastVc := 0, last0 := 0, last1 := 0 }

theorem Port.link_eq {x y : Port} (h : x.link = y.link) : x.state = y.state ∧ x.waiting = y.waiting ∧ x.attempts = y.attempts ∧
    x.logical = y.logical ∧ x.trains = y.trains := by
  have ht := congrArg Port.trains h
  exact ⟨congrArg (·.state) h, congrArg (·.waiting) h, congrArg (·.attempts) h, congrArg (·.logical) h, ht⟩

@[simp] theorem Port.link_takeCredit (x : Port) (pool : Nat) : (x.takeCredit pool).link = x.link := by
  unfold Port.takeCredit; split <;> rfl
@[simp] theorem Port.link_owe (x : Port) (pool n : Nat) : (x.owe pool n).link = x.link := by
  unfold Port.owe; split <;> rfl
@[simp] theorem Port.link_served (x : Port) (o : OutStroke) : (x.served o).link = x.link := by
  unfold Port.served; dsimp only; split <;> rfl
@[simp] theorem Port.link_payBack (x : Port) : x.payBack.2.link = x.link := by
  unfold Port.payBack; split
  · rfl
  · split
    · rfl
    · split <;> rfl

@[simp] theorem Port.outq_takeCredit (x : Port) (pool : Nat) : (x.takeCredit pool).outq = x.outq := by
  unfold Port.takeCredit; split <;> rfl
@[simp] theorem Port.outq_owe (x : Port) (pool n : Nat) : (x.owe pool n).outq = x.outq := by
  unfold Port.owe; split <;> rfl
@[simp] theorem Port.outq_served (x : Port) (o : OutStroke) : (x.served o).outq = x.outq := by
  unfold Port.served; dsimp only; split <;> rfl
@[simp] theorem Port.outq_payBack (x : Port) : x.payBack.2.outq = x.outq := by
  unfold Port.payBack; split
  · rfl
  · split
    · rfl
    · split <;> rfl

/-! ### What one stroke, and one credit return, change -/

theorem takeFirst_mem {α : Type} {f : α → Bool} {l : List α} {r : α × List α} (h : takeFirst f l = some r) :
    r.1 ∈ l ∧ r.2 ⊆ l := by
  induction l generalizing r with
  | nil => cases h
  | cons x l ih =>
    unfold takeFirst at h
    split at h
    · cases h
      exact ⟨List.mem_cons_self .., List.subset_cons_self ..⟩
    · obtain ⟨r', hr, rfl⟩ := Option.map_eq_some_iff.1 h
      obtain ⟨h1, h2⟩ := ih hr
      exact ⟨List.mem_cons_of_mem _ h1, List.cons_subset_cons _ h2⟩

theorem nextOf_mem {s : State} {x : Port} {vc : Nat} {r : OutStroke × List OutStroke} (h : s.nextOf x vc = some r) :
    r.1 ∈ x.outq ∧ r.2 ⊆ x.outq := by
  obtain ⟨i, -, h⟩ := List.exists_of_findSome?_eq_some h
  split at h
  next r' hr =>
    split at h
    · obtain rfl := Option.some.inj h
      exact takeFirst_mem hr
    · cases h
  next => cases h

/-- What a port sends next waited there, and so did what still waits. -/
theorem pick_mem {s : State} {x : Port} {r : OutStroke × List OutStroke} (h : s.pick x = some r) : r.1 ∈ x.outq ∧ r.2 ⊆ x.outq := by
  unfold State.pick at h
  dsimp only at h
  split at h
  next r' hr =>
    obtain rfl := Option.some.inj h
    exact takeFirst_mem hr
  next =>
    split at h
    next r' hr =>
      obtain rfl := Option.some.inj h
      exact nextOf_mem hr
    next => exact nextOf_mem h

/-- The port that a stroke came over owes its partner a credit. -/
def State.oweSource (s : State) (o : OutStroke) : State :=
  match o.src with
  | some p => s.modPort p fun y => y.owe o.srcPool 1
  | none => s

/-- A stroke that leaves a port waited there; its port keeps its link and some of the others, and its source is owed. -/
theorem sendOne_cases {s t : State} {q : PortId} (h : s.sendOne q = some t) : ∃ o ∈ (s.port q).outq, ∃ y : Port, ∃ e : Output,
    y.link = (s.port q).link ∧ y.outq ⊆ (s.port q).outq ∧ t = ((s.setPort q y).emit e).oweSource o := by
  obtain ⟨⟨o, rest⟩, hp, rfl⟩ := Option.map_eq_some_iff.1 h
  obtain ⟨ho, hr⟩ := pick_mem hp
  refine ⟨o, ho, ((({ s.port q with outq := rest } : Port).takeCredit o.pool).served o).payBack.2, _, ?_, ?_, rfl⟩
  · simp only [Port.link_payBack, Port.link_served, Port.link_takeCredit]; rfl
  · simp only [Port.outq_payBack, Port.outq_served, Port.outq_takeCredit]; exact hr

/-- Returning credits goes on with one idle stroke, or stops. -/
theorem returnCredits_succ (q : PortId) (n : Nat) (s : State) : State.returnCredits q (n + 1) s = s ∨
    ¬ (s.port q).owesNothing ∧ ∃ e, State.returnCredits q (n + 1) s =
      State.returnCredits q n ((s.setPort q (s.port q).payBack.2).emit e) := by
  by_cases h : (s.port q).owedVc0 + (s.port q).owedVc1 + (s.port q).owedMgmt = 0 ∨
      ((s.port q).state ≠ .upData ∧ (s.port q).state ≠ .upMgmt)
  · exact .inl (if_pos h)
  · exact .inr ⟨fun ⟨h0, h1, h2⟩ => h (.inl (by omega)), _, if_neg h⟩

/-- What every stroke that leaves and every credit return keeps, pumping all ports keeps. -/
theorem pumpAll_keeps {P : State → Prop} (hsend : ∀ s t q, s.sendOne q = some t → P s → P t)
    (hret : ∀ s q e, ¬ (s.port q).owesNothing → P s → P ((s.setPort q (s.port q).payBack.2).emit e)) {s : State} (hs : P s) :
    P s.pumpAll := by
  have hdrain : ∀ q n s, P s → P (State.drainPort q n s) := by
    intro q n
    induction n with
    | zero => exact fun s h => h
    | succ n ih =>
      intro s h
      unfold State.drainPort
      split
      next t ht => exact ih t (hsend s t q ht h)
      next => exact h
  have hpay : ∀ q n s, P s → P (State.returnCredits q n s) := by
    intro q n
    induction n with
    | zero => exact fun s h => h
    | succ n ih =>
      intro s h
      obtain hr | ⟨hn, e, hr⟩ := returnCredits_succ q n s
      · rwa [hr]
      · rw [hr]
        exact ih _ (hret s q e hn h)
  unfold State.pumpAll State.payAll
  exact overFin_keeps (fun p t ht => hpay p 3 t ht) (overFin_keeps (fun q t ht => hdrain q _ t ht) hs)

/-! ### Links stay as they are -/

/-- Nothing but the ports and the outputs differs. -/
def State.SameChip (s t : State) : Prop := t = { s with ports := t.ports, out := t.out }

theorem State.SameChip.trans {s t u : State} (h : s.SameChip t) (h' : t.SameChip u) : s.SameChip u := by
  have := congrArg (fun x : State => ({ x with ports := u.ports, out := u.out } : State)) h
  exact Eq.trans h' this

theorem State.SameChip.fabric {s t : State} (h : s.SameChip t) : t.fabric = s.fabric := by
  have e := congrArg State.fabric h
  exact e

theorem State.SameChip.cfg {s t : State} (h : s.SameChip t) : t.cfg = s.cfg := by
  have e := congrArg State.cfg h
  exact e

theorem State.SameChip.power {s t : State} (h : s.SameChip t) : t.power = s.power := by
  have e := congrArg State.power h
  exact e

theorem setPort_sameChip (s : State) (q : PortId) (y : Port) : s.SameChip (s.setPort q y) := rfl

/-- Nor do the links of the ports. -/
def State.SameLinks (s t : State) : Prop := s.SameChip t ∧ ∀ q, (t.port q).link = (s.port q).link

theorem State.SameLinks.refl (s : State) : s.SameLinks s := ⟨rfl, fun _ => rfl⟩
theorem State.SameLinks.trans {s t u : State} (h : s.SameLinks t) (h' : t.SameLinks u) : s.SameLinks u :=
  ⟨h.1.trans h'.1, fun q => (h'.2 q).trans (h.2 q)⟩

theorem setPort_sameLinks {s : State} {q : PortId} {y : Port} (h : y.link = (s.port q).link) : s.SameLinks (s.setPort q y) := by
  refine ⟨rfl, fun r => ?_⟩
  by_cases hr : r = q
  · subst hr
    rw [State.port_setPort, h]
  · rw [State.port_setPort_ne _ _ _ _ hr]

theorem modPort_sameLinks {s : State} {q : PortId} {f : Port → Port} (h : (f (s.port q)).link = (s.port q).link) :
    s.SameLinks (s.modPort q f) := setPort_sameLinks h

theorem emit_sameLinks (s : State) (e : Output) : s.SameLinks (s.emit e) := ⟨rfl, fun _ => rfl⟩

theorem oweSource_sameLinks (s : State) (o : OutStroke) : s.SameLinks (s.oweSource o) := by
  unfold State.oweSource
  split
  · exact modPort_sameLinks (Port.link_owe ..)
  · exact .refl s

theorem sendOne_sameLinks {s t : State} {q : PortId} (h : s.sendOne q = some t) : s.SameLinks t := by
  obtain ⟨o, -, y, e, hy, -, rfl⟩ := sendOne_cases h
  exact ((setPort_sameLinks hy).trans (emit_sameLinks _ e)).trans (oweSource_sameLinks _ o)

theorem pumpAll_sameLinks (s : State) : s.SameLinks s.pumpAll :=
  pumpAll_keeps (P := s.SameLinks) (fun _ _ _ ht h => h.trans (sendOne_sameLinks ht))
    (fun _ _ e _ h => (h.trans (setPort_sameLinks (Port.link_payBack _))).trans (emit_sameLinks _ e)) (.refl s)

/-! ### Flushing a port (R375) -/

/-- Port p without its buffers, and the others without the strokes that came over it. -/
def State.cleared (s : State) (p : PortId) : State :=
  overFin 36 (fun q s => s.modPort q fun x => if q = p then x.flush else x.without p) s

/-- The input port of a stroke that was bound for the link of p has its credit back. -/
def State.oweGone (p : PortId) (s : State) (o : OutStroke) : State :=
  match o.src with
  | some r => if r = p then s else s.modPort r fun y => y.owe o.srcPool 1
  | none => s

theorem flushPort_eq (s : State) (p : PortId) :
    s.flushPort p = ((s.port p).outq.foldl (State.oweGone p) (s.cleared p)).pumpAll := rfl

theorem cleared_port (s : State) (p q : PortId) : (s.cleared p).port q = if q = p then (s.port q).flush else (s.port q).without p :=
  (overFin_modPort (fun q x => if q = p then x.flush else x.without p) s).2 q

theorem cleared_sameLinks (s : State) (p : PortId) : s.SameLinks (s.cleared p) := by
  refine ⟨?_, fun q => ?_⟩
  · have h : s.cleared p = { s with ports := (s.cleared p).ports } :=
      (overFin_modPort (fun q x => if q = p then x.flush else x.without p) s).1
    have hout := congrArg State.out h
    rw [State.SameChip, hout]
    exact h
  · rw [cleared_port]
    split <;> rfl

theorem oweGone_sameLinks (p : PortId) (s : State) (o : OutStroke) : s.SameLinks (s.oweGone p o) := by
  unfold State.oweGone
  split
  · split
    · exact .refl s
    · exact modPort_sameLinks (Port.link_owe ..)
  · exact .refl s

theorem flushPort_sameLinks (s : State) (p : PortId) : s.SameLinks (s.flushPort p) := by
  have h : s.SameLinks ((s.port p).outq.foldl (State.oweGone p) (s.cleared p)) :=
    List.foldlRecOn _ _ (cleared_sameLinks s p) fun t ht o _ => ht.trans (oweGone_sameLinks p t o)
  rw [flushPort_eq]
  exact h.trans (pumpAll_sameLinks _)

/-- Port p is as x says, and no stroke that came over it waits at any port. -/
def State.CutOff (s : State) (p : PortId) (x : Port) : Prop := s.port p = x ∧ ∀ q, ∀ o ∈ (s.port q).outq, o.src ≠ some p

section
variable {s : State} {p : PortId} {x : Port} (h : s.CutOff p x)
include h

theorem State.CutOff.setPort {q : PortId} {y : Port} (hq : q ≠ p) (hy : y.outq ⊆ (s.port q).outq) : (s.setPort q y).CutOff p x := by
  obtain ⟨hp, hs⟩ := h
  refine ⟨(State.port_setPort_ne _ _ _ _ hq.symm).trans hp, fun r o ho => ?_⟩
  by_cases hr : r = q
  · subst hr
    rw [State.port_setPort] at ho
    exact hs r o (hy ho)
  · rw [State.port_setPort_ne _ _ _ _ hr] at ho
    exact hs r o ho

theorem State.CutOff.owe {q : PortId} (hq : q ≠ p) (pool n : Nat) : (s.modPort q fun y => y.owe pool n).CutOff p x :=
  h.setPort hq (by rw [Port.outq_owe]; exact List.Subset.refl _)

theorem State.CutOff.oweGone (o : OutStroke) : (s.oweGone p o).CutOff p x := by
  unfold State.oweGone
  split
  · split
    · exact h
    next hr => exact h.owe hr _ _
  · exact h

theorem State.CutOff.oweSource {o : OutStroke} (ho : o.src ≠ some p) : (s.oweSource o).CutOff p x := by
  unfold State.oweSource
  split
  next r hr => exact h.owe (fun e => ho (by rw [hr, e])) _ _
  next => exact h

/-- A port without strokes and debts stays so while the others send theirs and return their credits. -/
theorem State.CutOff.pumpAll (hx : x.outq = []) (hx' : x.owesNothing) : s.pumpAll.CutOff p x := by
  refine pumpAll_keeps (P := fun t => t.CutOff p x) (fun s t q ht hs => ?_) (fun s q e hn hs => ?_) h
  · obtain ⟨o, ho, y, e, -, hy, rfl⟩ := sendOne_cases ht
    have hq : q ≠ p := by
      rintro rfl
      rw [hs.1, hx] at ho
      cases ho
    have hset : ((s.setPort q y).emit e).CutOff p x := hs.setPort hq hy
    exact hset.oweSource (hs.2 q o ho)
  · have hq : q ≠ p := by
      rintro rfl
      exact hn (hs.1 ▸ hx')
    exact hs.setPort hq (by rw [Port.outq_payBack]; exact List.Subset.refl _)
end

theorem cleared_cutOff (s : State) (p : PortId) : (s.cleared p).CutOff p (s.port p).flush := by
  refine ⟨(cleared_port s p p).trans (if_pos rfl), fun q o ho => ?_⟩
  rw [cleared_port] at ho
  split at ho
  · cases ho
  · simpa using (List.mem_filter.1 ho).2

/-- A flushed port has no buffers left, and no stroke that came over it waits elsewhere. -/
theorem flushPort_cutOff (s : State) (p : PortId) : (s.flushPort p).CutOff p (s.port p).flush := by
  have h : State.CutOff ((s.port p).outq.foldl (State.oweGone p) (s.cleared p)) p (s.port p).flush :=
    List.foldlRecOn (motive := fun t => State.CutOff t p (s.port p).flush) _ _ (cleared_cutOff s p) fun t ht o _ =>
      ht.oweGone o
  rw [flushPort_eq]
  exact h.pumpAll rfl ⟨rfl, rfl, rfl⟩

end Sys2Proof.Machine
end

section
/-! ## Attempts, START and STOP of the fabric (R20, R369, R375, R376, R509) -/

namespace Sys2Proof.Machine

theorem slotsUsed_congr {s t : State} (h : s.SameLinks t) (die : Nat) : t.slotsUsed die = s.slotsUsed die := by
  have hslot : ∀ q, (t.port q).inSlot = (s.port q).inSlot := fun q => by
    obtain ⟨hst, -⟩ := Port.link_eq (h.2 q)
    simp only [Port.inSlot, hst]
  simp only [State.slotsUsed, hslot]

/-- A port may begin an attempt: its die is powered, training is permitted and a slot is free (R369, R496, R509). -/
def State.Room (s : State) (p : PortId) : Prop :=
  s.fabric.permitted = true ∧ s.linkDieOn p.val = true ∧ s.slotsUsed (dieOfPort p.val) < 9

theorem room_congr {s t : State} (h : s.SameLinks t) (p : PortId) : t.Room p ↔ s.Room p := by
  have hf : t.fabric = s.fabric := h.1.fabric
  have hp : t.power = s.power := h.1.power
  simp only [State.Room, State.linkDieOn, hf, hp, slotsUsed_congr h]

theorem flushPort_port (s : State) (p : PortId) : (s.flushPort p).port p = (s.port p).flush := (flushPort_cutOff s p).1

end Sys2Proof.Machine

namespace Sys2Proof.Claims
open Sys2Proof.Machine

/-! ### Attempts -/

section
variable {s : State} {p : PortId}

section
variable (hrun : s.fabric.run = true) (ht : (s.port p).trains = true)
include hrun ht

/-- A port that trains begins an attempt, or pends. -/
theorem beginTraining_of_trains : s.beginTraining p =
    if (s.fabric.permitted && s.linkDieOn p.val && decide (s.slotsUsed (dieOfPort p.val) < 9)) = true then begun s p
    else pended s p := by
  have hl := flushPort_sameLinks s p
  have hf : (s.flushPort p).fabric = s.fabric := hl.1.fabric
  have hp : (s.flushPort p).power = s.power := hl.1.power
  have hport := flushPort_port s p
  have ht' : ((s.port p).flush).trains = true := ht
  have hidle : ¬ (¬ s.fabric.run = true ∨ ¬ (s.port p).flush.trains = true) := fun h => h.elim (· hrun) (· ht')
  unfold State.beginTraining begun pended
  dsimp only
  rw [hport, hf, if_neg hidle]
  simp only [State.linkDieOn, hp, slotsUsed_congr hl]
  rfl

theorem beginTraining_room (h : s.Room p) : s.beginTraining p = begun s p := by
  obtain ⟨h1, h2, h3⟩ := h
  rw [beginTraining_of_trains hrun ht, if_pos (by rw [h1, h2, decide_eq_true h3]; rfl)]

theorem beginTraining_noRoom (h : ¬ s.Room p) : s.beginTraining p = pended s p := by
  rw [beginTraining_of_trains hrun ht, if_neg]
  simp only [Bool.and_eq_true, decide_eq_true_eq, and_assoc]
  exact h
end

/-- A port that does not train is idle. -/
theorem beginTraining_idle (h : ¬ ((s.port p).trains = true)) : s.beginTraining p =
    (s.flushPort p).setPort p { (s.flushPort p).port p with state := .idle, waiting := false } := by
  have h' : ¬ (((s.flushPort p).port p).trains = true) := by rw [flushPort_port]; exact h
  unfold State.beginTraining
  dsimp only
  rw [if_pos (.inr h')]

/-- An attempt is the port's own: the flush, and the port set. -/
theorem beginTraining_setPort : ∃ y, s.beginTraining p = (s.flushPort p).setPort p y := by
  unfold State.beginTraining
  dsimp only
  split
  · exact ⟨_, rfl⟩
  · split <;> exact ⟨_, rfl⟩

theorem beginTraining_sameChip (s : State) (p : PortId) : s.SameChip (s.beginTraining p) := by
  obtain ⟨y, hy⟩ := beginTraining_setPort (s := s) (p := p)
  rw [hy]
  exact (flushPort_sameLinks s p).1.trans (setPort_sameChip ..)

theorem beginTraining_other {q : PortId} (h : q ≠ p) : ((s.beginTraining p).port q).link = (s.port q).link := by
  obtain ⟨y, hy⟩ := beginTraining_setPort (s := s) (p := p)
  rw [hy, State.port_setPort_ne _ _ _ _ h]
  exact (flushPort_sameLinks s p).2 q

/-- What an attempt makes of its port's link. -/
def Attempted (x y : Port) : Prop :=
  y.attempts = x.attempts ∧ y.logical = x.logical ∧ (x.trains = true → y.state = .equalise ∨ y.waiting = true) ∧
    (x.trains = false → y.state = .idle ∧ y.waiting = false)

theorem beginTraining_attempted (hrun : s.fabric.run = true) : Attempted (s.port p) ((s.beginTraining p).port p) := by
  cases ht : (s.port p).trains with
  | false =>
    rw [beginTraining_idle (Bool.eq_false_iff.1 ht), State.port_setPort, flushPort_port]
    exact ⟨rfl, rfl, fun h => absurd (ht.symm.trans h) (by decide), fun _ => ⟨rfl, rfl⟩⟩
  | true =>
    have hno : (s.port p).trains ≠ false := by rw [ht]; decide
    by_cases h : s.Room p
    · rw [beginTraining_room hrun ht h, begun, State.port_setPort, flushPort_port]
      exact ⟨rfl, rfl, fun _ => .inl rfl, fun h => absurd h hno⟩
    · rw [beginTraining_noRoom hrun ht h, pended, State.port_setPort, flushPort_port]
      exact ⟨rfl, rfl, fun _ => .inr rfl, fun h => absurd h hno⟩

/-- The link alone decides what is attempted. -/
theorem Attempted.congr {x x' y y' : Port} (h : Attempted x y) (hx : x.link = x'.link) (hy : y'.link = y.link) : Attempted x' y' := by
  obtain ⟨-, -, ha, hl, ht⟩ := Port.link_eq hx
  obtain ⟨hs', hw', ha', hl', -⟩ := Port.link_eq hy
  rwa [Attempted, ← ha, ← hl, ← ht, hs', hw', ha', hl']

end

/-! ### RETRAIN, loss of signal, back-off and slots (R369, R375) -/

/-- A port as a retrain request leaves it before the attempt. -/
def refreshed (s : State) (p : PortId) : State := s.modPort p fun x => { x with attempts := 0, waiting := false }

theorem refreshed_port (s : State) (p : PortId) : (refreshed s p).port p = { s.port p with attempts := 0, waiting := false } :=
  State.port_modPort ..

theorem refreshed_slotsUsed (s : State) (p : PortId) (die : Nat) : (refreshed s p).slotsUsed die = s.slotsUsed die := by
  have hslot : ∀ q, ((refreshed s p).port q).inSlot = (s.port q).inSlot := fun q => by
    by_cases h : q = p
    · subst h
      rw [refreshed_port]; rfl
    · rw [refreshed, State.port_modPort_ne _ _ _ _ h]
  simp only [State.slotsUsed, hslot]

theorem refreshed_room (s : State) (p : PortId) : (refreshed s p).Room p ↔ s.Room p := by
  rw [State.Room, refreshed_slotsUsed]; rfl

theorem retrain_trains {s : State} {p : PortId} (hrun : s.fabric.run = true) (ht : (s.port p).trains = true) :
    s.retrain p = (refreshed s p).beginTraining p := if_pos ⟨hrun, ht⟩

theorem retrain_ignored {s : State} {p : PortId} (h : ¬ (s.fabric.run = true ∧ (s.port p).trains = true)) : s.retrain p = s := if_neg h

/-- RETRAIN of a port that trains: an attempt with ATTEMPTS at 0. -/
theorem exec_retrain {s : State} {p : PortId} (hrun : s.fabric.run = true) (ht : (s.port p).trains = true) :
    (s.Room p → exec (.retrain p) s = .next (begun (refreshed s p) p)) ∧
    (¬ s.Room p → exec (.retrain p) s = .next (pended (refreshed s p) p)) := by
  have hrun' : (refreshed s p).fabric.run = true := hrun
  have ht' : ((refreshed s p).port p).trains = true := by rw [refreshed_port]; exact ht
  refine ⟨fun h => congrArg Host.Outcome.next ?_, fun h => congrArg Host.Outcome.next ?_⟩
  · exact (retrain_trains hrun ht).trans (beginTraining_room hrun' ht' ((refreshed_room s p).2 h))
  · exact (retrain_trains hrun ht).trans (beginTraining_noRoom hrun' ht' (mt (refreshed_room s p).1 h))

/-- The first index that passes a test. -/
theorem find?_finRange {n : Nat} {f : Fin n → Bool} {p : Fin n} (hp : f p = true) (h : ∀ q < p, f q = false) :
    (List.finRange n).find? f = some p := by
  refine List.find?_eq_some_iff_getElem.2 ⟨hp, p.val, by simp, by simp, fun j hj => ?_⟩
  have := h ⟨j, Nat.lt_trans hj p.isLt⟩ hj
  simp [this]

/-- A command that begins an attempt, by whether there is room for it. -/
theorem next_beginTraining {s : State} {p : PortId} {i : Instr} (hrun : s.fabric.run = true) (ht : (s.port p).trains = true)
    (hi : exec i s = .next (s.beginTraining p)) :
    (s.Room p → exec i s = .next (begun s p)) ∧ (¬ s.Room p → exec i s = .next (pended s p)) := by
  rw [hi]
  exact ⟨fun h => congrArg _ (beginTraining_room hrun ht h), fun h => congrArg _ (beginTraining_noRoom hrun ht h)⟩

theorem exec_lossOfSignal {s : State} {p : PortId} (h : Up s p) : exec (.lossOfSignal p) s = .next (s.beginTraining p) :=
  congrArg Host.Outcome.next (if_pos h)

theorem exec_backOff {s : State} {p : PortId} (h : (s.port p).state = .backOff) (hw : (s.port p).waiting = false) :
    exec (.backOff p) s = .next (s.beginTraining p) :=
  congrArg Host.Outcome.next (if_pos ⟨h, Bool.eq_false_iff.1 hw⟩)

/-- The lowest pending port of a die receives the slot. -/
theorem exec_trainingSlot {s : State} {p : PortId} (hw : (s.port p).waiting = true)
    (h : ∀ q, q < p → dieOfPort q.val = dieOfPort p.val → (s.port q).waiting = false) :
    exec (.trainingSlot p) s = .next (s.beginTraining p) := by
  have hfirst : (List.finRange 36).find? (fun q => dieOfPort q.val == dieOfPort p.val && (s.port q).waiting) = some p := by
    refine find?_finRange (by rw [hw, beq_self_eq_true]; rfl) fun q hq => ?_
    by_cases hd : dieOfPort q.val = dieOfPort p.val
    · rw [h q hq hd, Bool.and_false]
    · rw [beq_eq_false_iff_ne.2 hd, Bool.false_and]
  exact congrArg Host.Outcome.next (if_pos ⟨hw, hfirst⟩)

/-! ### RETRAIN_ALL, START and STOP (R376) -/

theorem retrain_sameChip (s : State) (p : PortId) : s.SameChip (s.retrain p) := by
  unfold State.retrain
  split
  · exact (setPort_sameChip s p _).trans (beginTraining_sameChip _ p)
  · rfl

theorem retrain_other {s : State} {p q : PortId} (h : q ≠ p) : ((s.retrain p).port q).link = (s.port q).link := by
  unfold State.retrain
  split
  · rw [beginTraining_other h, State.port_modPort_ne _ _ _ _ h]
  · rfl

/-- What a retrain request makes of its port. -/
theorem retrain_port {s : State} {q : PortId} (hrun : s.fabric.run = true) :
    ((s.port q).trains = true → ((s.retrain q).port q).attempts = 0 ∧
      (((s.retrain q).port q).state = .equalise ∨ ((s.retrain q).port q).waiting = true)) ∧
    ((s.port q).trains = false → (s.retrain q).port q = s.port q) := by
  refine ⟨fun ht => ?_, fun ht => by rw [retrain_ignored fun h => Bool.eq_false_iff.1 ht h.2]⟩
  rw [retrain_trains hrun ht]
  obtain ⟨ha, -, hs, -⟩ := beginTraining_attempted (s := refreshed s q) (p := q) hrun
  rw [refreshed_port] at ha hs
  exact ⟨ha, hs ht⟩

/-- Each port in its turn, the others' links as they were. -/
theorem retrainAll_port {s : State} (hrun : s.fabric.run = true) (q : PortId) :
    ((s.port q).trains = true → (s.retrainAll.port q).attempts = 0 ∧
      ((s.retrainAll.port q).state = .equalise ∨ (s.retrainAll.port q).waiting = true)) ∧
    ((s.port q).trains = false → (s.retrainAll.port q).attempts = (s.port q).attempts ∧
      (s.retrainAll.port q).state = (s.port q).state ∧ (s.retrainAll.port q).waiting = (s.port q).waiting) := by
  obtain ⟨u, hu, hlink, hq⟩ := overFin_at (I := s.SameChip) (g := fun t => (t.port q).link) (f := fun p s => s.retrain p) q
    (fun p t ht => ht.trans (retrain_sameChip t p)) (fun p t _ hne => retrain_other hne.symm) (s := s) rfl
  obtain ⟨hs, hw, ha, -, ht⟩ := Port.link_eq hlink
  obtain ⟨hs', hw', ha', -, -⟩ := Port.link_eq hq
  obtain ⟨h1, h2⟩ := retrain_port (s := u) (q := q) (by rw [hu.fabric, hrun])
  rw [State.retrainAll, hs', hw', ha', ← hs, ← hw, ← ha, ← ht]
  exact ⟨h1, fun h => by rw [h2 h]; exact ⟨rfl, rfl, rfl⟩⟩

theorem retrainAll_sameChip (s : State) : s.SameChip s.retrainAll :=
  overFin_keeps (P := s.SameChip) (fun p t ht => ht.trans (retrain_sameChip t p)) rfl

theorem retrainAll_stopped {s : State} (h : s.fabric.run = false) : s.retrainAll = s :=
  overFin_id fun _ => retrain_ignored fun hr => Bool.eq_false_iff.1 h hr.1

/-- A membership key that was read since the last START takes effect (R524). -/
def startCfg (c : Cfg) : Cfg :=
  match c.nextKey with
  | none => c
  | some (k, n) => { c with key := k, keyGen := n, nextKey := none, memberNone := k.isNone }

/-- The chip as START leaves it before the ports' attempts, and each port. -/
def started (s : State) : State := { s with cfg := startCfg s.cfg, fabric := { s.fabric with run := true, stopping := false } }
def mapped (p : PortId) (x : Port) : Port :=
  { x with logical := p.val, attempts := 0, cause := .none, waiting := false, state := .idle, identityMode := none }

theorem xhStart_eq {s : State} (h : s.fabric.run = false) : s.xhStart =
    overFin 36 (fun p s => s.beginTraining p) (overFin 36 (fun p s => s.modPort p (mapped p)) (started s)) := by
  unfold State.xhStart
  rw [if_neg (Bool.eq_false_iff.1 h)]
  rfl

/-- START, where the fabric is stopped. -/
theorem xhStart_spec {s : State} (h : s.fabric.run = false) :
    (started s).SameChip s.xhStart ∧ ∀ q, Attempted (mapped q (s.port q)) (s.xhStart.port q) := by
  have hmap := (overFin_modPort mapped (started s)).2
  have hchip : (started s).SameChip (overFin 36 (fun p s => s.modPort p (mapped p)) (started s)) :=
    overFin_keeps (P := (started s).SameChip) (fun p t ht => ht.trans (setPort_sameChip t p _)) rfl
  rw [xhStart_eq h]
  generalize overFin 36 (fun p s => s.modPort p (mapped p)) (started s) = v at hchip hmap ⊢
  refine ⟨hchip.trans (overFin_keeps (P := v.SameChip) (fun p t ht => ht.trans (beginTraining_sameChip t p)) rfl), fun q => ?_⟩
  obtain ⟨u, hu, hlink, hq⟩ := overFin_at (I := v.SameChip) (g := fun t => (t.port q).link) (f := fun p s => s.beginTraining p) q
    (fun p t ht => ht.trans (beginTraining_sameChip t p)) (fun p t _ hne => beginTraining_other hne.symm) (s := v) rfl
  have hrun : u.fabric.run = true := by rw [hu.fabric, hchip.fabric]; rfl
  have := (beginTraining_attempted (p := q) hrun).congr hlink hq
  rwa [hmap] at this

theorem xhDrained_iff (s : State) : s.xhDrained = true ↔ ∀ q, (s.port q).open0 = none ∧ (s.port q).open1 = none := by
  simp only [State.xhDrained, List.all_eq_true, Vector.mem_toList_iff, Bool.and_eq_true, Option.isNone_iff_eq_none]
  refine ⟨fun h q => h _ (Vector.getElem_mem _), fun h x hx => ?_⟩
  obtain ⟨i, hi, rfl⟩ := Vector.mem_iff_getElem.1 hx
  exact h ⟨i, hi⟩

/-- STOP ends with every port idle once the packets begun are finished. -/
theorem exec_xhStopDrained {s : State} (hrun : s.fabric.run = true) (hstop : s.fabric.stopping = true)
    (h : ∀ q, (s.port q).open0 = none ∧ (s.port q).open1 = none) : ∃ t, exec .xhStopDrained s = .next t ∧
      t = { s with fabric := { s.fabric with run := false, stopping := false }, ports := t.ports } ∧
      ∀ q, t.port q = { (s.port q).flush with state := .idle, waiting := false } :=
  ⟨_, if_pos ⟨hrun, hstop, (xhDrained_iff s).2 h⟩, overFin_modPort (fun _ x => { x.flush with state := .idle, waiting := false }) _⟩

theorem xhStopDrained_ignored {s : State}
    (h : s.fabric.run = false ∨ s.fabric.stopping = false ∨ ∃ q, (s.port q).open0 ≠ none ∨ (s.port q).open1 ≠ none) :
    exec .xhStopDrained s = .next s := by
  refine if_neg fun ⟨hrun, hstop, hd⟩ => ?_
  rcases h with h | h | ⟨q, h⟩
  · exact Bool.eq_false_iff.1 h hrun
  · exact Bool.eq_false_iff.1 h hstop
  · exact h.elim (· ((xhDrained_iff s).1 hd q).1) (· ((xhDrained_iff s).1 hd q).2)

/-- Training is permitted from now on (R509). -/
def permitted (s : State) : State := { s with fabric := { s.fabric with permitted := true } }

theorem exec_fabricTrainingPermitted {s : State} (h : (s.boot.booted && s.cfg.applied) = true) : exec .fabricTrainingPermitted s =
    .next (if (permitted s).fabric.run = true then
      overFin 36 (fun p s => if (s.port p).waiting = true then s.beginTraining p else s) (permitted s)
    else (permitted s).xhStart) := if_pos h

/-- Once training is permitted the fabric runs (R20, R509). -/
theorem fabricTrainingPermitted_runs {s : State} (h : (s.boot.booted && s.cfg.applied) = true) :
    ∃ t, exec .fabricTrainingPermitted s = .next t ∧ t.fabric.permitted = true ∧ t.fabric.run = true := by
  refine ⟨_, exec_fabricTrainingPermitted h, ?_⟩
  split
  next hrun =>
    have hchip : (permitted s).SameChip
        (overFin 36 (fun p s => if (s.port p).waiting = true then s.beginTraining p else s) (permitted s)) := by
      refine overFin_keeps (P := (permitted s).SameChip) (fun p t ht => ?_) rfl
      split
      · exact ht.trans (beginTraining_sameChip t p)
      · exact ht
    rw [hchip.fabric]
    exact ⟨rfl, hrun⟩
  next hrun =>
    rw [(xhStart_spec (Bool.eq_false_iff.2 hrun)).1.fabric]
    exact ⟨rfl, rfl⟩

theorem fabricTrainingPermitted_ignored {s : State} (h : s.boot.booted = false ∨ s.cfg.applied = false) :
    exec .fabricTrainingPermitted s = .next s := by
  refine if_neg fun hb => ?_
  rw [Bool.and_eq_true] at hb
  exact h.elim (fun e => Bool.eq_false_iff.1 e hb.1) fun e => Bool.eq_false_iff.1 e hb.2

/-! ### Commands that meet a port or a fabric in another state -/

section
variable {s : State} {p : PortId}

theorem lossOfSignal_ignored (h : ¬ Up s p) : exec (.lossOfSignal p) s = .next s :=
  congrArg Host.Outcome.next (if_neg h)

theorem backOff_ignored (h : (s.port p).state ≠ .backOff ∨ (s.port p).waiting = true) : exec (.backOff p) s = .next s :=
  congrArg Host.Outcome.next (if_neg fun ⟨hb, hw⟩ => h.elim (· hb) hw)

theorem trainingSlot_ignored (h : (s.port p).waiting = false) : exec (.trainingSlot p) s = .next s :=
  congrArg Host.Outcome.next (if_neg fun hw => Bool.eq_false_iff.1 h hw.1)

theorem exec_retrain_ignored (h : s.fabric.run = false ∨ (s.port p).trains = false) : exec (.retrain p) s = .next s :=
  congrArg Host.Outcome.next (retrain_ignored fun hr =>
    h.elim (fun e => Bool.eq_false_iff.1 e hr.1) fun e => Bool.eq_false_iff.1 e hr.2)

theorem xhStart_ignored (h : s.fabric.run = true) : exec .xhStart s = .next s :=
  congrArg Host.Outcome.next (if_pos h)

theorem xhStop_ignored (h : s.tick.run = true ∨ s.fabric.run = false) : exec .xhStop s = .next s :=
  congrArg Host.Outcome.next (if_pos (h.imp id Bool.eq_false_iff.1))

theorem exec_xhStop (ht : s.tick.run = false) (hr : s.fabric.run = true) :
    exec .xhStop s = .next { s with fabric := { s.fabric with stopping := true } } :=
  congrArg Host.Outcome.next (if_neg fun h => h.elim (Bool.eq_false_iff.1 ht) (· hr))
end

/-- START's ports and key, read off what it leaves. -/
theorem exec_xhStart {s : State} (h : s.fabric.run = false) : ∃ t, exec .xhStart s = .next t ∧
    t = { s with cfg := t.cfg, fabric := t.fabric, ports := t.ports, out := t.out } ∧
    t.fabric = { s.fabric with run := true, stopping := false } ∧ t.cfg = startCfg s.cfg ∧
    ∀ q, Attempted (mapped q (s.port q)) (t.port q) := by
  obtain ⟨hchip, hports⟩ := xhStart_spec h
  refine ⟨s.xhStart, rfl, ?_, hchip.fabric, hchip.cfg, hports⟩
  rw [hchip.fabric, hchip.cfg]
  exact hchip

/-! ### The statement -/

/-- Settles O48: an attempt is the flush of its port and the state that the free slots give it; RETRAIN_ALL and START are one
attempt of each port in turn, which leaves the links of the others. -/
theorem fabricControl : Obligations.FabricControl := by
  intro s p room fresh
  refine ⟨⟨flushPort_port s p, fun q _ => (flushPort_cutOff s p).2 q⟩, fun hrun ht => ?_, lossOfSignal_ignored, backOff_ignored,
    trainingSlot_ignored, exec_retrain_ignored, fun h => congrArg Host.Outcome.next (retrainAll_stopped h),
    fun hrun => ⟨s.retrainAll, rfl, retrainAll_sameChip s, retrainAll_port hrun⟩, xhStart_ignored, fun hrun => ?_,
    fabricTrainingPermitted_ignored, fun hb ha => fabricTrainingPermitted_runs (by rw [hb, ha]; rfl), xhStop_ignored, exec_xhStop,
    xhStopDrained_ignored, exec_xhStopDrained⟩
  · obtain ⟨hroom, hnone⟩ := exec_retrain hrun ht
    exact ⟨hroom, hnone, fun hup => next_beginTraining hrun ht (exec_lossOfSignal hup),
      fun hb hw => next_beginTraining hrun ht (exec_backOff hb hw),
      fun hw hfirst => next_beginTraining hrun ht (exec_trainingSlot hw hfirst)⟩
  · obtain ⟨t, ht, hchip, hfabric, hcfg, hports⟩ := exec_xhStart hrun
    refine ⟨t, ht, hchip, hfabric, fun hk => ?_, fun k n hk => ?_, fun q => ?_⟩
    · rw [hcfg, startCfg, hk]
    · rw [hcfg, startCfg, hk]
    · obtain ⟨ha, hl, htrains, hidle⟩ := hports q
      exact ⟨hl, ha, htrains, hidle⟩

end Sys2Proof.Claims
end

section
/-! ## Codes and values of the number formats (R93 to R96) -/

namespace Sys2Proof.Machine
open Sys2Proof.Claims (scaled)

/-- What the formats of R93 and R138 have in common: a mantissa, a normal number, and the magnitude codes in the order
finite values first, then infinity and the canonical NaN. -/
structure FFmt.Regular (f : FFmt) : Prop where
  mbits_pos : 0 < f.mbits
  normal_le : 2 ^ f.mbits ≤ f.maxCode
  max_lt : f.maxCode < 2 ^ (f.ebits + f.mbits)
  inf_mem : ∀ c ∈ f.infCode, f.maxCode < c ∧ c < 2 ^ (f.ebits + f.mbits) ∧ c ≠ f.nanCode
  max_lt_nan : f.maxCode < f.nanCode
  nan_lt : f.nanCode < 2 ^ (f.ebits + f.mbits)

theorem FFmt.regular_of_mem : ∀ f ∈ [fp32, bf16, e4m3, e5m2, e40f], f.Regular := by
  simp only [List.forall_mem_cons, List.not_mem_nil, false_implies, implies_true, and_true]
  refine ⟨?_, ?_, ?_, ?_, ?_⟩ <;> constructor <;> decide

/-! ### The grid: each magnitude code is a significand at a place -/

/-- The place of a magnitude code: its significand counts units of 2^(qmin + place). The subnormals share place 0 with the
lowest binade. -/
def FFmt.place (f : FFmt) (c : Nat) : Nat := c / 2 ^ f.mbits - 1

/-- The significand of a magnitude code, with the leading bit of a normal number. -/
def FFmt.sig (f : FFmt) (c : Nat) : Nat := c - f.place c * 2 ^ f.mbits

/-- The value of a magnitude code in units of 2^qmin. -/
def FFmt.gridValue (f : FFmt) (c : Nat) : Nat := f.sig c * 2 ^ f.place c

section
variable (f : FFmt) (c : Nat)

theorem FFmt.place_mul_add_sig : f.place c * 2 ^ f.mbits + f.sig c = c := by
  have h : f.place c * 2 ^ f.mbits ≤ c :=
    Nat.le_trans (Nat.mul_le_mul_right _ (Nat.sub_le _ 1)) (Nat.div_mul_le_self c _)
  exact Nat.add_sub_cancel' h

/-- The significand is the mantissa field, with the leading bit of a normal number added. -/
theorem FFmt.sig_eq : f.sig c = if c / 2 ^ f.mbits = 0 then c % 2 ^ f.mbits else c % 2 ^ f.mbits + 2 ^ f.mbits := by
  have hc : c / 2 ^ f.mbits * 2 ^ f.mbits + c % 2 ^ f.mbits = c := by rw [Nat.mul_comm]; exact Nat.div_add_mod c _
  unfold FFmt.sig FFmt.place
  generalize c / 2 ^ f.mbits = d at *
  cases d with
  | zero => rw [if_pos rfl]; omega
  | succ d => rw [Nat.succ_mul] at hc; rw [if_neg (Nat.succ_ne_zero d), Nat.add_sub_cancel]; omega

theorem FFmt.sig_lt : f.sig c < 2 ^ (f.mbits + 1) := by
  have hm := Nat.mod_lt c (Nat.two_pow_pos f.mbits)
  rw [f.sig_eq c, Nat.pow_succ']
  split <;> omega

theorem FFmt.le_sig (h : f.place c ≠ 0) : 2 ^ f.mbits ≤ f.sig c := by
  have hd : c / 2 ^ f.mbits ≠ 0 := fun h0 => h (by rw [FFmt.place, h0])
  rw [f.sig_eq c, if_neg hd]
  exact Nat.le_add_left _ _

variable {c}
theorem FFmt.place_mono {c' : Nat} (h : c ≤ c') : f.place c ≤ f.place c' :=
  Nat.sub_le_sub_right (Nat.div_le_div_right h) 1
end

/-- The code of significand a at place p, where a may also be the first value of the next binade. -/
theorem FFmt.gridValue_add (f : FFmt) {p a : Nat} (hlo : p ≠ 0 → 2 ^ f.mbits ≤ a) (hhi : a ≤ 2 ^ (f.mbits + 1)) :
    f.gridValue (p * 2 ^ f.mbits + a) = a * 2 ^ p := by
  rw [Nat.pow_succ'] at hhi
  have hpos := Nat.two_pow_pos f.mbits
  have hdiv : (p * 2 ^ f.mbits + a) / 2 ^ f.mbits = p + a / 2 ^ f.mbits := by
    rw [Nat.add_comm, Nat.add_mul_div_right _ _ hpos, Nat.add_comm]
  rcases Nat.lt_or_eq_of_le hhi with hlt | heq
  · have hplace : f.place (p * 2 ^ f.mbits + a) = p := by
      have h2 : a / 2 ^ f.mbits < 2 := (Nat.div_lt_iff_lt_mul hpos).2 hlt
      have h1 : p ≠ 0 → 1 ≤ a / 2 ^ f.mbits := fun h => (Nat.le_div_iff_mul_le hpos).2 (by rw [Nat.one_mul]; exact hlo h)
      unfold FFmt.place
      omega
    simp only [FFmt.gridValue, FFmt.sig, hplace, Nat.add_sub_cancel_left]
  · have hplace : f.place (p * 2 ^ f.mbits + a) = p + 1 := by
      rw [FFmt.place, hdiv, heq, Nat.mul_div_cancel _ hpos]
      rfl
    have hsig : p * 2 ^ f.mbits + a - (p + 1) * 2 ^ f.mbits = 2 ^ f.mbits := by
      rw [Nat.succ_mul, heq]; omega
    rw [FFmt.gridValue, FFmt.sig, hplace, hsig, heq, Nat.pow_succ, Nat.mul_comm 2, Nat.mul_assoc, Nat.mul_comm 2]

/-- A value at a lower place lies below the binade of p. -/
theorem FFmt.gridValue_mul_lt (f : FFmt) {c p : Nat} (w : Nat) (h : f.place c < p) :
    f.gridValue c * 2 ^ w < 2 ^ f.mbits * 2 ^ (w + p) :=
  calc f.gridValue c * 2 ^ w < 2 ^ (f.mbits + 1) * 2 ^ f.place c * 2 ^ w :=
        Nat.mul_lt_mul_of_pos_right (Nat.mul_lt_mul_of_pos_right (f.sig_lt c) (Nat.two_pow_pos _)) (Nat.two_pow_pos _)
    _ = 2 ^ (f.mbits + 1 + f.place c + w) := by rw [← Nat.pow_add, ← Nat.pow_add]
    _ ≤ 2 ^ (f.mbits + (w + p)) := Nat.pow_le_pow_right Nat.two_pos (by omega)
    _ = 2 ^ f.mbits * 2 ^ (w + p) := Nat.pow_add ..

/-! ### Signs and codes -/

/-- A magnitude under a sign. -/
def withSign (neg : Bool) (x : Int) : Int := if neg then -x else x

theorem withSign_eq_zero {neg : Bool} {x : Int} : withSign neg x = 0 ↔ x = 0 := by
  cases neg <;> simp only [withSign, if_true, if_false, Bool.false_eq_true, Int.neg_eq_zero]

@[simp] theorem natAbs_withSign (neg : Bool) (x : Int) : (withSign neg x).natAbs = x.natAbs := by
  cases neg
  · rfl
  · exact Int.natAbs_neg x

theorem withSign_mul (neg : Bool) (x y : Int) : withSign neg x * y = withSign neg (x * y) := by
  cases neg
  · rfl
  · exact Int.neg_mul x y

theorem withSign_lt_zero {neg : Bool} {m : Nat} (h : m ≠ 0) : decide (withSign neg m < 0) = neg := by
  cases neg
  · exact decide_eq_false (by rw [withSign, if_neg Bool.false_ne_true]; omega)
  · exact decide_eq_true (by rw [withSign, if_pos rfl]; omega)

theorem withSign_natAbs (n : Int) : withSign (decide (n < 0)) n.natAbs = n := by
  simp only [withSign, decide_eq_true_eq]
  split <;> omega

theorem withSign_le (neg : Bool) (x : Nat) : withSign neg x ≤ x := by
  cases neg <;> simp only [withSign, if_true, if_false, Bool.false_eq_true] <;> omega

/-- A distance depends on whether the signs differ, not on which sign is which. -/
theorem natAbs_withSign_sub (a b : Bool) (x y : Int) :
    (withSign a x - withSign b y).natAbs = (x - withSign (a != b) y).natAbs := by
  cases a <;> cases b <;> simp only [withSign, bne_self_eq_false, Bool.false_bne, Bool.bne_false, if_true, if_false,
    Bool.false_eq_true] <;> omega

/-- Every code is a sign bit and a magnitude code. -/
theorem FFmt.exists_signBit_add (f : FFmt) {code : Nat} (h : code < 2 ^ f.width) :
    ∃ neg c, c < 2 ^ (f.ebits + f.mbits) ∧ code = f.signBit neg + c := by
  have hw : 2 ^ f.width = 2 * 2 ^ (f.ebits + f.mbits) := by
    rw [FFmt.width, Nat.add_assoc, Nat.add_comm, Nat.pow_succ, Nat.mul_comm]
  by_cases hc : code < 2 ^ (f.ebits + f.mbits)
  · exact ⟨false, code, hc, (Nat.zero_add code).symm⟩
  · exact ⟨true, code - 2 ^ (f.ebits + f.mbits), by omega, by rw [FFmt.signBit, if_pos rfl]; omega⟩

/-- Decoding of a sign bit and a magnitude code, by the three kinds of magnitude code. -/
theorem FFmt.decode_signBit_add (f : FFmt) {neg : Bool} {c : Nat} (hc : c < 2 ^ (f.ebits + f.mbits)) :
    f.decode (f.signBit neg + c) =
      if f.infCode = some c then .inf neg
      else if f.maxCode < c then .nan
      else Fp.mk neg (withSign neg (f.sig c)) (f.qmin + f.place c) := by
  have hmag : (f.signBit neg + c) % 2 ^ (f.ebits + f.mbits) = c := by
    cases neg
    · rw [FFmt.signBit, if_neg Bool.false_ne_true, Nat.zero_add, Nat.mod_eq_of_lt hc]
    · rw [FFmt.signBit, if_pos rfl, Nat.add_mod_left, Nat.mod_eq_of_lt hc]
  have hneg : decide ((f.signBit neg + c) / 2 ^ (f.ebits + f.mbits) % 2 = 1) = neg := by
    cases neg
    · rw [FFmt.signBit, if_neg Bool.false_ne_true, Nat.zero_add, Nat.div_eq_of_lt hc]; rfl
    · rw [FFmt.signBit, if_pos rfl, Nat.add_div_left _ (Nat.two_pow_pos _), Nat.div_eq_of_lt hc]; rfl
  have hsig : (if c / 2 ^ f.mbits = 0 then ((c % 2 ^ f.mbits : Nat) : Int)
      else ((c % 2 ^ f.mbits + 2 ^ f.mbits : Nat) : Int)) = (f.sig c : Int) := by
    rw [f.sig_eq c]; split <;> rfl
  have hplace : (if c / 2 ^ f.mbits = 0 then (0 : Int) else ((c / 2 ^ f.mbits : Nat) : Int) - 1) = f.place c := by
    unfold FFmt.place
    generalize c / 2 ^ f.mbits = d
    split <;> omega
  unfold FFmt.decode
  simp only [hmag, hneg, hsig, hplace, Fp.mk, withSign_eq_zero]
  rfl

/-- A code that decodes to a finite value is a sign bit and a magnitude code up to the largest finite one. -/
theorem FFmt.exists_of_isFinite (f : FFmt) {code : Nat} (h : code < 2 ^ f.width) (hfin : (f.decode code).isFinite = true) :
    ∃ neg c, c ≤ f.maxCode ∧ code = f.signBit neg + c := by
  obtain ⟨neg, c, hc, rfl⟩ := f.exists_signBit_add h
  refine ⟨neg, c, Nat.not_lt.1 fun hgt => ?_, rfl⟩
  rw [f.decode_signBit_add hc, if_pos hgt] at hfin
  split at hfin <;> exact Bool.false_ne_true hfin

section
variable {f : FFmt} (hf : f.Regular)
include hf

theorem FFmt.Regular.decode_finite {neg : Bool} {c : Nat} (hc : c ≤ f.maxCode) :
    f.decode (f.signBit neg + c) = Fp.mk neg (withSign neg (f.sig c)) (f.qmin + f.place c) := by
  have hinf : f.infCode ≠ some c := fun h => by have := (hf.inf_mem c h).1; omega
  rw [f.decode_signBit_add (Nat.lt_of_le_of_lt hc hf.max_lt), if_neg hinf, if_neg (by omega)]

theorem FFmt.Regular.decode_nanCode : f.decode f.nanCode = .nan := by
  have hinf : f.infCode ≠ some f.nanCode := fun h => (hf.inf_mem _ h).2.2 rfl
  have h := f.decode_signBit_add (neg := false) hf.nan_lt
  rwa [if_neg hinf, if_pos hf.max_lt_nan, FFmt.signBit, if_neg Bool.false_ne_true, Nat.zero_add] at h

/-! ### The place at which a conversion rounds (R96) -/

omit hf in
/-- The place of the grid at which |m * 2^e| is rounded. -/
def FFmt.roundPlace (f : FFmt) (m : Nat) (e : Int) : Nat :=
  min (f.place f.maxCode) (e + (Nat.log2 m : Int) - f.mbits - f.qmin).toNat

theorem FFmt.Regular.roundMag_eq (r : Rnd) {m : Nat} (e : Int) (hm : m ≠ 0) :
    f.roundMag r m e =
      f.roundPlace m e * 2 ^ f.mbits + roundNat r m (e - (f.qmin + f.roundPlace m e)) := by
  have htop : 1 ≤ f.maxCode / 2 ^ f.mbits :=
    (Nat.le_div_iff_mul_le (Nat.two_pow_pos _)).2 (by rw [Nat.one_mul]; exact hf.normal_le)
  have hq : min (f.qmin + ((f.maxCode / 2 ^ f.mbits : Nat) : Int) - 1)
      (max f.qmin (e + (Nat.log2 m : Int) - f.mbits)) = f.qmin + f.roundPlace m e := by
    unfold FFmt.roundPlace FFmt.place; omega
  have hp : (f.qmin + (f.roundPlace m e : Int) - f.qmin).toNat = f.roundPlace m e := by omega
  simp only [FFmt.roundMag, if_neg hm, hq, hp]

end

/-! ### Round to nearest, ties to even (R95) -/

theorem roundNat_zero (r : Rnd) (m : Nat) : roundNat r m 0 = m := by
  have hsh : shiftParts m 0 = (m, 0, 0) := by
    rw [shiftParts, if_pos (Int.le_refl 0)]
    exact congrArg (·, 0, 0) (Nat.mul_one m)
  cases r <;> simp only [roundNat, hsh]
  · exact if_neg (by decide)
  · exact if_neg (Nat.not_lt_zero _)

/-- a units of u are the nearest whole number of units to v, and where a is odd no other is as near. -/
def IsNearest (v u a : Nat) : Prop :=
  2 * (a * u) ≤ 2 * v + u ∧ 2 * v ≤ 2 * (a * u) + u ∧
    (a % 2 = 1 → 2 * (a * u) < 2 * v + u ∧ 2 * v < 2 * (a * u) + u)

theorem isNearest_mul {u : Nat} (a : Nat) (hu : 0 < u) : IsNearest (a * u) u a := by
  unfold IsNearest; omega

theorem IsNearest.mul_right {v u a : Nat} (h : IsNearest v u a) {w : Nat} (hw : 0 < w) :
    IsNearest (v * w) (u * w) a := by
  obtain ⟨hlo, hhi, hodd⟩ := h
  have scale_le : ∀ x y : Nat, x ≤ y → x * w ≤ y * w := fun x y => Nat.mul_le_mul_right w
  have scale_lt : ∀ x y : Nat, x < y → x * w < y * w := fun x y h => Nat.mul_lt_mul_of_pos_right h hw
  have hau : 2 * (a * (u * w)) = 2 * (a * u) * w := by rw [← Nat.mul_assoc a, ← Nat.mul_assoc 2]
  have hv : 2 * (v * w) = 2 * v * w := (Nat.mul_assoc 2 v w).symm
  unfold IsNearest
  rw [hau, hv, ← Nat.add_mul, ← Nat.add_mul]
  exact ⟨scale_le _ _ hlo, scale_le _ _ hhi, fun h => ⟨scale_lt _ _ (hodd h).1, scale_lt _ _ (hodd h).2⟩⟩

/-- A shift to the right rounds to nearest. -/
theorem isNearest_roundNat_neg (m : Nat) {d : Nat} (hd : 0 < d) : IsNearest m (2 ^ d) (roundNat .near m (-d)) := by
  have hdiv : m / 2 ^ d * 2 ^ d + m % 2 ^ d = m := by rw [Nat.mul_comm]; exact Nat.div_add_mod m _
  have hrem : m % 2 ^ d < 2 ^ d := Nat.mod_lt m (Nat.two_pow_pos d)
  have hs : ¬ (-(d : Int) ≥ 0) := by omega
  simp only [roundNat, shiftParts, if_neg hs, Int.neg_neg, Int.toNat_natCast]
  generalize m / 2 ^ d = k at *
  generalize m % 2 ^ d = rem at *
  have hsucc : (k + 1) * 2 ^ d = k * 2 ^ d + 2 ^ d := Nat.succ_mul k _
  unfold IsNearest
  split
  · omega
  · split
    · rcases Nat.mod_two_eq_zero_or_one k with hk | hk <;> simp only [hk, Nat.add_zero] <;> omega
    · omega

theorem isNearest_roundNat (m : Nat) {s : Int} {a b : Nat} (hs : s = a - b) :
    IsNearest (m * 2 ^ a) (2 ^ b) (roundNat .near m s) := by
  rcases Nat.lt_or_ge a b with hab | hab
  · obtain ⟨d, rfl⟩ := Nat.exists_eq_add_of_le (Nat.le_of_lt hab)
    have h := (isNearest_roundNat_neg m (show 0 < d by omega)).mul_right (Nat.two_pow_pos a)
    rwa [← Nat.pow_add, Nat.add_comm d a, show -(d : Int) = s by omega] at h
  · obtain ⟨d, rfl⟩ := Nat.exists_eq_add_of_le hab
    have hr : roundNat .near m s = m * 2 ^ d := by
      have hsd : s = d := by omega
      have h0 : (d : Int) ≥ 0 := Int.natCast_nonneg d
      have hno : ¬ 2 * 0 > 2 ^ 0 := by decide
      simp only [roundNat, shiftParts, hsd, if_pos h0, Int.toNat_natCast, if_neg hno, ne_eq, not_true,
        and_false, if_false]
    rw [hr, Nat.add_comm b d, Nat.pow_add, ← Nat.mul_assoc]
    exact isNearest_mul _ (Nat.two_pow_pos b)

section
variable {v u a : Nat} (h : IsNearest v u a)
include h

theorem IsNearest.le_of_mul_le {b : Nat} (hu : 0 < u) (hb : b * u ≤ v) : b ≤ a := by
  refine Nat.not_lt.1 fun hlt => ?_
  have : (a + 1) * u ≤ b * u := Nat.mul_le_mul_right u (by omega)
  rw [Nat.succ_mul] at this
  obtain ⟨-, hhi, -⟩ := h
  omega

theorem IsNearest.le_of_le_mul {b : Nat} (hu : 0 < u) (hb : v ≤ b * u) : a ≤ b := by
  refine Nat.not_lt.1 fun hlt => ?_
  have : (b + 1) * u ≤ a * u := Nat.mul_le_mul_right u (by omega)
  rw [Nat.succ_mul] at this
  obtain ⟨hlo, -, -⟩ := h
  omega
end

/-- No whole number of units is nearer, and another as near leaves an even choice. -/
theorem IsNearest.natAbs_le {v u a : Nat} (h : IsNearest v u a) (j : Int) :
    ((v : Int) - (a * u : Nat)).natAbs ≤ ((v : Int) - j * u).natAbs ∧
      (((v : Int) - (a * u : Nat)).natAbs = ((v : Int) - j * u).natAbs → a % 2 = 0 ∨ j = a) := by
  obtain ⟨hlo, hhi, hodd⟩ := h
  have hau : ((a * u : Nat) : Int) = a * u := Int.natCast_mul a u
  rcases Int.lt_trichotomy j a with hlt | heq | hgt
  · have : (j + 1) * (u : Int) ≤ a * u := Int.mul_le_mul_of_nonneg_right (by omega) (by omega)
    rw [Int.add_mul, Int.one_mul, ← hau] at this
    omega
  · exact ⟨Nat.le_of_eq (by rw [heq, hau]), fun _ => .inr heq⟩
  · have : ((a : Int) + 1) * u ≤ j * u := Int.mul_le_mul_of_nonneg_right (by omega) (by omega)
    rw [Int.add_mul, Int.one_mul, ← hau] at this
    omega

/-- What lies below a multiple of the unit that v reaches is farther than the nearest. -/
theorem IsNearest.natAbs_lt {v u a b : Nat} (h : IsNearest v u a) (hb : b * u ≤ v) {y : Int} (hy : y < (b * u : Nat)) :
    ((v : Int) - (a * u : Nat)).natAbs < ((v : Int) - y).natAbs := by
  have hle := (h.natAbs_le b).1
  rw [← Int.natCast_mul] at hle
  omega

/-! ### Codes encode back to themselves -/

theorem FFmt.encode_withSign (f : FFmt) (r : Rnd) (neg : Bool) {m : Nat} (e : Int) (hm : m ≠ 0)
    (hc : f.roundMag r m e ≤ f.maxCode) :
    f.encode r (.fin (withSign neg m) e) = { code := f.signBit neg + f.roundMag r m e, clamped := false } := by
  simp only [FFmt.encode, natAbs_withSign, Int.natAbs_natCast, withSign_lt_zero hm, if_pos hc]

/-- A finite value that is not clamped converts to its sign bit and its rounded magnitude, a finite code. -/
theorem FFmt.eq_of_encode_unclamped (f : FFmt) {r : Rnd} {n e : Int} {c : Nat}
    (h : f.encode r (.fin n e) = { code := c, clamped := false }) :
    f.roundMag r n.natAbs e ≤ f.maxCode ∧ c = f.signBit (decide (n < 0)) + f.roundMag r n.natAbs e := by
  simp only [FFmt.encode] at h
  split at h
  · exact ⟨‹_›, (congrArg Enc.code h).symm⟩
  · split at h <;> cases congrArg Enc.clamped h

/-- A value of the grid is rounded at its own place. -/
theorem FFmt.roundPlace_sig (f : FFmt) {c : Nat} (hc : c ≤ f.maxCode) (h0 : f.sig c ≠ 0) :
    f.roundPlace (f.sig c) (f.qmin + f.place c) = f.place c := by
  have hle := f.place_mono hc
  have hlog : (f.sig c).log2 < f.mbits + 1 := (Nat.log2_lt h0).2 (f.sig_lt c)
  have hnormal : f.place c ≠ 0 → f.mbits ≤ (f.sig c).log2 := fun h => (Nat.le_log2 h0).2 (f.le_sig c h)
  unfold FFmt.roundPlace
  omega

section
variable {f : FFmt} (hf : f.Regular)
include hf

theorem FFmt.Regular.roundMag_sig (r : Rnd) {c : Nat} (hc : c ≤ f.maxCode) (h0 : f.sig c ≠ 0) :
    f.roundMag r (f.sig c) (f.qmin + f.place c) = c := by
  rw [hf.roundMag_eq r _ h0, f.roundPlace_sig hc h0, Int.sub_self, roundNat_zero, f.place_mul_add_sig]

/-- A code that is no NaN encodes back to itself in either rounding. -/
theorem FFmt.Regular.encode_decode (r : Rnd) {code : Nat} (h : code < 2 ^ f.width) (hnan : f.decode code ≠ .nan) :
    f.encode r (f.decode code) = { code := code, clamped := false } := by
  obtain ⟨neg, c, hlt, rfl⟩ := f.exists_signBit_add h
  by_cases hc : c ≤ f.maxCode
  · rw [hf.decode_finite hc]
    by_cases h0 : f.sig c = 0
    · have hzero : c = 0 := by
        have hp : f.place c = 0 := Decidable.not_not.1 fun hp => by
          have := f.le_sig c hp
          have := Nat.two_pow_pos f.mbits
          omega
        have := f.place_mul_add_sig c
        rwa [hp, h0, Nat.zero_mul, eq_comm] at this
      rw [Fp.mk, if_pos (withSign_eq_zero.2 (congrArg Nat.cast h0)), hzero]
      rfl
    · have hback := hf.roundMag_sig r hc h0
      rw [Fp.mk, if_neg fun h => h0 (Int.natCast_eq_zero.1 (withSign_eq_zero.1 h)),
        f.encode_withSign r neg _ h0 (by rwa [hback]), hback]
  · rw [f.decode_signBit_add hlt, if_pos (Nat.lt_of_not_le hc)] at hnan ⊢
    split at hnan
    · next hinf => rw [if_pos hinf]; simp only [FFmt.encode, hinf]
    · exact absurd rfl hnan

/-! ### Finite values convert to the nearest -/

/-- A value that does not overflow is rounded at some place p: its code's value is a units of p, the nearest to it, and above
place 0 it is not below the binade of p. On a common scale, 2^i stands for 2^e and 2^w for 2^qmin. -/
theorem FFmt.Regular.roundMag_near {m : Nat} {e : Int} {i w : Nat} (hm : m ≠ 0) (hscale : e - f.qmin = i - w)
    (hc : f.roundMag .near m e ≤ f.maxCode) :
    ∃ p a, f.roundMag .near m e = p * 2 ^ f.mbits + a ∧ f.gridValue (f.roundMag .near m e) = a * 2 ^ p ∧
      IsNearest (m * 2 ^ i) (2 ^ (w + p)) a ∧ (p ≠ 0 → 2 ^ f.mbits * 2 ^ (w + p) ≤ m * 2 ^ i) := by
  have hmag := hf.roundMag_eq .near e hm
  have hnear : IsNearest (m * 2 ^ i) (2 ^ (w + f.roundPlace m e)) (roundNat .near m (e - (f.qmin + f.roundPlace m e))) :=
    isNearest_roundNat m (by omega)
  have hp : f.roundPlace m e = min (f.place f.maxCode) (e + (Nat.log2 m : Int) - f.mbits - f.qmin).toNat := rfl
  generalize f.roundPlace m e = p at *
  generalize roundNat .near m (e - (f.qmin + p)) = a at *
  have hbinade : p ≠ 0 → 2 ^ f.mbits * 2 ^ (w + p) ≤ m * 2 ^ i := fun h0 =>
    calc 2 ^ f.mbits * 2 ^ (w + p) = 2 ^ (f.mbits + (w + p)) := (Nat.pow_add ..).symm
      _ ≤ 2 ^ (m.log2 + i) := Nat.pow_le_pow_right Nat.two_pos (by omega)
      _ = 2 ^ m.log2 * 2 ^ i := Nat.pow_add ..
      _ ≤ m * 2 ^ i := Nat.mul_le_mul_right _ (Nat.log2_self_le hm)
  have hlo : p ≠ 0 → 2 ^ f.mbits ≤ a := fun h0 => hnear.le_of_mul_le (Nat.two_pow_pos _) (hbinade h0)
  have hhi : a ≤ 2 ^ (f.mbits + 1) := by
    by_cases htop : p = f.place f.maxCode
    · have hmax := f.place_mul_add_sig f.maxCode
      have hsig := f.sig_lt f.maxCode
      rw [hmag, ← hmax, htop] at hc
      omega
    · refine hnear.le_of_le_mul (Nat.two_pow_pos _) ?_
      calc m * 2 ^ i ≤ 2 ^ (m.log2 + 1) * 2 ^ i := Nat.mul_le_mul_right _ (Nat.le_of_lt Nat.lt_log2_self)
        _ = 2 ^ (m.log2 + 1 + i) := (Nat.pow_add ..).symm
        _ ≤ 2 ^ (f.mbits + 1 + (w + p)) := Nat.pow_le_pow_right Nat.two_pos (by omega)
        _ = 2 ^ (f.mbits + 1) * 2 ^ (w + p) := Nat.pow_add ..
  exact ⟨p, a, hmag, by rw [hmag, f.gridValue_add hlo hhi], hnear, hbinade⟩

/-- No value of the grid, under either sign, is nearer than the rounded one, and another as near leaves an even code. -/
theorem FFmt.Regular.roundMag_nearest {m : Nat} {e : Int} {i w : Nat} (hm : m ≠ 0) (hscale : e - f.qmin = i - w)
    (hc : f.roundMag .near m e ≤ f.maxCode) (neg : Bool) (c' : Nat) :
    let v : Int := (m * 2 ^ i : Nat)
    let x : Int := (f.gridValue (f.roundMag .near m e) * 2 ^ w : Nat)
    let y : Int := withSign neg (f.gridValue c' * 2 ^ w : Nat)
    (v - x).natAbs ≤ (v - y).natAbs ∧
      (¬ (neg = false ∧ c' = f.roundMag .near m e) → (v - x).natAbs = (v - y).natAbs →
        f.roundMag .near m e % 2 = 0) := by
  obtain ⟨p, a, hmag, hgrid, hnear, hbinade⟩ := hf.roundMag_near hm hscale hc
  have hparity : f.roundMag .near m e % 2 = a % 2 := by
    obtain ⟨b, hb⟩ := Nat.exists_eq_succ_of_ne_zero (Nat.ne_of_gt hf.mbits_pos)
    rw [hmag, hb, Nat.pow_succ, ← Nat.mul_assoc, Nat.mul_add_mod_self_right]
  intro v x y
  have hx : x = (a * 2 ^ (w + p) : Nat) := by simp only [x, hgrid, Nat.mul_assoc, ← Nat.pow_add, Nat.add_comm]
  rw [hparity, hx, hmag]
  rcases Nat.lt_or_ge (f.place c') p with hp | hp
  · have hy : y ≤ (f.gridValue c' * 2 ^ w : Nat) := withSign_le neg _
    have hlt := hnear.natAbs_lt (hbinade (by omega)) (Int.lt_of_le_of_lt hy (Int.ofNat_lt.2 (f.gridValue_mul_lt w hp)))
    exact ⟨Nat.le_of_lt hlt, fun _ heq => absurd heq (Nat.ne_of_lt hlt)⟩
  · obtain ⟨d, hd⟩ := Nat.exists_eq_add_of_le hp
    have hy : y = withSign neg (f.sig c' * 2 ^ d : Nat) * (2 ^ (w + p) : Nat) := by
      have hgrid' : f.gridValue c' * 2 ^ w = f.sig c' * 2 ^ d * 2 ^ (w + p) := by
        rw [FFmt.gridValue, hd, Nat.mul_assoc, Nat.mul_assoc, ← Nat.pow_add, ← Nat.pow_add,
          show p + d + w = d + (w + p) by omega]
      rw [withSign_mul, ← Int.natCast_mul, ← hgrid']
    obtain ⟨hle, htie⟩ := hnear.natAbs_le (withSign neg (f.sig c' * 2 ^ d : Nat))
    rw [hy]
    refine ⟨hle, fun hne heq => (htie heq).elim id fun hj => ?_⟩
    cases neg with
    | true =>
      have ha : a = 0 := by simp only [withSign, if_true] at hj; omega
      rw [ha]
    | false =>
      have ha : f.sig c' * 2 ^ d = a := Int.ofNat_inj.1 hj
      cases d with
      | zero =>
        have hc' := f.place_mul_add_sig c'
        rw [Nat.pow_zero, Nat.mul_one] at ha
        rw [hd, ha] at hc'
        exact absurd ⟨rfl, hc'.symm⟩ hne
      | succ d => rw [← ha, Nat.pow_succ, ← Nat.mul_assoc, Nat.mul_mod_left]

/-- The value of a finite code, at a scale at which the grid's values are whole numbers. -/
theorem FFmt.Regular.scaled_decode {neg : Bool} {c : Nat} {k : Int} (hc : c ≤ f.maxCode) (hk : 0 ≤ f.qmin + k) :
    scaled (f.decode (f.signBit neg + c)) k =
      withSign neg (f.gridValue c * 2 ^ (f.qmin + k).toNat : Nat) := by
  have hexp : (f.qmin + f.place c + k).toNat = f.place c + (f.qmin + k).toNat := by omega
  rw [hf.decode_finite hc, Fp.mk, FFmt.gridValue]
  split
  · next h0 =>
    rw [withSign_eq_zero, Int.natCast_eq_zero] at h0
    rw [h0, Nat.zero_mul, Nat.zero_mul]
    cases neg <;> rfl
  · rw [scaled, hexp, withSign_mul, Nat.mul_assoc, ← Nat.pow_add, Int.natCast_mul, Int.natCast_pow]
    rfl

theorem FFmt.Regular.signBit_add_mod_two (neg : Bool) (c : Nat) : (f.signBit neg + c) % 2 = c % 2 := by
  obtain ⟨b, hb⟩ := Nat.exists_eq_succ_of_ne_zero (Nat.ne_of_gt hf.mbits_pos)
  cases neg
  · rw [FFmt.signBit, if_neg Bool.false_ne_true, Nat.zero_add]
  · rw [FFmt.signBit, if_pos rfl, hb, Nat.add_succ, Nat.pow_succ, Nat.mul_comm, Nat.mul_add_mod]

/-- A finite value that does not overflow converts to the nearest finite code, and to an even one where another is as near. -/
theorem FFmt.Regular.encode_nearest {n e k : Int} {c code : Nat} (hn : n ≠ 0)
    (henc : f.encode .near (.fin n e) = { code := c, clamped := false }) (hcode : code < 2 ^ f.width)
    (hfin : (f.decode code).isFinite = true) (he : 0 ≤ e + k) (hq : 0 ≤ f.qmin + k) :
    let v := scaled (.fin n e) k
    (v - scaled (f.decode c) k).natAbs ≤ (v - scaled (f.decode code) k).natAbs ∧
      (code ≠ c → (v - scaled (f.decode c) k).natAbs = (v - scaled (f.decode code) k).natAbs → c % 2 = 0) := by
  obtain ⟨hmax, rfl⟩ := f.eq_of_encode_unclamped henc
  obtain ⟨neg, c', hc', rfl⟩ := f.exists_of_isFinite hcode hfin
  have hv : scaled (.fin n e) k = withSign (decide (n < 0)) (n.natAbs * 2 ^ (e + k).toNat : Nat) := by
    rw [Int.natCast_mul, ← withSign_mul, withSign_natAbs, Int.natCast_pow]
    rfl
  obtain ⟨hle, htie⟩ := hf.roundMag_nearest (i := (e + k).toNat) (w := (f.qmin + k).toNat) (Int.natAbs_ne_zero.2 hn)
    (by omega) hmax (decide (n < 0) != neg) c'
  intro v
  simp only [v, hv, hf.scaled_decode hmax hq, hf.scaled_decode hc' hq, natAbs_withSign_sub, hf.signBit_add_mod_two,
    bne_self_eq_false]
  refine ⟨hle, fun hne => htie fun ⟨hs, hcc⟩ => hne ?_⟩
  rw [bne_eq_false_iff_eq.1 hs, hcc]

end

end Sys2Proof.Machine

namespace Sys2Proof.Claims
open Sys2Proof.Machine

/-- Settles O7: every format's codes are a sign, a place and a significand, and a conversion rounds to whole units of one
place. -/
theorem numberConversions : Obligations.NumberConversions := by
  intro f hmem
  have hf := FFmt.regular_of_mem f hmem
  exact ⟨fun _ hcode hnan r => hf.encode_decode r hcode hnan, fun _ => rfl, hf.decode_nanCode,
    fun _ _ _ _ _ hn henc hcode hfin he hq => hf.encode_nearest hn henc hcode hfin he hq⟩

end Sys2Proof.Claims
end

section
/-! ## The table control word (R193, R195) -/

namespace Sys2Proof.Machine

/-- A word that is stored reads back. -/
theorem State.peek64_poke {s : State} (h : s.mem.wf = true) (off v : Nat) :
    (s.poke off (le 8 v)).peek64 off = BitVec.ofNat 64 v := by
  have hb := s.mem.bytes_setBytes off (le 8 v) h
  rw [le_length] at hb
  exact (congrArg (fun bs => BitVec.ofNat 64 (leNat bs)) hb).trans (ofNat_leNat_bytesLE 8 v)

/-- PENDING of a table is its bit in the upper half-word of the control word's low word. -/
theorem bitOf_ctlPending (w : Word) {t : Nat} (h : t < 16) :
    bitOf (ctlPending w.toNat) t = 1 ↔ w.getLsbD (16 + t) = true := by
  have e : (ctlPending w.toNat).testBit t = w.getLsbD (16 + t) := by
    rw [ctlPending, Nat.testBit_mod_two_pow _ 16, Nat.testBit_div_two_pow (n := 16), Nat.add_comm t, BitVec.testBit_toNat,
      decide_eq_true h, Bool.true_and]
  rw [← e, Nat.testBit_eq_decide_div_mod_eq, decide_eq_true_eq, bitOf]

/-- A control word whose top half-word is zero is its three fields; one more in PENDING adds at that bit. -/
theorem ctlFields_addPending {w : Nat} (h : w < 2 ^ 48) (t : Nat) :
    ctlActive w + place (ctlPending w + 2 ^ t) 16 + place (ctlHeld w) 32 = w + 2 ^ (16 + t) := by
  simp only [ctlActive, ctlPending, ctlHeld, place, Nat.shiftLeft_eq, Nat.pow_add]
  omega

/-- A clear bit is set by addition. -/
theorem ofNat_add_two_pow {w : Word} {k : Nat} (h : w.getLsbD k = false) :
    BitVec.ofNat 64 (w.toNat + 2 ^ k) = w ||| (1#64 <<< k) := by
  have hand : w &&& BitVec.twoPow 64 k = 0#64 := by rw [BitVec.and_twoPow, h]; rfl
  have htwo : BitVec.ofNat 64 (2 ^ k) = BitVec.twoPow 64 k :=
    BitVec.eq_of_toNat_eq (by rw [BitVec.toNat_ofNat, BitVec.toNat_twoPow])
  rw [BitVec.ofNat_add, BitVec.ofNat_toNat, BitVec.setWidth_eq, htwo, BitVec.add_eq_or_of_and_eq_zero _ _ hand,
    BitVec.twoPow_eq]

/-- What TBL.SWAP of table t does to the chip (R195). -/
def State.askSwap (c : CoreId) (t : Nat) (s : State) : State :=
  let w := s.control c.val
  if bitOf (ctlPending w) t = 1 then s else s.setControl c.val (ctlActive w) (ctlPending w + 2 ^ t) (ctlHeld w)

theorem State.askSwap_core (s : State) (c : CoreId) (t : Nat) : (s.askSwap c t).core c = s.core c := by
  simp only [State.askSwap]; split <;> rfl

section
variable {s : State} {c : CoreId} {t : Nat} (ht : t < 16)
include ht

theorem State.askSwap_pending (h : (s.peek64 (spmOf c.val + controlOff)).getLsbD (16 + t) = true) : s.askSwap c t = s :=
  if_pos ((bitOf_ctlPending _ ht).2 h)

theorem State.askSwap_clear (h : (s.peek64 (spmOf c.val + controlOff)).getLsbD (16 + t) = false)
    (hw : (s.peek64 (spmOf c.val + controlOff)).toNat < 2 ^ 48) : s.askSwap c t =
      s.poke (spmOf c.val + controlOff) (le 8 ((s.peek64 (spmOf c.val + controlOff)).toNat + 2 ^ (16 + t))) := by
  have hclear : ¬ bitOf (ctlPending (s.control c.val)) t = 1 := fun hb => by simp [(bitOf_ctlPending _ ht).1 hb] at h
  rw [State.askSwap, if_neg hclear, State.setControl, State.control, ctlFields_addPending hw]
end

end Sys2Proof.Machine
end

section
/-! ## TBL.SWAP and PROOF.MARK (R195, R279, R534) -/

namespace Sys2Proof.Claims
open Sys2Proof.Machine

theorem PlainS.form {f : FmtS} {rs pd q ctr tbl imm : Bool} (h : PlainS f rs pd q ctr tbl imm) :
    formS rs pd q ctr tbl imm f = true := by
  obtain ⟨hp, hrs, hpd, hq, hctr, htbl, himm⟩ := h
  simp only [formS, hp.form, unused, Bool.true_and, Bool.and_eq_true, Bool.or_eq_true, beq_iff_eq]
  exact ⟨⟨⟨⟨⟨hrs, hpd⟩, hq⟩, hctr⟩, htbl⟩, himm⟩

/-- An instruction whose command carries its time, executed and gone on. -/
theorem timed_next {s t : State} {c : CoreId} {pre : Pre} {formed : Bool} {skip body : Eng Flow} (hx : Executes s c pre)
    (hf : formed = true) (hb : Eng.exec body s = (.ok .step, t)) (hr : (t.core c).running = true) :
    stylusAt true c pre formed skip body s = t.modCore c advance := by
  obtain ⟨⟨hi, ha, hp⟩, hg⟩ := hx
  have hfetch : ¬ ((s.core c).pc % 8 ≠ 0 ∨ (s.core c).pc + 8 > s.codeSize c) := by omega
  have hstep : (t.flow c .step).tryReportAt true = t.modCore c advance :=
    tryReportNow_of_running _ c (by simpa [State.flow_step] using hr)
  simp only [stylusAt, hi, hf, hg, not_true_eq_false, if_false, if_neg hfetch, if_true, hb, hstep]

/-- Time that goes on does not keep an instruction from executing. -/
theorem Executes.atTime {s : State} {c : CoreId} {pre : Pre} (hx : Executes s c pre) (now : Nat) :
    Executes (s.atTime now) c pre := hx

theorem exec_tblSwap {s : State} {c : CoreId} {f : FmtS} (hx : Executes s c f.pre)
    (hp : PlainS f false false false false true false) (ht : f.tbl.toNat < 3) :
    exec (.tblSwap c f) s = .next ((s.askSwap c f.tbl.toNat).modCore c advance) := by
  have hb : Eng.exec (do modify (State.askSwap c f.tbl.toNat); pure Flow.step) s = (.ok .step, s.askSwap c f.tbl.toNat) := rfl
  exact congrArg Host.Outcome.next (scalar_next hx (by simp [hp.form, ht]) hb (by rw [State.askSwap_core]; exact hx.running))

/-- The entry of a PROOF.MARK (R534, table of trace entries). -/
def markEntry (c : CoreId) (f : FmtS) (s : State) : TraceEntry :=
  ⟨1, 0, c.val, f.imm.toNat, (s.core c).sreg f.rs.toNat, s.tick.number, s.sinceEdge⟩

/-- Whether marks of core c are traced (R534, R535). -/
def marksOn (p : Proof) (c : CoreId) : Bool := p.traceEn && p.traceMark && p.traceCores.getLsbD c.val && !p.full

/-- The chip after a mark of core c. -/
def markTrace (c : CoreId) (f : FmtS) (s : State) : State :=
  s.trace (fun p => p.traceMark && p.traceCores.getLsbD c.val) (markEntry c f s)

theorem markTrace_eq (c : CoreId) (f : FmtS) (s : State) : markTrace c f s =
    if marksOn s.proof c then
      if s.proof.queue.length < 4096 then { s with proof := { s.proof with queue := s.proof.queue ++ [markEntry c f s] } }
      else { s with proof := { s.proof with dropped := satAdd 16 s.proof.dropped 1 } }
    else s := by
  simp only [markTrace, State.trace, marksOn, Bool.and_assoc]

theorem markTrace_core (c : CoreId) (f : FmtS) (s : State) : (markTrace c f s).core c = s.core c := by
  rw [markTrace_eq]
  split
  · split <;> rfl
  · rfl

theorem exec_proofMark {s : State} {c : CoreId} {f : FmtS} (hx : Executes s c f.pre)
    (hp : PlainS f true false false false false true) (hi : f.imm.toNat < 65536) (now : Nat) :
    exec (.proofMark c f now) s = .next ((markTrace c f (s.atTime now)).modCore c advance) := by
  have hb : Eng.exec (do modify (markTrace c f); pure Flow.step) (s.atTime now) =
      (.ok .step, markTrace c f (s.atTime now)) := rfl
  exact congrArg Host.Outcome.next
    (timed_next (hx.atTime now) (by simp [hp.form, hi]) hb (by rw [markTrace_core]; exact hx.running))

/-- Settles O21: a table's PENDING bit is set by one store of the control word or stands already; a mark enters the queue,
is counted as dropped, or is not traced. -/
theorem swapsAndMarks : Obligations.SwapsAndMarks := by
  refine fun c f s hx => ⟨fun hp ht hm => ⟨fun hset => ?_, fun hclear hw => ?_⟩, fun hp hi now => ⟨fun hoff => ?_,
    fun hon hroom => ?_, fun hon hfull => ?_⟩⟩
  · rw [exec_tblSwap hx hp ht, State.askSwap_pending f.tbl.isLt hset]
    rfl
  · have hlen := le_length 8 ((s.peek64 (spmOf c.val + controlOff)).toNat + 2 ^ (16 + f.tbl.toNat))
    rw [exec_tblSwap hx hp ht, State.askSwap_clear f.tbl.isLt hclear hw]
    refine ⟨_, rfl, rfl, ?_, fun a ha => Memory.byte_setBytes_out _ _ _ _ hm (by rw [hlen]; exact ha)⟩
    exact (State.peek64_poke hm _ _).trans (ofNat_add_two_pow hclear)
  · rw [exec_proofMark hx hp hi, markTrace_eq, marksOn, State.atTime_proof, hoff]
    rfl
  · rw [exec_proofMark hx hp hi, markTrace_eq, marksOn, State.atTime_proof, hon, if_pos rfl, if_pos hroom]
    rfl
  · rw [exec_proofMark hx hp hi, markTrace_eq, marksOn, State.atTime_proof, hon, if_pos rfl, if_neg (Nat.not_lt.2 hfull),
      satAdd_one]
    rfl

end Sys2Proof.Claims
end

section
/-! ## Descriptors that R75 accepts (R10, R74, R75) -/

namespace Sys2Proof.Machine

/-- A guarded failure that did not occur: its condition is false, and the rest succeeds. -/
theorem ok_of_ite_throw {ε α : Type} {p : Prop} [Decidable p] {e : ε} {x : Except ε α} {a : α}
    (h : (if p then throw e else x) = .ok a) : ¬ p ∧ x = .ok a := by
  by_cases hp : p
  · rw [if_pos hp] at h
    cases h
  · exact ⟨hp, by rwa [if_neg hp] at h⟩

/-- What acceptance of a descriptor says of its words: the paired ones are valid, FMT is the format, and the extents
below the rank are those that they hold. -/
theorem parseDesc_words {t : List Byte} {d : Desc} (h : parseDesc t = .ok d) :
    (∀ o ∈ [0x00, 0x08, 0x10, 0x18, 0x20, 0x28, 0x30, 0x38], pairOk (w64At t o) = true) ∧
    d.fmt = pairVal (w64At t 0x10) % 256 ∧
    d.ext = (List.range 4).map fun i =>
      if i < pairVal (w64At t 0x10) / 2 ^ 8 % 8 + 1 then pairVal (w64At t (0x20 + 8 * i)) else 1 := by
  unfold parseDesc at h
  obtain ⟨hpair, h⟩ := ok_of_ite_throw h
  obtain ⟨-, h⟩ := ok_of_ite_throw h
  obtain ⟨-, h⟩ := ok_of_ite_throw h
  obtain ⟨-, h⟩ := ok_of_ite_throw h
  obtain ⟨-, h⟩ := ok_of_ite_throw h
  obtain ⟨-, h⟩ := ok_of_ite_throw h
  obtain ⟨-, h⟩ := ok_of_ite_throw h
  cases h
  exact ⟨by simpa using hpair, rfl, rfl⟩

theorem descFmt_of_parseDesc {t : List Byte} {d : Desc} (h : parseDesc t = .ok d) : descFmt t = some d.fmt := by
  obtain ⟨hpair, hfmt, -⟩ := parseDesc_words h
  rw [descFmt, if_pos (hpair 0x10 (by decide)), hfmt]

theorem descExt_of_parseDesc {t : List Byte} {d : Desc} (h : parseDesc t = .ok d) {i : Nat} (hi : i < 4) :
    descExt t i = some (d.x i) := by
  obtain ⟨hpair, -, hext⟩ := parseDesc_words h
  have hmem : ∀ i < 4, 0x20 + 8 * i ∈ [0x00, 0x08, 0x10, 0x18, 0x20, 0x28, 0x30, 0x38] := by decide
  simp only [descExt, hpair 0x10 (by decide), hpair _ (hmem i hi), Bool.and_self, if_true, Desc.x, hext, List.getD,
    List.getElem?_map, List.getElem?_range hi, Option.map_some, Option.getD_some]

@[simp] theorem differ_self (o : Option Nat) : differ o o = false := by simp [differ]

end Sys2Proof.Machine
end

section
/-! ## A read of the state, and a check, at the front of a program -/

namespace Sys2Proof.Machine

theorem Eng.exec_get_bind {α : Type} (f : State → Eng α) (s : State) : Eng.exec (get >>= f) s = Eng.exec (f s) s := rfl

/-- A check leaves the state to what follows it. -/
theorem Eng.need_bind_state {α : Type} {b : Bool} {e : Status} {f : Unit → Eng α} {s : State}
    (h : (Eng.exec (f ()) s).2 = s) : (Eng.exec (need b e >>= f) s).2 = s := by
  cases b
  · rfl
  · exact h

end Sys2Proof.Machine
end

section
/-! ## A command that its checks accept enters its queue (R65, R67, R68) -/

namespace Sys2Proof.Machine

/-- A command that the Stylus issues, before its copies: its numbers, SPAN, and the table banks of its frame (R66, R68, R194). -/
def newCmd (s : State) (c : CoreId) (op : EngOp) (span : Bool) : QCmd :=
  { op := op, seq := ((s.core c).queue op.queue).next, seqHq := (s.core c).hq.next, span := span,
    tables := (s.core c).frameActive }

theorem issueCmd_accepted {s t : State} {c : CoreId} {op : EngOp} {span : Bool} {copy check : QCmd → Eng QCmd} {j : QCmd}
    (hroom : (s.core c).hasRoom op = true) (hok : (s.core c).frameFail = none)
    (hj : Eng.exec (copy (newCmd s c op span) >>= check) s = (.ok j, t)) :
    Eng.exec (issueCmd c op true span copy check) s = (.ok .step, t.enqueue c j) := by
  unfold issueCmd
  refine (Eng.exec_bind_ok (Eng.exec_get s)).trans ?_
  simp only [hroom, hok, not_true_eq_false, if_false, Option.isSome_none, Bool.false_eq_true, or_self]
  rw [newCmd] at hj
  rw [hj]
  rfl

@[simp] theorem State.enqueue_running (s : State) (c : CoreId) (k : QCmd) :
    ((s.enqueue c k).core c).running = (s.core c).running := by
  simp only [State.enqueue, State.core_modCore]
  by_cases h : k.op = .attn
  · rw [if_pos h, h]
    rfl
  · rw [if_neg h]
    cases k.op.queue <;> rfl

end Sys2Proof.Machine

namespace Sys2Proof.Claims
open Sys2Proof.Machine

/-- A command that enters its queue, ATTN's or another, with the Stylus one word further. -/
theorem queued_enqueue (s : State) (c : CoreId) (k : QCmd) :
    Queued s ((s.enqueue c k).modCore c advance) c k.op.queue k := by
  simp only [Queued, State.enqueue, State.core_modCore]
  by_cases h : k.op = .attn
  · rw [if_pos h, h]
    exact ⟨rfl, rfl, rfl, rfl, rfl, rfl, rfl, rfl, rfl, rfl⟩
  · rw [if_neg h]
    cases k.op.queue <;> exact ⟨rfl, rfl, rfl, rfl, rfl, rfl, rfl, rfl, rfl, rfl⟩

/-- An instruction that executes and whose command enters its queue. -/
theorem stylus_queues {s : State} {c : CoreId} {pre : Pre} {formed : Bool} {skip body : Eng Flow} {k : QCmd}
    (hx : Executes s c pre) (hf : formed = true) (hb : Eng.exec body s = (.ok .step, s.enqueue c k)) :
    Queued s (stylus c pre formed skip body s) c k.op.queue k := by
  obtain ⟨⟨hi, ha, hp⟩, hg⟩ := hx
  have hrun : (((s.enqueue c k).flow c .step).core c).running = true := by
    simpa [State.flow_step] using s.running_of_issues c hi
  rw [stylus_executes hi ha hp hf hg hb, State.tryReport_of_running _ c hrun]
  exact queued_enqueue s c k

end Sys2Proof.Claims
end

section
/-! ## KV.PAGE (R217, R218, R276) -/

namespace Sys2Proof.Machine

/-- The address of a page frame: FRAME_BASE + frame × FSIZE (R217). -/
def kvAddr (x : Core) (f : FmtK) (frame : Nat) : Nat :=
  ((x.areg f.af.toNat).toNat + frame * (x.sreg f.rfs.toNat).toNat) % 2 ^ 64

/-- The command that a KV.PAGE issues for a frame and a ring of slots: the copies of its two staging descriptors, its gate
counter, and a block of the frame's address, the halves and the first slot (R218). -/
def kvCmd (c : CoreId) (f : FmtK) (s : State) (frame slots : Nat) : QCmd :=
  { newCmd s c .kvPage f.pre.span with
    block := le 8 (kvAddr (s.core c) f frame) ++ le 8 f.halves.toNat ++ le 8 (((s.core c).sreg f.rsl.toNat).toNat % slots)
    descs := [some ((s.core c).tdBytes f.tk.toNat), some ((s.core c).tdBytes f.tv.toNat)]
    ctr := some f.ctr.toNat }

/-- Eight bytes of memory, read as one word. -/
theorem State.w64At_peek (s : State) (off : Nat) : w64At (s.peek off 8) 0 = s.peek64 off := by
  have h := slice_self (s.peek off 8)
  rw [State.peek, Memory.bytes_length] at h
  rw [w64At, State.peek, h]
  rfl

/-- The checks of the stream command change nothing (R274). -/
theorem checkKv_state (addr fsize : Nat) (a b : Desc) (s : State) :
    (Eng.exec (checkKv addr fsize (.ok a) (.ok b)) s).2 = s := by
  simp only [checkKv, liftE, pure_bind]
  refine Eng.need_bind_state ?_
  rw [Eng.exec_get_bind]
  refine Eng.need_bind_state ?_
  rw [Eng.exec_need]

/-- Staging descriptors of one format and equal extents, and a frame that holds K and V of 256 tokens, pass the row of
R276 that compares them. -/
theorem stagingDescs_match {tk tv : List Byte} {a b : Desc} {fsize : Nat} (ha : parseDesc tk = .ok a) (hb : parseDesc tv = .ok b)
    (hfmt : a.fmt = b.fmt) (hext : ∀ i < 4, a.x i = b.x i) (hfit : 512 * a.x 0 * a.e ≤ fsize) :
    (!differ (descFmt tk) (descFmt tv) && (List.range 4).all (fun i => !differ (descExt tk i) (descExt tv i))
      && decide (512 * ((descExt tk 0).getD 0) * fmtSize ((descFmt tk).getD 0) ≤ fsize)) = true := by
  have hsame : ∀ i < 4, descExt tk i = descExt tv i := fun i hi => by
    rw [descExt_of_parseDesc ha hi, descExt_of_parseDesc hb hi, hext i hi]
  have hall : (List.range 4).all (fun i => !differ (descExt tk i) (descExt tv i)) = true := by
    simp only [List.all_eq_true, List.mem_range]
    intro i hi
    rw [hsame i hi, differ_self]
    rfl
  rw [hall, descFmt_of_parseDesc ha, descFmt_of_parseDesc hb, hfmt, differ_self, descExt_of_parseDesc ha (by decide)]
  rw [Desc.e, hfmt] at hfit
  simpa using hfit

end Sys2Proof.Machine

namespace Sys2Proof.Claims
open Sys2Proof.Machine

/-- The load of the page-table entry answers the bytes that stand there (R217, R218). -/
theorem scalarLoad_kvEntry {s : State} {c : CoreId} {f : FmtK} {off : Nat}
    (hat : ((s.core c).areg f.ae.toNat).toNat = s.chip * 2 ^ 48 + off) (hoff : off < 2 ^ 48) (hal : off % 8 = 0)
    (hl : Loadable s off 8) :
    Eng.exec (scalarLoad ((s.core c).areg f.ae.toNat) 8 8 true) s = (.ok (s.peek off 8), s) := by
  have haddr : (s.core c).addrM { ab := f.ae } = (s.core c).areg f.ae.toNat := BitVec.add_zero _
  rw [← haddr] at hat ⊢
  exact scalarLoad_loadable (by decide) ⟨hat, hoff, hal⟩ (by decide) hl

/-- A valid entry gives its frame number (R10, R217). -/
theorem getPair_kvEntry {s : State} {off frame : Nat} (hentry : s.peek64 off = pair frame) (hframe : frame < 0xFFFFFFFF) :
    Eng.exec (getPair (w64At (s.peek off 8) 0)) s = (.ok frame, s) := by
  rw [Eng.exec_getPair, State.w64At_peek, hentry, pairOk_pair, if_pos rfl, pairVal_pair, Nat.mod_eq_of_lt (by omega)]

/-- Settles O18: every check of KV.PAGE passes, the load of its entry answers the frame number, and its command enters SQ. -/
theorem kvPageIssues : Obligations.KvPageIssues := by
  intro c f s off frame a b hx hform hroom hok hat hoff hal hl hentry hframe hfsize ha hb hfmt hext hfit hcheck
  have hchecked : Eng.exec (checkKv (kvAddr (s.core c) f frame) ((s.core c).sreg f.rfs.toNat).toNat (.ok a) (.ok b)) s =
      (.ok (), s) := Prod.ext hcheck (checkKv_state ..)
  have hbody : Eng.exec (kvIssue c f) s = (.ok .step, s.enqueue c (kvCmd c f s frame (max 1 (a.x 2)))) := by
    unfold kvIssue
    refine (Eng.exec_bind_ok (Eng.exec_get s)).trans ?_
    rw [if_neg (not_not_intro hroom)]
    refine (Eng.exec_bind_ok (scalarLoad_kvEntry hat hoff hal hl)).trans ?_
    refine (Eng.exec_bind_ok (getPair_kvEntry hentry hframe)).trans ?_
    refine Eng.need_then (decide_eq_true (Nat.ne_of_lt hframe)) (Eng.need_then (decide_eq_true hfsize) ?_)
    refine Eng.need_then (stagingDescs_match ha hb hfmt hext hfit) ?_
    rw [ha, hb]
    exact issueCmd_accepted hroom hok (Eng.exec_bind_ok hchecked)
  exact ⟨_, _, rfl, stylus_queues hx hform hbody, rfl, rfl, rfl, rfl, rfl⟩

end Sys2Proof.Claims
end

section
/-! ## Operations on words, as sums, products, quotients and shifts of numbers (R258, R259) -/

namespace Sys2Proof.Machine
open Sys2Proof.Claims

theorem sub_eq_ofInt (a b : Word) : a - b = BitVec.ofInt 64 (a.toInt - b.toInt) := by
  apply BitVec.eq_of_toInt_eq
  rw [BitVec.toInt_sub, BitVec.toInt_ofInt]

theorem mul_eq_ofInt {w : Nat} (a b : BitVec w) : a * b = BitVec.ofInt w (a.toInt * b.toInt) := by
  rw [BitVec.ofInt_mul, BitVec.ofInt_toInt, BitVec.ofInt_toInt]

theorem add_eq_ofInt (a b : Word) : a + b = BitVec.ofInt 64 (a.toInt + b.toInt) := by
  rw [BitVec.ofInt_add, BitVec.ofInt_toInt, BitVec.ofInt_toInt]

/-- The upper half of a product of two words needs no more than 128 bits. -/
theorem mulHigh_eq_extract (a b : Word) : mulHigh a b = (a.setWidth 128 * b.setWidth 128).extractLsb' 64 64 := by
  have hprod : a.toNat * b.toNat < 2 ^ 128 := Nat.mul_lt_mul'' (c := 2 ^ 64) (d := 2 ^ 64) a.isLt b.isLt
  apply BitVec.eq_of_toNat_eq
  rw [mulHigh, BitVec.toNat_ofNat, BitVec.extractLsb'_toNat, Nat.shiftRight_eq_div_pow, BitVec.toNat_mul,
    BitVec.toNat_setWidth_of_le (by decide), BitVec.toNat_setWidth_of_le (by decide), Nat.mod_eq_of_lt hprod]

/-- Bits [127:64] of an integer are those of its quotient by 2^64, rounded down. -/
theorem extract_ofInt_high (z : Int) : (BitVec.ofInt 128 z).extractLsb' 64 64 = BitVec.ofInt 64 (z / 2 ^ 64) := by
  apply BitVec.eq_of_toNat_eq
  rw [BitVec.extractLsb'_toNat, Nat.shiftRight_eq_div_pow, BitVec.toNat_ofInt, BitVec.toNat_ofInt]
  omega

theorem mulHighS_eq_extract (a b : Word) : mulHighS a b = (a.signExtend 128 * b.signExtend 128).extractLsb' 64 64 := by
  have hprod : a.signExtend 128 * b.signExtend 128 = BitVec.ofInt 128 (a.toInt * b.toInt) := (BitVec.ofInt_mul ..).symm
  rw [hprod, extract_ofInt_high, mulHighS]

theorem and_eq_not_or (a b : Word) : a &&& b = ~~~(~~~a ||| ~~~b) := by
  rw [BitVec.not_or, BitVec.not_not, BitVec.not_not]

theorem or_eq_not_and (a b : Word) : a ||| b = ~~~(~~~a &&& ~~~b) := by
  rw [BitVec.not_and, BitVec.not_not, BitVec.not_not]

theorem xor_eq_or (a b : Word) : a ^^^ b = (a &&& ~~~b) ||| (~~~a &&& b) := by
  ext i hi
  simp only [BitVec.getElem_xor, BitVec.getElem_or, BitVec.getElem_and, BitVec.getElem_not]
  cases a[i] <;> cases b[i] <;> rfl

theorem shl_eq_mul (a b : Word) : a <<< count6 b = BitVec.ofNat 64 (a.toNat * 2 ^ count b) := by
  apply BitVec.eq_of_toNat_eq
  rw [BitVec.toNat_shiftLeft, Nat.shiftLeft_eq, BitVec.toNat_ofNat]
  rfl

theorem shr_eq_div (a b : Word) : a >>> count6 b = BitVec.ofNat 64 (a.toNat / 2 ^ count b) := by
  apply BitVec.eq_of_toNat_eq
  rw [BitVec.toNat_ushiftRight, Nat.shiftRight_eq_div_pow, BitVec.toNat_ofNat,
    Nat.mod_eq_of_lt (Nat.lt_of_le_of_lt (Nat.div_le_self ..) a.isLt)]
  rfl

theorem sra_eq_div (a b : Word) : a.sshiftRight (count6 b) = BitVec.ofInt 64 (a.toInt / 2 ^ count b) := by
  rw [BitVec.sshiftRight_eq, Int.shiftRight_eq_div_pow, Int.natCast_pow]
  rfl

theorem min_eq_ofInt (a b : Word) : (if a.slt b then a else b) = BitVec.ofInt 64 (min a.toInt b.toInt) := by
  have hdef : min a.toInt b.toInt = if a.toInt < b.toInt then a.toInt else b.toInt := by split <;> omega
  simp only [hdef, apply_ite (BitVec.ofInt 64), BitVec.ofInt_toInt, BitVec.slt_iff_toInt_lt]

theorem max_eq_ofInt (a b : Word) : (if a.slt b then b else a) = BitVec.ofInt 64 (max a.toInt b.toInt) := by
  have hdef : max a.toInt b.toInt = if a.toInt < b.toInt then b.toInt else a.toInt := by split <;> omega
  simp only [hdef, apply_ite (BitVec.ofInt 64), BitVec.ofInt_toInt, BitVec.slt_iff_toInt_lt]

theorem minu_eq_ofNat (a b : Word) : (if a.ult b then a else b) = BitVec.ofNat 64 (min a.toNat b.toNat) := by
  have hdef : min a.toNat b.toNat = if a.toNat < b.toNat then a.toNat else b.toNat := by split <;> omega
  simp only [hdef, apply_ite (BitVec.ofNat 64), BitVec.ofNat_toNat, BitVec.setWidth_eq, BitVec.ult_iff_lt, BitVec.lt_def]

theorem maxu_eq_ofNat (a b : Word) : (if a.ult b then b else a) = BitVec.ofNat 64 (max a.toNat b.toNat) := by
  have hdef : max a.toNat b.toNat = if a.toNat < b.toNat then b.toNat else a.toNat := by split <;> omega
  simp only [hdef, apply_ite (BitVec.ofNat 64), BitVec.ofNat_toNat, BitVec.setWidth_eq, BitVec.ult_iff_lt, BitVec.lt_def]

theorem divU_eq_udiv (a b : Word) : divU a b = if b = 0 then BitVec.allOnes 64 else a.udiv b :=
  congrArg (ite (b = 0) _) BitVec.udiv_def.symm

theorem remU_eq_umod (a b : Word) : remU a b = if b = 0 then BitVec.allOnes 64 else a.umod b :=
  congrArg (ite (b = 0) _) BitVec.umod_def.symm

/-- −2^63 by −1 is 2^63, which wraps (R259). -/
theorem divS_corner : divS (BitVec.intMin 64) (BitVec.allOnes 64) = BitVec.intMin 64 := by decide

theorem remS_corner : remS (BitVec.intMin 64) (BitVec.allOnes 64) = 0 := by decide

theorem divS_eq_tdiv (a b : Word) : divS a b = if b = 0 then BitVec.allOnes 64 else
    if a = BitVec.intMin 64 ∧ b = BitVec.allOnes 64 then BitVec.intMin 64 else BitVec.ofInt 64 (a.toInt.tdiv b.toInt) := by
  by_cases h : a = BitVec.intMin 64 ∧ b = BitVec.allOnes 64
  · obtain ⟨rfl, rfl⟩ := h
    exact divS_corner
  · rw [if_neg h, divS]

theorem remS_eq_tmod (a b : Word) : remS a b = if b = 0 then BitVec.allOnes 64 else
    if a = BitVec.intMin 64 ∧ b = BitVec.allOnes 64 then 0 else BitVec.ofInt 64 (a.toInt.tmod b.toInt) := by
  by_cases h : a = BitVec.intMin 64 ∧ b = BitVec.allOnes 64
  · obtain ⟨rfl, rfl⟩ := h
    exact remS_corner
  · rw [if_neg h, remS]

/-- An immediate above the low half of a word (R258 MOVHI). -/
theorem append_low_eq (m : Word32) (w : Word) : (m ++ w.setWidth 32 : BitVec 64) =
    BitVec.ofNat 64 (m.toNat * 2 ^ 32 + w.toNat % 2 ^ 32) := by
  have hlt : m.toNat * 2 ^ 32 + w.toNat % 2 ^ 32 < 2 ^ 64 := by omega
  apply BitVec.eq_of_toNat_eq
  rw [toNat_pairWord, BitVec.toNat_setWidth, BitVec.toNat_ofNat, Nat.mod_eq_of_lt hlt]

end Sys2Proof.Machine
end

section
/-! ## Instructions on registers (R252 to R254) -/

namespace Sys2Proof.Claims
open Sys2Proof.Machine

theorem NamesA.asA {f : BitVec 5} (h : NamesA f) : Machine.asA f = true := by
  have hbit : f.getLsbD 4 = false := Nat.testBit_lt_two_pow h
  rw [Machine.asA, hbit]
  rfl

theorem NamesP.asP {f : BitVec 5} (h : NamesP f) : Machine.asP f = true := by
  have h4 : f.getLsbD 4 = false := Nat.testBit_lt_two_pow (Nat.lt_of_lt_of_le h (by decide))
  have h3 : f.getLsbD 3 = false := Nat.testBit_lt_two_pow h
  rw [Machine.asP, h4, h3]
  rfl

theorem unused_iff {w : Nat} {f : BitVec w} : unused f = true ↔ f = 0 := beq_iff_eq

theorem PlainR.form {f : FmtR} {d a b : BitVec 5 → Bool} (h : PlainR f) (hd : d f.rd = true) (ha : a f.ra = true)
    (hb : b f.rb = true) : formR d a b f = true := by
  obtain ⟨hp, hcc, hrsv⟩ := h
  simp only [formR, hp.form, hd, ha, hb, unused_iff.2 hcc, unused_iff.2 hrsv, Bool.and_self]

theorem PlainI.form {f : FmtI} {d a : BitVec 5 → Bool} (h : PlainI f) (hd : d f.rd = true) (ha : a f.ra = true) :
    formI d a f = true := by
  obtain ⟨hp, hcc, hrsv⟩ := h
  simp only [formI, hp.form, hd, ha, unused_iff.2 hcc, unused_iff.2 hrsv, Bool.and_self]

theorem PlainB.form {f : FmtB} {a : BitVec 5 → Bool} (h : PlainB f) (ha : a f.ra = true) : formB a f = true := by
  obtain ⟨hp, hrsv⟩ := h
  simp only [formB, hp.form, ha, unused_iff.2 hrsv, Bool.and_self]

section
variable {s : State} {c : CoreId} {pre : Pre} {formed : Bool}

/-- An instruction on registers leaves what it makes of its core, one word further. -/
theorem scalar_regsTo {g : Core → Core} (hx : Executes s c pre) (hf : formed = true) (hr : ∀ x, (g x).running = x.running) :
    Host.Outcome.next (scalar c pre formed (regsStep c g) s) = regsTo s c g := by
  obtain ⟨⟨hi, ha, hp⟩, hg⟩ := hx
  exact congrArg Host.Outcome.next (scalar_regs hi ha hp hf hg (hr _))

theorem scalar_decode {body : Eng Flow} (hfetch : Fetches s c) (hf : formed = false) :
    scalar c pre formed body s = (s.stylusFault c .decode).tryReport := by
  obtain ⟨hi, ha, hp⟩ := hfetch
  exact stylus_illFormed hi ha hp hf
end

/-- A three-register instruction writes the value of its operation. -/
theorem rrr_of_aluR {mk : CoreId → FmtR → Instr} {op v : Word → Word → Word}
    (hmk : ∀ c f s, exec (mk c f) s = .next (aluR c f op s)) (hv : ∀ a b, op a b = v a b) : rrr mk v := by
  obtain rfl : op = v := funext fun a => funext (hv a)
  intro c f s hx hp
  rw [hmk]
  exact scalar_regsTo hx (hp.form rfl rfl rfl) fun _ => Core.setS_running ..

/-- An instruction with an immediate that its word allows writes the value of its operation. -/
theorem rri_of_aluI {mk : CoreId → FmtI → Instr} {formed : FmtI → Bool} {ok : Word32 → Prop} {op v : Word → Word → Word}
    (hmk : ∀ c f s, exec (mk c f) s = .next (aluI c f (formed f) op s)) (hok : ∀ f, ok f.imm → formed f = true)
    (hv : ∀ a b, op a b = v a b) : rri mk ok v := by
  obtain rfl : op = v := funext fun a => funext (hv a)
  intro c f s hx hp hm
  have hf : (formI asS asS f && formed f) = true := by rw [hp.form rfl rfl, hok f hm, Bool.and_self]
  rw [hmk]
  exact scalar_regsTo hx hf fun _ => Core.setS_running ..

theorem ppp_of_predR {mk : CoreId → FmtR → Instr} {op : Bool → Bool → Bool}
    (hmk : ∀ c f s, exec (mk c f) s = .next (predR c f op s)) : ppp mk op := by
  intro c f s hx hp hd ha hb
  rw [hmk]
  exact scalar_regsTo hx (hp.form hd.asP ha.asP hb.asP) fun _ => Core.setPred_running ..

end Sys2Proof.Claims
end

section
/-! ## Integer arithmetic (R258, R259) -/

namespace Sys2Proof.Claims
open Sys2Proof.Machine

theorem threeRegisterResults : ThreeRegisterResults :=
  ⟨rrr_of_aluR (fun _ _ _ => rfl) BitVec.add_def,
    rrr_of_aluR (fun _ _ _ => rfl) sub_eq_ofInt,
    rrr_of_aluR (fun _ _ _ => rfl) mul_eq_ofInt,
    rrr_of_aluR (fun _ _ _ => rfl) mulHigh_eq_extract,
    rrr_of_aluR (fun _ _ _ => rfl) mulHighS_eq_extract,
    rrr_of_aluR (fun _ _ _ => rfl) and_eq_not_or,
    rrr_of_aluR (fun _ _ _ => rfl) or_eq_not_and,
    rrr_of_aluR (fun _ _ _ => rfl) xor_eq_or,
    rrr_of_aluR (fun _ _ _ => rfl) shl_eq_mul,
    rrr_of_aluR (fun _ _ _ => rfl) shr_eq_div,
    rrr_of_aluR (fun _ _ _ => rfl) sra_eq_div,
    rrr_of_aluR (fun _ _ _ => rfl) min_eq_ofInt,
    rrr_of_aluR (fun _ _ _ => rfl) max_eq_ofInt,
    rrr_of_aluR (fun _ _ _ => rfl) minu_eq_ofNat,
    rrr_of_aluR (fun _ _ _ => rfl) maxu_eq_ofNat⟩

theorem divisionResults : DivisionResults :=
  ⟨rrr_of_aluR (fun _ _ _ => rfl) divU_eq_udiv,
    rrr_of_aluR (fun _ _ _ => rfl) remU_eq_umod,
    rrr_of_aluR (fun _ _ _ => rfl) divS_eq_tdiv,
    rrr_of_aluR (fun _ _ _ => rfl) remS_eq_tmod⟩

theorem sumResults : SumResults := by
  refine ⟨rri_of_aluI (formed := fun _ => true) (fun _ _ _ => rfl) (fun _ _ => rfl) add_eq_ofInt,
    fun c f s hx hp hd ha => ?_, fun c f s hx hp hd ha => ?_⟩
  · simp only [← BitVec.add_def]
    exact scalar_regsTo hx (hp.form hd.asA ha.asA rfl) fun _ => Core.setA_running ..
  · simp only [BitVec.ofInt_add, BitVec.ofInt_toInt]
    exact scalar_regsTo hx (hp.form hd.asA ha.asA) fun _ => Core.setA_running ..

/-- Settles O4: each instruction writes its operation's value, and each operation is the integer one modulo 2^64, with the
corners of R259. -/
theorem arithmeticResults : Obligations.ArithmeticResults := ⟨threeRegisterResults, divisionResults, sumResults⟩

end Sys2Proof.Claims
end

section
/-! ## Immediates (R254, R258) -/

namespace Sys2Proof.Claims
open Sys2Proof.Machine

/-- A shift by an immediate is well-formed where IMM[31:6] is zero. -/
theorem shiftImm_of_lt {f : FmtI} (h : f.imm.toNat < 64) : shiftImm f = true := decide_eq_true h

/-- A shift whose IMM[31:6] is not zero is a Stylus fault with DECODE. -/
theorem aluI_shift_decode {s : State} {c : CoreId} {f : FmtI} {op : Word → Word → Word} (hfetch : Fetches s c)
    (hm : 64 ≤ f.imm.toNat) : aluI c f (shiftImm f) op s = (s.stylusFault c .decode).tryReport := by
  have hrsv : shiftImm f = false := decide_eq_false (Nat.not_lt.2 hm)
  exact scalar_decode hfetch (by rw [hrsv, Bool.and_false])

/-- Settles O5: the operations with an immediate are those of three registers, MOVI and MOVHI write what they make of IMM,
NOP leaves its core, and a shift's Rsv bits are part of its word's form. -/
theorem immediateResults : Obligations.ImmediateResults := by
  refine ⟨rri_of_aluI (formed := fun _ => true) (fun _ _ _ => rfl) (fun _ _ => rfl) and_eq_not_or,
    rri_of_aluI (formed := fun _ => true) (fun _ _ _ => rfl) (fun _ _ => rfl) or_eq_not_and,
    rri_of_aluI (formed := fun _ => true) (fun _ _ _ => rfl) (fun _ _ => rfl) xor_eq_or,
    rri_of_aluI (formed := shiftImm) (fun _ _ _ => rfl) (fun _ => shiftImm_of_lt) shl_eq_mul,
    rri_of_aluI (formed := shiftImm) (fun _ _ _ => rfl) (fun _ => shiftImm_of_lt) shr_eq_div,
    rri_of_aluI (formed := shiftImm) (fun _ _ _ => rfl) (fun _ => shiftImm_of_lt) sra_eq_div,
    fun c f s hx hp hra => ?_, fun c f s hx hp hrd hra hrb => ?_, fun c f s hfetch hm mk hmk => ?_⟩
  · have hf : formI asS unused f = true := hp.form rfl (unused_iff.2 hra)
    refine ⟨scalar_regsTo hx hf fun _ => Core.setS_running .., ?_⟩
    simp only [← append_low_eq]
    exact scalar_regsTo hx hf fun _ => Core.setS_running ..
  · exact congrArg Host.Outcome.next
      (scalar_next hx (hp.form (unused_iff.2 hrd) (unused_iff.2 hra) (unused_iff.2 hrb)) (Eng.exec_pure ..) hx.running)
  · simp only [List.mem_cons, List.not_mem_nil, or_false] at hmk
    obtain rfl | rfl | rfl := hmk <;> exact congrArg Host.Outcome.next (aluI_shift_decode hfetch hm)

end Sys2Proof.Claims
end

section
/-! ## Predicates (R252, R258, R260) -/

namespace Sys2Proof.Claims
open Sys2Proof.Machine

/-- The comparison that a code of the table "Comparison codes" names (R260). -/
def NamesComparison (cc : BitVec 4) (p : Word → Word → Bool) : Prop :=
  (cc = 0 ∧ p = fun a b => decide (a.toNat = b.toNat)) ∨ (cc = 1 ∧ p = fun a b => decide (a.toNat ≠ b.toNat)) ∨
  (cc = 2 ∧ p = fun a b => decide (a.toInt < b.toInt)) ∨ (cc = 3 ∧ p = fun a b => decide (a.toNat < b.toNat)) ∨
  (cc = 4 ∧ p = fun a b => decide (b.toInt ≤ a.toInt)) ∨ (cc = 5 ∧ p = fun a b => decide (b.toNat ≤ a.toNat))

theorem beq_eq_decide_toNat (a b : Word) : (a == b) = decide (a.toNat = b.toNat) :=
  (decide_eq_decide.2 BitVec.toNat_inj.symm : decide (a = b) = _)

theorem NamesComparison.condition {cc : BitVec 4} {p : Word → Word → Bool} (h : NamesComparison cc p) (a b : Word) :
    Machine.condition cc a b = some (p a b) := by
  obtain ⟨rfl, rfl⟩ | ⟨rfl, rfl⟩ | ⟨rfl, rfl⟩ | ⟨rfl, rfl⟩ | ⟨rfl, rfl⟩ | ⟨rfl, rfl⟩ := h
  · exact congrArg some (beq_eq_decide_toNat a b)
  · exact congrArg some ((congrArg not (beq_eq_decide_toNat a b)).trans decide_not.symm)
  · exact congrArg some BitVec.slt_eq_decide
  · exact congrArg some BitVec.ult_eq_decide
  · refine congrArg some ?_
    rw [BitVec.slt_eq_decide, ← decide_not, decide_eq_decide, Int.not_lt]
  · refine congrArg some ?_
    rw [BitVec.ult_eq_decide, ← decide_not, decide_eq_decide, Nat.not_lt]

theorem NamesComparison.ccOk {cc : BitVec 4} {p : Word → Word → Bool} (h : NamesComparison cc p) : Machine.ccOk cc = true := by
  obtain ⟨rfl, -⟩ | ⟨rfl, -⟩ | ⟨rfl, -⟩ | ⟨rfl, -⟩ | ⟨rfl, -⟩ | ⟨rfl, -⟩ := h <;> rfl

theorem ccOk_reserved {cc : BitVec 4} (h : 6 ≤ cc.toNat) : Machine.ccOk cc = false := decide_eq_false (Nat.not_lt.2 h)

/-- The word of a comparison with a defined code. -/
theorem cmpForm {w : Nat} {p : Pre} {rd : BitVec 5} {rsv : BitVec w} {cc : BitVec 4} (hp : PlainPre p) (hd : NamesP rd)
    (hrsv : rsv = 0) (hcc : Machine.ccOk cc = true) : (Machine.plainPre p && asP rd && unused rsv && Machine.ccOk cc) = true := by
  simp only [hp.form, hd.asP, unused_iff.2 hrsv, hcc, Bool.and_self]

/-- Settles O6: predicate logic writes its operation's value, a comparison the condition that its code names; a reserved
code is part of an ill-formed word. -/
theorem predicateResults : Obligations.PredicateResults := by
  refine ⟨ppp_of_predR fun _ _ _ => rfl, ppp_of_predR fun _ _ _ => rfl, ppp_of_predR fun _ _ _ => rfl,
    fun c f s hx hp hd ha hb => ?_, fun c f s p hcc hx hpre hrsv hd => ?_, fun c f g s hfetch hf hg => ?_⟩
  · exact scalar_regsTo hx (hp.form hd.asP ha.asP (unused_iff.2 hb)) fun _ => Core.setPred_running ..
  · have hnames : NamesComparison f.cc p := hcc
    constructor
    · refine (scalar_regsTo hx (cmpForm hpre hd hrsv hnames.ccOk) fun _ => Core.setPred_running ..).trans ?_
      simp only [hnames.condition, Option.getD_some]
    · intro g hgpre hgcc hgrsv hgrd
      rw [← hgpre] at hx hpre
      rw [← hgcc] at hnames
      rw [← hgrd] at hd
      refine (scalar_regsTo hx (cmpForm hpre hd hgrsv hnames.ccOk) fun _ => Core.setPred_running ..).trans ?_
      simp only [hnames.condition, Option.getD_some, sext]
  · exact ⟨congrArg Host.Outcome.next (scalar_decode hfetch (by rw [ccOk_reserved hf, Bool.and_false])),
      congrArg Host.Outcome.next (scalar_decode hfetch (by rw [ccOk_reserved hg, Bool.and_false]))⟩

end Sys2Proof.Claims
end

section
/-! ## Moves between the register files, and words of a td register (R252, R258) -/

namespace Sys2Proof.Claims
open Sys2Proof.Machine

theorem addressRegisterResults : AddressRegisterResults := fun _ _ _ hx hp =>
  ⟨fun hd hb => scalar_regsTo hx (hp.form hd.asA rfl (unused_iff.2 hb)) fun _ => Core.setA_running ..,
    fun ha hb => scalar_regsTo hx (hp.form rfl ha.asA (unused_iff.2 hb)) fun _ => Core.setS_running ..⟩

/-- A write of one word of a td register leaves the other files and every other word. -/
theorem setTdWord_td (x : Core) (v : Word) {i k : Nat} (hi : i < 16) (hk : k < 16) (j l : Fin 16) :
    ((x.setTdWord i k v).td[j])[l] = if j.val = i ∧ l.val = k then v else (x.td[j])[l] := by
  have hreg : x.tdreg i = x.td[i] := by simp [Core.tdreg, Nat.mod_eq_of_lt hi, List.getD, hi]
  simp only [Core.setTdWord, Core.setTd, hreg, Nat.mod_eq_of_lt hi, Nat.mod_eq_of_lt hk, Fin.getElem_fin, Vector.getElem_set]
  by_cases hj : i = j.val
  · subst hj
    by_cases hl : k = l.val <;> simp [hl, eq_comm]
  · simp [hj, eq_comm]

/-- An instruction that writes word IMM[3:0] of a td register. -/
theorem tdWord_written {s : State} {c : CoreId} {f : FmtI} {v : Core → Word} {o : Host.Outcome State Fault Refusal}
    (hx : Executes s c f.pre) (hp : PlainI f) (hd : NamesA f.rd) (hm : f.imm.toNat < 16)
    (ho : o = .next (scalar c f.pre (formI asA asS f && wordImm f)
      (regsStep c fun x => x.setTdWord f.rd.toNat f.imm.toNat (v x)) s)) :
    ∃ x : Core, o = regsTo s c (fun _ => x) ∧ x = { s.core c with td := x.td } ∧
      ∀ (i : Fin 16) (k : Fin 16), (x.td[i])[k] =
        if i.val = f.rd.toNat ∧ k.val = f.imm.toNat then v (s.core c) else ((s.core c).td[i])[k] := by
  have hword : wordImm f = true := decide_eq_true hm
  have hf : (formI asA asS f && wordImm f) = true := by rw [hp.form hd.asA rfl, hword, Bool.and_self]
  exact ⟨_, ho.trans (scalar_regsTo hx hf fun _ => Core.setTdWord_running ..), rfl, setTdWord_td _ _ hd hm⟩

/-- The paired word of the low half of a word (R10). -/
theorem pair_low (w : Word) : pair (w.toNat % 2 ^ 32) = (~~~w.setWidth 32) ++ (w.setWidth 32 : BitVec 32) := by
  rw [← pair_eq, BitVec.toNat_setWidth]

theorem descriptorWordWrites : DescriptorWordWrites := by
  refine fun c f s hx hp hd hm => ⟨tdWord_written hx hp hd hm rfl, ?_⟩
  rw [← pair_low]
  exact tdWord_written (v := fun x => pair ((x.sreg f.ra.toNat).toNat % 2 ^ 32)) hx hp hd hm rfl

/-- Settles O9: a move writes the one register that it names, and a descriptor write the one word. -/
theorem addressAndDescriptorWrites : Obligations.AddressAndDescriptorWrites := ⟨addressRegisterResults, descriptorWordWrites⟩

end Sys2Proof.Claims
end

section
/-! ## Branches (R258, R263) -/

namespace Sys2Proof.Machine

/-- A branch to an offset that is not negative goes there. -/
theorem State.flow_jump (t : State) (c : CoreId) (n : Nat) : t.flow c (.jump n) = t.modCore c fun x => { x with pc := n } := by
  rw [State.flow, if_neg (Int.not_lt.2 (Int.natCast_nonneg n))]
  rfl

end Sys2Proof.Machine

namespace Sys2Proof.Claims
open Sys2Proof.Machine

/-- An instruction that executes and branches leaves its body's state, at the target. -/
theorem scalar_jump {s t : State} {c : CoreId} {pre : Pre} {formed : Bool} {body : Eng Flow} {n : Nat} (hx : Executes s c pre)
    (hf : formed = true) (hb : Eng.exec body s = (.ok (.jump n), t)) (hr : (t.core c).running = true) :
    scalar c pre formed body s = t.modCore c fun x => { x with pc := n } := by
  obtain ⟨⟨hi, ha, hp⟩, hg⟩ := hx
  rw [scalar, stylus_executes hi ha hp hf hg hb, State.flow_jump]
  exact State.tryReport_of_running _ c (by simpa using hr)

/-- What LOOP writes of its counter (R263). -/
def countDown (f : FmtB) (x : Core) : Core := x.setS f.ra.toNat (x.sreg f.ra.toNat - 1)

/-- Where LOOP goes (R263). -/
def loopFlow (f : FmtB) (x : Core) : Flow := if x.sreg f.ra.toNat - 1 = 0 then .step else .jump (branchTarget x f.off)

/-- The counter reaches zero where it stood at one. -/
theorem loopFlow_last {f : FmtB} {x : Core} (h : x.sreg f.ra.toNat = 1) : loopFlow f x = .step := if_pos (by rw [h]; rfl)

theorem loopFlow_more {f : FmtB} {x : Core} (h : x.sreg f.ra.toNat ≠ 1) : loopFlow f x = .jump (branchTarget x f.off) :=
  if_neg (by bv_omega)

/-- LOOP writes its counter, then goes where the counter says. -/
def loopBody (c : CoreId) (f : FmtB) : Eng Flow := do
  let t ← get
  set (t.modCore c (countDown f))
  pure (loopFlow f (t.core c))

theorem exec_loop (c : CoreId) (f : FmtB) (s : State) :
    exec (.loop c f) s = .next (scalar c f.pre (formB asS f && f.ra != 0) (loopBody c f) s) := rfl

theorem exec_loopBody (c : CoreId) (f : FmtB) (s : State) :
    Eng.exec (loopBody c f) s = (.ok (loopFlow f (s.core c)), s.modCore c (countDown f)) := rfl

theorem countDown_running (f : FmtB) (s : State) (c : CoreId) :
    ((s.modCore c (countDown f)).core c).running = (s.core c).running := by
  rw [State.core_modCore, countDown, Core.setS_running]

theorem PlainB.form_loop {f : FmtB} (h : PlainB f) (hra : f.ra ≠ 0) : (formB asS f && f.ra != 0) = true := by
  rw [h.form rfl, Bool.true_and, bne_iff_ne]
  exact hra

/-- Settles O13: BR and JR go to their target; LOOP writes its counter, and goes on or to its target as the counter is zero
or not. -/
theorem branchResults : Obligations.BranchResults := by
  refine fun c f s hx hp => ⟨fun t hra ht => ?_, fun hra hone => ?_, fun t hra hmore ht => ?_, fun hoff => ?_⟩
  · refine congrArg Host.Outcome.next (scalar_jump hx (hp.form (unused_iff.2 hra)) ?_ hx.running)
    rw [ht]
    rfl
  · have hbody := exec_loopBody c f s
    rw [loopFlow_last hone] at hbody
    have hnext := scalar_next hx (hp.form_loop hra) hbody ((countDown_running f s c).trans hx.running)
    rw [exec_loop, hnext, State.modCore_modCore, State.modCore, countDown, hone]
    rfl
  · have hbody := exec_loopBody c f s
    rw [loopFlow_more hmore, branchTarget, ← ht] at hbody
    have hnext := scalar_jump hx (hp.form_loop hra) hbody ((countDown_running f s c).trans hx.running)
    rw [exec_loop, hnext, State.modCore_modCore]
    rfl
  · exact congrArg Host.Outcome.next (scalar_jump hx (by rw [hp.form rfl, unused_iff.2 hoff]; rfl) rfl hx.running)

end Sys2Proof.Claims
end

section
/-! ## Words whose guard fails (R253) -/

namespace Sys2Proof.Claims
open Sys2Proof.Machine

theorem queueOf_isSome (q : BitVec 2) : (queueOf q).isSome = (q != 0) := by
  revert q
  decide

/-- A word of the scalar, memory, control-flow and synchronisation instructions executes as such an instruction, with its
own common fields and a check that says what its format does. -/
theorem exec_eq_scalar {i : Instr} {c : CoreId} {pre : Pre} {formed : Bool} (h : word i = some (c, pre, formed)) :
    ∃ (check : Bool) (body : Eng Flow), (∀ s, exec i s = .next (scalar c pre check body s)) ∧ check = formed := by
  -- one case for each row of `word`; the two write immediates, queues and comparison codes in different ways
  unfold word at h
  split at h <;> cases h <;> exact ⟨_, _, fun _ => rfl, by simp only [Bool.and_true, queueOf_isSome, ccOk, shiftImm, wordImm]⟩

/-- Settles O14: such a word is skipped, and what is skipped only advances the pc. -/
theorem guardedOffHasNoEffect : Obligations.GuardedOffHasNoEffect := by
  intro i c pre s hword ⟨hi, ha, hp⟩ hguard
  obtain ⟨_, body, hexec, rfl⟩ := exec_eq_scalar hword
  rw [hexec, scalar_skips hi ha hp rfl hguard]
  rfl

end Sys2Proof.Claims
end

section
/-! ## Codewords within the decoder's bound, and patrol scrub (R287, R290, R291) -/

namespace Sys2Proof.Machine

theorem rsDecode_bounded {n r t : Nat} {e f : Pattern} (h : rsDecode n r t e = some f) :
    f.length ≤ t ∧ syndromes f r = syndromes e r := by
  unfold rsDecode at h
  dsimp only at h
  split at h
  next hzero =>
    cases h
    have hz : ∀ j < r, syndrome e j = 0 := by simpa [syndromes] using hzero
    exact ⟨Nat.zero_le _, List.map_congr_left fun j hj => (hz j (List.mem_range.1 hj)).symm⟩
  next =>
    split at h
    next hfound =>
      cases h
      exact hfound.2
    next => cases h

/-- The candidate list is apart from the scrubber's place and its count. -/
theorem Stack.listRow_scrub (x : Stack) (r : RowRef) :
    (x.listRow r).scrubAt = x.scrubAt ∧ (x.listRow r).scrubUncorrected = x.scrubUncorrected := by
  unfold Stack.listRow
  dsimp only
  split
  · exact ⟨rfl, rfl⟩
  · split <;> exact ⟨rfl, rfl⟩

theorem Stack.correct_scrub (x : Stack) (line pc p n : Nat) :
    (x.correct line pc p n).scrubAt = x.scrubAt ∧ (x.correct line pc p n).scrubUncorrected = x.scrubUncorrected := by
  unfold Stack.correct
  dsimp only
  split
  · exact Stack.listRow_scrub ..
  · exact ⟨rfl, rfl⟩

theorem residual_length (data : List Byte) (e f : Pattern) : (residual data e f).length = 64 := by
  simp [residual]

/-- A stack whose scrubber goes on to the codeword after the one at p on a pseudo-channel (R290). -/
def Stack.scrubbed (x : Stack) (pc : Fin 32) : Stack :=
  { x with scrubAt := x.scrubAt.set pc.val ((x.scrubAt[pc] + 64) % pcSize) pc.isLt }

/-- The codeword that the scrubber of a stack takes next on a pseudo-channel. -/
def State.scrubLine (s : State) (i : StackId) (pc : Fin 32) : Nat := hbmUnmap i.val pc.val (s.stack i).scrubAt[pc]

theorem State.modStack_modStack (s : State) (i : StackId) (f g : Stack → Stack) :
    (s.modStack i f).modStack i g = s.modStack i fun x => g (f x) := by
  simp [State.modStack, State.setStack, State.stack]

section
variable {s : State} {i : StackId} {pc : Fin 32}

theorem patrolScrub_idle (h : (s.stack i).scrubEn = false ∨ (s.stack i).ready = false) (err : List SymbolError) :
    exec (.patrolScrub i pc err) s = .next s :=
  if_pos (by simpa using h)

variable (hen : (s.stack i).scrubEn = true) (hready : (s.stack i).ready = true)
include hen hready

theorem patrolScrub_clean (hd : s.damageOf (s.scrubLine i pc) = []) :
    exec (.patrolScrub i pc []) s = .next (s.modStack i (·.scrubbed pc)) := by
  refine (if_neg (by simp [hen, hready])).trans (congrArg Host.Outcome.next (if_pos ?_))
  exact List.isEmpty_iff.2 hd

variable (hd : s.damageOf (s.scrubLine i pc) ≠ [])
include hd

theorem patrolScrub_uncorrectable (hnone : rsDecode 72 8 4 (s.damageOf (s.scrubLine i pc)) = none) :
    exec (.patrolScrub i pc []) s = .next (s.modStack i fun x =>
      { x.scrubbed pc with scrubUncorrected := satAdd 16 x.scrubUncorrected 1 }) := by
  refine (if_neg (by simp [hen, hready])).trans (congrArg Host.Outcome.next ((if_neg (mt List.isEmpty_iff.1 hd)).trans ?_))
  split
  next => exact s.modStack_modStack i (·.scrubbed pc) _
  next hsome => cases hnone.symm.trans hsome

theorem patrolScrub_correctable {f : Pattern} (hsome : rsDecode 72 8 4 (s.damageOf (s.scrubLine i pc)) = some f) (hf : f ≠ []) :
    exec (.patrolScrub i pc []) s = .next
      (((s.modStack i fun x => (x.scrubbed pc).correct (s.scrubLine i pc) pc.val (s.stack i).scrubAt[pc] f.length).poke
        (s.scrubLine i pc) (residual (s.peek (s.scrubLine i pc) 64) (s.damageOf (s.scrubLine i pc)) f)).setDamage
          (s.scrubLine i pc) []) := by
  refine (if_neg (by simp [hen, hready])).trans (congrArg Host.Outcome.next ((if_neg (mt List.isEmpty_iff.1 hd)).trans ?_))
  split
  next hnone => cases hnone.symm.trans hsome
  next g hg =>
    obtain rfl : g = f := Option.some.inj (hg.symm.trans hsome)
    exact (if_neg (mt List.isEmpty_iff.1 hf)).trans (congrArg (fun t : State => (t.poke _ _).setDamage _ [])
      (s.modStack_modStack i (·.scrubbed pc) fun x => x.correct _ _ _ _))
end

end Sys2Proof.Machine

namespace Sys2Proof.Claims
open Sys2Proof.Machine

/-- Each codeword that is taken moves the scrubber's place; a correction stores the residual over it, by memory's reading rules. -/
theorem patrolScrubs : PatrolScrubs := by
  intro s i pc p line
  refine ⟨fun h err => patrolScrub_idle h err, fun hen hready => ⟨fun hd => ?_, fun f hd hsome hf hw => ?_, fun hd hnone => ?_⟩⟩
  · have hst := s.stack_modStack i (·.scrubbed pc)
    refine ⟨_, patrolScrub_clean hen hready hd, ?_, congrArg Stack.scrubAt hst⟩
    rw [hst]
    rfl
  · have hst := s.stack_modStack i fun x => (x.scrubbed pc).correct line pc.val p f.length
    obtain ⟨hat, hsu⟩ := ((s.stack i).scrubbed pc).correct_scrub line pc.val p f.length
    have hc := (((s.stack i).scrubbed pc).correct_counts line pc.val p f.length).1
    have hlen := residual_length (s.peek line 64) (s.damageOf line) f
    have hin := Memory.bytes_setBytes s.mem line (residual (s.peek line 64) (s.damageOf line) f) hw
    have hout := fun a ha => Memory.byte_setBytes_out s.mem line a (residual (s.peek line 64) (s.damageOf line) f) hw ha
    rw [hlen] at hin hout
    exact ⟨_, patrolScrub_correctable hen hready hd hsome hf, rfl, (congrArg Stack.scrubAt hst).trans hat,
      State.damageOf_setDamage .., hin, hout, (congrArg Stack.corrected hst).trans (hc.trans (satAdd_one ..)),
      (congrArg Stack.scrubUncorrected hst).trans hsu, fun j hj => s.stack_modStack_ne i j (fun x => (x.scrubbed pc).correct line pc.val p f.length) hj⟩
  · have hst := s.stack_modStack i fun x =>
      { x.scrubbed pc with scrubUncorrected := satAdd 16 x.scrubUncorrected 1 }
    refine ⟨_, patrolScrub_uncorrectable hen hready hd hnone, ?_, congrArg Stack.scrubAt hst⟩
    rw [hst, ← satAdd_one 16]
    rfl

/-- Settles O37: what the decoder answers it has checked against the syndromes and the bound, or is the empty pattern of
syndromes that are all 0; the scrubber by the three outcomes of its codeword. -/
theorem codewordsAndScrub : Obligations.CodewordsAndScrub := ⟨fun _ _ _ _ _ h => rsDecode_bounded h, patrolScrubs⟩

end Sys2Proof.Claims
end

section
/-! ## What a crash record's writing leaves (R288, R289, R311, R484)

A request of memory may write memory, count what its codewords and refusals show, and mark local frames; a crash record is
made of such requests. What else the chip holds is one observation, `State.apart`, which each of them leaves. -/

namespace Sys2Proof.Machine

/-- A program of `Eng` leaves what an observation of the state sees (`KeepsRequests` is the case of `State.requests`). -/
def Keeps {β : Type} (π : State → β) {α : Type} (m : Eng α) : Prop := ∀ s, π (Eng.exec m s).2 = π s

section
variable {β : Type} {π : State → β} {α γ : Type}

theorem keeps_pure (a : α) : Keeps π (pure a : Eng α) := fun _ => rfl
theorem keeps_throw (e : Status) : Keeps π (throw e : Eng α) := fun _ => rfl
/-- What follows a status does not run. -/
theorem keeps_throw_bind (e : Status) (f : α → Eng γ) : Keeps π (throw e >>= f) := fun _ => rfl
theorem keeps_modify {f : State → State} (h : ∀ s, π (f s) = π s) : Keeps π (modify f : Eng Unit) := h
/-- A program that begins by reading the state may use it in what it writes. -/
theorem keeps_get_bind {f : State → Eng α} (h : ∀ s, π (Eng.exec (f s) s).2 = π s) : Keeps π (get >>= f) := h

theorem Keeps.bind {x : Eng α} {f : α → Eng γ} (hx : Keeps π x) (hf : ∀ a, Keeps π (f a)) : Keeps π (x >>= f) := by
  intro s
  have h := hx s
  rw [Eng.exec_bind]
  cases hr : Eng.exec x s with
  | mk r t =>
    rw [hr] at h
    cases r with
    | error e => exact h
    | ok a => exact (hf a t).trans h

theorem keeps_ite {c : Prop} [Decidable c] {x y : Eng α} (hx : Keeps π x) (hy : Keeps π y) : Keeps π (if c then x else y) := by
  split
  · exact hx
  · exact hy

theorem keeps_forM {f : α → Eng Unit} (h : ∀ a, Keeps π (f a)) (l : List α) : Keeps π (l.forM f) := by
  induction l with
  | nil => exact keeps_pure ()
  | cons a l ih => exact (h a).bind fun _ => ih

theorem keeps_mapM {f : α → Eng γ} (h : ∀ a, Keeps π (f a)) (l : List α) : Keeps π (l.mapM f) := by
  induction l with
  | nil => exact keeps_pure []
  | cons a l ih =>
    rw [List.mapM_cons]
    exact (h a).bind fun _ => ih.bind fun _ => keeps_pure _
end

/-- A stack without what its decoder records (R288, R291). -/
def Stack.apart (x : Stack) : Stack :=
  { x with corrected := 0, uncorrected := 0, ue := {}, ce := {}, candFull := false, cands := Vector.replicate 8 none,
           lastCorrected := Vector.replicate 32 none }

/-- The chip without its memory, the errors stored there, what requests record and mark, the suspects and the crash
record. -/
def State.apart (s : State) : State :=
  { s with
    mem := {}, damage := [], folio := {}, cores := Vector.replicate 128 {}, hbmStacks := s.hbmStacks.map Stack.apart
    recov := { s.recov with fenceRefused := 0, suspects := Vector.replicate 16 none, suspectOvf := false, crashValid := false
                            crashMissed := 0, crashKind := 0, crashIndex := 0 } }

theorem Stack.apart_listRow (x : Stack) (r : RowRef) : (x.listRow r).apart = x.apart := by
  unfold Stack.listRow
  dsimp only
  split
  · rfl
  · split <;> rfl

theorem Stack.apart_correct (x : Stack) (line pc p n : Nat) : (x.correct line pc p n).apart = x.apart := by
  unfold Stack.correct
  dsimp only
  split
  · exact Stack.apart_listRow ..
  · rfl

theorem State.apart_modStack {f : Stack → Stack} (h : ∀ x, (f x).apart = x.apart) (s : State) (i : StackId) :
    (s.modStack i f).apart = s.apart := by
  have hs : (s.modStack i f).hbmStacks.map Stack.apart = s.hbmStacks.map Stack.apart := by
    rw [State.modStack, State.setStack, Vector.map_set, h, State.stack, Fin.getElem_fin, ← Vector.getElem_map Stack.apart,
      Vector.set_getElem_self]
  unfold State.apart
  rw [hs]
  rfl

theorem keepsApart_readLine (line : Nat) : Keeps State.apart (readLine line) := by
  refine keeps_get_bind fun s => ?_
  dsimp only
  split
  · rfl
  · split
    · exact s.apart_modStack (f := (Stack.failed · line)) (fun _ => rfl) _
    · split
      · exact s.apart_modStack (fun x => x.apart_correct ..) _
      · rfl

theorem keepsApart_poke (off : Nat) (data : List Byte) : Keeps State.apart (modify fun s => s.poke off data) :=
  keeps_modify fun _ => rfl

theorem keepsApart_writeLine (off : Nat) (data : List Byte) : Keeps State.apart (writeLine off data) := by
  unfold writeLine
  refine keeps_ite ?_ (keeps_modify fun _ => rfl)
  exact (keepsApart_readLine _).bind fun _ => keeps_modify fun _ => rfl

theorem keepsApart_hbmRead (off n : Nat) : Keeps State.apart (hbmRead off n) := by
  refine Keeps.bind (fun _ => rfl) fun s => ?_
  dsimp only
  split
  · exact keeps_throw_bind _ _
  · refine keeps_ite ?_ (keeps_pure _)
    exact (keeps_mapM keepsApart_readLine _).bind fun _ => keeps_pure _

theorem keepsApart_hbmWrite (off : Nat) (data : List Byte) : Keeps State.apart (hbmWrite off data) := by
  refine Keeps.bind (fun _ => rfl) fun s => ?_
  dsimp only
  split
  · exact keeps_throw_bind _ _
  · exact keeps_ite (keeps_forM (fun _ => keepsApart_writeLine _ _) _) (keepsApart_poke _ _)

theorem keepsApart_fenced {α : Type} (f : α → Eng Unit) : Keeps State.apart (fenced >>= f) := fun _ => rfl

theorem keepsApart_dirtyOne (h : Nat) : Keeps State.apart (dirtyOne h) := by
  refine Keeps.bind (fun _ => rfl) fun s => (keepsApart_hbmRead _ _).bind fun bs => ?_
  dsimp only
  refine keeps_ite ((keepsApart_hbmWrite _ _).bind fun _ => ?_) (keeps_pure _)
  exact keeps_ite (keeps_modify fun _ => rfl) (keeps_pure _)

theorem State.apart_markDirty (s : State) (off n : Nat) : (s.markDirty off n).apart = s.apart := by
  unfold State.markDirty
  dsimp only
  split
  · rfl
  · exact List.foldlRecOn (motive := fun t : State => t.apart = s.apart) _ _ rfl
      fun t ht i _ => (keepsApart_dirtyOne _ t).trans ht

theorem keepsApart_accCheck (r : Requester) (c o n : Nat) : Keeps State.apart (accCheck r c o n) :=
  Keeps.bind (fun _ => rfl) fun _ => keeps_ite (keeps_throw _) (keeps_pure _)

theorem keepsApart_memWrite (r : Requester) (off : Nat) (data : List Byte) : Keeps State.apart (memWrite r off data) := by
  unfold memWrite
  refine keeps_ite (keeps_pure _) (Keeps.bind (fun _ => rfl) fun s => ?_)
  dsimp only
  split
  · refine keeps_ite (keeps_throw_bind _ _) ((keepsApart_hbmWrite _ _).bind fun _ => ?_)
    exact keeps_modify fun t => t.apart_markDirty _ _
  · refine keeps_ite (keepsApart_fenced _) (keeps_ite (fun _ => rfl) (keepsApart_poke _ _))
  · refine keeps_ite (keepsApart_fenced _) ?_
    exact (keepsApart_accCheck _ _ _ _).bind fun _ => keepsApart_poke _ _
  · exact keeps_throw _

theorem keepsApart_bulkSave (src n dst : Nat) : Keeps State.apart (bulkSave src n dst) := by
  refine keeps_get_bind fun s => ?_
  rw [Eng.exec_bind, Eng.exec_need]
  split
  next h =>
    cases (Prod.mk.inj h).2
    dsimp only
    split
    · rfl
    · exact State.apart_markDirty _ _ _
  next h => cases (Prod.mk.inj h).2; rfl

/-- What writes a crash record: the samples of the domain's cores, then the header, its MAGIC last (R484). -/
def State.crashProgram (s : State) (r : Recov) : Eng Unit := do
  (s.domCores r.kind r.index).forM fun n => (List.range 32).forM fun k =>
    bulkSave (spmOf n + k * 0x40000) 0x1000 (s.crashOff + 0x10000 + n * 0x20000 + k * 0x1000)
  let t ← get
  let h := t.crashHeader r (s.domCores r.kind r.index)
  memWrite .window (s.crashOff + 8) (h.drop 8)
  memWrite .window s.crashOff (h.take 8)

theorem keepsApart_crashProgram (s : State) (r : Recov) : Keeps State.apart (s.crashProgram r) := by
  refine (keeps_forM (fun _ => keeps_forM (fun _ => keepsApart_bulkSave _ _ _) _) _).bind fun _ => ?_
  refine Keeps.bind (fun _ => rfl) fun t => ?_
  exact (keepsApart_memWrite _ _ _).bind fun _ => keepsApart_memWrite _ _ _

/-- Where a record stands already, one is missed; else its program says whether there is one. -/
theorem State.writeCrash_cases (s : State) (r : Recov) :
    s.writeCrash r = { s with recov := { s.recov with crashMissed := satAdd 16 s.recov.crashMissed 1 } } ∨
    let t := (Eng.exec (s.crashProgram r) s).2
    s.writeCrash r = t ∨ s.writeCrash r =
      { t with recov := { t.recov with crashValid := true, crashKind := r.kind.code, crashIndex := r.index } } := by
  by_cases hv : s.recov.crashValid = true
  · exact .inl (if_pos hv)
  · refine .inr ?_
    have hw : s.writeCrash r = match Eng.exec (s.crashProgram r) s with
        | (.ok _, t) => { t with recov := { t.recov with crashValid := true, crashKind := r.kind.code, crashIndex := r.index } }
        | (.error _, t) => t := (if_neg hv).trans rfl
    rw [hw]
    split
    next he => rw [he]; exact .inr rfl
    next he => rw [he]; exact .inl rfl

theorem State.apart_writeCrash (s : State) (r : Recov) : (s.writeCrash r).apart = s.apart := by
  obtain h | h | h := s.writeCrash_cases r
  · rw [h]; rfl
  · rw [h]; exact keepsApart_crashProgram s r s
  · rw [h]; exact keepsApart_crashProgram s r s

theorem Recovery.suspect_eq (r : Recovery) (x : Suspect) :
    r.suspect x = { r with suspects := (r.suspect x).suspects, suspectOvf := (r.suspect x).suspectOvf } := by
  unfold Recovery.suspect
  split <;> rfl

theorem suspectAll_eq (l : List Suspect) (r : Recovery) :
    l.foldl Recovery.suspect r =
      { r with suspects := (l.foldl Recovery.suspect r).suspects, suspectOvf := (l.foldl Recovery.suspect r).suspectOvf } := by
  refine List.foldlRecOn (motive := fun q : Recovery => q = { r with suspects := q.suspects, suspectOvf := q.suspectOvf }) _ _ rfl
    fun q hq x _ => ?_
  have h := congrArg (fun u : Recovery => ({ u with
    suspects := (q.suspect x).suspects, suspectOvf := (q.suspect x).suspectOvf } : Recovery)) hq
  exact (q.suspect_eq x).trans h

/-- The suspects of a recovery are all that recording them changes (R486). -/
theorem State.recordSuspects_eq (s : State) (k : DomKind) (i : Nat) : ∃ sus ovf,
    s.recordSuspects k i = { s with recov := { s.recov with suspects := sus, suspectOvf := ovf } } :=
  ⟨_, _, congrArg (fun q => ({ s with recov := q } : State)) (suspectAll_eq _ s.recov)⟩

theorem State.apart_recordSuspects (s : State) (k : DomKind) (i : Nat) : (s.recordSuspects k i).apart = s.apart := by
  obtain ⟨sus, ovf, h⟩ := s.recordSuspects_eq k i
  rw [h]
  rfl

/-- States that differ in no more than `State.apart` leaves out agree on the epoch and the counts of recovery. -/
theorem State.apart_recov {s t : State} (h : t.apart = s.apart) :
    t.recov.epoch = s.recov.epoch ∧ t.recov.hangs = s.recov.hangs ∧ t.recov.recoveries = s.recov.recoveries :=
  ⟨congrArg (·.recov.epoch) h, congrArg (·.recov.hangs) h, congrArg (·.recov.recoveries) h⟩

theorem State.fusing_apart (s : State) : s.apart.hbmStacks.toList.any Stack.fusing = s.hbmStacks.toList.any Stack.fusing := by
  rw [State.apart, Vector.toList_map, List.any_map]
  rfl

/-- They agree on whether a stack blows fuses, too. -/
theorem State.apart_fusing {s t : State} (h : t.apart = s.apart) :
    t.hbmStacks.toList.any Stack.fusing = s.hbmStacks.toList.any Stack.fusing := by
  rw [← State.fusing_apart, h, State.fusing_apart]

end Sys2Proof.Machine
end

section
/-! ## Hangs (R481, R482) -/

namespace Sys2Proof.Machine

/-- One hang more in the count (R481). -/
def State.countHang (s : State) : State := { s with recov := { s.recov with hangs := satAdd 16 s.recov.hangs 1 } }

/-- One recovery more in the count (R483). -/
def State.countRecovery (s : State) : State := { s with recov := { s.recov with recoveries := satAdd 16 s.recov.recoveries 1 } }

/-- Where no fuse blows, a device recovery is the device's reset (R485, R493). -/
theorem deviceRecover_reset {s : State} (h : s.hbmStacks.toList.any Stack.fusing = false) (trigger : Nat) :
    s.deviceRecover trigger = s.deviceReset := if_neg (by rw [h]; exact Bool.false_ne_true)

/-- What a declared hang leads to, once it is counted: the device's reset after its crash record, or a recovery asked for. -/
def State.answerHang (s : State) (k : DomKind) (i : Nat) : State :=
  if k = .device then
    ((s.recordSuspects .device 0).writeCrash ⟨k, i, 1, .draining⟩).countRecovery.deviceRecover 1
  else s.submitRecovery ⟨k, i, 1, .draining⟩

section
variable {s : State} (hq : s.proof.errEn = false)
include hq

theorem hang_quiet (k : DomKind) (i : Nat) : s.hang k i = s.countHang.answerHang k i :=
  congrArg (State.answerHang · k i) (if_neg fun h => Bool.false_ne_true (hq.symm.trans h.1))

/-- A hang of the device leads to its reset, with the crash record written and the recovery counted before. -/
theorem hang_device (hf : s.hbmStacks.toList.any Stack.fusing = false) : ∃ u : State, u.apart = s.countHang.apart ∧
    s.hang .device 0 = u.countRecovery.deviceReset := by
  have hu : ((s.countHang.recordSuspects .device 0).writeCrash ⟨.device, 0, 1, .draining⟩).apart = s.countHang.apart :=
    (State.apart_writeCrash _ _).trans (State.apart_recordSuspects _ _ _)
  refine ⟨_, hu, ?_⟩
  rw [hang_quiet hq, State.answerHang, if_pos rfl]
  exact deviceRecover_reset (s := State.countRecovery _) ((State.apart_fusing hu).trans hf) 1

/-- A hang of another domain, with no recovery in progress, begins the domain's recovery. -/
theorem hang_domain {k : DomKind} (hk : k ≠ .device) (hc : s.recov.current = none) (i : Nat) :
    s.hang k i = s.countHang.startRecovery ⟨k, i, 1, .draining⟩ := by
  have hnone : s.countHang.recov.current = none := hc
  rw [hang_quiet hq, State.answerHang, if_neg hk, State.submitRecovery, hnone]
end

/-- A recovery that begins writes the crash record, is counted and is the one in progress; its fences are the stacks'. -/
theorem startRecovery_recov (s : State) (r : Recov) : ∃ u : State, u.apart = s.apart ∧
    (s.startRecovery r).recov = { u.recov with
      current := some r, lastKind := r.kind.code, lastIndex := r.index, recoveries := satAdd 16 u.recov.recoveries 1 } := by
  refine ⟨_, s.apart_writeCrash r, ?_⟩
  unfold State.startRecovery
  exact List.foldlRecOn (motive := fun t : State => t.recov = _) _ _ rfl fun t ht j _ => ht

/-- The reset advances the epoch, keeps the counts of hangs and recoveries, and leaves the cores and start-up at their reset
values (R480, R485). -/
theorem deviceReset_facts (s : State) :
    s.deviceReset.recov.epoch = s.recov.epoch + 1 ∧ s.deviceReset.recov.hangs = s.recov.hangs ∧
    s.deviceReset.recov.recoveries = s.recov.recoveries ∧ s.deviceReset.cores = Vector.replicate 128 {} ∧
    s.deviceReset.boot.booted = false := ⟨rfl, rfl, rfl, rfl, rfl⟩

section
variable {s t : State} (h : t.apart = s.countHang.apart)
include h

theorem hangs_countHang : t.recov.hangs = min (2 ^ 16 - 1) (s.recov.hangs + 1) := by
  rw [(State.apart_recov h).2.1, ← Claims.satAdd_one]
  rfl

theorem epoch_countHang : t.recov.epoch = s.recov.epoch := (State.apart_recov h).1

theorem recoveries_countHang : satAdd 16 t.recov.recoveries 1 = min (2 ^ 16 - 1) (s.recov.recoveries + 1) := by
  rw [(State.apart_recov h).2.2, Claims.satAdd_one]
  rfl
end

/-- What a hang of the device leaves. -/
theorem hang_device_reset {s : State} (hq : s.proof.errEn = false) (hf : s.hbmStacks.toList.any Stack.fusing = false) :
    (s.hang .device 0).recov.epoch = s.recov.epoch + 1 ∧
    (s.hang .device 0).recov.hangs = min (2 ^ 16 - 1) (s.recov.hangs + 1) ∧
    (s.hang .device 0).recov.recoveries = min (2 ^ 16 - 1) (s.recov.recoveries + 1) ∧
    (s.hang .device 0).cores = Vector.replicate 128 {} ∧ (s.hang .device 0).boot.booted = false := by
  obtain ⟨u, hu, hhang⟩ := hang_device hq hf
  obtain ⟨hepoch, hhangs, hrecs, hreset⟩ := deviceReset_facts u.countRecovery
  rw [hhang, hepoch, hhangs, hrecs, ← recoveries_countHang hu, ← hangs_countHang hu, ← epoch_countHang hu]
  exact ⟨rfl, rfl, rfl, hreset⟩

/-- What a hang of another domain leaves of the counts, with no recovery in progress. -/
theorem hang_domain_recov {s : State} (hq : s.proof.errEn = false) {k : DomKind} (hk : k ≠ .device) (hc : s.recov.current = none)
    (i : Nat) : (s.hang k i).recov.current = some ⟨k, i, 1, .draining⟩ ∧
    (s.hang k i).recov.hangs = min (2 ^ 16 - 1) (s.recov.hangs + 1) ∧
    (s.hang k i).recov.recoveries = min (2 ^ 16 - 1) (s.recov.recoveries + 1) ∧ (s.hang k i).recov.epoch = s.recov.epoch := by
  obtain ⟨u, hu, hrec⟩ := startRecovery_recov s.countHang ⟨k, i, 1, .draining⟩
  rw [hang_domain hq hk hc, hrec, ← recoveries_countHang hu, ← hangs_countHang hu, ← epoch_countHang hu]
  exact ⟨rfl, rfl, rfl, rfl⟩

end Sys2Proof.Machine
end

section
/-! ## Heartbeats (R480, R481) -/

namespace Sys2Proof.Claims
open Sys2Proof.Machine

/-- The state after the first check of a period, with the counts that it found, before the hangs that it declares. -/
def checked (s : State) (missed : Vector Nat 96) : State := { s with
  tick := { s.tick with edgeChecked := true }
  recov := { s.recov with missed := missed }
  cores := s.cores.map fun x => { x with startedSince := false } }

@[simp] theorem checked_epoch (s : State) (m : Vector Nat 96) : (checked s m).recov.epoch = s.recov.epoch := rfl
@[simp] theorem checked_hangs (s : State) (m : Vector Nat 96) : (checked s m).recov.hangs = s.recov.hangs := rfl
@[simp] theorem checked_recoveries (s : State) (m : Vector Nat 96) : (checked s m).recov.recoveries = s.recov.recoveries := rfl

@[simp] theorem checked_current (s : State) (m : Vector Nat 96) : (checked s m).recov.current = s.recov.current := rfl

/-- The domains whose count has come to HB_LIMIT, by number. -/
def hungDomains (s : State) (missed : Vector Nat 96) : List Nat :=
  (List.range 81).filter fun n => missed.toList.getD n 0 == max 1 s.recov.hbLimit

/-- The hangs that a check declares: the device's alone, or each domain's (R481, R482). -/
def declared (s : State) (missed : Vector Nat 96) : State :=
  if (hungDomains s missed).contains 0 then (checked s missed).hang .device 0
  else (hungDomains s missed).foldl (fun t n => match domOfNumber n with
    | some (k, i) => t.hang k i
    | none => t) (checked s missed)

/-- A domain's count as the check computes it. -/
def counted (s : State) (f : LivenessFacts) (n : Nat) : Nat :=
  match domOfNumber n with
  | none => 0
  | some (k, i) => if i ≥ k.count s ∨ s.domLive f k i then 0 else s.recov.missed.toList.getD n 0 + 1

theorem counted_eq (s : State) (f : LivenessFacts) (n : Fin 96) : counted s f n.val = missedAfter s f n := by
  have hget : s.recov.missed.toList.getD n.val 0 = s.recov.missed[n] := by simp
  unfold counted missedAfter
  rw [hget]
  cases domOfNumber n.val with
  | none => rfl
  | some d =>
    obtain ⟨k, i⟩ := d
    dsimp only
    have hneg : (i ≥ k.count s ∨ s.domLive f k i = true) ↔ ¬ (i < k.count s ∧ s.domLive f k i = false) := by
      rw [Decidable.not_and_iff_not_or_not, Nat.not_lt, Bool.not_eq_false]
    simp only [hneg, ite_not]

theorem exec_heartbeatCheck {s : State} (f : LivenessFacts) (h : s.tick.edgeChecked = false) :
    exec (.heartbeatCheck f) s = .next (declared s (Vector.ofFn (missedAfter s f))) := by
  have hwait : (if s.tick.run ∧ s.tick.tickStarted ∧ s.tick.edgeChecked then s.countWaits else s) = s :=
    if_neg fun hn => Bool.false_ne_true (h.symm.trans hn.2.2)
  have hcount : Vector.ofFn (fun n : Fin 96 => counted s f n.val) = Vector.ofFn (missedAfter s f) :=
    congrArg Vector.ofFn (funext fun n => counted_eq s f n)
  rw [← hcount]
  have hform : ∀ u, (if s.tick.run ∧ s.tick.tickStarted ∧ s.tick.edgeChecked then s.countWaits else s) = u →
      exec (.heartbeatCheck f) s =
        .next (declared { u with tick := s.tick } (Vector.ofFn fun n : Fin 96 => counted u f n.val)) := by
    rintro _ rfl
    rfl
  exact hform s hwait

section
variable {s : State} {f : LivenessFacts}

theorem missedAfter_of_none {n : Fin 96} (h : domOfNumber n.val = none) : missedAfter s f n = 0 := by
  simp only [missedAfter, h]

theorem mem_hungDomains (n : Fin 96) :
    n.val ∈ hungDomains s (Vector.ofFn (missedAfter s f)) ↔ missedAfter s f n = max 1 s.recov.hbLimit := by
  have hget : (Vector.ofFn (missedAfter s f)).toList.getD n.val 0 = missedAfter s f n := by simp
  rw [hungDomains, List.mem_filter, hget, List.mem_range, beq_iff_eq, and_iff_right_iff_imp]
  refine fun h => Nat.lt_of_not_le fun hn => ?_
  have hnone : domOfNumber n.val = none := by
    unfold domOfNumber
    rw [if_neg (by omega), if_neg (by omega), if_neg (by omega), if_neg (by omega), if_neg (by omega), if_neg (by omega)]
  have hzero := missedAfter_of_none (s := s) (f := f) hnone
  have hlimit := Nat.le_max_left 1 s.recov.hbLimit
  omega

theorem hungDomains_lt {missed : Vector Nat 96} {n : Nat} (h : n ∈ hungDomains s missed) : n < 96 := by
  have := List.mem_range.1 (List.mem_filter.1 h).1
  omega

/-- With no count at the limit no hang is declared. -/
theorem declared_none (h : ∀ n, missedAfter s f n ≠ max 1 s.recov.hbLimit) :
    declared s (Vector.ofFn (missedAfter s f)) = checked s (Vector.ofFn (missedAfter s f)) := by
  have hnil : hungDomains s (Vector.ofFn (missedAfter s f)) = [] :=
    List.eq_nil_iff_forall_not_mem.2 fun n hn => h ⟨n, hungDomains_lt hn⟩ ((mem_hungDomains ⟨n, hungDomains_lt hn⟩).1 hn)
  rw [declared, hnil]
  rfl

theorem declared_device (h : missedAfter s f 0 = max 1 s.recov.hbLimit) :
    declared s (Vector.ofFn (missedAfter s f)) = (checked s (Vector.ofFn (missedAfter s f))).hang .device 0 :=
  if_pos (List.contains_iff_mem.2 ((mem_hungDomains 0).2 h))

/-- With one count at the limit, that of a domain other than the device, its hang alone is declared. -/
theorem declared_domain {n : Fin 96} {k : DomKind} {i : Nat} (h : ∀ m, missedAfter s f m = max 1 s.recov.hbLimit ↔ m = n)
    (hn : domOfNumber n.val = some (k, i)) (hk : k ≠ .device) :
    declared s (Vector.ofFn (missedAfter s f)) = (checked s (Vector.ofFn (missedAfter s f))).hang k i := by
  have hone : hungDomains s (Vector.ofFn (missedAfter s f)) = [n.val] := by
    refine List.perm_singleton.1 ((List.perm_ext_iff_of_nodup (List.nodup_range.filter _) (List.pairwise_singleton _ _)).2 fun m => ?_)
    rw [List.mem_singleton]
    refine ⟨fun hm => ?_, fun hm => ?_⟩
    · have hlimit := (mem_hungDomains ⟨m, hungDomains_lt hm⟩).1 hm
      exact congrArg Fin.val ((h ⟨m, hungDomains_lt hm⟩).1 hlimit)
    · rw [hm]
      exact (mem_hungDomains n).2 ((h n).2 rfl)
  have hpos : n.val ≠ 0 := fun hz => by
    rw [hz] at hn
    cases hn
    exact hk rfl
  rw [declared, hone, if_neg (by simpa using hpos.symm), List.foldl_cons, List.foldl_nil, hn]
end

/-- The check by the hangs that it declares, and what one hang leaves of the counts. -/
theorem heartbeats : Heartbeats := by
  intro s f hq hedge
  have hexec := exec_heartbeatCheck f hedge
  refine ⟨fun h => ?_, fun h hf => ?_, fun n k i h hn hk hc => ?_, fun d => ⟨rfl, _, rfl, rfl, fun n => ?_⟩, rfl⟩
  · rw [hexec, declared_none h]
    rfl
  · have hdev := hang_device_reset (s := checked s (Vector.ofFn (missedAfter s f))) hq hf
    rw [checked_epoch, checked_hangs, checked_recoveries] at hdev
    rw [hexec, declared_device h]
    exact ⟨_, rfl, hdev⟩
  · have hdom := hang_domain_recov (s := checked s (Vector.ofFn (missedAfter s f))) hq hk ((checked_current ..).trans hc) i
    rw [checked_epoch, checked_hangs, checked_recoveries] at hdom
    rw [hexec, declared_domain h hn hk]
    exact ⟨_, rfl, hdom⟩
  · exact Vector.getElem_ofFn ..

end Sys2Proof.Claims
end

section
/-! ## What the end of a command leaves of the Ethernet ports (R68 to R72, R393)

A queue pair that leaves the ready-to-send state ends the HOST.POST commands that wait on its rings; that touches cores, the
collectives and the fabric, and never a queue pair. -/

namespace Sys2Proof.Machine

/-- Where both sides of a choice have the Ethernet ports of a state, so has the choice. -/
theorem ite_eth {c : Prop} [Decidable c] {s t u : State} (ht : t.eth = u.eth) (hs : s.eth = u.eth) :
    (if c then t else s).eth = u.eth := by
  split
  · exact ht
  · exact hs

/-! ### Messages to other chips (R31, R358) -/

theorem sendOne_eth {s t : State} {q : PortId} (h : s.sendOne q = some t) : t.eth = s.eth := by
  have e := congrArg State.eth (sendOne_sameLinks h).1
  exact e

theorem drainPort_eth (q : PortId) (n : Nat) (s : State) : (State.drainPort q n s).eth = s.eth := by
  induction n generalizing s with
  | zero => rfl
  | succ n ih =>
    unfold State.drainPort
    split
    next t ht => rw [ih, sendOne_eth ht]
    next => rfl

theorem returnCredits_eth (q : PortId) (n : Nat) (s : State) : (State.returnCredits q n s).eth = s.eth := by
  induction n generalizing s with
  | zero => rfl
  | succ n ih =>
    obtain h | ⟨-, e, h⟩ := returnCredits_succ q n s
    · rw [h]
    · rw [h, ih]; rfl

theorem pump_eth (s : State) (q : PortId) : (s.pump q).eth = s.eth := by
  refine (overFin_keeps (P := fun t => t.eth = (State.drainPort q (s.port q).outq.length s).eth) (fun p t ht => ?_) rfl).trans
    (drainPort_eth ..)
  exact (returnCredits_eth p 3 t).trans ht

theorem tell_eth (s : State) (m : Mgmt) (dst : Half) : (s.tell m dst).eth = s.eth := by
  unfold State.tell
  refine ite_eth rfl ?_
  split
  · rfl
  · split
    · rfl
    · exact pump_eth _ _

theorem tellAll_eth (s : State) (m : Mgmt) (dsts : List Half) : (s.tellAll m dsts).eth = s.eth :=
  List.foldlRecOn (motive := fun t : State => t.eth = s.eth) _ _ rfl fun t ht dst _ => (tell_eth t m dst).trans ht

/-! ### Aborts of collectives (R393) -/


theorem groupEntry_eth (s : State) (g : Nat) : (s.groupEntry g).2.eth = s.eth := by
  have h := congrArg State.eth (keepsApart_hbmRead (s.coll.tableOff + 128 * g) 128 s)
  unfold State.groupEntry
  generalize Eng.exec (hbmRead (s.coll.tableOff + 128 * g) 128) s = r at h ⊢
  obtain ⟨r | r, t⟩ := r
  · exact h
  · rw [apply_ite Prod.snd]
    exact ite_eth h h

theorem sendAbort_eth (s : State) (e : GroupEntry) (group seq origin : Nat) (st : Status) :
    (s.sendAbort e group seq origin st).eth = s.eth := by
  unfold State.sendAbort
  exact tellAll_eth _ _ _

theorem failedEntry_eth (s : State) (c : CoreId) (k : QCmd) : (s.failedEntry c k).2.eth = s.eth := by
  unfold State.failedEntry
  split
  · rfl
  · split
    · rfl
    · exact groupEntry_eth s _

theorem abortXh_eth (s : State) (c : CoreId) (k : QCmd) (st : Status) : (s.abortXh c k st).eth = s.eth := by
  unfold State.abortXh
  split
  · rfl
  · refine ite_eth rfl ?_
    have h := failedEntry_eth s c k
    split
    next e t ht => rw [ht] at h; exact (sendAbort_eth ..).trans h
    next t ht => rw [ht] at h; exact (sendAbort_eth ..).trans h

theorem failXh_eth (s : State) (c : CoreId) (k : QCmd) (st : Status) : (s.failXh c k st).eth = s.eth := by
  unfold State.failXh
  refine ite_eth rfl ?_
  dsimp only
  generalize hu : (if st = .collMismatch then
    { s with coll := { s.coll with mismatches := satAdd 16 s.coll.mismatches 1 } } else s) = u
  have hab : (u.abortXh c k st).eth = s.eth := by
    rw [abortXh_eth, ← hu]
    exact ite_eth rfl rfl
  exact ite_eth ((State.modCore_eth ..).trans hab) (ite_eth ((State.poke_eth ..).trans hab) hab)

/-! ### The end of a command, and of those that fail with it (R68, R70) -/

theorem trace_eth (s : State) (on : Proof → Bool) (e : TraceEntry) : (s.trace on e).eth = s.eth :=
  ite_eth (ite_eth rfl rfl) rfl

theorem traceFail_eth (s : State) (c : CoreId) (q : QueueId) (seq : Nat) (st : Status) : (s.traceFail c q seq st).eth = s.eth :=
  ite_eth rfl (trace_eth ..)

theorem trigger_eth (s : State) (src code : Nat) : (s.trigger src code).eth = s.eth := ite_eth rfl rfl

theorem triggerError_eth (s : State) (code : Nat) : (s.triggerError code).eth = s.eth :=
  ite_eth (trigger_eth s 2 code) (trigger_eth s 2 code)

theorem countIntegrity_eth (s : State) (st : Status) : (s.countIntegrity st).eth = s.eth := ite_eth rfl rfl

theorem endRequest_eth (s : State) (st : Status) : (s.endRequest st).eth = s.eth :=
  ite_eth ((triggerError_eth _ _).trans (countIntegrity_eth s st)) (countIntegrity_eth s st)

theorem releaseHeld_eth (s : State) (c : CoreId) : (s.releaseHeld c).eth = s.eth := ite_eth rfl rfl

theorem endOne_eth (s : State) (c : CoreId) (k : QCmd) (st : Status) (skipped : Bool) : (s.endOne c k st skipped).eth = s.eth := by
  have hx := failXh_eth s c k st
  unfold State.endOne
  generalize s.failXh c k st = u at hx ⊢
  have hw : (if k.op = .attn then (u.writeStatus c k.op.queue k.seq st).writeStatus c .hq k.seqHq st
      else u.writeStatus c k.op.queue k.seq st).eth = s.eth := ite_eth hx hx
  dsimp only
  generalize (if k.op = .attn then (u.writeStatus c k.op.queue k.seq st).writeStatus c .hq k.seqHq st
      else u.writeStatus c k.op.queue k.seq st) = v at hw ⊢
  have ht : ∀ f, ((v.modCore c f).traceFail c k.op.queue k.seq st).eth = s.eth := fun f => (traceFail_eth ..).trans hw
  rw [releaseHeld_eth]
  exact ite_eth (ht _) ((endRequest_eth _ st).trans (ht _))

theorem drainDoomed_eth (c : CoreId) (n : Nat) (s : State) : (State.drainDoomed c n s).eth = s.eth := by
  induction n generalizing s with
  | zero => rfl
  | succ n ih =>
    unfold State.drainDoomed
    dsimp only
    split
    · rw [ih, endOne_eth]
    · rfl

theorem reachWait_eth (s : State) (c : CoreId) : (s.reachWait c).eth = s.eth := ite_eth rfl rfl

theorem settle_eth (s : State) (c : CoreId) : (s.settle c).eth = s.eth := by
  unfold State.settle
  refine ite_eth rfl (ite_eth (ite_eth (reachWait_eth s c) rfl) ?_)
  split
  · rfl
  · exact ite_eth (reachWait_eth s c) rfl
  · exact ite_eth rfl rfl
  · exact ite_eth rfl rfl
  · exact ite_eth rfl rfl
  · exact ite_eth rfl rfl

theorem recordFault_eth (s : State) (c : CoreId) (q seq : Nat) (st : Status) : (s.recordFault c q seq st).eth = s.eth := by
  unfold State.recordFault
  dsimp only
  split
  · rfl
  · split
    · rfl
    · exact ite_eth rfl rfl

theorem endCmd_eth (s : State) (c : CoreId) (k : QCmd) (st : Status) : (s.endCmd c k st).eth = s.eth := by
  unfold State.endCmd
  dsimp only
  rw [settle_eth, drainDoomed_eth]
  exact ite_eth (endOne_eth ..) ((recordFault_eth ..).trans (endOne_eth ..))

/-! ### Queue pairs (R436, R440, R457, R459) -/

theorem failPosts_eth (s : State) (r : RingId) (st : Status) : (s.failPosts r st).eth = s.eth := by
  unfold State.failPosts
  refine List.foldlRecOn (motive := fun t : State => t.eth = s.eth) _ _ rfl fun t ht w _ => ?_
  split
  · exact (endCmd_eth ..).trans ht
  · exact ht

theorem qpDown_eth (s : State) (port : Fin 2) (qp : Fin 64) (dst : QpState) :
    (s.qpDown port qp dst).eth = (s.modQp port qp fun x => { x with state := dst }).eth := by
  refine overFin_keeps (P := fun t : State => t.eth = (s.modQp port qp fun x => { x with state := dst }).eth)
    (fun r t ht => ?_) rfl
  exact ite_eth ((failPosts_eth t r .fenced).trans ht) ht

/-- A fold over the indices of a unit comes to what one turn brings about and every other leaves. -/
theorem overFin_reaches {n : Nat} {f : Fin n → State → State} {P : State → Prop} (q : Fin n) (hq : ∀ s, P (f q s))
    (hkeep : ∀ i s, P s → P (f i s)) (s : State) : P (overFin n f s) := by
  obtain ⟨l1, l2, hl⟩ := List.append_of_mem (List.mem_finRange q)
  rw [overFin, hl, List.foldl_append, List.foldl_cons]
  exact List.foldlRecOn _ _ (hq _) fun t ht i _ => hkeep i t ht

theorem qp_setRecov (s : State) (x : Recovery) (p : Fin 2) (q : Fin 64) : ({ s with recov := x } : State).qp p q = s.qp p q := rfl

theorem qp_of_eth {s t : State} (h : t.eth = s.eth) (p : Fin 2) (q : Fin 64) : t.qp p q = s.qp p q := by
  unfold State.qp
  rw [h]

theorem qp_modQp (s : State) (p p' : Fin 2) (q q' : Fin 64) (f : Qp → Qp) :
    (s.modQp p q f).qp p' q' = if p' = p ∧ q' = q then f (s.qp p' q') else s.qp p' q' := by
  by_cases hp : p' = p
  · subst hp
    by_cases hq : q' = q
    · subst hq
      simp [State.modQp, State.modEth, State.setEth, State.qp]
    · simp [State.modQp, State.modEth, State.setEth, State.qp, hq, Fin.val_inj, Ne.symm hq]
  · simp [State.modQp, State.modEth, State.setEth, State.qp, hp, Fin.val_inj, Ne.symm hp]

/-- A queue pair that leaves the ready-to-send state is the only one whose state changes. -/
theorem qpDown_state (s : State) (p p' : Fin 2) (q q' : Fin 64) (dst : QpState) :
    ((s.qpDown p q dst).qp p' q').state = if p' = p ∧ q' = q then dst else (s.qp p' q').state := by
  rw [qp_of_eth (qpDown_eth s p q dst), qp_modQp, apply_ite Qp.state]

/-- Every queue pair of both ports is in the error state after `failQps` (R440). -/
theorem failQps_error (s : State) (p : Fin 2) (q : Fin 64) : (s.failQps.qp p q).state = .error := by
  have hkeep : ∀ p' q' (t : State), (t.qp p q).state = .error → ((t.qpDown p' q' .error).qp p q).state = .error :=
    fun p' q' t h => by rw [qpDown_state, h, ite_self]
  have hset : ∀ t : State, ((t.qpDown p q .error).qp p q).state = .error := fun t => by
    rw [qpDown_state, if_pos ⟨rfl, rfl⟩]
  unfold State.failQps
  refine overFin_reaches (P := fun t : State => (t.qp p q).state = .error) p (fun t => ?_) (fun p' t ht => ?_) s
  · exact overFin_reaches (f := fun q' t => t.qpDown p q' .error) (P := fun t : State => (t.qp p q).state = .error) q hset
      (fun q' => hkeep p q') t
  · exact overFin_keeps (f := fun q' t => t.qpDown p' q' .error) (P := fun t : State => (t.qp p q).state = .error)
      (fun q' => hkeep p' q') ht

/-- A recovery that waits for the next epoch goes on to the reset of its domain (R483). -/
def Recov.epochCome (r : Recov) : Recov := if r.phase = .awaitEpoch then { r with phase := .resetting } else r

theorem adoptEpoch_of_ne {s : State} {e : Half} (h : e ≠ s.recov.epoch) : s.adoptEpoch e = { s.failQps with
    recov := { s.recov with epoch := e, bumpEpoch := false, current := s.recov.current.map Recov.epochCome } } := if_neg h

/-- The next epoch, adopted: a recovery that waited for it resets its domain, and every queue pair is in error (R440, R483). -/
theorem adoptEpoch_next (s : State) :
    (s.adoptEpoch (s.recov.epoch + 1)).recov.epoch = s.recov.epoch + 1 ∧
    (s.adoptEpoch (s.recov.epoch + 1)).recov.current = s.recov.current.map Recov.epochCome ∧
    ∀ p q, ((s.adoptEpoch (s.recov.epoch + 1)).qp p q).state = .error := by
  have hne : s.recov.epoch + 1 ≠ s.recov.epoch := by bv_omega
  rw [adoptEpoch_of_ne hne]
  exact ⟨rfl, rfl, fun p q => (congrArg Qp.state (qp_setRecov s.failQps _ p q)).trans (failQps_error s p q)⟩

end Sys2Proof.Machine
end

section
/-! ## The recovery of a stack (R296, R480, R483) -/

namespace Sys2Proof.Machine

/-! ### What the domain of a stack holds -/

theorem domHolds_stack (s : State) (i : StackId) : s.domHolds .stack i.val .stack = [i.val] := by
  have h : ∀ i : StackId, (List.range 12).filter (fun j => i.val == j) = [i.val] := by decide
  exact h i

theorem domHolds_stack_other (s : State) (i : Nat) {l : DomKind} (h : l ≠ .stack) : s.domHolds .stack i l = [] :=
  List.filter_eq_nil_iff.2 fun _ _ hj => h (beq_iff_eq.1 (Bool.and_eq_true_iff.1 hj).1).symm

theorem domCores_stack (s : State) (i : Nat) : s.domCores .stack i = [] := by
  rw [State.domCores, domHolds_stack_other s i (by decide), List.flatMap_nil]

/-! ### The end of its drain -/

theorem abortParts_nil (s : State) : s.abortParts [] = s :=
  overFin_id fun p => if_neg (by simp)

/-- The recovery in progress asks for the next epoch (R483 step 5). -/
def State.bump (s : State) (r : Recov) : State :=
  { s with recov := { s.recov with bumpEpoch := true, current := some { r with phase := .awaitEpoch } } }

/-- The drain of a stack ends no command, link or job: it records suspects and asks for the next epoch. -/
theorem drainEnd_stack {s : State} {r : Recov} {i : Nat} (hc : s.recov.current = some r) (hk : r.kind = .stack) (hi : r.index = i)
    (hp : r.phase = .draining) : s.drainEnd = ((s.recordSuspects .stack i).bump r).seekEpoch := by
  obtain ⟨kind, index, trigger, phase⟩ := r
  dsimp only at hk hi hp
  subst hk hi hp
  unfold State.drainEnd
  rw [hc]
  dsimp only
  rw [if_neg (by simp), domCores_stack]
  simp only [List.foldl_nil, domHolds_stack_other s index (l := .port) (by decide),
    domHolds_stack_other s index (l := .engine) (by decide), abortParts_nil]
  rfl

/-- With no context on the chip a stack's recovery has no suspects (R486). -/
theorem recordSuspects_stack_none {s : State} (h : s.activeParts = []) (i : Nat) : s.recordSuspects .stack i = s := by
  unfold State.recordSuspects
  dsimp only
  rw [h, domHolds_stack_other s i (by decide)]
  rfl

theorem tryReport_waits {s : State} (h : s.allDone = false) : s.tryReport = s := by
  refine if_pos ?_
  simp [h]

theorem seekEpoch_reports {s : State} (hr : s.tick.run = true) (hl : s.tick.lost = false) : s.seekEpoch = s.tryReport :=
  if_pos (by simp [hr, hl])

theorem seekEpoch_at_once {s : State} (h : s.tick.run = false ∨ s.tick.lost = true) :
    s.seekEpoch = s.adoptEpoch (s.recov.epoch + 1) :=
  if_neg (by obtain h | h := h <;> simp [h])

/-! ### Its reset -/

theorem stackAway_eq (s : State) (i : StackId) :
    s.stackAway i.val = ((s.stack i).fusing || (s.phyOn i.val && !(s.stack i).retrained)) := by
  have h : s.hbmStacks.toList.getD i.val {} = s.stack i := by simp [State.stack]
  rw [State.stackAway, h]

/-- A stack as its domain's reset leaves it, once it has trained (R292, R293, R301). -/
def Stack.trainedReset (x : Stack) : Stack :=
  { x.atReset with laneMap := x.laneMap, degraded := x.degraded, fenced := decide (x.cause = .training),
                   cause := if x.cause = .training then .training else .none, ready := decide (x.cause ≠ .training) }

/-- A stack's contents are undefined, and no symbol errors are stored with them (R296). -/
def State.wiped (s : State) (i : StackId) : State :=
  { s with mem := s.mem.forgetStack hbmEnd i.val none s.free, free := s.free + 1,
           damage := s.damage.filter fun d => (hbmMap d.1).1 != i.val }

theorem resetStack_trained {s : State} {i : StackId} (h : (s.stack i).retrained = true) :
    s.resetStack i = (s.setStack i (s.stack i).trainedReset).wiped i :=
  congrArg (fun y => (s.setStack i y).wiped i) (if_pos h)

/-- The reset of a stack's domain is the stack's, and clears its heartbeat count. -/
theorem resetDomain_stack (s : State) (i : StackId) : ∃ missed,
    s.resetDomain .stack i.val = { s.resetStack i with recov := { (s.resetStack i).recov with missed := missed } } := by
  have hfin : (⟨i.val % 12, Nat.mod_lt _ (by decide)⟩ : StackId) = i := Fin.ext (Nat.mod_eq_of_lt i.isLt)
  refine ⟨(s.resetDomain .stack i.val).recov.missed, ?_⟩
  unfold State.resetDomain
  simp only [domHolds_stack_other s i.val (l := .cluster) (by decide), domHolds_stack,
    domHolds_stack_other _ i.val (l := .engine) (by decide), domHolds_stack_other _ i.val (l := .port) (by decide), List.foldl_nil, List.foldl_cons, hfin]

/-- A record for a ring changes the ring, and the count of lost records where there is no room (R457). -/
theorem post_eq (s : State) (r : RingId) (x : Rec) : ∃ rings lost,
    s.post r x = { s with rings := rings, qcp := { s.qcp with recordsLost := lost } } := by
  unfold State.post
  dsimp only
  split
  · exact ⟨s.rings, s.qcp.recordsLost, rfl⟩
  · split
    · exact ⟨_, _, rfl⟩
    · split
      · exact ⟨_, _, rfl⟩
      · exact ⟨_, s.qcp.recordsLost, rfl⟩

/-- A stack's domain goes on where its phase is another, or the stack is away (R296, R300). -/
theorem domainResetDone_away {s : State} {r : Recov} {i : StackId} (hc : s.recov.current = some r) (hk : r.kind = .stack)
    (hi : r.index = i.val) (h : r.phase ≠ .resetting ∨ s.stackAway i.val = true) : s.domainResetDone = s := by
  unfold State.domainResetDone
  rw [hc]
  refine if_pos ?_
  rw [hk, hi, domHolds_stack, List.any_cons, List.any_nil, Bool.or_false, Bool.or_eq_true, decide_eq_true_iff]
  exact h

/-- Once a stack has trained, its domain's reset ends the recovery with a DEVICE record (R455, R483). -/
theorem domainResetDone_stack {s : State} {r : Recov} {i : StackId} (hc : s.recov.current = some r) (hk : r.kind = .stack)
    (hi : r.index = i.val) (hp : r.phase = .resetting) (haway : s.stackAway i.val = false) (hq : s.qcp.current = none)
    (hw : s.recov.waiting = []) : ∃ rings lost missed, s.domainResetDone = { s.resetStack i with
      recov := { s.recov with current := none, missed := missed }, rings := rings, qcp := { s.qcp with recordsLost := lost } } := by
  obtain ⟨missed, hreset⟩ := resetDomain_stack s i
  have hany : (decide (r.phase ≠ .resetting) || (s.domHolds .stack i.val .stack).any s.stackAway) = false := by
    simp [hp, domHolds_stack, haway]
  unfold State.domainResetDone
  rw [hc]
  dsimp only
  rw [hk, hi, hany, if_neg Bool.false_ne_true, hreset]
  generalize hu : State.deviceRecord _ _ _ _ _ = u
  obtain ⟨rings, lost, hrec⟩ : ∃ rings lost, u = { s.resetStack i with
      recov := { s.recov with current := none, missed := missed }, rings := rings, qcp := { s.qcp with recordsLost := lost } } := by
    rw [← hu]
    exact post_eq _ _ _
  have hcurrent : u.qcp.current = none := by rw [hrec]; exact hq
  have hwaiting : u.recov.waiting = [] := by rw [hrec]; exact hw
  rw [hcurrent]
  dsimp only
  rw [hwaiting]
  exact ⟨rings, lost, missed, hrec⟩

end Sys2Proof.Machine

namespace Sys2Proof.Claims
open Sys2Proof.Machine

/-- The stack of a domain that is back, and what its return leaves of the chip. -/
theorem domainResetDone_back {s t : State} {i : StackId} {rings : Vector Ring 16} {lost : Nat} {missed : Vector Nat 96}
    (ht : (s.stack i).retrained = true) (h : t = { s.resetStack i with
      recov := { s.recov with current := none, missed := missed }, rings := rings, qcp := { s.qcp with recordsLost := lost } }) :
    t.stack i = (s.stack i).trainedReset ∧ (∀ j, j ≠ i → t.stack j = s.stack j) ∧ t.cores = s.cores := by
  rw [resetStack_trained ht] at h
  subst h
  exact ⟨s.stack_setStack i _, fun j hj => s.stack_setStack_ne i j _ hj, rfl⟩

/-- The drain by what its domain holds, the reset by whether the stack is away. -/
theorem recoverySteps : RecoverySteps := by
  intro s i r hc hk hi
  refine ⟨fun hp htick => ?_, fun hp hrun hlost hdone hparts => ?_, fun hp => ?_, fun hw h => ?_,
    fun hp hfuse htrained hwait hq hw => ?_⟩
  · have hseek := seekEpoch_at_once (s := (s.recordSuspects .stack i.val).bump r) htick
    obtain ⟨hepoch, hcurrent, hqps⟩ := adoptEpoch_next ((s.recordSuspects .stack i.val).bump r)
    have hsame : ((s.recordSuspects .stack i.val).bump r).recov.epoch = s.recov.epoch :=
      (State.apart_recov (s.apart_recordSuspects .stack i.val)).1
    rw [hsame] at hseek hepoch hcurrent hqps
    exact ⟨_, congrArg Host.Outcome.next ((drainEnd_stack hc hk hi hp).trans hseek), hepoch, hcurrent, hqps⟩
  · have hdrain := drainEnd_stack hc hk hi hp
    rw [recordSuspects_stack_none hparts, seekEpoch_reports (s := s.bump r) hrun hlost,
      tryReport_waits (s := s.bump r) hdone] at hdrain
    exact congrArg Host.Outcome.next hdrain
  · refine congrArg Host.Outcome.next ?_
    unfold State.drainEnd
    rw [hc]
    exact if_pos hp
  · have haway : r.phase ≠ .resetting ∨ s.stackAway i.val = true := by
      rw [stackAway_eq, Bool.or_eq_true, Bool.and_eq_true, Bool.not_eq_true']
      exact h
    exact congrArg Host.Outcome.next ((congrArg State.nextQcp (domainResetDone_away hc hk hi haway)).trans (nextQcp_of_none hw))
  · have haway : s.stackAway i.val = false := by rw [stackAway_eq, hfuse, htrained]; simp
    obtain ⟨rings, lost, missed, hdone⟩ := domainResetDone_stack hc hk hi hp haway hq hwait
    obtain ⟨hstack, hothers, hcores⟩ := domainResetDone_back htrained hdone
    have hidle : s.domainResetDone.nextQcp = s.domainResetDone := nextQcp_of_none (by rw [hdone]; exact hw)
    refine ⟨s.domainResetDone, congrArg Host.Outcome.next hidle, by rw [hdone], ?_⟩
    rw [hstack]
    refine ⟨fun hcause => ?_, fun hcause => ?_, rfl, rfl, rfl, rfl, rfl, hothers, by rw [hdone], hcores⟩
    · simp [Stack.trainedReset, hcause]
    · simp [Stack.trainedReset, hcause]

/-- Settles O55: a check declares the hangs of the counts that have come to the limit, each answered by the device's reset or by
a recovery that begins; a stack's recovery drains nothing but its own domain, adopts or asks for the next epoch, and ends with
the reset of the one stack. -/
theorem heartbeatsAndRecovery : Obligations.HeartbeatsAndRecovery := ⟨heartbeats, recoverySteps⟩

end Sys2Proof.Claims
end
